-- ==== Sys2Proof/Word.lean ====
section
/-! DEFINITION. The word types of VC-DSP (spec rule R9) and the type of its `real` values (rules R9, R19). -/

namespace Sys2Proof

/-- A byte of the Recording Buffer or of the export stream (rule R70). -/
abbrev Byte := BitVec 8

/-- The 16-bit command word that names one operation (rule R107). -/
abbrev CmdWord := BitVec 16

/-- A sample of the working format: 16 bits, two's complement (rule R9). -/
abbrev S16 := BitVec 16

/-- A hardware sample at the ports IN and OUT: the sample's `HW_WIDTH` bits stand in the low bits of a 32-bit
container (rules R60, R115; the container is the model's, assumption log 17). -/
abbrev HwSample := BitVec 32

/-- A value of type `real` (rules R9, R19): a finite number, or one of the values that "are not a finite number"
and that rules R36, R132, R166, R167 and R236 test for. -/
inductive RealVal where
  /-- A finite number. -/
  | num (q : Rat)
  /-- Positive infinity. -/
  | posInf
  /-- Negative infinity. -/
  | negInf
  /-- Not a number. -/
  | nan
deriving DecidableEq, Repr, Inhabited

end Sys2Proof
end

