-- ==== Sys2Proof/Syntax.lean ====
section
/-! DEFINITION. The enumerations of the spec with their codes (rules R100 to R105, R110), and `Instr`: one
constructor per row of spec/opcode_table.json (rule R108). -/

namespace Sys2Proof

/-- Action Request codes (rule R101). Code 7 is reserved and has no constructor. -/
inductive ReqCode where
  | none | updateConfig | record | play | passthru | downloadWav | stop
deriving DecidableEq, Repr, Inhabited

/-- The 3-bit code of a request (rule R101). -/
def ReqCode.code : ReqCode → BitVec 3
  | .none => 0 | .updateConfig => 1 | .record => 2 | .play => 3 | .passthru => 4 | .downloadWav => 5 | .stop => 6

/-- Responses on the REQ port (rule R102). -/
inductive Response where
  | accepted | rejBusy | rejUnsupported
deriving DecidableEq, Repr, Inhabited

/-- The 2-bit code of a response (rule R102). -/
def Response.code : Response → BitVec 2
  | .accepted => 0 | .rejBusy => 1 | .rejUnsupported => 2

/-- Biquad types (rule R103). -/
inductive BqType where
  | lowpass | highpass | bandpass | notch | peak | lowshelf | highshelf
deriving DecidableEq, Repr, Inhabited

/-- The 3-bit code of a biquad type (rule R103). -/
def BqType.code : BqType → BitVec 3
  | .lowpass => 0 | .highpass => 1 | .bandpass => 2 | .notch => 3 | .peak => 4 | .lowshelf => 5 | .highshelf => 6

/-- The six bands (rules R24, R104). -/
inductive Band where
  | bp | hp | lp | hs | ls | pk
deriving DecidableEq, Repr, Inhabited

/-- The index of a band (rule R104). -/
def Band.index : Band → Nat
  | .bp => 0 | .hp => 1 | .lp => 2 | .hs => 3 | .ls => 4 | .pk => 5

/-- The bands in index order, which is the execution order (rules R24, R170). -/
def Band.all : List Band := [.bp, .hp, .lp, .hs, .ls, .pk]

/-- Derived controller states (rules R42, R105). -/
inductive CtrlState where
  | idle | recording | playing | passthru | exporting
deriving DecidableEq, Repr, Inhabited

/-- The 3-bit code of a controller state (rule R105). -/
def CtrlState.code : CtrlState → BitVec 3
  | .idle => 0 | .recording => 1 | .playing => 2 | .passthru => 3 | .exporting => 4

/-- The Task's phases (rules R41, R105). -/
inductive Phase where
  | wait | init | loop | exit
deriving DecidableEq, Repr, Inhabited

/-- The 2-bit code of a phase (rule R105). -/
def Phase.code : Phase → BitVec 2
  | .wait => 0 | .init => 1 | .loop => 2 | .exit => 3

/-- Answers at the HWI port (rules R60, R105). -/
inductive HwiAnswer where
  | ok | fail | unsupported
deriving DecidableEq, Repr, Inhabited

/-- The 2-bit code of an HWI answer (rules R100, R105). -/
def HwiAnswer.code : HwiAnswer → BitVec 2
  | .ok => 0 | .fail => 1 | .unsupported => 2

/-- Block-transfer results (rule R105). -/
inductive Transfer where
  | ok | capFull | endOfData
deriving DecidableEq, Repr, Inhabited

/-- The 2-bit code of a block-transfer result (rules R100, R105). -/
def Transfer.code : Transfer → BitVec 2
  | .ok => 0 | .capFull => 1 | .endOfData => 2

/-- The four per-band registers (rule R39). -/
inductive BandField where
  | freq | q | gain | order
deriving DecidableEq, Repr, Inhabited

/-- The configuration registers (rules R32 to R39, R110). -/
inductive CfgReg where
  | sampleRate | ctrlEn | toneFreq | toneAmp | decay | clipFactor | pitchRatio | volFactor | micRoute | ampRoute
  | band (b : Band) (f : BandField)
deriving DecidableEq, Repr, Inhabited

/-- The types of the configuration registers (the type column of rule R110). -/
inductive CfgType where
  | u32 | field16 | u16 | u8 | s8 | real
deriving DecidableEq, Repr, Inhabited

/-- The type of a register (rule R110). -/
def CfgReg.type : CfgReg → CfgType
  | .sampleRate => .u32
  | .ctrlEn => .field16
  | .toneFreq => .u32
  | .toneAmp => .u16
  | .decay => .u8
  | .clipFactor => .real
  | .pitchRatio => .real
  | .volFactor => .s8
  | .micRoute => .u8
  | .ampRoute => .u8
  | .band _ .freq => .real
  | .band _ .q => .real
  | .band _ .gain => .real
  | .band _ .order => .u8

/-- The agents that issue operations (rules R17, R108). -/
inductive Issuer where
  | requester | configurator | task | bridge
deriving DecidableEq, Repr, Inhabited

/-- The four button interrupts (rule R375). -/
inductive Button where
  | record | play | pass | stop
deriving DecidableEq, Repr, Inhabited

/-- The operations of VC-DSP, one constructor per row of spec/opcode_table.json (rule R108). The operands are those
of rule R109 that stand in the command word, as the word holds them; the operands that travel beside the word are in
`Machine.State.beside`. -/
inductive Instr where
  /-- Rule R307. -/
  | reqNone
  /-- Rule R304. -/
  | reqUpdateConfig
  /-- Rule R313. -/
  | reqRecord
  /-- Rule R314. -/
  | reqPlay
  /-- Rule R315. -/
  | reqPassthru
  /-- Rule R316. -/
  | reqDownloadWav
  /-- Rule R305. -/
  | reqStop
  /-- Rule R306; `rr` is the register number. -/
  | cfgWrite (rr : BitVec 8)
  /-- Rule R131. -/
  | bqConfigure (band : BitVec 3) (stage : BitVec 4)
  /-- Rule R140. -/
  | bqProcess (band : BitVec 3) (stage : BitVec 4)
  /-- Rule R165. -/
  | buildCascade (band : BitVec 3)
  /-- Rule R160. -/
  | qtabInit
  /-- Rule R170. -/
  | filterBlock
  /-- Rule R175. -/
  | cascadeSwap
  /-- Rule R190. -/
  | rmTableGen
  /-- Rule R195. -/
  | rmBlock
  /-- Rule R210. -/
  | rvBlock
  /-- Rule R216. -/
  | rvClear
  /-- Rule R231. -/
  | volBlock
  /-- Rule R236. -/
  | pitchBlock
  /-- Rule R240. -/
  | clipBlock
  /-- Rule R250. -/
  | applyEffects
  /-- Rule R260. -/
  | normIn
  /-- Rule R262. -/
  | denormOut
  /-- Rule R270. -/
  | recordBlock
  /-- Rule R275. -/
  | readBlock
  /-- Rule R280. -/
  | buildWavHeader
  /-- Rule R308. -/
  | taskWake
  /-- Rule R310. -/
  | taskInit
  /-- Rule R330. -/
  | loopRecord
  /-- Rule R331. -/
  | loopPlay
  /-- Rule R332. -/
  | loopPassthru
  /-- Rule R333. -/
  | loopExport
  /-- Rule R340. -/
  | taskExit
  /-- Rule R320. -/
  | taskRebuild
  /-- Rule R361. -/
  | bridgePoll
deriving DecidableEq, Repr, Inhabited

/-- The mnemonic of an operation as rule R108 prints it; the first word of its textual syntax (rule R118). -/
def Instr.mnemonic : Instr → String
  | .reqNone => "REQ_NONE"
  | .reqUpdateConfig => "REQ_UPDATECONFIG"
  | .reqRecord => "REQ_RECORD"
  | .reqPlay => "REQ_PLAY"
  | .reqPassthru => "REQ_PASSTHRU"
  | .reqDownloadWav => "REQ_DOWNLOADWAV"
  | .reqStop => "REQ_STOP"
  | .cfgWrite _ => "CFG_WRITE"
  | .bqConfigure _ _ => "BQ_CONFIGURE"
  | .bqProcess _ _ => "BQ_PROCESS"
  | .buildCascade _ => "BUILD_CASCADE"
  | .qtabInit => "QTAB_INIT"
  | .filterBlock => "FILTER_BLOCK"
  | .cascadeSwap => "CASCADE_SWAP"
  | .rmTableGen => "RM_TABLE_GEN"
  | .rmBlock => "RM_BLOCK"
  | .rvBlock => "RV_BLOCK"
  | .rvClear => "RV_CLEAR"
  | .volBlock => "VOL_BLOCK"
  | .pitchBlock => "PITCH_BLOCK"
  | .clipBlock => "CLIP_BLOCK"
  | .applyEffects => "APPLY_EFFECTS"
  | .normIn => "NORM_IN"
  | .denormOut => "DENORM_OUT"
  | .recordBlock => "RECORD_BLOCK"
  | .readBlock => "READ_BLOCK"
  | .buildWavHeader => "BUILD_WAV_HEADER"
  | .taskWake => "TASK_WAKE"
  | .taskInit => "TASK_INIT"
  | .loopRecord => "LOOP_RECORD"
  | .loopPlay => "LOOP_PLAY"
  | .loopPassthru => "LOOP_PASSTHRU"
  | .loopExport => "LOOP_EXPORT"
  | .taskExit => "TASK_EXIT"
  | .taskRebuild => "TASK_REBUILD"
  | .bridgePoll => "BRIDGE_POLL"

/-- The agent that performs an operation (the issuer column of rule R108). -/
def Instr.issuer : Instr → Issuer
  | .reqNone | .reqUpdateConfig | .reqRecord | .reqPlay | .reqPassthru | .reqDownloadWav | .reqStop => .requester
  | .cfgWrite _ => .configurator
  | .bqConfigure _ _ | .bqProcess _ _ | .buildCascade _ | .qtabInit | .filterBlock | .cascadeSwap => .task
  | .rmTableGen | .rmBlock | .rvBlock | .rvClear => .task
  | .volBlock | .pitchBlock | .clipBlock | .applyEffects => .task
  | .normIn | .denormOut | .recordBlock | .readBlock | .buildWavHeader => .task
  | .taskWake | .taskInit | .loopRecord | .loopPlay | .loopPassthru | .loopExport | .taskExit | .taskRebuild => .task
  | .bridgePoll => .bridge

/-- The request a requester operation posts (rule R101); no other operation may be presented on REQ (rule R116). -/
def Instr.request? : Instr → Option ReqCode
  | .reqNone => some .none
  | .reqUpdateConfig => some .updateConfig
  | .reqRecord => some .record
  | .reqPlay => some .play
  | .reqPassthru => some .passthru
  | .reqDownloadWav => some .downloadWav
  | .reqStop => some .stop
  | .cfgWrite _ => none
  | .bqConfigure _ _ | .bqProcess _ _ | .buildCascade _ | .qtabInit | .filterBlock | .cascadeSwap => none
  | .rmTableGen | .rmBlock | .rvBlock | .rvClear => none
  | .volBlock | .pitchBlock | .clipBlock | .applyEffects => none
  | .normIn | .denormOut | .recordBlock | .readBlock | .buildWavHeader => none
  | .taskWake | .taskInit | .loopRecord | .loopPlay | .loopPassthru | .loopExport | .taskExit | .taskRebuild => none
  | .bridgePoll => none

/-- A band's printed index (rules R104, R118). -/
def Band.text : Band → String
  | .bp => "0" | .hp => "1" | .lp => "2" | .hs => "3" | .ls => "4" | .pk => "5"

/-- The register names of rule R110, with which rule R118 writes a `CFG_WRITE`. -/
def CfgReg.name : CfgReg → String
  | .sampleRate => "SAMPLE_RATE"
  | .ctrlEn => "CTRL_EN"
  | .toneFreq => "TONE_FREQ"
  | .toneAmp => "TONE_AMP"
  | .decay => "DECAY"
  | .clipFactor => "CLIP_FACTOR"
  | .pitchRatio => "PITCH_RATIO"
  | .volFactor => "VOL_FACTOR"
  | .micRoute => "MIC_ROUTE"
  | .ampRoute => "AMP_ROUTE"
  | .band b .freq => "BAND_FREQ[" ++ b.text ++ "]"
  | .band b .q => "BAND_Q[" ++ b.text ++ "]"
  | .band b .gain => "BAND_GAIN[" ++ b.text ++ "]"
  | .band b .order => "BAND_ORDER[" ++ b.text ++ "]"

end Sys2Proof
end

