-- ==== Sys2Proof/Decode.lean ====
section
/-! DEFINITION. The command word: operand codes (rules R103, R104, R109, R110), the decoder (rules R107, R108, R116)
and the encoder. -/

namespace Sys2Proof

/-- The biquad type of a 3-bit code (rule R103); code 7 is reserved. -/
def bqTypeOfCode (c : BitVec 3) : Option BqType :=
  match c.toNat with
  | 0 => some .lowpass
  | 1 => some .highpass
  | 2 => some .bandpass
  | 3 => some .notch
  | 4 => some .peak
  | 5 => some .lowshelf
  | 6 => some .highshelf
  | _ => none

/-- The band of a 3-bit index (rule R104); 6 and 7 are reserved. -/
def bandOfCode (c : BitVec 3) : Option Band :=
  match c.toNat with
  | 0 => some .bp
  | 1 => some .hp
  | 2 => some .lp
  | 3 => some .hs
  | 4 => some .ls
  | 5 => some .pk
  | _ => none

/-- The stage index of a 4-bit field (rule R109); 10 .. 15 are reserved (rule R116). -/
def stageOfCode (c : BitVec 4) : Option (Fin 10) :=
  if h : c.toNat < 10 then some ⟨c.toNat, h⟩ else none

/-- The per-band register of offset `j` (rule R39). -/
def bandFieldOfOffset (j : Nat) : BandField :=
  match j with
  | 0 => .freq
  | 1 => .q
  | 2 => .gain
  | _ => .order

/-- The register of an 8-bit register number (rule R110); the numbers of rule R40 name none. -/
def cfgRegOfNumber (rr : BitVec 8) : Option CfgReg :=
  match rr.toNat with
  | 0x00 => some .sampleRate
  | 0x01 => some .ctrlEn
  | 0x02 => some .toneFreq
  | 0x03 => some .toneAmp
  | 0x04 => some .decay
  | 0x05 => some .clipFactor
  | 0x06 => some .pitchRatio
  | 0x07 => some .volFactor
  | 0x08 => some .micRoute
  | 0x09 => some .ampRoute
  | n =>
    if 0x10 ≤ n ∧ n < 0x28 then
      (bandOfCode (BitVec.ofNat 3 ((n - 0x10) / 4))).map fun b => .band b (bandFieldOfOffset ((n - 0x10) % 4))
    else none

/-- The offset of a per-band register (rule R39). -/
def bandFieldOffset : BandField → Nat
  | .freq => 0 | .q => 1 | .gain => 2 | .order => 3

/-- The register number of a register (rule R110): `0x10 + 4*b + j` for the per-band registers. -/
def cfgRegNumber : CfgReg → BitVec 8
  | .sampleRate => 0x00
  | .ctrlEn => 0x01
  | .toneFreq => 0x02
  | .toneAmp => 0x03
  | .decay => 0x04
  | .clipFactor => 0x05
  | .pitchRatio => 0x06
  | .volFactor => 0x07
  | .micRoute => 0x08
  | .ampRoute => 0x09
  | .band b f => BitVec.ofNat 8 (0x10 + 4 * b.index + bandFieldOffset f)

/-- Why a command word is reserved: one name per line of rule R116. -/
inductive DecodeError where
  /-- Group 0x0 with request code 7, non-zero `ARG` bits 7:3 or a non-zero `OP`. -/
  | reservedRequest
  /-- Group 0x1 with a non-zero `OP`. -/
  | reservedConfigOp
  /-- A register number that names no register. -/
  | reservedRegister
  /-- Band index 6 or 7. -/
  | reservedBand
  /-- Stage index 10 .. 15. -/
  | reservedStage
  /-- A word of groups 0x2 .. 0x8 that no row of rule R108 matches. -/
  | reservedOperation
  /-- Groups 0x9 .. 0xF. -/
  | reservedGroup
deriving DecidableEq, Repr

/-- `GRP`, bits 15:12 (rule R107). -/
def wordGrp (w : CmdWord) : BitVec 4 := w.extractLsb' 12 4

/-- `OP`, bits 11:8 (rule R107). -/
def wordOp (w : CmdWord) : BitVec 4 := w.extractLsb' 8 4

/-- `ARG`, bits 7:0 (rule R107). -/
def wordArg (w : CmdWord) : BitVec 8 := w.extractLsb' 0 8

/-- The rows of rule R108 whose word has no operand field. -/
def fixedRows : List (CmdWord × Instr) :=
  [(0x0000, .reqNone), (0x0001, .reqUpdateConfig), (0x0002, .reqRecord), (0x0003, .reqPlay),
   (0x0004, .reqPassthru), (0x0005, .reqDownloadWav), (0x0006, .reqStop)] ++
  [(0x2300, .qtabInit), (0x2400, .filterBlock), (0x2500, .cascadeSwap),
   (0x3000, .rmTableGen), (0x3100, .rmBlock), (0x4000, .rvBlock), (0x4100, .rvClear)] ++
  [(0x5000, .volBlock), (0x5100, .pitchBlock), (0x5200, .clipBlock), (0x5300, .applyEffects)] ++
  [(0x6000, .normIn), (0x6100, .denormOut), (0x6200, .recordBlock), (0x6300, .readBlock), (0x6400, .buildWavHeader)] ++
  [(0x7000, .taskWake), (0x7100, .taskInit), (0x7200, .loopRecord), (0x7300, .loopPlay), (0x7400, .loopPassthru),
   (0x7500, .loopExport), (0x7600, .taskExit), (0x7700, .taskRebuild), (0x8000, .bridgePoll)]

/-- The row whose word is `w`, if any. -/
def lookupRow (w : CmdWord) : List (CmdWord × Instr) → Option Instr
  | [] => none
  | (m, i) :: rest => if w = m then some i else lookupRow w rest

/-- A word with a band and a stage field (rule R109): `ARG` bit 7 zero, band bits 6:4, stage bits 3:0. -/
def decodeStageWord (make : BitVec 3 → BitVec 4 → Instr) (w : CmdWord) : Except DecodeError Instr :=
  if w.getLsbD 7 then .error .reservedOperation
  else if (bandOfCode (w.extractLsb' 4 3)).isNone then .error .reservedBand
  else if (stageOfCode (w.extractLsb' 0 4)).isNone then .error .reservedStage
  else .ok (make (w.extractLsb' 4 3) (w.extractLsb' 0 4))

/-- The rows of rule R108 with an operand field, and the reserved words by name (rule R116). -/
def decodeFields (w : CmdWord) : Except DecodeError Instr :=
  if wordGrp w = 0 then .error .reservedRequest
  else if wordGrp w = 1 then
    if wordOp w ≠ 0 then .error .reservedConfigOp
    else if (cfgRegOfNumber (wordArg w)).isNone then .error .reservedRegister
    else .ok (.cfgWrite (wordArg w))
  else if wordGrp w = 2 ∧ wordOp w = 0 then decodeStageWord .bqConfigure w
  else if wordGrp w = 2 ∧ wordOp w = 1 then decodeStageWord .bqProcess w
  else if wordGrp w = 2 ∧ wordOp w = 2 then
    if w.extractLsb' 3 5 ≠ 0 then .error .reservedOperation
    else if (bandOfCode (w.extractLsb' 0 3)).isNone then .error .reservedBand
    else .ok (.buildCascade (w.extractLsb' 0 3))
  else if wordGrp w ≥ 9 then .error .reservedGroup
  else .error .reservedOperation

/-- The decoder of the one 16-bit format (rules R107, R108, R117): total, every reserved word refused by name. -/
def decode (w : CmdWord) : Except DecodeError Instr :=
  match lookupRow w fixedRows with
  | some i => .ok i
  | none => decodeFields w

/-- The command word `GRP * 4096 + OP * 256 + ARG` (rule R108). -/
def commandWord (grp op : BitVec 4) (arg : BitVec 8) : CmdWord := grp ++ op ++ arg

/-- `ARG` of a stage operation: 0, band, stage (rules R131, R140). -/
def stageArg (band : BitVec 3) (stage : BitVec 4) : BitVec 8 := (0 : BitVec 1) ++ band ++ stage

/-- The command word of an operation (rule R108). -/
def encode : Instr → CmdWord
  | .reqNone => commandWord 0x0 0x0 0x00
  | .reqUpdateConfig => commandWord 0x0 0x0 0x01
  | .reqRecord => commandWord 0x0 0x0 0x02
  | .reqPlay => commandWord 0x0 0x0 0x03
  | .reqPassthru => commandWord 0x0 0x0 0x04
  | .reqDownloadWav => commandWord 0x0 0x0 0x05
  | .reqStop => commandWord 0x0 0x0 0x06
  | .cfgWrite rr => commandWord 0x1 0x0 rr
  | .bqConfigure band stage => commandWord 0x2 0x0 (stageArg band stage)
  | .bqProcess band stage => commandWord 0x2 0x1 (stageArg band stage)
  | .buildCascade band => commandWord 0x2 0x2 (band.setWidth 8)
  | .qtabInit => commandWord 0x2 0x3 0
  | .filterBlock => commandWord 0x2 0x4 0
  | .cascadeSwap => commandWord 0x2 0x5 0
  | .rmTableGen => commandWord 0x3 0x0 0
  | .rmBlock => commandWord 0x3 0x1 0
  | .rvBlock => commandWord 0x4 0x0 0
  | .rvClear => commandWord 0x4 0x1 0
  | .volBlock => commandWord 0x5 0x0 0
  | .pitchBlock => commandWord 0x5 0x1 0
  | .clipBlock => commandWord 0x5 0x2 0
  | .applyEffects => commandWord 0x5 0x3 0
  | .normIn => commandWord 0x6 0x0 0
  | .denormOut => commandWord 0x6 0x1 0
  | .recordBlock => commandWord 0x6 0x2 0
  | .readBlock => commandWord 0x6 0x3 0
  | .buildWavHeader => commandWord 0x6 0x4 0
  | .taskWake => commandWord 0x7 0x0 0
  | .taskInit => commandWord 0x7 0x1 0
  | .loopRecord => commandWord 0x7 0x2 0
  | .loopPlay => commandWord 0x7 0x3 0
  | .loopPassthru => commandWord 0x7 0x4 0
  | .loopExport => commandWord 0x7 0x5 0
  | .taskExit => commandWord 0x7 0x6 0
  | .taskRebuild => commandWord 0x7 0x7 0
  | .bridgePoll => commandWord 0x8 0x0 0

/-- The instruction the decoder reads from a table word. The format has 16 bits (rule R107), so a value of `w` that
does not fit 16 bits is no command word. -/
def decodeTableWord (nbits w : Nat) : Option Instr :=
  if nbits ≤ 16 ∧ w < 65536 then (decode (BitVec.ofNat 16 w)).toOption else none

/-- The request a word presented on REQ stands for, if it is one (rules R101, R116). -/
def requestOfWord (w : CmdWord) : Option Instr :=
  match decode w with
  | .ok i => if i.request?.isSome then some i else none
  | .error _ => none

/-- The configuration write a word presented on CFGP stands for, if it is one (rules R110, R116). -/
def configOfWord (w : CmdWord) : Option Instr :=
  match decode w with
  | .ok i => if i.issuer = .configurator then some i else none
  | .error _ => none

end Sys2Proof
end

