-- ==== Sys2Proof/Config.lean ====
section
/-! DEFINITION. What an implementation of VC-DSP fixes (rule R8) and the free values: the types of the OPEN
parameters, the parameters with a value, and one constant WITHOUT A BODY for each OPEN parameter and each kind of
free environment answer. -/

namespace Sys2Proof

/-- The five coefficients of a biquad stage (rule R21). -/
structure Coefs where
  a0 : RealVal
  a1 : RealVal
  a2 : RealVal
  b1 : RealVal
  b2 : RealVal
deriving DecidableEq, Repr, Inhabited

/-- The four arithmetic operations of `real` values. -/
inductive ArithOp where
  | add | sub | mul | div
deriving DecidableEq, Repr, Inhabited

/-- `FLOAT_FMT` (rules R8, R19, entry U1): which numbers are values of the format, how it rounds an exact result, what
an operation gives where an operand is not finite or a divisor is zero (no rule says), the format's constant pi and its
elementary functions of a value of the format. -/
structure FloatFmt where
  /-- The finite values of the format: "a `real` is a value of that format" (rule R9). -/
  holds : Rat → Bool
  /-- "each operation rounds as the format says" (rule R9): the value a finite exact result becomes. -/
  round : Rat → RealVal
  /-- The value an unsigned integer register (SAMPLE_RATE, TONE_AMP) becomes where it enters real arithmetic: no rule
  states this conversion (assumption log 31). -/
  ofNat : Nat → Rat
  /-- An operation with an operand that is not finite, or a division by zero. -/
  special : ArithOp → RealVal → RealVal → RealVal
  /-- The finite value that an exact result of the equations of rules R135 to R149, R161 and R190 becomes where `round`
  gives none: no NaN or infinity arises there (rule R152, entry U1). -/
  finiteRound : Rat → Rat
  /-- The same for an operation of those equations that would be `special`. -/
  finiteSpecial : ArithOp → RealVal → RealVal → Rat
  /-- The constant pi. -/
  pi : Rat
  /-- The sine. -/
  sin : Rat → Rat
  /-- The cosine. -/
  cos : Rat → Rat
  /-- The tangent. -/
  tan : Rat → Rat
  /-- `10 ^ e`. -/
  pow10 : Rat → Rat
  /-- The square root. -/
  sqrt : Rat → Rat
  /-- `f2s` of a value that is not finite (rule R12 defines `f2s` on finite values only). -/
  f2sSpecial : RealVal → S16
deriving Inhabited

/-- Five coefficients as numbers: what a `DESIGN` gives on its domain (rules R131, R134). -/
structure FiniteCoefs where
  a0 : Rat
  a1 : Rat
  a2 : Rat
  b1 : Rat
  b2 : Rat
deriving DecidableEq, Repr, Inhabited

/-- The type of `DESIGN` (rules R8, R134): on its domain the three real arguments are finite. -/
abbrev DesignFn := BqType → Rat → Rat → Rat → Coefs

/-- `HW_WIDTH` (rule R8): one of 16, 24, 32. -/
inductive HwWidth where
  | w16 | w24 | w32
deriving DecidableEq, Repr, Inhabited

/-- The width in bits (rule R8). -/
def HwWidth.bits : HwWidth → Nat
  | .w16 => 16 | .w24 => 24 | .w32 => 32

/-- Which `FLOAT_FMT`: exact rational arithmetic with the model's values of the elementary functions
(assumption log 3), or any other format (assumption log 2). -/
inductive FloatChoice where
  | reals | other
deriving DecidableEq, Repr, Inhabited

/-- Which `DESIGN`: the reference instance of rules R135 and R143 to R150, or any other function
(assumption log 4). -/
inductive DesignChoice where
  | reference | other
deriving DecidableEq, Repr, Inhabited

/-- The implementation parameters of rule R8 as plain data. `bufRoom` joins `BUF_PRESENT` and `BUF_CAP`: `none` is
an absent buffer, `some r` a buffer of `44 + r` bytes (assumption log 8). -/
structure HwParams where
  blockLen : ℕ+
  rmTableMax : ℕ+
  bufRoom : Option (BitVec 32)
  hwWidth : HwWidth
  transportMax : ℕ+
  floatFmt : FloatChoice
  design : DesignChoice
  reverbLen : ℕ+
  monitorRec : Bool
deriving DecidableEq, Repr, Inhabited

/-- `N_BANDS` (rule R8). -/
def nBands : Nat := 6

/-- `MAX_STAGES` (rule R8): the storage bound of a cascade. -/
def maxStages : Nat := 10

/-- `MAX_ORDER` (rule R8): the largest order the Q table serves. -/
def maxOrder : Nat := 8

/-- `QTAB_LEN` (rule R8). -/
def qtabLen : Nat := 36

/-- `CLIP_K` (rule R8): 0.28 exactly. -/
def clipK : Rat := 28 / 100

/-- `CLIP_MAX` (rule R8): 2.67. -/
def clipMax : Rat := 267 / 100

/-- An answer of the environment at IN (rule R60): a block of hardware samples, or a time-out. -/
inductive InAnswer where
  | timeout
  | block (h : List HwSample)
deriving DecidableEq, Repr, Inhabited

/-- An answer of the environment at OUT (rule R60). -/
inductive OutAnswer where
  | ok | timeout
deriving DecidableEq, Repr, Inhabited

/-- `BLOCK_LEN`, OPEN (rule R8). -/
opaque Config.blockLen : ℕ+

/-- `RM_TABLE_MAX`, OPEN (rule R8). -/
opaque Config.rmTableMax : ℕ+

/-- `BUF_PRESENT` and `BUF_CAP`, OPEN (rule R8), as `HwParams.bufRoom`. -/
opaque Config.bufRoom : Option (BitVec 32)

/-- `HW_WIDTH`, OPEN (rule R8). -/
opaque Config.hwWidth : HwWidth

/-- `TRANSPORT_MAX`, OPEN (rule R8). -/
opaque Config.transportMax : ℕ+

/-- Which `FLOAT_FMT` this hardware has, OPEN (rule R8). -/
opaque Config.floatChoice : FloatChoice

/-- Which `DESIGN` this hardware has, OPEN (rule R8). -/
opaque Config.designChoice : DesignChoice

/-- A `FLOAT_FMT` other than the reals, OPEN (rule R8, entry U1). -/
opaque Config.floatFmt : FloatFmt

/-- A `DESIGN` other than the reference instance, OPEN (rule R8, entry U2). -/
opaque Config.design : BqType → Rat → Rat → Rat → FiniteCoefs

/-- What an entry of QTAB that `QTAB_INIT` has not written holds (rule R62; entry U6: any value), by its index. -/
opaque Config.freeQtab : Nat → RealVal

/-- The environment's answer at IN where State holds none (entry U8), by the number of the draw at that port. -/
opaque Config.freeIn : Nat → InAnswer

/-- The environment's answer at OUT where State holds none (entry U8). -/
opaque Config.freeOut : Nat → OutAnswer

/-- The environment's answer at HWI where State holds none (entry U8). -/
opaque Config.freeHwi : Nat → HwiAnswer

/-- The environment's answer to `TX.attached()` where State holds none (entry U8). -/
opaque Config.freeAttached : Nat → Bool

/-- The environment's answer to `TX.readyToSend()` where State holds none (entry U8). -/
opaque Config.freeReady : Nat → Bool

/-- The block the external pitch-shift transform returns where State holds none (entry U4). -/
opaque Config.freePitch : Nat → List S16

end Sys2Proof
end

