-- ==== Sys2Proof/Machine/Arith.lean ====
section
/-! DEFINITION. The arithmetic primitives of rule R12 and the operations of `real` values under `FLOAT_FMT`
(rules R9, R19). -/

namespace Sys2Proof.Machine

open Sys2Proof

/-- `trunc`: the integer part, rounding toward zero (rule R12). -/
def trunc (v : Rat) : Int := Int.tdiv v.num v.den

/-- The range clamp inside `sat16` (rule R12), as an integer. -/
def clamp16 (n : Int) : Int := if n < -32768 then -32768 else if n > 32767 then 32767 else n

/-- `sat16` (rule R12). -/
def sat16 (n : Int) : S16 := BitVec.ofInt 16 (clamp16 n)

/-- `tdiv`: the quotient rounded toward zero (rule R12). -/
def tdiv (a b : Int) : Int := Int.tdiv a b

/-- `s2f`: the same number, exactly (rule R12). -/
def s2f (s : S16) : RealVal := .num (s.toInt : Rat)

/-- `f2s` (rule R12): truncate toward zero, then saturate. A value that is not finite has no rule: the format's own
`f2sSpecial` (assumption log 5). -/
def f2s (f : FloatFmt) (v : RealVal) : S16 :=
  match v with
  | .num q => sat16 (trunc q)
  | .posInf | .negInf | .nan => f.f2sSpecial v

/-- `T(n)`, the n-th triangular number (rule R12). -/
def triangular (n : Nat) : Nat := n * (n + 1) / 2

/-- `le16` (rule R12). -/
def le16 (v : BitVec 16) : List Byte := [v.extractLsb' 0 8, v.extractLsb' 8 8]

/-- `le32` (rule R12). -/
def le32 (v : BitVec 32) : List Byte :=
  [v.extractLsb' 0 8, v.extractLsb' 8 8, v.extractLsb' 16 8, v.extractLsb' 24 8]

/-- `ascii`: one byte per character, in order (rule R12). -/
def ascii (cs : List Char) : List Byte := cs.map fun c => BitVec.ofNat 8 c.toNat

/-- `floor(n / 2^s)`: an arithmetic shift right (rules R18, R260). -/
def floorShift (n : Int) (s : Nat) : Int := Int.fdiv n (2 ^ s)

/-- The finite value of a `real`, if it is a finite number (rules R132, R166). -/
def realFinite? (v : RealVal) : Option Rat :=
  match v with
  | .num q => some q
  | .posInf | .negInf | .nan => none

/-- `v > bound` for a finite bound; a value that is not a number is not above it. -/
def realAbove (v : RealVal) (bound : Rat) : Bool :=
  match v with
  | .num q => decide (bound < q)
  | .posInf => true
  | .negInf | .nan => false

/-! ## The values of a format -/

/-- The numbers every `FLOAT_FMT` holds: the s16 integers, because `s2f` is exact (rule R12), with 32768 (rule R240),
and 0.5, to which rule R166 clamps "exactly" (DEDUCED, assumption log 2). -/
def alwaysHeld (q : Rat) : Bool := decide ((q.den = 1 ∧ q.num.natAbs ≤ 32768) ∨ q = 1 / 2)

/-- A value made a value of a format with the given finite values (rule R9): a finite number it does not hold is not a
number. -/
def onlyHeld (holds : Rat → Bool) (v : RealVal) : RealVal :=
  match v with
  | .num q => if holds q then .num q else .nan
  | .posInf | .negInf | .nan => v

/-- `r` can be a rounding of `q`: no number that every format holds lies between them (entry U1: "values within that
format's rounding"; rounding is monotone). -/
def faithfulAt (q r : Rat) : Bool :=
  if 32768 < q then decide (32768 ≤ r)
  else if q < -32768 then decide (r ≤ -32768)
  else if 0 < q ∧ q < 1 / 2 then decide (0 ≤ r ∧ r ≤ 1 / 2)
  else if 1 / 2 ≤ q ∧ q < 1 then decide (1 / 2 ≤ r ∧ r ≤ 1)
  else decide ((q.floor : Rat) ≤ r ∧ r ≤ ((-(-q).floor : Int) : Rat))

/-- The number every format holds that lies next to `q` on the side of zero. -/
def nextHeld (q : Rat) : Rat :=
  if 32768 < q then 32768
  else if q < -32768 then -32768
  else if 1 / 2 ≤ q ∧ q < 1 then 1 / 2
  else trunc q

/-- A candidate where it is a value of the format that satisfies `ok`, else a value that every format holds. -/
def heldOr (holds : Rat → Bool) (ok : Rat → Bool) (fallback r : Rat) : Rat := if holds r && ok r then r else fallback

/-- The rounding of a format with the given finite values: a value is left as it is; another number becomes a value it
can be rounded to, or beyond the range of the s16 integers the infinity of its sign (rule R141 (b)). -/
def formatRound (holds : Rat → Bool) (round : Rat → RealVal) (q : Rat) : RealVal :=
  if holds q then .num q
  else
    match round q with
    | .num r => .num (heldOr holds (faithfulAt q) (nextHeld q) r)
    | .posInf | .negInf | .nan =>
      if 32768 < q then .posInf
      else if q < -32768 then .negInf
      else .num (nextHeld q)

/-- A raw format made one that the rules admit (assumption log 2): every `real` is a value of the format (rule R9),
rounding is faithful, and the elementary functions give finite values in the range that the rules state: a sine is at
most 1 in magnitude (rule R190); a cosine (rule R161), of an angle between nothing and a quarter turn, is positive and at
most 1; a tangent (rule R135), of such an angle, is positive and not below the angle; a power of ten and a square root
(rule R135), of numbers of at least 0 and of at least 1, are at least 1. The one operation of those equations that can be
special is the division of QVAL (rule R161) by a doubled cosine that the format rounds to 0; its value over the reals is
above 1/2. A format that has all this already is left as
it is. -/
def sealFmt (f : FloatFmt) : FloatFmt :=
  let holds := fun q => alwaysHeld q || f.holds q
  { holds := holds
    round := formatRound holds f.round
    ofNat := fun n => if holds n then n else heldOr holds (faithfulAt n) (nextHeld n) (f.ofNat n)
    special := fun op a b => onlyHeld holds (f.special op a b)
    finiteRound := fun q => heldOr holds (faithfulAt q) (nextHeld q) (f.finiteRound q)
    finiteSpecial := fun op a b => heldOr holds (fun r => decide (1 / 2 ≤ r)) (1 / 2) (f.finiteSpecial op a b)
    pi := heldOr holds (faithfulAt (22 / 7)) 3 f.pi
    sin := fun x => heldOr holds (fun r => decide (-1 ≤ r ∧ r ≤ 1)) 0 (f.sin x)
    cos := fun x => heldOr holds (fun r => decide (0 < r ∧ r ≤ 1)) 1 (f.cos x)
    tan := fun x => heldOr holds (fun r => decide (0 < r ∧ x ≤ r)) 1 (f.tan x)
    pow10 := fun e => heldOr holds (fun r => decide (1 ≤ r)) 1 (f.pow10 e)
    sqrt := fun x => heldOr holds (fun r => decide (1 ≤ r)) 1 (f.sqrt x)
    f2sSpecial := f.f2sSpecial }

/-- A format as the equations of rules R135 to R149, R161 and R190 use it: "no operand ... can be a NaN or infinity"
(rule R152, entry U1). Where the format rounds to a finite value, that is the value. -/
def finiteFmt (f : FloatFmt) : FloatFmt :=
  { f with
    round := fun q =>
      match f.round q with
      | .num r => .num r
      | .posInf | .negInf | .nan => .num (f.finiteRound q)
    special := fun op a b => .num (f.finiteSpecial op a b) }

/-- An elementary function of a `real`; under `finiteFmt` every argument is a number. -/
def onNum (g : Rat → Rat) (v : RealVal) : RealVal :=
  match v with
  | .num q => .num (g q)
  | .posInf | .negInf | .nan => v

/-- A `real` presented to the block is a value of the format (rules R9, R112): a finite number is the format's value
for it. A value of the format is left as it is. -/
def fmtReal (f : FloatFmt) (v : RealVal) : RealVal :=
  match v with
  | .num q => f.round q
  | .posInf | .negInf | .nan => v

/-- Five coefficients as finite values of the format (rules R9, R21; entry U1). -/
def fmtCoefs (f : FloatFmt) (c : FiniteCoefs) : Coefs :=
  let r := (finiteFmt f).round
  ⟨r c.a0, r c.a1, r c.a2, r c.b1, r c.b2⟩

/-- "A `real` is a value of that format" (rule R9). -/
def isFmtValue (f : FloatFmt) (v : RealVal) : Bool :=
  match v with
  | .num q => f.holds q
  | .posInf | .negInf | .nan => true

/-! ## Arithmetic -/

/-- The sum of two `real` values under the format (rules R9, R19). -/
def fAdd (f : FloatFmt) (a b : RealVal) : RealVal :=
  match a, b with
  | .num x, .num y => f.round (x + y)
  | _, _ => f.special .add a b

/-- The difference of two `real` values under the format. -/
def fSub (f : FloatFmt) (a b : RealVal) : RealVal :=
  match a, b with
  | .num x, .num y => f.round (x - y)
  | _, _ => f.special .sub a b

/-- The product of two `real` values under the format. -/
def fMul (f : FloatFmt) (a b : RealVal) : RealVal :=
  match a, b with
  | .num x, .num y => f.round (x * y)
  | _, _ => f.special .mul a b

/-- The quotient of two `real` values under the format. -/
def fDiv (f : FloatFmt) (a b : RealVal) : RealVal :=
  match a, b with
  | .num x, .num y => if y = 0 then f.special .div a b else f.round (x / y)
  | _, _ => f.special .div a b

/-! ## The elementary functions, each operation of the printed expression rounded (rules R9, R19) -/

/-- `sin(2 * pi * k / L)` (rule R190). -/
def sinTurn (f : FloatFmt) (k len : Nat) : RealVal :=
  let f := finiteFmt f
  onNum f.sin (fDiv f (fMul f (fMul f (.num 2) (.num f.pi)) (.num (f.ofNat k))) (.num (f.ofNat len)))

/-- `cos((2*i + 1) * pi / (4*c))` (rule R161); the integer factors are exact. -/
def cosPole (f : FloatFmt) (c i : Nat) : RealVal :=
  let f := finiteFmt f
  onNum f.cos (fDiv f (fMul f (.num (f.ofNat (2 * i + 1))) (.num f.pi)) (.num (f.ofNat (4 * c))))

/-- `K = tan(pi * Fc)` (rule R135). -/
def tanPi (f : FloatFmt) (fc : Rat) : RealVal :=
  let f := finiteFmt f
  onNum f.tan (fMul f (.num f.pi) (.num fc))

/-- `V = 10 ^ (|G| / 20)` (rule R135). -/
def decibel (f : FloatFmt) (g : Rat) : RealVal :=
  let f := finiteFmt f
  onNum f.pow10 (fDiv f (.num |g|) (.num 20))

/-- A square root (rule R135). -/
def fSqrt (f : FloatFmt) (v : RealVal) : RealVal := onNum f.sqrt v

end Sys2Proof.Machine
end

