-- ==== Sys2Proof/Machine/RefDesign.lean ====
section
/-! DEFINITION. The reference instance of `DESIGN` (rules R135, R143 to R150) over any format, and the format
`realsFmt`: exact rational arithmetic, with values of the elementary functions computed to `fixBits` binary places
(UNVERIFIED, assumption log 3). -/

namespace Sys2Proof.Machine

open Sys2Proof

/-! ## Elementary functions in fixed point -/

/-- The binary places of the fixed-point values below. -/
def fixBits : Nat := 192

/-- One in fixed point. -/
def fixOne : Int := 2 ^ fixBits

/-- The product of two fixed-point values, rounded down. -/
def fixMul (a b : Int) : Int := a * b / fixOne

/-- A rational in fixed point, rounded down. -/
def fixOfRat (q : Rat) : Int := q.num * fixOne / q.den

/-- A fixed-point value as a rational. -/
def ratOfFix (a : Int) : Rat := mkRat a (2 ^ fixBits)

/-- pi to 70 decimal places. -/
def piRat : Rat :=
  mkRat 31415926535897932384626433832795028841971693993751058209749445923078164 (10 ^ 70)

/-- The natural logarithm of 10 to 70 decimal places. -/
def ln10Rat : Rat :=
  mkRat 23025850929940456840179914546843642076011014886287729760333279009675726 (10 ^ 70)

/-- `n` further terms of the sine series after the term `t` of index `k`: the next term is
`-t * x^2 / ((2k+2) * (2k+3))`. -/
def sinTerms (x2 : Int) : Nat → Nat → Int → Int
  | 0, _, _ => 0
  | n + 1, k, t => t + sinTerms x2 n (k + 1) (-(fixMul t x2) / ((2 * k + 2) * (2 * k + 3)))

/-- `sin x` for `0 <= x <= pi/2` in fixed point. -/
def fixSin (x : Int) : Int := sinTerms (fixMul x x) 32 0 x

/-- `n` terms of the exponential series from the term `t` of index `k`. -/
def expTerms (x : Int) : Nat → Nat → Int → Int
  | 0, _, _ => 0
  | n + 1, k, t => t + expTerms x n (k + 1) (fixMul t x / (k + 1))

/-- `sin x` for `0 <= x <= pi/2`: the fixed-point value, or the lower bound `x - x^3/6` of the sine where that is the
closer one. So a small argument, of which fixed point keeps few places or none, has a positive and accurate sine. -/
def sinSmallSafe (x : Rat) : Rat := max (x - x ^ 3 / 6) (ratOfFix (fixSin (fixOfRat x)))

/-- `sin(2 pi t)` for `0 <= t <= 1/4`. Exact where the sine of a rational part of a turn is rational. -/
def sinQuarter (t : Rat) : Rat :=
  if t = 0 then 0
  else if t = 1 / 12 then 1 / 2
  else if t = 1 / 4 then 1
  else min 1 (sinSmallSafe (2 * piRat * t))

/-- `sin(2 pi t)` by symmetry from the first quarter. -/
def ratSinTwoPi (t : Rat) : Rat :=
  let r := t - (t.floor : Rat)
  if r ≤ 1 / 4 then sinQuarter r
  else if r ≤ 1 / 2 then sinQuarter (1 / 2 - r)
  else if r ≤ 3 / 4 then -sinQuarter (r - 1 / 2)
  else -sinQuarter (1 - r)

/-- `cos(pi t)`, a quarter turn ahead of the sine. -/
def ratCosPi (t : Rat) : Rat := ratSinTwoPi (1 / 4 + t / 2)

/-- `tan(pi t)`. -/
def ratTanPi (t : Rat) : Rat := ratSinTwoPi (t / 2) / ratCosPi t

/-- Newton's iteration for the integer square root of `n`, from above. -/
def sqrtIter (n : Nat) : Nat → Nat → Nat
  | 0, x => x
  | k + 1, x => let y := (x + n / x) / 2
    if y < x then sqrtIter n k y else x

/-- The integer square root of `n` (rounded down). -/
def natSqrt (n : Nat) : Nat := if n = 0 then 0 else sqrtIter n (2 * Nat.log2 n + 8) (2 ^ (Nat.log2 n / 2 + 1))

/-- The square root of a non-negative rational to `fixBits` places; exact where numerator and denominator are
squares. -/
def ratSqrt (q : Rat) : Rat :=
  let a := natSqrt q.num.toNat
  let b := natSqrt q.den
  if a * a = q.num.toNat ∧ b * b = q.den then mkRat a b
  else mkRat (natSqrt (q.num.toNat * 2 ^ (2 * fixBits) / q.den)) (2 ^ fixBits)

/-- `10 ^ e`: the whole power of ten exactly, the rest by the exponential series. -/
def ratPow10 (e : Rat) : Rat :=
  let n := e.floor
  let x := fixOfRat ((e - (n : Rat)) * ln10Rat)
  let frac := if e = (n : Rat) then 1 else ratOfFix (expTerms x 80 0 fixOne)
  if n < 0 then frac / (10 ^ n.natAbs : Nat) else frac * (10 ^ n.natAbs : Nat)

/-- The reals (rule R19): no rounding. Every angle of the rules is a rational multiple of pi, and over the reals it is held
as that multiple: pi itself is 1, and the circular functions are those of pi times their argument. Over the reals no
value is other than finite and no divisor is zero (rules R18,
R152); what an operation gives on such a value all the same is free (assumption log 5). -/
def realsFmt : FloatFmt where
  holds _ := true
  round q := .num q
  ofNat n := n
  special := Config.floatFmt.special
  finiteRound q := q
  finiteSpecial := Config.floatFmt.finiteSpecial
  pi := 1
  sin x := ratSinTwoPi (x / 2)
  cos := ratCosPi
  tan := ratTanPi
  pow10 := ratPow10
  sqrt := ratSqrt
  f2sSpecial := Config.floatFmt.f2sSpecial

/-- The `FLOAT_FMT` of a choice (rule R8). -/
def fmtOf (c : FloatChoice) : FloatFmt :=
  match c with
  | .reals => realsFmt
  | .other => sealFmt Config.floatFmt

/-! ## The reference design -/

/-- The values from which the equations of rules R143 to R149 are formed (rule R135): `K`, `V`, `R2`, `sqrt(2*V)`
and `Q`. -/
structure DesignTerms where
  k : RealVal
  v : RealVal
  r2 : RealVal
  s2v : RealVal
  q : RealVal
deriving DecidableEq, Repr

/-- `1 + t*K + K*K` for a given middle term `m = t*K`, in the printed order. -/
def onePlus (f : FloatFmt) (m kk : RealVal) : RealVal := fAdd f (fAdd f (.num 1) m) kk

/-- `1 - t*K + K*K` for a given middle term. -/
def oneMinus (f : FloatFmt) (m kk : RealVal) : RealVal := fAdd f (fSub f (.num 1) m) kk

/-- `2*(x - y)*n`. -/
def twiceDiff (f : FloatFmt) (x y n : RealVal) : RealVal := fMul f (fMul f (.num 2) (fSub f x y)) n

/-- Rules R143 to R146: the four types that ignore the gain. -/
def passDesign (f : FloatFmt) (typ : BqType) (t : DesignTerms) : Coefs :=
  let kq := fDiv f t.k t.q
  let kk := fMul f t.k t.k
  let n := fDiv f (.num 1) (onePlus f kq kk)
  let b1 := twiceDiff f kk (.num 1) n
  let b2 := fMul f (oneMinus f kq kk) n
  match typ with
  | .lowpass =>
    let a0 := fMul f kk n
    ⟨a0, fMul f (.num 2) a0, a0, b1, b2⟩
  | .highpass => ⟨n, fMul f (.num (-2)) n, n, b1, b2⟩
  | .bandpass =>
    let a0 := fMul f kq n
    ⟨a0, .num 0, fSub f (.num 0) a0, b1, b2⟩
  | .notch | .peak | .lowshelf | .highshelf =>
    let a0 := fMul f (fAdd f (.num 1) kk) n
    ⟨a0, b1, a0, b1, b2⟩

/-- Rule R147, peak; `boost` is `G >= 0`. -/
def peakDesign (f : FloatFmt) (boost : Bool) (t : DesignTerms) : Coefs :=
  let kk := fMul f t.k t.k
  let kq := fDiv f t.k t.q
  let vqk := fMul f (fDiv f t.v t.q) t.k
  let (up, down) := if boost then (vqk, kq) else (kq, vqk)
  let n := fDiv f (.num 1) (onePlus f down kk)
  let a1 := twiceDiff f kk (.num 1) n
  ⟨fMul f (onePlus f up kk) n, a1, fMul f (oneMinus f up kk) n, a1, fMul f (oneMinus f down kk) n⟩

/-- The second-order polynomial `c + m + d` of the shelf equations, in the printed order. -/
def shelfSum (f : FloatFmt) (c m d : RealVal) : RealVal := fAdd f (fAdd f c m) d

/-- The second-order polynomial `c - m + d` of the shelf equations. -/
def shelfDiff (f : FloatFmt) (c m d : RealVal) : RealVal := fAdd f (fSub f c m) d

/-- Rule R148, lowshelf. -/
def lowshelfDesign (f : FloatFmt) (boost : Bool) (t : DesignTerms) : Coefs :=
  let kk := fMul f t.k t.k
  let rk := fMul f t.r2 t.k
  let sk := fMul f t.s2v t.k
  let vkk := fMul f (fMul f t.v t.k) t.k
  if boost then
    let n := fDiv f (.num 1) (shelfSum f (.num 1) rk kk)
    ⟨fMul f (shelfSum f (.num 1) sk vkk) n, twiceDiff f vkk (.num 1) n, fMul f (shelfDiff f (.num 1) sk vkk) n,
      twiceDiff f kk (.num 1) n, fMul f (shelfDiff f (.num 1) rk kk) n⟩
  else
    let n := fDiv f (.num 1) (shelfSum f (.num 1) sk vkk)
    ⟨fMul f (shelfSum f (.num 1) rk kk) n, twiceDiff f kk (.num 1) n, fMul f (shelfDiff f (.num 1) rk kk) n,
      twiceDiff f vkk (.num 1) n, fMul f (shelfDiff f (.num 1) sk vkk) n⟩

/-- Rule R149, highshelf. -/
def highshelfDesign (f : FloatFmt) (boost : Bool) (t : DesignTerms) : Coefs :=
  let kk := fMul f t.k t.k
  let rk := fMul f t.r2 t.k
  let sk := fMul f t.s2v t.k
  if boost then
    let n := fDiv f (.num 1) (shelfSum f (.num 1) rk kk)
    ⟨fMul f (shelfSum f t.v sk kk) n, twiceDiff f kk t.v n, fMul f (shelfDiff f t.v sk kk) n,
      twiceDiff f kk (.num 1) n, fMul f (shelfDiff f (.num 1) rk kk) n⟩
  else
    let n := fDiv f (.num 1) (shelfSum f t.v sk kk)
    ⟨fMul f (shelfSum f (.num 1) rk kk) n, twiceDiff f kk (.num 1) n, fMul f (shelfDiff f (.num 1) rk kk) n,
      twiceDiff f kk t.v n, fMul f (shelfDiff f t.v sk kk) n⟩

/-- Rules R143 to R149 for `0 < Fc < 0.5`. -/
def designBelowNyquist (f : FloatFmt) (typ : BqType) (boost : Bool) (t : DesignTerms) : Coefs :=
  match typ with
  | .lowpass | .highpass | .bandpass | .notch => passDesign f typ t
  | .peak => peakDesign f boost t
  | .lowshelf => lowshelfDesign f boost t
  | .highshelf => highshelfDesign f boost t

/-- Rule R150: the limit coefficients at `Fc` = 0.5 exactly. -/
def designAtNyquist (f : FloatFmt) (typ : BqType) (boost : Bool) (v : RealVal) : Coefs :=
  match typ with
  | .lowpass | .notch | .peak | .highshelf => ⟨.num 1, .num 2, .num 1, .num 2, .num 1⟩
  | .highpass | .bandpass => ⟨.num 0, .num 0, .num 0, .num 2, .num 1⟩
  | .lowshelf =>
    if boost then ⟨v, fMul f (.num 2) v, v, .num 2, .num 1⟩
    else ⟨fDiv f (.num 1) v, fDiv f (.num 2) v, fDiv f (.num 1) v, .num 2, .num 1⟩

/-- The common terms of rule R135 under a format. -/
def designTerms (f : FloatFmt) (fc q g : Rat) : DesignTerms :=
  let v := decibel f g
  ⟨tanPi f fc, v, fSqrt f (.num 2), fSqrt f (fMul (finiteFmt f) (.num 2) v), .num q⟩

/-- The reference instance of `DESIGN` (rules R134, R135, R143 to R150) under a format; no operand is a NaN or an
infinity (rule R152). -/
def refDesign (f : FloatFmt) : DesignFn := fun typ fc q g =>
  if fc = 1 / 2 then designAtNyquist (finiteFmt f) typ (decide (0 ≤ g)) (decibel f g)
  else designBelowNyquist (finiteFmt f) typ (decide (0 ≤ g)) (designTerms f fc q g)

end Sys2Proof.Machine
end

