-- ==== Sys2Proof/Machine/State.lean ====
section
/-! DEFINITION. The state of VC-DSP (rules R20 to R44, R60 to R62) as plain data, its value after reset (rules R61,
R410), and the reasons a step can stop. -/

namespace Sys2Proof.Machine

open Sys2Proof

/-- One value for each of the six bands (rule R24). -/
structure PerBand (α : Type) where
  bp : α
  hp : α
  lp : α
  hs : α
  ls : α
  pk : α
deriving DecidableEq, Repr

/-- A biquad stage: coefficients, state and the parameters it was configured with (rule R21). -/
structure Stage where
  coefs : Coefs
  z1 : RealVal
  z2 : RealVal
  typ : BqType
  fc : RealVal
  q : RealVal
  gain : RealVal
deriving DecidableEq, Repr

/-- One band's cascade in one bank: the stage count `NST[b]` and the ten stages (rules R21, R23). -/
structure Cascade where
  nst : Nat
  stages : Vector Stage 10
deriving DecidableEq, Repr

/-- A bank: the six cascades (rule R23). -/
abbrev Bank := PerBand Cascade

/-- The per-band registers (rule R39). -/
structure BandRegs where
  freq : RealVal
  q : RealVal
  gain : RealVal
  order : BitVec 8
deriving DecidableEq, Repr

/-- The configuration registers (rules R32 to R39), held twice (rule R31). -/
structure CfgRegs where
  sampleRate : BitVec 32
  ctrlEn : BitVec 16
  toneFreq : BitVec 32
  toneAmp : BitVec 16
  decay : BitVec 8
  clipFactor : RealVal
  pitchRatio : RealVal
  volFactor : BitVec 8
  micRoute : BitVec 8
  ampRoute : BitVec 8
  bands : PerBand BandRegs
deriving DecidableEq, Repr

/-- The controller registers (rule R41). A one-bit register is a `Bool`, `true` for 1. -/
structure Ctl where
  permit : Bool
  action : ReqCode
  stop : Bool
  wake : Bool
  updPend : Bool
  phase : Phase
  bank : Bool
  hdrSent : Bool
  ioDisabled : Bool
  feedback : Bool
deriving DecidableEq, Repr

/-- A value on CFGP (rules R60, R112): one value of exactly one of the types of rule R110, so that an integer outside
its type's range cannot be presented. -/
inductive CfgValue where
  | u32 (v : BitVec 32)
  | field16 (v : BitVec 16)
  | u16 (v : BitVec 16)
  | u8 (v : BitVec 8)
  | s8 (v : BitVec 8)
  | real (v : RealVal)
deriving DecidableEq, Repr, Inhabited

/-- Sub-causes of `ConfigOutOfRange` with their detail (rule R372). -/
inductive CfgCause where
  | nyquistClamp (b : Band)
  | orderClamp (b : Band)
  | badParam (b : Band)
  | toneTable
  | clipClamp
  | reservedEncoding (w : CmdWord)
  | transportSize
deriving DecidableEq, Repr

/-- Sub-causes of `ResourceUnavailable` (rule R372). -/
inductive ResourceCause where
  | noBuffer | ioDisabled
deriving DecidableEq, Repr

/-- Sub-causes of `HwInitFailure` (rule R372). -/
inductive HwCause where
  | fail | unsupported
deriving DecidableEq, Repr

/-- A record on the LOG port: a condition and its info (rules R370, R371). -/
inductive LogRecord where
  | configOutOfRange (c : CfgCause)
  | resourceUnavailable (r : ReqCode) (c : ResourceCause)
  | busy (r : ReqCode)
  | hwInitFailure (a : ReqCode) (c : HwCause)
  | capacityExhausted (wrCur : BitVec 32)
deriving DecidableEq, Repr

/-- A transaction at TX (rules R60, R361). -/
inductive TxEvent where
  | attached (answer : Bool)
  | ready (answer : Bool)
  | send (block : List S16) (byteLength : Nat)
deriving DecidableEq, Repr

/-- A transaction at PV (rules R60, R236, R237). -/
inductive PvEvent where
  | init (sampleRate : BitVec 32) (ratio : RealVal)
  | process (block : List S16) (answer : List S16)
deriving DecidableEq, Repr

/-- A transaction at HWI (rules R60, R310). -/
structure HwiEvent where
  mic : BitVec 8
  amp : BitVec 8
  action : ReqCode
  answer : HwiAnswer
deriving DecidableEq, Repr

/-- The port histories, oldest transaction first (rule R60). -/
structure Ports where
  req : List (CmdWord × Response)
  cfgp : List (CmdWord × CfgValue)
  inp : List InAnswer
  out : List (List HwSample × OutAnswer)
  hwi : List HwiEvent
  exported : List (List Byte)
  log : List LogRecord
  tx : List TxEvent
  pv : List PvEvent
deriving DecidableEq, Repr

/-- A step of another agent that falls at a waiting point of a loop step (rule R86). A Bridge poll carries, for a poll
that falls inside a copy into STAGE, which elements it reads new (rule R90). -/
inductive Visit where
  | request (w : CmdWord)
  | config (w : CmdWord) (v : CfgValue)
  | bridge (newAt : List Bool)
deriving DecidableEq, Repr

/-- How many free answers have been drawn at each port that asks the environment. One count for each port, so that what
the Bridge draws at TX is seen by no other agent (rule R362 (e)). -/
structure Draws where
  inp : Nat
  out : Nat
  hwi : Nat
  attached : Nat
  ready : Nat
  pv : Nat
deriving DecidableEq, Repr

/-- What the environment answers next at each port, oldest first, and how many free answers have been drawn
(rules R60, R86, entry U8; the model's own, assumption log 14 and 15). -/
structure Env where
  inQ : List (List Visit × InAnswer)
  outQ : List (List Visit × OutAnswer)
  copyQ : List (List Visit)
  hwiQ : List HwiAnswer
  attachedQ : List Bool
  readyQ : List Bool
  pvQ : List (List S16)
  draws : Draws
deriving DecidableEq, Repr

/-- The operands that travel beside the command word (rules R109, R131, R140, R260, R306). -/
structure Beside where
  cfgValue : CfgValue
  bqType : BitVec 3
  fc : RealVal
  q : RealVal
  gain : RealVal
  sample : RealVal
  hwBlock : List HwSample
deriving DecidableEq, Repr

/-- The value the last directly performed operation returned (rules R140, R262, R270, R275). -/
inductive Result where
  | none
  | sample (y : RealVal)
  | hwBlock (o : List HwSample)
  | transfer (t : Transfer)
deriving DecidableEq, Repr

/-- A scheduled step: which agent moves next and what it presents (rule R85; assumption log 9 and 10). `drive` names
an operation directly by its command word, as the traces of rule R107 do. -/
inductive Turn where
  | request (w : CmdWord)
  | config (w : CmdWord) (v : CfgValue)
  | task
  | bridge
  | drive (w : CmdWord) (operands : Beside)
deriving DecidableEq, Repr

/-- The bytes of the Recording Buffer that differ from what an unlisted byte reads as, by rising address
(`Memory.wf` in Machine/Ops.lean). -/
abbrev Memory := List Host.Cell

/-- The state of VC-DSP (rule R20). `hw` holds the implementation parameters; `turns`, `env`, `beside` and `result`
are the model's own fields (assumption log 9, 12, 14). -/
structure State where
  hw : HwParams
  bank0 : Bank
  bank1 : Bank
  qtab : List RealVal
  qtabValid : Bool
  wb : List S16
  sine : List S16
  rmLen : Nat
  rmAmp : BitVec 16
  rmPhase : Nat
  rmValid : Bool
  rmSr : BitVec 32
  rmFreq : BitVec 32
  dl : List S16
  rvTap : Nat
  stage : List S16
  stageNew : Bool
  rb : Memory
  wrCur : BitVec 32
  recEnd : BitVec 32
  rdCur : BitVec 32
  cfg : CfgRegs
  act : CfgRegs
  ctl : Ctl
  ports : Ports
  env : Env
  turns : List Turn
  beside : Beside
  result : Result
deriving DecidableEq, Repr

/-- Why the machine stops. The spec has no stop (rules R373, R76): both reasons are accesses to bytes of RB that do
not exist (rule R30), in states that no run of the block's own agents reaches (assumption log 22); safe. -/
inductive Fault where
  /-- Raised by BUILD_WAV_HEADER (and LOOP_EXPORT) when the Recording Buffer is absent: RB has no bytes. Safe. -/
  | noRecordingBuffer
  /-- Raised by READ_BLOCK (and LOOP_PLAY, LOOP_EXPORT) when the block to read lies outside RB. Safe. -/
  | outsideRecordingBuffer
deriving DecidableEq, Repr

/-- Why an operation has no meaning. -/
inductive Refusal where
  /-- Raised by an arm of `exec` whose operation has no meaning yet. No arm raises it. Safe. -/
  | notModelled (mnemonic : String)
deriving DecidableEq, Repr

/-- The same value for every band. -/
def PerBand.same {α : Type} (a : α) : PerBand α := ⟨a, a, a, a, a, a⟩

/-- Coefficients after reset: unspecified (rule R61), zero in the model (DESIGN CHOICE, assumption log 6). -/
def Coefs.reset : Coefs := ⟨.num 0, .num 0, .num 0, .num 0, .num 0⟩

/-- A stage after reset: unspecified (rule R61), zero in the model (DESIGN CHOICE, assumption log 6). -/
def Stage.reset : Stage := ⟨Coefs.reset, .num 0, .num 0, .lowpass, .num 0, .num 0, .num 0⟩

/-- A cascade after reset: empty (rule R61). -/
def Cascade.reset : Cascade := ⟨0, Vector.replicate 10 Stage.reset⟩

/-- The configuration registers after reset (rules R32 to R39, R61). `BAND_Q` holds the format's value of 0.7071 (rule
R9, assumption log 26); the other reset settings are values of every format. -/
def CfgRegs.resetIn (f : FloatFmt) : CfgRegs where
  sampleRate := 16000
  ctrlEn := 0
  toneFreq := 0
  toneAmp := 0
  decay := 0
  clipFactor := .num 1
  pitchRatio := .num 1
  volFactor := 1
  micRoute := 0
  ampRoute := 0
  bands := PerBand.same ⟨.num 1000, f.round (7071 / 10000), .num 0, 1⟩

/-- The controller registers after reset (rules R41, R61). -/
def Ctl.reset : Ctl where
  permit := true
  action := .none
  stop := false
  wake := false
  updPend := false
  phase := .wait
  bank := false
  hdrSent := false
  ioDisabled := false
  feedback := false

/-- The port histories after reset: empty (rule R61). -/
def Ports.reset : Ports := ⟨[], [], [], [], [], [], [], [], []⟩

/-- No answer is queued after reset (DESIGN CHOICE, assumption log 28). -/
def Env.reset : Env := ⟨[], [], [], [], [], [], [], ⟨0, 0, 0, 0, 0, 0⟩⟩

/-- The operands beside the word after reset (DESIGN CHOICE, assumption log 28). -/
def Beside.reset : Beside := ⟨.u32 0, 0, .num 0, .num 0, .num 0, .num 0, []⟩

/-- The implementation parameters of this hardware (rule R8): the OPEN ones are opaque, `REVERB_LEN` is 1600 and
`MONITOR_REC` is false. -/
def HwParams.ofConfig : HwParams where
  blockLen := Config.blockLen
  rmTableMax := Config.rmTableMax
  bufRoom := Config.bufRoom
  hwWidth := Config.hwWidth
  transportMax := Config.transportMax
  floatFmt := Config.floatChoice
  design := Config.designChoice
  reverbLen := 1600
  monitorRec := false

/-- The state after reset of a block with the parameters `hw` (rules R61, R410). The elements rule R61 leaves
unspecified (stage registers, QTAB, WB, SINE) are zero in the model (DESIGN CHOICE, assumption log 6). -/
def State.resetWith (hw : HwParams) : State where
  hw := hw
  bank0 := PerBand.same Cascade.reset
  bank1 := PerBand.same Cascade.reset
  qtab := List.replicate qtabLen (.num 0)
  qtabValid := false
  wb := List.replicate hw.blockLen 0
  sine := List.replicate hw.rmTableMax 0
  rmLen := 0
  rmAmp := 0
  rmPhase := 0
  rmValid := false
  rmSr := 0
  rmFreq := 0
  dl := List.replicate hw.reverbLen 0
  rvTap := 0
  stage := List.replicate hw.blockLen 0
  stageNew := false
  rb := []
  wrCur := 0
  recEnd := 0
  rdCur := 0
  cfg := CfgRegs.resetIn (fmtOf hw.floatFmt)
  act := CfgRegs.resetIn (fmtOf hw.floatFmt)
  ctl := Ctl.reset
  ports := Ports.reset
  env := Env.reset
  turns := []
  beside := Beside.reset
  result := .none

/-- The machine right after reset (rules R61, R410). -/
def State.reset : State := State.resetWith HwParams.ofConfig

end Sys2Proof.Machine
end

