-- ==== Sys2Proof/Machine/Flags.lean ====
section
/-! DEFINITION. The flags of VC-DSP and what is derived from them (rules R33, R42, R43, R348). There are no arithmetic
condition codes (rule R43): the flags are the enable bits of CTRL_EN and the bits of CTL. -/

namespace Sys2Proof.Machine

open Sys2Proof

/-- `BAND_EN[b]`, bits 5:0 of CTRL_EN (rule R33). -/
def bandEn (c : CfgRegs) (b : Band) : Bool := c.ctrlEn.getLsbD b.index

/-- `RM_EN`, bit 6 of CTRL_EN (rule R33). -/
def rmEn (c : CfgRegs) : Bool := c.ctrlEn.getLsbD 6

/-- `RV_EN`, bit 7 of CTRL_EN (rule R33). -/
def rvEn (c : CfgRegs) : Bool := c.ctrlEn.getLsbD 7

/-- `CLIP_EN`, bit 8 of CTRL_EN (rule R33). -/
def clipEn (c : CfgRegs) : Bool := c.ctrlEn.getLsbD 8

/-- `BYPASS`, bit 9 of CTRL_EN (rule R33). -/
def bypass (c : CfgRegs) : Bool := c.ctrlEn.getLsbD 9

/-- `FX_STAGE`, bit 10 of CTRL_EN (rule R33). -/
def fxStage (c : CfgRegs) : Bool := c.ctrlEn.getLsbD 10

/-- The bits of CTRL_EN that are stored (rules R33, R306): bits 15:11 are reserved. -/
def ctrlEnMask : BitVec 16 := 0x07FF

/-- Some band is enabled (rule R250). -/
def anyBandEn (c : CfgRegs) : Bool := Band.all.any (bandEn c)

/-- The derived controller state (rule R42). With the permit taken, `CTL.ACTION` is one of the four gated actions
(the invariant of rule R42); for another value the state is reported Idle. -/
def controllerState (s : State) : CtrlState :=
  if s.ctl.permit then .idle
  else match s.ctl.action with
    | .record => .recording
    | .play => .playing
    | .passthru => .passthru
    | .downloadWav => .exporting
    | .none | .updateConfig | .stop => .idle

/-- The Task's step that is enabled (the table of rule R348), if any. -/
def enabledStep (s : State) : Option Instr :=
  if s.qtabValid = false then some .qtabInit
  else match s.ctl.phase with
    | .wait => if s.ctl.wake then some .taskWake else none
    | .init => some .taskInit
    | .loop => match s.ctl.action with
      | .record => some .loopRecord
      | .play => some .loopPlay
      | .passthru => some .loopPassthru
      | .downloadWav => some .loopExport
      | .none | .updateConfig | .stop => none
    | .exit => some .taskExit

/-- The request codes that compete for the permit (rule R303). -/
def isGated (r : ReqCode) : Bool :=
  match r with
  | .record | .play | .passthru | .downloadWav => true
  | .none | .updateConfig | .stop => false

/-- `needs_buffer` of rule R303. -/
def needsBuffer (r : ReqCode) : Bool :=
  match r with
  | .record | .play | .downloadWav => true
  | .passthru | .none | .updateConfig | .stop => false

/-- `needs_io` of rule R303. -/
def needsIo (r : ReqCode) : Bool :=
  match r with
  | .record | .play | .passthru => true
  | .downloadWav | .none | .updateConfig | .stop => false

/-- The condition code of a log record, in the 3 bits of rule R100 (rule R370; 0 means no condition). -/
def conditionCode (r : LogRecord) : BitVec 3 :=
  match r with
  | .configOutOfRange _ => 1
  | .resourceUnavailable _ _ => 2
  | .busy _ => 3
  | .hwInitFailure _ _ => 4
  | .capacityExhausted _ => 5

/-- The sub-cause code of a log record, where its condition has sub-causes, in the 3 bits that hold the largest (rules
R100, R370, R372). -/
def subCauseCode (r : LogRecord) : Option (BitVec 3) :=
  match r with
  | .configOutOfRange (.nyquistClamp _) => some 0
  | .configOutOfRange (.orderClamp _) => some 1
  | .configOutOfRange (.badParam _) => some 2
  | .configOutOfRange .toneTable => some 3
  | .configOutOfRange .clipClamp => some 4
  | .configOutOfRange (.reservedEncoding _) => some 5
  | .configOutOfRange .transportSize => some 6
  | .resourceUnavailable _ .noBuffer => some 0
  | .resourceUnavailable _ .ioDisabled => some 1
  | .hwInitFailure _ .fail => some 0
  | .hwInitFailure _ .unsupported => some 1
  | .busy _ | .capacityExhausted _ => none

end Sys2Proof.Machine
end

