-- ==== Sys2Proof/Machine/Ops.lean ====
section
/-! DEFINITION. The named operations over State: the stage register file, the Recording Buffer's bytes, conditions and
port histories, the environment's answers, and the block's one transfer of control (accepting an action) with its
return. -/

namespace Sys2Proof.Machine

open Sys2Proof

/-! ## The stage register file -/

/-- The value of a band (rule R24). -/
def bandGet {α : Type} (p : PerBand α) (b : Band) : α :=
  match b with
  | .bp => p.bp
  | .hp => p.hp
  | .lp => p.lp
  | .hs => p.hs
  | .ls => p.ls
  | .pk => p.pk

/-- The value of one band replaced. -/
def bandSet {α : Type} (p : PerBand α) (b : Band) (v : α) : PerBand α :=
  match b with
  | .bp => { p with bp := v }
  | .hp => { p with hp := v }
  | .lp => { p with lp := v }
  | .hs => { p with hs := v }
  | .ls => { p with ls := v }
  | .pk => { p with pk := v }

/-- The active bank, `ST` and `NST` (rule R23). -/
def activeBank (s : State) : Bank := if s.ctl.bank then s.bank1 else s.bank0

/-- The shadow bank, `SH` and `SH.NST` (rule R23). -/
def shadowBank (s : State) : Bank := if s.ctl.bank then s.bank0 else s.bank1

/-- One cascade of the active bank replaced. -/
def setActiveCascade (s : State) (b : Band) (c : Cascade) : State :=
  if s.ctl.bank then { s with bank1 := bandSet s.bank1 b c } else { s with bank0 := bandSet s.bank0 b c }

/-- One cascade of the shadow bank replaced. -/
def setShadowCascade (s : State) (b : Band) (c : Cascade) : State :=
  if s.ctl.bank then { s with bank0 := bandSet s.bank0 b c } else { s with bank1 := bandSet s.bank1 b c }

/-- The ten stage indices in order (rule R21). -/
def stageIndices : List (Fin 10) := [0, 1, 2, 3, 4, 5, 6, 7, 8, 9]

/-! ## The Recording Buffer's bytes -/

/-- What a byte of RB that is not listed reads as: unspecified by rule R61, 0 in the model (DESIGN CHOICE,
assumption log 7). -/
def unlistedByte : Byte := 0

/-- One byte of RB (rule R70). -/
def memRead : Memory → Nat → Byte
  | [], _ => unlistedByte
  | (k, v) :: rest, a => if k = a then v else memRead rest a

/-- One byte of RB written, keeping the canonical form. -/
def memWrite : Memory → Nat → Byte → Memory
  | [], a, v => if v = unlistedByte then [] else [(a, v)]
  | (k, w) :: rest, a, v =>
    if a < k then (if v = unlistedByte then (k, w) :: rest else (a, v) :: (k, w) :: rest)
    else if a = k then (if v = unlistedByte then rest else (a, v) :: rest)
    else (k, w) :: memWrite rest a v

/-- Consecutive bytes of RB written from an address on (rule R10). -/
def memWriteBytes (m : Memory) (a : Nat) : List Byte → Memory
  | [] => m
  | v :: vs => memWriteBytes (memWrite m a v) (a + 1) vs

/-- `n` consecutive bytes of RB from an address on (rule R10). -/
def memReadBytes (m : Memory) (a n : Nat) : List Byte := (List.range n).map fun k => memRead m (a + k)

/-- The canonical form of a memory: addresses strictly rising, no entry equal to what an unlisted byte reads as. -/
def Memory.wf : Memory → Bool
  | [] => true
  | [(_, v)] => v != unlistedByte
  | (k, v) :: (k', v') :: rest => v != unlistedByte && decide (k < k') && Memory.wf ((k', v') :: rest)

/-! ## Conditions and port histories -/

/-- `raise` (rules R11, R371): the record is appended to LOG; nothing else happens. -/
def raise (s : State) (r : LogRecord) : State := { s with ports.log := s.ports.log ++ [r] }

/-- Several conditions raised in order (rule R376). -/
def raiseAll (s : State) (rs : List LogRecord) : State := { s with ports.log := s.ports.log ++ rs }

/-- A REQ transaction: the word and the response (rule R60). -/
def respond (s : State) (w : CmdWord) (r : Response) : State := { s with ports.req := s.ports.req ++ [(w, r)] }

/-- A CFGP transaction (rule R60). -/
def recordCfgp (s : State) (w : CmdWord) (v : CfgValue) : State := { s with ports.cfgp := s.ports.cfgp ++ [(w, v)] }

/-- A transaction at TX (rule R60). -/
def recordTx (s : State) (e : TxEvent) : State := { s with ports.tx := s.ports.tx ++ [e] }

/-- A transaction at PV (rule R60). -/
def recordPv (s : State) (e : PvEvent) : State := { s with ports.pv := s.ports.pv ++ [e] }

/-- A chunk of bytes emitted at EXPORT (rules R60, R285). -/
def emitChunk (s : State) (bs : List Byte) : State := { s with ports.exported := s.ports.exported ++ [bs] }

/-- A reserved command word is refused (rule R116): no state changes but the log record. -/
def refuseReserved (s : State) (w : CmdWord) : State := raise s (.configOutOfRange (.reservedEncoding w))

/-! ## The environment's answers (rules R60, R326, entry U8; assumption log 14) -/

/-- The environment's next answer at IN, with the other agents' steps that fall into the wait. -/
def takeIn (s : State) : State × List Visit × InAnswer :=
  match s.env.inQ with
  | e :: rest => ({ s with env.inQ := rest }, e)
  | [] => ({ s with env.draws.inp := s.env.draws.inp + 1 }, [], Config.freeIn s.env.draws.inp)

/-- The environment's next answer at OUT, with the other agents' steps that fall into the wait. -/
def takeOut (s : State) : State × List Visit × OutAnswer :=
  match s.env.outQ with
  | e :: rest => ({ s with env.outQ := rest }, e)
  | [] => ({ s with env.draws.out := s.env.draws.out + 1 }, [], Config.freeOut s.env.draws.out)

/-- The other agents' steps that fall into the next copy into STAGE (rules R86, R90). -/
def takeCopy (s : State) : State × List Visit :=
  match s.env.copyQ with
  | vs :: rest => ({ s with env.copyQ := rest }, vs)
  | [] => (s, [])

/-- The environment's next answer at HWI. -/
def takeHwi (s : State) : State × HwiAnswer :=
  match s.env.hwiQ with
  | a :: rest => ({ s with env.hwiQ := rest }, a)
  | [] => ({ s with env.draws.hwi := s.env.draws.hwi + 1 }, Config.freeHwi s.env.draws.hwi)

/-- The environment's next answer to `TX.attached()`. -/
def takeAttached (s : State) : State × Bool :=
  match s.env.attachedQ with
  | a :: rest => ({ s with env.attachedQ := rest }, a)
  | [] => ({ s with env.draws.attached := s.env.draws.attached + 1 }, Config.freeAttached s.env.draws.attached)

/-- The environment's next answer to `TX.readyToSend()`. -/
def takeReady (s : State) : State × Bool :=
  match s.env.readyQ with
  | a :: rest => ({ s with env.readyQ := rest }, a)
  | [] => ({ s with env.draws.ready := s.env.draws.ready + 1 }, Config.freeReady s.env.draws.ready)

/-- The block the external transform returns next (rule R236, entry U4). -/
def takePitch (s : State) : State × List S16 :=
  match s.env.pvQ with
  | b :: rest => ({ s with env.pvQ := rest }, b)
  | [] => ({ s with env.draws.pv := s.env.draws.pv + 1 }, Config.freePitch s.env.draws.pv)

/-! ## Transfer of control and return (rules R377, R378) -/

/-- Accepting a gated request, "the block's only asynchronous transfer of control" (rules R303, R377): the permit is
taken, the action recorded, the wake notification set. Nothing is saved. -/
def acceptAction (r : ReqCode) (s : State) : State :=
  { s with ctl := { s.ctl with permit := false, action := r, wake := true } }

/-- The return to Idle (rules R340, R378): stop and feedback cleared, the action cleared, the permit freed, the Task
in phase WAIT. Nothing is restored. -/
def releaseAction (s : State) : State :=
  { s with ctl := { s.ctl with stop := false, feedback := false, action := .none, permit := true, phase := .wait } }

/-- `CTL.PHASE <- p` (rule R10). -/
def setPhase (s : State) (p : Phase) : State := { s with ctl.phase := p }

/-- A Task step taken only in a state in which it is enabled (rule R348); in any other state the Task has no such
step and nothing happens (assumption log 11). -/
def whenEnabled (i : Instr) (f : State → State) (s : State) : State := if enabledStep s = some i then f s else s

/-! ## Sequencing outcomes -/

/-- The rest of an operation after a part that may stop. -/
def andThen {α β : Type} (o : Host.Outcome α Fault Refusal) (k : α → Host.Outcome β Fault Refusal) :
    Host.Outcome β Fault Refusal :=
  match o with
  | .next a => k a
  | .fault e => .fault e
  | .refused r => .refused r

end Sys2Proof.Machine
end

