-- ==== Sys2Proof/Machine/Operands.lean ====
section
/-! DEFINITION. Operand forms: the parameters an operation reads (rule R8), the types of the port values (rules R60,
R112, R115), and the biquad type of each band (rule R24). -/

namespace Sys2Proof.Machine

open Sys2Proof

/-- `FLOAT_FMT` of this block (rule R8). -/
def floatFmt (s : State) : FloatFmt := fmtOf s.hw.floatFmt

/-- `DESIGN` of this block (rules R8, R134); its coefficients are values of the format (rules R9, R21). -/
def designFn (s : State) : DesignFn :=
  match s.hw.design with
  | .reference => refDesign (floatFmt s)
  | .other => fun typ fc q g => fmtCoefs (floatFmt s) (Config.design typ fc q g)

/-- A `real` operand beside the word is a value of the format (rules R9, R131, R140). -/
def realOperand (s : State) (v : RealVal) : RealVal := fmtReal (floatFmt s) v

/-- The Q-value table as `BUILD_CASCADE` reads it: an entry that `QTAB_INIT` has not written is not read, any value
stands for it (rules R62, R167; entry U6; assumption log 32). -/
def readableQtab (s : State) : List RealVal :=
  if s.qtabValid then s.qtab else (List.range qtabLen).map fun i => fmtReal (floatFmt s) (Config.freeQtab i)

/-- `BLOCK_LEN` (rule R8). -/
def blockLen (s : State) : Nat := s.hw.blockLen

/-- `2 * BLOCK_LEN`: the bytes of one block (rules R270, R275, R361). -/
def blockBytes (s : State) : Nat := 2 * blockLen s

/-- `BUF_PRESENT` (rule R8). -/
def bufPresent (s : State) : Bool := s.hw.bufRoom.isSome

/-- `BUF_CAP` (rule R8); an absent buffer has no bytes (assumption log 22). -/
def bufCap (s : State) : Nat :=
  match s.hw.bufRoom with
  | some r => 44 + r.toNat
  | none => 0

/-- The biquad type a band is built with (rule R24). -/
def bandType (b : Band) : BqType :=
  match b with
  | .bp => .bandpass
  | .hp => .highpass
  | .lp => .lowpass
  | .hs => .highshelf
  | .ls => .lowshelf
  | .pk => .peak

/-- A block the environment answers has `BLOCK_LEN` elements (rule R60): elements beyond are not on the port, absent
ones are zero (assumption log 16). -/
def portBlock {n : Nat} (len : Nat) (l : List (BitVec n)) : List (BitVec n) :=
  l.take len ++ List.replicate (len - l.length) 0

/-- A hardware sample as a signed integer of `HW_WIDTH` bits (rule R115). -/
def hwSampleInt (w : HwWidth) (h : HwSample) : Int := (h.setWidth w.bits).toInt

/-- The shift `HW_WIDTH - 16` of rules R260 and R262. -/
def hwShift (w : HwWidth) : Nat := w.bits - 16

/-- One sample of `NORM_IN` (rule R260). -/
def normSample (w : HwWidth) (h : HwSample) : S16 := BitVec.ofInt 16 (floorShift (hwSampleInt w h) (hwShift w))

/-- One sample of `DENORM_OUT` (rule R262). -/
def denormSample (w : HwWidth) (x : S16) : HwSample := BitVec.ofInt 32 (x.toInt * 2 ^ hwShift w)

/-- The type of a value on CFGP (rule R112). -/
def CfgValue.type (v : CfgValue) : CfgType :=
  match v with
  | .u32 _ => .u32
  | .field16 _ => .field16
  | .u16 _ => .u16
  | .u8 _ => .u8
  | .s8 _ => .s8
  | .real _ => .real

/-- What stands on CFGP (rule R112): a `real` is a value of the format, an integer is itself. -/
def portValue (f : FloatFmt) (v : CfgValue) : CfgValue :=
  match v with
  | .real x => .real (fmtReal f x)
  | .u32 _ | .field16 _ | .u16 _ | .u8 _ | .s8 _ => v

/-- The integer of a 32-bit value. -/
def CfgValue.word32 (v : CfgValue) : Option (BitVec 32) :=
  match v with
  | .u32 x => some x
  | .field16 _ | .u16 _ | .u8 _ | .s8 _ | .real _ => none

/-- The bits of a 16-bit field value. -/
def CfgValue.field (v : CfgValue) : Option (BitVec 16) :=
  match v with
  | .field16 x => some x
  | .u32 _ | .u16 _ | .u8 _ | .s8 _ | .real _ => none

/-- The integer of a u16 value. -/
def CfgValue.word16 (v : CfgValue) : Option (BitVec 16) :=
  match v with
  | .u16 x => some x
  | .u32 _ | .field16 _ | .u8 _ | .s8 _ | .real _ => none

/-- The integer of a u8 value. -/
def CfgValue.byte (v : CfgValue) : Option (BitVec 8) :=
  match v with
  | .u8 x => some x
  | .u32 _ | .field16 _ | .u16 _ | .s8 _ | .real _ => none

/-- The integer of an s8 value. -/
def CfgValue.signedByte (v : CfgValue) : Option (BitVec 8) :=
  match v with
  | .s8 x => some x
  | .u32 _ | .field16 _ | .u16 _ | .u8 _ | .real _ => none

/-- The `real` of a `real` value. -/
def CfgValue.asReal (v : CfgValue) : Option RealVal :=
  match v with
  | .real x => some x
  | .u32 _ | .field16 _ | .u16 _ | .u8 _ | .s8 _ => none

/-- A per-band register replaced by a value of its own type (rules R39, R112, R306). -/
def bandRegsStore (r : BandRegs) (f : BandField) (v : CfgValue) : Option BandRegs :=
  match f with
  | .freq => v.asReal.map fun x => { r with freq := x }
  | .q => v.asReal.map fun x => { r with q := x }
  | .gain => v.asReal.map fun x => { r with gain := x }
  | .order => v.byte.map fun x => { r with order := x }

/-- A register replaced by a value of the register's own type; a value of another type cannot be presented (rules
R110, R112, R306; assumption log 13). CTRL_EN stores its reserved bits as 0. -/
def cfgStore (c : CfgRegs) (r : CfgReg) (v : CfgValue) : Option CfgRegs :=
  match r with
  | .sampleRate => v.word32.map fun x => { c with sampleRate := x }
  | .ctrlEn => v.field.map fun x => { c with ctrlEn := x &&& ctrlEnMask }
  | .toneFreq => v.word32.map fun x => { c with toneFreq := x }
  | .toneAmp => v.word16.map fun x => { c with toneAmp := x }
  | .decay => v.byte.map fun x => { c with decay := x }
  | .clipFactor => v.asReal.map fun x => { c with clipFactor := x }
  | .pitchRatio => v.asReal.map fun x => { c with pitchRatio := x }
  | .volFactor => v.signedByte.map fun x => { c with volFactor := x }
  | .micRoute => v.byte.map fun x => { c with micRoute := x }
  | .ampRoute => v.byte.map fun x => { c with ampRoute := x }
  | .band b f => (bandRegsStore (bandGet c.bands b) f v).map fun x => { c with bands := bandSet c.bands b x }

end Sys2Proof.Machine
end

