-- ==== Sys2Proof/Machine/Requests.lean ====
section
/-! DEFINITION. The Requester's operations (rules R303 to R307, R313 to R316) and the Configurator's (rule R306). -/

namespace Sys2Proof.Machine

open Sys2Proof

/-- The gated accept procedure (rule R303); the order of the tests is that of rule R376. -/
def gated (r : ReqCode) (s : State) : State × Response :=
  if needsBuffer r && !bufPresent s then (raise s (.resourceUnavailable r .noBuffer), .rejUnsupported)
  else if needsIo r && s.ctl.ioDisabled then (raise s (.resourceUnavailable r .ioDisabled), .rejUnsupported)
  else if s.ctl.permit = false then (raise s (.busy r), .rejBusy)
  else (acceptAction r s, .accepted)

/-- What a request does and answers (rules R303 to R307, R313 to R316). -/
def serveRequest (r : ReqCode) (s : State) : State × Response :=
  match r with
  | .none => (s, .accepted)
  | .updateConfig => ({ s with ctl := { s.ctl with updPend := true, wake := true } }, .accepted)
  | .stop => ({ s with ctl.stop := true }, .accepted)
  | .record => gated .record s
  | .play => gated .play s
  | .passthru => gated .passthru s
  | .downloadWav => gated .downloadWav s

/-- The command word of a request (rule R108). -/
def requestWord (r : ReqCode) : CmdWord := r.code.setWidth 16

/-- A request posted on REQ: served, and answered on the port (rules R60, R303 to R307). -/
def postRequest (r : ReqCode) (s : State) : State :=
  respond (serveRequest r s).1 (requestWord r) (serveRequest r s).2

/-- A word on REQ that is no request: refused with a log record and `REJ_UNSUPPORTED` (rule R116). -/
def rejectOnReq (w : CmdWord) (s : State) : State := respond (refuseReserved s w) w .rejUnsupported

/-- A command word presented on REQ (rules R107, R116). -/
def requestArrives (w : CmdWord) (s : State) : State :=
  match (requestOfWord w).bind Instr.request? with
  | some r => postRequest r s
  | none => rejectOnReq w s

/-- A word and value on CFGP that name no register: refused (rules R116, R306). -/
def rejectOnCfgp (w : CmdWord) (v : CfgValue) (s : State) : State :=
  recordCfgp (refuseReserved s w) w (portValue (floatFmt s) v)

/-- `CFG_WRITE rr, value` of an existing register (rule R306). A value of another type "cannot be presented" (rule
R112): there is no such transaction, and nothing happens (assumption log 13). -/
def storeRegister (rr : BitVec 8) (r : CfgReg) (v : CfgValue) (s : State) : State :=
  match cfgStore s.cfg r v with
  | some c => recordCfgp { s with cfg := c } (encode (.cfgWrite rr)) v
  | none => s

/-- `CFG_WRITE rr, value` (rule R306). -/
def configWrite (rr : BitVec 8) (v : CfgValue) (s : State) : State :=
  match cfgRegOfNumber rr with
  | some r => storeRegister rr r (portValue (floatFmt s) v) s
  | none => rejectOnCfgp (encode (.cfgWrite rr)) v s

/-- A command word and a value presented on CFGP (rules R107, R116). -/
def configArrives (w : CmdWord) (v : CfgValue) (s : State) : State :=
  if (configOfWord w).isSome then configWrite (wordArg w) v s else rejectOnCfgp w v s

/-- `REQ_NONE` (rule R307). -/
def execReqNone (s : State) : Host.Outcome State Fault Refusal := .next (postRequest .none s)

/-- `REQ_UPDATECONFIG` (rule R304). -/
def execReqUpdateConfig (s : State) : Host.Outcome State Fault Refusal := .next (postRequest .updateConfig s)

/-- `REQ_RECORD` (rule R313). -/
def execReqRecord (s : State) : Host.Outcome State Fault Refusal := .next (postRequest .record s)

/-- `REQ_PLAY` (rule R314). -/
def execReqPlay (s : State) : Host.Outcome State Fault Refusal := .next (postRequest .play s)

/-- `REQ_PASSTHRU` (rule R315). -/
def execReqPassthru (s : State) : Host.Outcome State Fault Refusal := .next (postRequest .passthru s)

/-- `REQ_DOWNLOADWAV` (rule R316). -/
def execReqDownloadWav (s : State) : Host.Outcome State Fault Refusal := .next (postRequest .downloadWav s)

/-- `REQ_STOP` (rule R305). -/
def execReqStop (s : State) : Host.Outcome State Fault Refusal := .next (postRequest .stop s)

/-- `CFG_WRITE` (rule R306); the value travels beside the word (rule R109). -/
def execCfgWrite (rr : BitVec 8) (s : State) : Host.Outcome State Fault Refusal :=
  .next (configWrite rr s.beside.cfgValue s)

end Sys2Proof.Machine
end

