-- ==== Sys2Proof/Machine/Bridge.lean ====
section
/-! DEFINITION. The Streaming Bridge (rules R360, R361), and the steps of other agents that fall at a waiting point of
a loop step (rules R86, R90). -/

namespace Sys2Proof.Machine

open Sys2Proof

/-- The part of a poll after the transport said it is attached and a new block was found: the block `t` is taken,
and sent, refused for its size, or dropped (rule R361). -/
def bridgeForward (t : List S16) (s : State) : State :=
  let s := { s with stageNew := false }
  if s.hw.transportMax < blockBytes s then raise s (.configOutOfRange .transportSize)
  else
    let (s, ready) := takeReady s
    let s := recordTx s (.ready ready)
    if ready then recordTx s (.send t (blockBytes s)) else s

/-- A Bridge poll that reads `t` as the content of STAGE (rule R361). -/
def bridgePoll (t : List S16) (s : State) : State :=
  let (s, attached) := takeAttached s
  let s := recordTx s (.attached attached)
  if attached && s.stageNew then bridgeForward t s else s

/-- `BRIDGE_POLL` (rule R361). No copy is in progress, so it reads exactly STAGE (rule R90). -/
def execBridgePoll (s : State) : Host.Outcome State Fault Refusal := .next (bridgePoll s.stage s)

/-- What a poll reads of STAGE while the Task overwrites it with `new` (rule R90): "for each index `i` independently,
either the old or the new value". The choice is data of the poll; an index without a choice reads old. -/
def tornRead (newAt : List Bool) (old new : List S16) : List S16 :=
  match newAt, old, new with
  | [], old, _ => old
  | _, [], _ => []
  | _, old, [] => old
  | true :: ms, _ :: os, n :: ns => n :: tornRead ms os ns
  | false :: ms, o :: os, _ :: ns => o :: tornRead ms os ns

/-- A step of another agent at a waiting point (rules R86, R92). `writing` is the block being copied into STAGE, if a
copy is in progress. -/
def visitStep (writing : Option (List S16)) (s : State) (v : Visit) : State :=
  match v with
  | .request w => requestArrives w s
  | .config w x => configArrives w x s
  | .bridge newAt => match writing with
    | some new => bridgePoll (tornRead newAt s.stage new) s
    | none => bridgePoll s.stage s

/-- The other agents' steps that fall into one wait, in order (rule R85). -/
def runVisits (writing : Option (List S16)) (s : State) (vs : List Visit) : State := vs.foldl (visitStep writing) s

/-- `IN.read()` (rule R326): the other agents step while the Task waits, then the answer is taken. -/
def readIn (s : State) : State × InAnswer :=
  let (s, vs, a) := takeIn s
  let s := runVisits none s vs
  let a := match a with
    | .timeout => .timeout
    | .block h => .block (portBlock (blockLen s) h)
  ({ s with ports.inp := s.ports.inp ++ [a] }, a)

/-- `OUT.write(o)` (rule R326): a time-out loses the block for the speaker and nothing else. -/
def writeOut (o : List HwSample) (s : State) : State :=
  let (s, vs, a) := takeOut s
  let s := runVisits none s vs
  { s with ports.out := s.ports.out ++ [(o, a)] }

/-- `stage()` (rule R327): the copy of WB into STAGE, during which the Bridge may poll (rule R90), then
`STAGE_NEW <- 1`. -/
def stageBlock (s : State) : State :=
  let (s, vs) := takeCopy s
  let s := runVisits (some s.wb) s vs
  { s with stage := s.wb, stageNew := true }

end Sys2Proof.Machine
end

