-- ==== Sys2Proof/Machine/Buffer.lean ====
section
/-! DEFINITION. The Sample Buffer Manager: width conversion, the Recording Buffer and the WAV header (rules R260 to
R285). -/

namespace Sys2Proof.Machine

open Sys2Proof

/-- `NORM_IN h` (rule R260). -/
def normIn (h : List HwSample) (s : State) : State := { s with wb := h.map (normSample s.hw.hwWidth) }

/-- The block `DENORM_OUT` produces (rule R262). -/
def denormOut (s : State) : List HwSample := s.wb.map (denormSample s.hw.hwWidth)

/-- The bytes of a block, each sample as `le16` (rules R114, R270, R333). -/
def blockToBytes (wb : List S16) : List Byte := wb.flatMap le16

/-- The address of the first byte a `RECORD_BLOCK` stores to (rule R270). -/
def recordAddr (s : State) : Nat := 44 + s.wrCur.toNat

/-- `RECORD_BLOCK` (rule R270). -/
def recordBlock (s : State) : State × Transfer :=
  if bufCap s < recordAddr s + blockBytes s then (s, .capFull)
  else
    ({ s with rb := memWriteBytes s.rb (recordAddr s) (blockToBytes s.wb),
              wrCur := BitVec.ofNat 32 (s.wrCur.toNat + blockBytes s) }, .ok)

/-- The sample whose two bytes start at an address, low byte first (rules R72, R275). -/
def sampleAt (m : Memory) (a : Nat) : S16 := memRead m (a + 1) ++ memRead m a

/-- The block a `READ_BLOCK` returns (rule R275). -/
def storedBlock (s : State) : List S16 :=
  (List.range (blockLen s)).map fun i => sampleAt s.rb (44 + s.rdCur.toNat + 2 * i)

/-- `READ_BLOCK` (rule R275). The block lies inside RB in every state of a run; elsewhere its bytes do not exist and
the operation stops (assumption log 22). -/
def readBlock (s : State) : Host.Outcome (State × Transfer) Fault Refusal :=
  if s.recEnd.toNat < s.rdCur.toNat + blockBytes s then .next (s, .endOfData)
  else if bufCap s < 44 + s.rdCur.toNat + blockBytes s then .fault .outsideRecordingBuffer
  else .next ({ s with wb := storedBlock s, rdCur := BitVec.ofNat 32 (s.rdCur.toNat + blockBytes s) }, .ok)

/-- The 44 header bytes for `D` data bytes at sample rate `SR` (rules R113, R280). -/
def wavHeader (d sr : BitVec 32) : List Byte :=
  ascii ['R', 'I', 'F', 'F'] ++ le32 (BitVec.ofNat 32 (44 + d.toNat - 8)) ++ ascii ['W', 'A', 'V', 'E'] ++
  ascii ['f', 'm', 't', ' '] ++ le32 16 ++ le16 1 ++ le16 1 ++ le32 sr ++ le32 (BitVec.ofNat 32 (sr.toNat * 2)) ++
  le16 2 ++ le16 16 ++ ascii ['d', 'a', 't', 'a'] ++ le32 d

/-- `BUILD_WAV_HEADER` (rule R280). Without a buffer the header bytes do not exist (rule R30, assumption log 22). -/
def buildWavHeader (s : State) : Host.Outcome State Fault Refusal :=
  if bufPresent s then .next { s with rb := memWriteBytes s.rb 0 (wavHeader s.wrCur s.act.sampleRate) }
  else .fault .noRecordingBuffer

/-- `NORM_IN` (rule R260); the hardware block travels beside the word. -/
def execNormIn (s : State) : Host.Outcome State Fault Refusal := .next (normIn (portBlock (blockLen s) s.beside.hwBlock) s)

/-- `DENORM_OUT` (rule R262): the block is returned, WB is not changed. -/
def execDenormOut (s : State) : Host.Outcome State Fault Refusal := .next { s with result := .hwBlock (denormOut s) }

/-- `RECORD_BLOCK` (rule R270). -/
def execRecordBlock (s : State) : Host.Outcome State Fault Refusal :=
  .next { (recordBlock s).1 with result := .transfer (recordBlock s).2 }

/-- `READ_BLOCK` (rule R275). -/
def execReadBlock (s : State) : Host.Outcome State Fault Refusal :=
  andThen (readBlock s) fun r => .next { r.1 with result := .transfer r.2 }

/-- `BUILD_WAV_HEADER` (rule R280). -/
def execBuildWavHeader (s : State) : Host.Outcome State Fault Refusal := buildWavHeader s

end Sys2Proof.Machine
end

