-- ==== Sys2Proof/Machine/Biquad.lean ====
section
/-! DEFINITION. The Biquad Stage: `BQ_CONFIGURE` and `BQ_PROCESS` (rules R130 to R152). -/

namespace Sys2Proof.Machine

open Sys2Proof

/-- `in_domain` (rule R132) together with what it yields: the type and the three finite arguments. -/
def domainArgs (typ : BitVec 3) (fc q g : RealVal) : Option (BqType × Rat × Rat × Rat) :=
  match bqTypeOfCode typ, realFinite? fc, realFinite? q, realFinite? g with
  | some t, some fc, some q, some g => if 0 < fc ∧ fc ≤ 1 / 2 ∧ 0 < q then some (t, fc, q, g) else none
  | _, _, _, _ => none

/-- `BQ_CONFIGURE` on one stage (rule R131): outside the domain nothing is written (rule R133); inside, the
coefficients and the parameters, never `z1, z2`. -/
def configureStage (design : DesignFn) (typ : BitVec 3) (fc q g : RealVal) (st : Stage) : Stage :=
  match domainArgs typ fc q g with
  | none => st
  | some (t, fcv, qv, gv) => { st with coefs := design t fcv qv gv, typ := t, fc := fc, q := q, gain := g }

/-- `BQ_PROCESS` on one stage (rule R140), the assignments in the printed order: the new `z1` uses the old `z2`, and
both use the new `y`. -/
def processStage (f : FloatFmt) (st : Stage) (x : RealVal) : Stage × RealVal :=
  let y := fAdd f (fMul f st.coefs.a0 x) st.z1
  let z1 := fSub f (fAdd f (fMul f st.coefs.a1 x) st.z2) (fMul f st.coefs.b1 y)
  let z2 := fSub f (fMul f st.coefs.a2 x) (fMul f st.coefs.b2 y)
  ({ st with z1 := z1, z2 := z2 }, y)

/-- A stage of a cascade replaced. -/
def setStage (c : Cascade) (k : Fin 10) (st : Stage) : Cascade := { c with stages := c.stages.set k st }

/-- `BQ_CONFIGURE` (rule R131): the stage is in the shadow bank; type, Fc, Q and gain travel beside the word. A band
or stage that does not exist is refused (rule R116). -/
def bqConfigure (band : BitVec 3) (stage : BitVec 4) (s : State) : State :=
  match bandOfCode band, stageOfCode stage with
  | some b, some k =>
    let c := bandGet (shadowBank s) b
    setShadowCascade s b (setStage c k
      (configureStage (designFn s) s.beside.bqType (realOperand s s.beside.fc) (realOperand s s.beside.q)
        (realOperand s s.beside.gain) c.stages[k]))
  | _, _ => refuseReserved s (encode (.bqConfigure band stage))

/-- `BQ_PROCESS` (rule R140): the stage is in the active bank, below the band's stage count; the sample travels beside
the word and the result is returned. On a stage at or above the count the operation refuses: it changes no state and
reads none of the stage's registers (rule R62, entry U6; assumption log 23). A band or stage that does not exist is
refused (rule R116). -/
def bqProcess (band : BitVec 3) (stage : BitVec 4) (s : State) : State :=
  match bandOfCode band, stageOfCode stage with
  | some b, some k =>
    let c := bandGet (activeBank s) b
    if k.val < c.nst then
      let (st, y) := processStage (floatFmt s) c.stages[k] (realOperand s s.beside.sample)
      { setActiveCascade s b (setStage c k st) with result := .sample y }
    else s
  | _, _ => refuseReserved s (encode (.bqProcess band stage))

/-- `BQ_CONFIGURE` (rule R131). -/
def execBqConfigure (band : BitVec 3) (stage : BitVec 4) (s : State) : Host.Outcome State Fault Refusal :=
  .next (bqConfigure band stage s)

/-- `BQ_PROCESS` (rule R140). -/
def execBqProcess (band : BitVec 3) (stage : BitVec 4) (s : State) : Host.Outcome State Fault Refusal :=
  .next (bqProcess band stage s)

end Sys2Proof.Machine
end

