-- ==== Sys2Proof/Machine/Cascade.lean ====
section
/-! DEFINITION. The Filter Cascade Builder, the Q-value table, block filtering and the bank swap (rules R160 to
R177). -/

namespace Sys2Proof.Machine

open Sys2Proof

/-! ## The Q-value table -/

/-- `QVAL(c, i) = 1 / (2 * cos((2*i + 1) * pi / (4*c)))` under the format (rule R161). -/
def qval (f : FloatFmt) (c i : Nat) : RealVal :=
  let g := finiteFmt f
  fDiv g (.num 1) (fMul g (.num 2) (cosPole f c i))

/-- The sub-sequence of order `c` (rule R160). -/
def qvalRow (f : FloatFmt) (c : Nat) : List RealVal := (List.range c).map (qval f c)

/-- The whole table: the sub-sequences of orders 1 .. 8 in order, so that the one for order `c` starts at offset
`T(c-1)` (rules R160, R162). -/
def qvalTable (f : FloatFmt) : List RealVal :=
  qvalRow f 1 ++ qvalRow f 2 ++ qvalRow f 3 ++ qvalRow f 4 ++ qvalRow f 5 ++ qvalRow f 6 ++ qvalRow f 7 ++ qvalRow f 8

/-- `QTAB_INIT` (rule R160). -/
def qtabInit (s : State) : State := { s with qtab := qvalTable (floatFmt s), qtabValid := true }

/-! ## Building a cascade -/

/-- The stage Qs of an order `c` cascade from the table (rule R167). -/
def tableQs (qtab : List RealVal) (c : Nat) : List RealVal :=
  (List.range c).map fun i => qtab.getD (triangular (c - 1) + i) (.num 0)

/-- `choose_q` (rule R167): the conditions raised and the stage Qs, or a refusal. -/
def chooseQ (qtab : List RealVal) (c : Nat) (q : RealVal) (b : Band) : List LogRecord × Option (List RealVal) :=
  if c = 1 then
    match realFinite? q with
    | some v => if 0 < v then ([], some [q]) else ([.configOutOfRange (.badParam b)], none)
    | none => ([.configOutOfRange (.badParam b)], none)
  else ([], some (tableQs qtab c))

/-- The order a cascade is built with (rule R166), and the conditions raised. -/
def clampOrder (typ : BqType) (order : Nat) (b : Band) : List LogRecord × Nat :=
  match typ with
  | .peak | .lowshelf | .highshelf => ([], 1)
  | .lowpass | .highpass | .bandpass | .notch =>
    if order < 1 then ([.configOutOfRange (.orderClamp b)], 1)
    else if maxOrder < order then ([.configOutOfRange (.orderClamp b)], maxOrder)
    else ([], order)

/-- The normalised cutoff clamped at Nyquist (rules R120, R166), and the conditions raised. -/
def clampCutoff (fc : RealVal) (b : Band) : List LogRecord × RealVal :=
  if realAbove fc (1 / 2) then ([.configOutOfRange (.nyquistClamp b)], .num (1 / 2)) else ([], fc)

/-- The refusal test of `build` (rule R166): sample rate 0, a frequency not finite or not positive, a gain not
finite. -/
def badParams (freq gain : RealVal) (sr : Nat) : Bool :=
  match realFinite? freq, realFinite? gain with
  | some f, some _ => decide (sr = 0 ∨ f ≤ 0)
  | _, _ => true

/-- `build(type, f, Q, G, order, sr, b)` (rules R166, R168): the conditions raised in the order of rule R376, and
either a refusal or `(Fc, qs)`, the order being the length of `qs`. That the u32 `sr` becomes a value of the format
before the real division is the model's reading: no rule states the conversion (DESIGN CHOICE, assumption log 31). -/
def buildPlan (f : FloatFmt) (qtab : List RealVal) (typ : BqType) (freq q gain : RealVal) (order sr : Nat) (b : Band) :
    List LogRecord × Option (RealVal × List RealVal) :=
  if badParams freq gain sr then ([.configOutOfRange (.badParam b)], none)
  else
    let (log1, fc) := clampCutoff (fDiv f freq (.num (f.ofNat sr))) b
    let (log2, c) := clampOrder typ order b
    let (log3, qs) := chooseQ qtab c q b
    (log1 ++ log2 ++ log3, qs.map fun qs => (fc, qs))

/-- One new stage (rule R165): configured, and at rest. -/
def newStage (design : DesignFn) (typ : BqType) (fc q gain : RealVal) (st : Stage) : Stage :=
  { configureStage design typ.code fc q gain st with z1 := .num 0, z2 := .num 0 }

/-- The configure loop of rule R165 over pairs of a stage index and its Q. -/
def newStages (design : DesignFn) (typ : BqType) (fc gain : RealVal) (stages : Vector Stage 10) :
    List (Fin 10 × RealVal) → Vector Stage 10
  | [] => stages
  | (k, q) :: rest =>
    newStages design typ fc gain (stages.set k (newStage design typ fc q gain stages[k])) rest

/-- The shadow cascade of a band as `BUILD_CASCADE` leaves it, and the conditions raised (rule R165). -/
def builtCascade (f : FloatFmt) (design : DesignFn) (act : CfgRegs) (qtab : List RealVal) (b : Band) (old : Cascade) :
    List LogRecord × Cascade :=
  let r := bandGet act.bands b
  let empty : Cascade := { old with nst := 0 }
  if bandEn act b = false then ([], empty)
  else
    match buildPlan f qtab (bandType b) r.freq r.q r.gain r.order.toNat act.sampleRate.toNat b with
    | (log, none) => (log, empty)
    | (log, some (fc, qs)) =>
      (log, ⟨qs.length, newStages design (bandType b) fc r.gain old.stages (stageIndices.zip qs)⟩)

/-- `BUILD_CASCADE` of a band (rule R165). -/
def buildCascadeOf (s : State) (b : Band) : State :=
  let r := builtCascade (floatFmt s) (designFn s) s.act (readableQtab s) b (bandGet (shadowBank s) b)
  raiseAll (setShadowCascade s b r.2) r.1

/-- `BUILD_CASCADE` (rule R165); a band that does not exist is refused (rule R116). -/
def buildCascade (band : BitVec 3) (s : State) : State :=
  match bandOfCode band with
  | some b => buildCascadeOf s b
  | none => refuseReserved s (encode (.buildCascade band))

/-! ## Block filtering -/

/-- One sample through the stages of the given indices in series (rule R170). -/
def runCascade (f : FloatFmt) : List (Fin 10) → Vector Stage 10 → RealVal → Vector Stage 10 × RealVal
  | [], stages, v => (stages, v)
  | k :: ks, stages, v =>
    let (st, y) := processStage f stages[k] v
    runCascade f ks (stages.set k st) y

/-- A block through one cascade, in index order: `s2f` on entry, `f2s` on leaving the cascade (rule R170 (b), (c);
assumption log 19). -/
def filterSamples (f : FloatFmt) (ks : List (Fin 10)) : Vector Stage 10 → List S16 → Vector Stage 10 × List S16
  | stages, [] => (stages, [])
  | stages, x :: xs =>
    let (stages, v) := runCascade f ks stages (s2f x)
    let (stages, ys) := filterSamples f ks stages xs
    (stages, f2s f v :: ys)

/-- One band of `FILTER_BLOCK` (rules R170, R171 (a), (b)). -/
def filterBand (s : State) (b : Band) : State :=
  let c := bandGet (activeBank s) b
  if bandEn s.act b && decide (0 < c.nst) then
    let (stages, wb) := filterSamples (floatFmt s) (stageIndices.take c.nst) c.stages s.wb
    { setActiveCascade s b { c with stages := stages } with wb := wb }
  else s

/-- `FILTER_BLOCK` (rule R170): the bands in index order. -/
def filterBlock (s : State) : State := Band.all.foldl filterBand s

/-- `CASCADE_SWAP` (rule R175). -/
def cascadeSwap (s : State) : State := { s with ctl.bank := !s.ctl.bank }

/-- `QTAB_INIT` (rule R160). -/
def execQtabInit (s : State) : Host.Outcome State Fault Refusal := .next (qtabInit s)

/-- `BUILD_CASCADE` (rule R165). -/
def execBuildCascade (band : BitVec 3) (s : State) : Host.Outcome State Fault Refusal := .next (buildCascade band s)

/-- `FILTER_BLOCK` (rule R170). -/
def execFilterBlock (s : State) : Host.Outcome State Fault Refusal := .next (filterBlock s)

/-- `CASCADE_SWAP` (rule R175). -/
def execCascadeSwap (s : State) : Host.Outcome State Fault Refusal := .next (cascadeSwap s)

end Sys2Proof.Machine
end

