-- ==== Sys2Proof/Machine/Reverb.lean ====
section
/-! DEFINITION. The reverb delay line (rules R210 to R216). -/

namespace Sys2Proof.Machine

open Sys2Proof

/-- `g = ACT.DECAY + 1` (rule R210). -/
def decayDivisor (c : CfgRegs) : Int := c.decay.toNat + 1

/-- One sample of `RV_BLOCK` (rule R210): input plus the attenuated delayed sample, saturated. -/
def rvSample (g : Int) (x d : S16) : S16 := sat16 (x.toInt + tdiv d.toInt g)

/-- The loop of `RV_BLOCK`: the samples, the delay line and the tap after the last (rule R210). -/
def rvLoop (g : Int) (len : Nat) : List S16 → Nat → List S16 → List S16 × List S16 × Nat
  | dl, tap, [] => ([], dl, tap)
  | dl, tap, x :: xs =>
    let y := rvSample g x (dl.getD tap 0)
    let (ys, dl', tap') := rvLoop g len (dl.set tap y) ((tap + 1) % len) xs
    (y :: ys, dl', tap')

/-- `RV_BLOCK` (rule R210). -/
def rvBlock (s : State) : State :=
  let r := rvLoop (decayDivisor s.act) s.hw.reverbLen s.dl s.rvTap s.wb
  { s with wb := r.1, dl := r.2.1, rvTap := r.2.2 }

/-- `RV_CLEAR` (rule R216). -/
def rvClear (s : State) : State := { s with dl := List.replicate s.hw.reverbLen 0, rvTap := 0 }

/-- `RV_BLOCK` (rule R210). -/
def execRvBlock (s : State) : Host.Outcome State Fault Refusal := .next (rvBlock s)

/-- `RV_CLEAR` (rule R216). -/
def execRvClear (s : State) : Host.Outcome State Fault Refusal := .next (rvClear s)

end Sys2Proof.Machine
end

