-- ==== Sys2Proof/Machine/RingMod.lean ====
section
/-! DEFINITION. The ring-modulation oscillator (rules R190 to R197). -/

namespace Sys2Proof.Machine

open Sys2Proof

/-- `L = sr div f` (rule R190). -/
def toneLen (sr f : BitVec 32) : Nat := sr.toNat / f.toNat

/-- `rm_legal` (rule R191). -/
def rmLegal (tableMax : Nat) (sr f : BitVec 32) (amp : BitVec 16) : Bool :=
  decide (1 ≤ f.toNat ∧ 1 ≤ amp.toNat ∧ amp.toNat ≤ 32767 ∧ 1 ≤ toneLen sr f ∧ toneLen sr f ≤ tableMax)

/-- `trunc(A * sin(2 * pi * k / L))` under the format, each operation rounded (rule R190), narrowed by `f2s` (assumption
log 27). That the u16 `A` and the integers `k` and `L` become values of the format before the operations is the model's
reading: no rule states the conversion (DESIGN CHOICE, assumption log 31); every legal amplitude is a value of every
format. -/
def sineEntry (f : FloatFmt) (amp len k : Nat) : S16 :=
  let g := finiteFmt f
  f2s g (fMul g (.num (g.ofNat amp)) (sinTurn f k len))

/-- The table of length `L` (rule R190). -/
def sineTable (f : FloatFmt) (amp len : Nat) : List S16 := (List.range len).map (sineEntry f amp len)

/-- `RM_TABLE_GEN` (rule R190). -/
def rmTableGen (s : State) : State :=
  let sr := s.act.sampleRate
  let f := s.act.toneFreq
  let amp := s.act.toneAmp
  let s := { s with rmSr := sr, rmFreq := f, rmAmp := amp }
  if rmLegal s.hw.rmTableMax sr f amp then
    let len := toneLen sr f
    { s with
      sine := sineTable (floatFmt s) amp.toNat len ++ s.sine.drop len
      rmLen := len
      rmPhase := 0
      rmValid := true }
  else
    raise { s with rmValid := false, rmLen := 0, rmPhase := 0 } (.configOutOfRange .toneTable)

/-- When a rebuild regenerates the table (rule R192). -/
def rmStale (s : State) : Bool :=
  rmEn s.act && (s.act.sampleRate != s.rmSr || s.act.toneFreq != s.rmFreq || s.act.toneAmp != s.rmAmp)

/-- One sample of `RM_BLOCK` (rule R195). -/
def rmSample (x entry : S16) (amp : BitVec 16) : S16 := sat16 (tdiv (x.toInt * entry.toInt) amp.toNat)

/-- The loop of `RM_BLOCK` from a phase on: the samples and the phase after the last (rule R195). -/
def rmLoop (sine : List S16) (len : Nat) (amp : BitVec 16) : Nat → List S16 → List S16 × Nat
  | phase, [] => ([], phase)
  | phase, x :: xs =>
    let (ys, last) := rmLoop sine len amp ((phase + 1) % len) xs
    (rmSample x (sine.getD phase 0) amp :: ys, last)

/-- `RM_BLOCK` (rule R195). It requires `RM_VALID` = 1; with `RM_VALID` = 0 nothing changes (95_test_vectors V33,
assumption log 24). -/
def rmBlock (s : State) : State :=
  if s.rmValid then
    let r := rmLoop s.sine s.rmLen s.rmAmp s.rmPhase s.wb
    { s with wb := r.1, rmPhase := r.2 }
  else s

/-- `RM_TABLE_GEN` (rule R190). -/
def execRmTableGen (s : State) : Host.Outcome State Fault Refusal := .next (rmTableGen s)

/-- `RM_BLOCK` (rule R195). -/
def execRmBlock (s : State) : Host.Outcome State Fault Refusal := .next (rmBlock s)

end Sys2Proof.Machine
end

