-- ==== Sys2Proof/Machine/Chain.lean ====
section
/-! DEFINITION. The Effect Chain Pipeline (rules R230 to R254). -/

namespace Sys2Proof.Machine

open Sys2Proof

/-- One sample of `VOL_BLOCK` (rule R231). -/
def volSample (v : Int) (x : S16) : S16 :=
  if v = 0 then 0
  else if 0 < v then sat16 (x.toInt * v)
  else BitVec.ofInt 16 (tdiv x.toInt (-v))

/-- `VOL_BLOCK` (rule R231). -/
def volBlock (s : State) : State := { s with wb := s.wb.map (volSample s.act.volFactor.toInt) }

/-- `PITCH_BLOCK` (rule R236): the block is replaced by the one the external transform returns. -/
def pitchBlock (s : State) : State :=
  let (s, b) := takePitch s
  let b := portBlock (blockLen s) b
  { recordPv s (.process s.wb b) with wb := b }

/-- One sample of `CLIP_BLOCK` under the format, in the printed order of operations (rule R240). -/
def clipSample (f : FloatFmt) (cf : RealVal) (w : S16) : S16 :=
  let x := fDiv f (s2f w) (.num 32768)
  let z := fMul f x cf
  let den := fAdd f (.num 1) (fMul f (fMul f (f.round clipK) z) z)
  let y := fDiv f (fMul f (fDiv f (.num 1) cf) z) den
  f2s f (fMul f y (.num 32768))

/-- `CLIP_BLOCK` (rule R240). -/
def clipBlock (s : State) : State := { s with wb := s.wb.map (clipSample (floatFmt s) s.act.clipFactor) }

/-- `v > top` for a finite `v` (rule R241). -/
def realExceeds (v : Rat) (top : RealVal) : Bool :=
  match top with
  | .num t => decide (t < v)
  | .posInf | .nan => false
  | .negInf => true

/-- The clip factor on the copy `ACT <- CFG` (rule R241), and the condition raised. The bound is the format's value of
`CLIP_MAX` (rule R9, assumption log 26). -/
def clampClip (f : FloatFmt) (v : RealVal) : List LogRecord × RealVal :=
  match v with
  | .num q =>
    if q < 1 then ([.configOutOfRange .clipClamp], .num 1)
    else if realExceeds q (f.round clipMax) then ([.configOutOfRange .clipClamp], f.round clipMax)
    else ([], v)
  | .posInf | .negInf | .nan => ([.configOutOfRange .clipClamp], .num 1)

/-- An operation performed under a condition. -/
def doIf (c : Bool) (f : State → State) (s : State) : State := if c then f s else s

/-- The part of the chain the bypass flag skips besides clipping (rule R250). -/
def frontEffects (s : State) : State :=
  let s := doIf (anyBandEn s.act) filterBlock s
  let s := doIf (rmEn s.act && s.rmValid) rmBlock s
  doIf (rvEn s.act) rvBlock s

/-- `APPLY_EFFECTS` (rule R250). -/
def applyEffects (s : State) : State :=
  let s := doIf (!bypass s.act) frontEffects s
  let s := volBlock s
  let s := doIf (s.act.pitchRatio != .num 1) pitchBlock s
  doIf (!bypass s.act && clipEn s.act) clipBlock s

/-- `VOL_BLOCK` (rule R231). -/
def execVolBlock (s : State) : Host.Outcome State Fault Refusal := .next (volBlock s)

/-- `PITCH_BLOCK` (rule R236). -/
def execPitchBlock (s : State) : Host.Outcome State Fault Refusal := .next (pitchBlock s)

/-- `CLIP_BLOCK` (rule R240). -/
def execClipBlock (s : State) : Host.Outcome State Fault Refusal := .next (clipBlock s)

/-- `APPLY_EFFECTS` (rule R250). -/
def execApplyEffects (s : State) : Host.Outcome State Fault Refusal := .next (applyEffects s)

end Sys2Proof.Machine
end

