-- ==== Sys2Proof/Machine/Task.lean ====
section
/-! DEFINITION. The Task's steps: rebuild, wake, initialisation, the four action loops and the exit (rules R308 to
R340). -/

namespace Sys2Proof.Machine

open Sys2Proof

/-! ## Rebuild -/

/-- `ACT <- CFG`, every register at once, the clip factor through rule R241 (rules R31, R320). -/
def snapshotConfig (s : State) : State :=
  let cf := clampClip (floatFmt s) s.cfg.clipFactor
  raiseAll { s with act := { s.cfg with clipFactor := cf.2 } } cf.1

/-- `PV.init(ACT.SAMPLE_RATE, ACT.PITCH_RATIO)` (rule R237). -/
def pvInit (s : State) : State := recordPv s (.init s.act.sampleRate s.act.pitchRatio)

/-- `TASK_REBUILD` (rule R320), one atomic step. -/
def taskRebuild (s : State) : State :=
  let s := snapshotConfig s
  let s := Band.all.foldl buildCascadeOf s
  let s := cascadeSwap s
  let s := doIf (rmStale s) rmTableGen s
  let s := doIf (s.act.pitchRatio != .num 1) pvInit s
  { s with ctl.updPend := false }

/-- A pending update is served (rules R308, R325). -/
def servePending (s : State) : State := doIf s.ctl.updPend taskRebuild s

/-! ## Wake and initialisation -/

/-- `TASK_WAKE` where it is enabled (rule R308). -/
def taskWake (s : State) : State :=
  let s := servePending { s with ctl.wake := false }
  if s.ctl.permit then s else setPhase s .init

/-- The entry action of an action (rule R311). -/
def entryAction (a : ReqCode) (s : State) : State :=
  match a with
  | .record => { s with wrCur := 0, recEnd := 0 }
  | .play => { s with rdCur := 0 }
  | .downloadWav => { s with rdCur := 0, ctl.hdrSent := false }
  | .passthru | .none | .updateConfig | .stop => s

/-- `HWI.init(...)` (rule R310): the environment answers. -/
def hwiInit (s : State) : State × HwiAnswer :=
  let (s, a) := takeHwi s
  ({ s with ports.hwi := s.ports.hwi ++ [⟨s.act.micRoute, s.act.ampRoute, s.ctl.action, a⟩] }, a)

/-- The outcome of the initialisation: an export asks no hardware (rule R310). -/
def initAnswer (s : State) : State × HwiAnswer := if s.ctl.action = .downloadWav then (s, .ok) else hwiInit s

/-- What each outcome of the initialisation leads to (rule R310). -/
def afterInit (s : State) (r : HwiAnswer) : State :=
  match r with
  | .ok =>
    let s := entryAction s.ctl.action s
    { s with ctl := { s.ctl with feedback := true, phase := .loop } }
  | .fail => setPhase (raise s (.hwInitFailure s.ctl.action .fail)) .exit
  | .unsupported =>
    setPhase (raise { s with ctl.ioDisabled := true } (.hwInitFailure s.ctl.action .unsupported)) .exit

/-- `TASK_INIT` where it is enabled (rule R310). -/
def taskInit (s : State) : State := afterInit (initAnswer s).1 (initAnswer s).2

/-! ## The loops -/

/-- The block boundary (rule R325): a pending update is served, then the stop flag is sampled. The second part says
whether the loop goes on. -/
def boundary (s : State) : State × Bool :=
  let s := servePending s
  if s.ctl.stop then (setPhase s .exit, false) else (s, true)

/-- A loop step: the boundary, then one block (rules R325, R330 to R333). -/
def loopStep (body : State → Host.Outcome State Fault Refusal) (s : State) : Host.Outcome State Fault Refusal :=
  if (boundary s).2 then body (boundary s).1 else .next (boundary s).1

/-- The recording of a finished block at the end of a Record loop step (rule R330). -/
def recordOrExit (s : State) : State :=
  match recordBlock s with
  | (s, .capFull) => setPhase (raise s (.capacityExhausted s.wrCur)) .exit
  | (s, .ok) => s
  | (s, .endOfData) => s

/-- A Record loop step from its input block on (rule R330). -/
def recordBody (h : List HwSample) (s : State) : State :=
  let s := normIn h s
  let s := doIf (!fxStage s.act) applyEffects s
  let s := stageBlock s
  let s := doIf s.hw.monitorRec (fun s => writeOut (denormOut s) s) s
  recordOrExit s

/-- A Passthru loop step from its input block on (rule R332). -/
def passthruBody (h : List HwSample) (s : State) : State :=
  let s := normIn h s
  let s := applyEffects s
  let s := stageBlock s
  writeOut (denormOut s) s

/-- A Play loop step after its block was read (rule R331). -/
def playBody (s : State) : State :=
  let s := doIf (fxStage s.act) applyEffects s
  let s := stageBlock s
  writeOut (denormOut s) s

/-- An Export loop step after its block was read (rule R333). -/
def exportBody (s : State) : State :=
  let s := doIf (fxStage s.act) applyEffects s
  emitChunk s (blockToBytes s.wb)

/-- The header step of an export (rules R285, R333). -/
def exportHeader (s : State) : Host.Outcome State Fault Refusal :=
  andThen (buildWavHeader s) fun s =>
    .next { emitChunk s (memReadBytes s.rb 0 44) with ctl := { s.ctl with hdrSent := true } }

/-- One block read from the input port and handled; a time-out ends the step (rules R326, R330, R332). -/
def withInput (body : List HwSample → State → State) (s : State) : Host.Outcome State Fault Refusal :=
  match readIn s with
  | (s, .timeout) => .next s
  | (s, .block h) => .next (body h s)

/-- One block read from the Recording Buffer and handled; the end of the data ends the action (rules R331, R333). -/
def withStored (body : State → State) (s : State) : Host.Outcome State Fault Refusal :=
  andThen (readBlock s) fun r =>
    match r.2 with
    | .ok => .next (body r.1)
    | .endOfData | .capFull => .next (setPhase r.1 .exit)

/-- A step that may stop, taken only where it is enabled (rule R348; assumption log 11). -/
def stepWhenEnabled (i : Instr) (f : State → Host.Outcome State Fault Refusal) (s : State) :
    Host.Outcome State Fault Refusal :=
  if enabledStep s = some i then f s else .next s

/-! ## Exit -/

/-- `TASK_EXIT` where it is enabled (rule R340). -/
def taskExit (s : State) : State :=
  releaseAction (if s.ctl.action = .record then { s with recEnd := s.wrCur } else s)

/-! ## The operations -/

/-- `TASK_WAKE` (rule R308). -/
def execTaskWake (s : State) : Host.Outcome State Fault Refusal := .next (whenEnabled .taskWake taskWake s)

/-- `TASK_INIT` (rule R310). -/
def execTaskInit (s : State) : Host.Outcome State Fault Refusal := .next (whenEnabled .taskInit taskInit s)

/-- `LOOP_RECORD` (rule R330). -/
def execLoopRecord (s : State) : Host.Outcome State Fault Refusal :=
  stepWhenEnabled .loopRecord (loopStep (withInput recordBody)) s

/-- `LOOP_PLAY` (rule R331). -/
def execLoopPlay (s : State) : Host.Outcome State Fault Refusal :=
  stepWhenEnabled .loopPlay (loopStep (withStored playBody)) s

/-- `LOOP_PASSTHRU` (rule R332). -/
def execLoopPassthru (s : State) : Host.Outcome State Fault Refusal :=
  stepWhenEnabled .loopPassthru (loopStep (withInput passthruBody)) s

/-- `LOOP_EXPORT` (rule R333). -/
def execLoopExport (s : State) : Host.Outcome State Fault Refusal :=
  stepWhenEnabled .loopExport
    (loopStep fun s => if s.ctl.hdrSent then withStored exportBody s else exportHeader s) s

/-- `TASK_EXIT` (rule R340). -/
def execTaskExit (s : State) : Host.Outcome State Fault Refusal := .next (whenEnabled .taskExit taskExit s)

/-- `TASK_REBUILD` (rule R320). -/
def execTaskRebuild (s : State) : Host.Outcome State Fault Refusal := .next (taskRebuild s)

end Sys2Proof.Machine
end

