-- ==== Sys2Proof/Machine/Dispatch.lean ====
section
/-! DEFINITION. One arm per operation of spec/opcode_table.json. -/

namespace Sys2Proof.Machine

def exec (i : Instr) (s : State) : Host.Outcome State Fault Refusal :=
  match i with
  -- the Requester and the Configurator
  | .reqNone => Sys2Proof.Machine.execReqNone s
  | .reqUpdateConfig => Sys2Proof.Machine.execReqUpdateConfig s
  | .reqRecord => Sys2Proof.Machine.execReqRecord s
  | .reqPlay => Sys2Proof.Machine.execReqPlay s
  | .reqPassthru => Sys2Proof.Machine.execReqPassthru s
  | .reqDownloadWav => Sys2Proof.Machine.execReqDownloadWav s
  | .reqStop => Sys2Proof.Machine.execReqStop s
  | .cfgWrite rr => Sys2Proof.Machine.execCfgWrite rr s
  -- the filters
  | .bqConfigure band stage => Sys2Proof.Machine.execBqConfigure band stage s
  | .bqProcess band stage => Sys2Proof.Machine.execBqProcess band stage s
  | .buildCascade band => Sys2Proof.Machine.execBuildCascade band s
  | .qtabInit => Sys2Proof.Machine.execQtabInit s
  | .filterBlock => Sys2Proof.Machine.execFilterBlock s
  | .cascadeSwap => Sys2Proof.Machine.execCascadeSwap s
  -- the other effects
  | .rmTableGen => Sys2Proof.Machine.execRmTableGen s
  | .rmBlock => Sys2Proof.Machine.execRmBlock s
  | .rvBlock => Sys2Proof.Machine.execRvBlock s
  | .rvClear => Sys2Proof.Machine.execRvClear s
  | .volBlock => Sys2Proof.Machine.execVolBlock s
  | .pitchBlock => Sys2Proof.Machine.execPitchBlock s
  | .clipBlock => Sys2Proof.Machine.execClipBlock s
  | .applyEffects => Sys2Proof.Machine.execApplyEffects s
  -- the sample buffer
  | .normIn => Sys2Proof.Machine.execNormIn s
  | .denormOut => Sys2Proof.Machine.execDenormOut s
  | .recordBlock => Sys2Proof.Machine.execRecordBlock s
  | .readBlock => Sys2Proof.Machine.execReadBlock s
  | .buildWavHeader => Sys2Proof.Machine.execBuildWavHeader s
  -- the Task and the Bridge
  | .taskWake => Sys2Proof.Machine.execTaskWake s
  | .taskInit => Sys2Proof.Machine.execTaskInit s
  | .loopRecord => Sys2Proof.Machine.execLoopRecord s
  | .loopPlay => Sys2Proof.Machine.execLoopPlay s
  | .loopPassthru => Sys2Proof.Machine.execLoopPassthru s
  | .loopExport => Sys2Proof.Machine.execLoopExport s
  | .taskExit => Sys2Proof.Machine.execTaskExit s
  | .taskRebuild => Sys2Proof.Machine.execTaskRebuild s
  | .bridgePoll => Sys2Proof.Machine.execBridgePoll s

end Sys2Proof.Machine
end

