-- ==== Sys2Proof/Machine/Fetch.lean ====
section
/-! DEFINITION. Which operation the next step performs: the scheduled turn, or the Task's enabled step (rules R85,
R107, R348). -/

namespace Sys2Proof.Machine

open Sys2Proof

/-- The turn at the head of the schedule is used up. -/
def dropTurn (s : State) : State := { s with turns := s.turns.tail }

/-- The operands beside a directly named operation are put on (rule R109). -/
def withBeside (s : State) (b : Beside) : State := { s with beside := b }

/-- The value of a CFGP transaction is put beside the word (rules R109, R112). -/
def withCfgValue (s : State) (v : CfgValue) : State := { s with beside.cfgValue := v }

/-- The operation a word names, whichever agent issues it (rule R107). -/
def operationOfWord (w : CmdWord) : Option Instr :=
  match decode w with
  | .ok i => some i
  | .error _ => none

/-- A directly named word scheduled as the very next step, its operands those that stand beside now. -/
def scheduleWord (s : State) (w : CmdWord) : State := { s with turns := .drive w s.beside :: s.turns }

/-- The convenience `CONFIGURE ...` of rule R119: the listed writes in order, then `REQ_UPDATECONFIG`. -/
def configureTurns (writes : List (CfgReg × CfgValue)) : List Turn :=
  writes.map (fun p => .config (encode (.cfgWrite (cfgRegNumber p.1))) p.2) ++ [.request (encode .reqUpdateConfig)]

/-- The request a button interrupt is wired to (rule R375). -/
def buttonRequest (b : Button) : Instr :=
  match b with
  | .record => .reqRecord
  | .play => .reqPlay
  | .pass => .reqPassthru
  | .stop => .reqStop

/-- The step a button interrupt takes (rules R375, R380): it posts its request and does nothing else. -/
def buttonTurn (b : Button) : Turn := .request (encode (buttonRequest b))

end Sys2Proof.Machine
end

