-- ==== Sys2Proof/Machine/Step.lean ====
section
/-! DEFINITION. One step of the machine (rules R85, R107, R116, R348), and how a word comes to be the next step. -/

namespace Sys2Proof.Machine

open Sys2Proof

/-- The Task's turn: its enabled step (rule R348); where it has none it stays blocked (rule R96). -/
def taskStep (s : State) : Host.Outcome State Fault Refusal :=
  match enabledStep s with
  | some i => exec i s
  | none => .next s

/-- One step (rule R85): the scheduled turn is taken, and with no turn scheduled the Task moves. A word that is no
request (on REQ), no configuration write (on CFGP) or no operation at all is refused with a log record (rule R116). -/
def step (s : State) : Host.Outcome State Fault Refusal :=
  match s.turns with
  | [] => taskStep s
  | .task :: _ => taskStep (dropTurn s)
  | .bridge :: _ => exec .bridgePoll (dropTurn s)
  | .request w :: _ =>
    match requestOfWord w with
    | some i => exec i (dropTurn s)
    | none => .next (rejectOnReq w (dropTurn s))
  | .config w v :: _ =>
    match configOfWord w with
    | some i => exec i (withCfgValue (dropTurn s) v)
    | none => .next (rejectOnCfgp w v (dropTurn s))
  | .drive w b :: _ =>
    match operationOfWord w with
    | some i => exec i (withBeside (dropTurn s) b)
    | none => .next (refuseReserved (dropTurn s) w)

/-- The word `w` stored where the step fetches its next operation: at the head of the schedule (assumption
log 10). -/
def State.withFetchWord (s : State) (_nbits w : Nat) : State := scheduleWord s (BitVec.ofNat 16 w)

end Sys2Proof.Machine
end

