-- ==== Sys2Proof/Safety.lean ====
section
/-! DEFINITION. What a safe run of VC-DSP is: the invariants of the spec (rules R21 to R30, R33, R36, R41, R42, R62,
R71, R76, R163, R384, R411), runs of several steps, and the vocabulary of the statements. -/

namespace Sys2Proof.Machine

open Sys2Proof

/-! ## Runs -/

/-- `n` steps in a row. -/
def runSteps : Nat → State → Host.Outcome State Fault Refusal
  | 0, s => .next s
  | n + 1, s => andThen (step s) (runSteps n)

/-- A step that stops neither in a fault nor in a refusal. -/
def Completes (o : Host.Outcome State Fault Refusal) : Prop := ∃ t, o = .next t

/-- A function applied to the next state, if there is one. -/
def mapNext (f : State → State) (o : Host.Outcome State Fault Refusal) : Host.Outcome State Fault Refusal :=
  andThen o fun s => .next (f s)

/-! ## The invariants -/

/-- Every memory has its length, and every index lies in its memory (rules R23, R25 to R29, R62, R70, R76, R163). -/
structure ShapeInv (s : State) : Prop where
  wb_length : s.wb.length = blockLen s
  stage_length : s.stage.length = blockLen s
  dl_length : s.dl.length = s.hw.reverbLen
  tap_lt : s.rvTap < s.hw.reverbLen
  sine_length : s.sine.length = s.hw.rmTableMax
  qtab_length : s.qtab.length = qtabLen
  qtab_computed : s.qtabValid = true → s.qtab = qvalTable (floatFmt s)
  nst_bank0 : ∀ b, (bandGet s.bank0 b).nst ≤ maxOrder
  nst_bank1 : ∀ b, (bandGet s.bank1 b).nst ≤ maxOrder

/-- A usable tone table is one that rule R191 allows, and its phase is an index of it (rules R27, R190, R191). -/
structure ToneInv (s : State) : Prop where
  len_pos : s.rmValid = true → 1 ≤ s.rmLen
  len_le : s.rmLen ≤ s.hw.rmTableMax
  phase_lt : s.rmValid = true → s.rmPhase < s.rmLen
  amp_pos : s.rmValid = true → 1 ≤ s.rmAmp.toNat
  amp_le : s.rmValid = true → s.rmAmp.toNat ≤ 32767

/-- The cursors (rules R30, R71, R265, R275): the recorded data fit the buffer, the mark is not past the write cursor,
every cursor counts whole blocks, and while a recording is replayed the read cursor is not past the mark. -/
structure CursorInv (s : State) : Prop where
  wrCur_fits : ∀ r, s.hw.bufRoom = some r → s.wrCur.toNat ≤ r.toNat
  wrCur_absent : s.hw.bufRoom = none → s.wrCur = 0
  recEnd_le : s.recEnd.toNat ≤ s.wrCur.toNat
  wrCur_blocks : blockBytes s ∣ s.wrCur.toNat
  recEnd_blocks : blockBytes s ∣ s.recEnd.toNat
  rdCur_blocks : blockBytes s ∣ s.rdCur.toNat
  rdCur_le : s.ctl.phase = .loop → s.ctl.action = .play ∨ s.ctl.action = .downloadWav →
    s.rdCur.toNat ≤ s.recEnd.toNat

/-- The Recording Buffer has its canonical form and no byte outside its address space (rules R30, R70). -/
structure BufferInv (s : State) : Prop where
  rb_wf : Memory.wf s.rb = true
  rb_bounded : ∀ c ∈ s.rb, c.1 < bufCap s

/-- The controller (rules R42, R303, R304, R311, R384, R411): a free permit is Idle, a taken permit has a gated
action, an accepted action or a pending update is never forgotten, and feedback is on exactly from a successful
initialisation on. -/
structure ControlInv (s : State) : Prop where
  idle_phase : s.ctl.permit = true → s.ctl.phase = .wait
  idle_action : s.ctl.permit = true → s.ctl.action = .none
  taken_action : s.ctl.permit = false → isGated s.ctl.action = true
  accepted_wakes : s.ctl.permit = false → s.ctl.phase = .wait → s.ctl.wake = true
  pending_wakes : s.ctl.updPend = true → s.ctl.wake = true
  loop_feedback : s.ctl.phase = .loop → s.ctl.feedback = true
  feedback_phase : s.ctl.feedback = true → s.ctl.phase = .loop ∨ s.ctl.phase = .exit
  table_first : s.ctl.phase ≠ .wait → s.qtabValid = true
  buffer_needed : needsBuffer s.ctl.action = true → bufPresent s = true

/-- The configuration registers (rules R33, R36, R241): the reserved bits of CTRL_EN are 0, and the active clip factor
is a finite number between 1 and the format's value of `CLIP_MAX`. -/
structure ConfigInv (s : State) : Prop where
  cfg_reserved : s.cfg.ctrlEn.extractLsb' 11 5 = 0
  act_reserved : s.act.ctrlEn.extractLsb' 11 5 = 0
  act_clip : ∃ q top, s.act.clipFactor = .num q ∧ (floatFmt s).round clipMax = .num top ∧ 1 ≤ q ∧ q ≤ top

/-- The invariant of the machine. -/
structure MachineInv (s : State) : Prop where
  shape : ShapeInv s
  tone : ToneInv s
  cursor : CursorInv s
  buffer : BufferInv s
  control : ControlInv s
  config : ConfigInv s

/-! ## The vocabulary of the statements -/

/-- No Configurator step falls into the waits of the coming loop steps (rule R86). -/
def NoConfigVisits (e : Env) : Prop :=
  (∀ p ∈ e.inQ, ∀ w x, Visit.config w x ∉ p.1) ∧ (∀ p ∈ e.outQ, ∀ w x, Visit.config w x ∉ p.1) ∧
    ∀ vs ∈ e.copyQ, ∀ w x, Visit.config w x ∉ vs

/-- No step of another agent falls into the coming IN wait, copy and OUT wait (rule R86). -/
def NoVisits (e : Env) : Prop := (∀ p ∈ e.inQ, p.1 = []) ∧ (∀ p ∈ e.outQ, p.1 = []) ∧ ∀ vs ∈ e.copyQ, vs = []

/-- An operation performed under a condition, as the pseudocode of rules R250 and R320 does. -/
def execIf (c : Bool) (i : Instr) (s : State) : Host.Outcome State Fault Refusal := if c then exec i s else .next s

/-- The nearest value of the range of an s16 (rule R12), stated without the model's `sat16`. -/
def clampS16 (n : Int) : Int := max (-32768) (min 32767 n)

/-- The value of `l` `k` places before place `n`, and 0 before its beginning. -/
def past (l : List Rat) (n k : Nat) : Rat := if k ≤ n then l.getD (n - k) 0 else 0

/-- The gain a reference stage has at `Fc` = 0.5 (the last column of the table of rule R150). -/
def nyquistGain (typ : BqType) (boost : Bool) (v : Rat) : Rat :=
  match typ with
  | .lowpass | .notch | .peak | .highshelf => 1
  | .highpass | .bandpass => 0
  | .lowshelf => if boost then v else 1 / v

/-- The outputs of one stage fed a sequence of samples (rules R140, R141 (c)). -/
def stageRun (f : FloatFmt) : Stage → List RealVal → List RealVal
  | _, [] => []
  | st, x :: xs => (processStage f st x).2 :: stageRun f (processStage f st x).1 xs

/-- A stage at rest (rule R141 (a)). -/
def AtRest (st : Stage) : Prop := st.z1 = .num 0 ∧ st.z2 = .num 0

/-- One stage after a sequence of samples (rules R140, R141 (c)). -/
def stageAfter (f : FloatFmt) (st : Stage) (xs : List RealVal) : Stage := xs.foldl (fun st x => (processStage f st x).1) st

/-- Stages in series, each consuming the previous stage's outputs (rules R163, R170). -/
def seriesRun (f : FloatFmt) : List Stage → List RealVal → List RealVal
  | [], xs => xs
  | st :: sts, xs => seriesRun f sts (stageRun f st xs)

/-- What one band makes of a block (rules R170, R171 (a), (b)): `s2f` on entry, its stages in series, `f2s` on leaving;
a band that is disabled or empty does nothing. -/
def bandOutput (s : State) (wb : List S16) (b : Band) : List S16 :=
  let c := bandGet (activeBank s) b
  if s.act.ctrlEn.getLsbD b.index = true ∧ 0 < c.nst then
    (seriesRun (floatFmt s) (c.stages.toList.take c.nst) (wb.map s2f)).map (f2s (floatFmt s))
  else wb

/-- The working block after the given bands, one after the other (rule R170). -/
def blockAfter (s : State) (bs : List Band) : List S16 := bs.foldl (bandOutput s) s.wb

/-- The criterion of rule R142 for bounded-input bounded-output stability. -/
def StableCoefs (c : Coefs) : Prop :=
  ∃ b1 b2 : Rat, c.b1 = .num b1 ∧ c.b2 = .num b2 ∧ |b2| < 1 ∧ |b1| < 1 + b2

/-! ## What rule R134 asks of DESIGN, over the reals

Named properties of a design function: a claim about a block whose `DESIGN` is not the reference instance takes the ones
it needs as hypotheses (rule R134, entry U2). A transfer function is written at `z = e^(j 2 pi f)` through
`w = tan(pi f)`: its numerator and its denominator, times `(1 + j w)^2`, are polynomials in `w`. -/

/-- The real part of `c0 + c1 z^-1 + c2 z^-2`, times `(1 + j w)^2`. -/
def respRe (c0 c1 c2 w : Rat) : Rat := (c0 + c2) * (1 - w ^ 2) + c1 * (1 + w ^ 2)

/-- Its imaginary part. -/
def respIm (c0 c2 w : Rat) : Rat := 2 * w * (c0 - c2)

/-- The gain of a type at zero frequency (rules R143 to R149); `v` is the amplitude ratio of the gain setting. -/
def dcGain (typ : BqType) (boost : Bool) (v : Rat) : Rat :=
  match typ with
  | .lowpass | .notch | .peak | .highshelf => 1
  | .highpass | .bandpass => 0
  | .lowshelf => if boost then v else 1 / v

/-- The gain of a type at the Nyquist frequency (rules R143 to R149). -/
def nyquistSideGain (typ : BqType) (boost : Bool) (v : Rat) : Rat :=
  match typ with
  | .highpass | .notch | .peak | .lowshelf => 1
  | .lowpass | .bandpass => 0
  | .highshelf => if boost then v else 1 / v

/-- The gain at the centre frequency, for the types that have one (rules R145 to R147). -/
def centreGain (typ : BqType) (boost : Bool) (v : Rat) : Option Rat :=
  match typ with
  | .bandpass => some 1
  | .notch => some 0
  | .peak => some (if boost then v else 1 / v)
  | .lowpass | .highpass | .lowshelf | .highshelf => none

/-- A polynomial `c2 s^2 + c1 s + c0` of the analog frequency `s`, in units of the cutoff. -/
structure Analog where
  c2 : Rat
  c1 : Rat
  c0 : Rat
deriving DecidableEq, Repr

/-- Its real part at `s = j u`. -/
def Analog.re (p : Analog) (u : Rat) : Rat := p.c0 - p.c2 * u ^ 2

/-- Its imaginary part at `s = j u`. -/
def Analog.im (p : Analog) (u : Rat) : Rat := p.c1 * u

/-- The analog response of each type, as numerator and denominator: the second-order response with the cutoff or centre
at 1, quality `q` (for the shelves the `R2` of rule R135 stands for it) and, for peak and shelf types, the gain `v` or
`1 / v`. The equations of rules R143 to R149 are its bilinear transform. -/
def analogResponse (typ : BqType) (boost : Bool) (v r2 s2v q : Rat) : Analog × Analog :=
  let resonant : Analog := ⟨1, 1 / q, 1⟩
  let flat : Analog := ⟨1, r2, 1⟩
  let shaped := fun (up down : Analog) => if boost then (up, down) else (down, up)
  match typ with
  | .lowpass => (⟨0, 0, 1⟩, resonant)
  | .highpass => (⟨1, 0, 0⟩, resonant)
  | .bandpass => (⟨0, 1 / q, 0⟩, resonant)
  | .notch => (⟨1, 0, 1⟩, resonant)
  | .peak => shaped ⟨1, v / q, 1⟩ resonant
  | .lowshelf => shaped ⟨1, s2v, v⟩ flat
  | .highshelf => shaped ⟨v, s2v, 1⟩ flat

/-- Property (i) of rule R134, as rules R143 to R149 print it (the reading of "named response" and of "bilinear-transform-
style" is the model's, assumption log 4): at every frequency the response is that of the named analog response with the
tangent of the cutoff for its unit, which fixes the cutoff or centre, the quality and the gain; so it has the gain that
those rules name at zero frequency, at the Nyquist frequency and, where the type has one, at its centre. -/
def DesignNamedResponse (f : FloatFmt) (d : DesignFn) : Prop :=
  ∀ (typ : BqType) (fc q g : Rat), 0 < fc → fc < 1 / 2 → 0 < q →
    ∃ k v r2 s2v a0 a1 a2 b1 b2 : Rat, tanPi f fc = .num k ∧ 0 < k ∧ decibel f g = .num v ∧
      fSqrt f (.num 2) = .num r2 ∧ fSqrt f (.num (2 * v)) = .num s2v ∧
      d typ fc q g = ⟨.num a0, .num a1, .num a2, .num b1, .num b2⟩ ∧
      (let p := analogResponse typ (decide (0 ≤ g)) v r2 s2v q
        ∀ w : Rat,
          respRe a0 a1 a2 w * p.2.re (w / k) - respIm a0 a2 w * p.2.im (w / k) =
            respRe 1 b1 b2 w * p.1.re (w / k) - respIm 1 b2 w * p.1.im (w / k) ∧
          respRe a0 a1 a2 w * p.2.im (w / k) + respIm a0 a2 w * p.2.re (w / k) =
            respRe 1 b1 b2 w * p.1.im (w / k) + respIm 1 b2 w * p.1.re (w / k)) ∧
      1 + b1 + b2 ≠ 0 ∧ a0 + a1 + a2 = dcGain typ (decide (0 ≤ g)) v * (1 + b1 + b2) ∧
      1 - b1 + b2 ≠ 0 ∧ a0 - a1 + a2 = nyquistSideGain typ (decide (0 ≤ g)) v * (1 - b1 + b2) ∧
      ∀ m, centreGain typ (decide (0 ≤ g)) v = some m →
        respRe a0 a1 a2 k = m * respRe 1 b1 b2 k ∧ respIm a0 a2 k = m * respIm 1 b2 k

/-- Property (ii) of rule R134: the magnitude of a low-pass stage at every frequency is the standard one-pole-pair
magnitude `1 / sqrt((1 - r^2)^2 + (r / Q)^2)` at the frequency ratio `r = tan(pi f) / tan(pi Fc)` (rule R151). -/
def DesignLowpassMagnitude (f : FloatFmt) (d : DesignFn) : Prop :=
  ∀ fc q g : Rat, 0 < fc → fc < 1 / 2 → 0 < q →
    ∃ k a0 a1 a2 b1 b2 : Rat, tanPi f fc = .num k ∧ 0 < k ∧
      d .lowpass fc q g = ⟨.num a0, .num a1, .num a2, .num b1, .num b2⟩ ∧
      ∀ w : Rat, (respRe a0 a1 a2 w ^ 2 + respIm a0 a2 w ^ 2) * ((1 - (w / k) ^ 2) ^ 2 + (w / k / q) ^ 2) =
        respRe 1 b1 b2 w ^ 2 + respIm 1 b2 w ^ 2

/-- Property (iii) of rule R134: at `Fc` = 0.5 a stage at rest answers a bounded input with a bounded output. -/
def DesignStableAtNyquist (f : FloatFmt) (d : DesignFn) : Prop :=
  ∀ (typ : BqType) (q g : Rat), 0 < q → ∃ m : Rat, ∀ (st : Stage) (xs : List Rat) (bound : Rat), AtRest st →
    st.coefs = d typ (1 / 2) q g → (∀ x ∈ xs, |x| ≤ bound) →
    ∃ ys : List Rat, stageRun f st (xs.map .num) = ys.map .num ∧ ∀ y ∈ ys, |y| ≤ m * bound

/-- The three required properties of rule R134 together. -/
structure DesignContract (f : FloatFmt) (d : DesignFn) : Prop where
  response : DesignNamedResponse f d
  magnitude : DesignLowpassMagnitude f d
  stable : DesignStableAtNyquist f d

/-! ## Further vocabulary -/

/-- No port history loses or changes a transaction (rule R60). -/
def HistoriesGrow (p q : Ports) : Prop :=
  p.req <+: q.req ∧ p.cfgp <+: q.cfgp ∧ p.inp <+: q.inp ∧ p.out <+: q.out ∧ p.hwi <+: q.hwi ∧
    p.exported <+: q.exported ∧ p.log <+: q.log ∧ p.tx <+: q.tx ∧ p.pv <+: q.pv

end Sys2Proof.Machine
end

