-- ==== Sys2Proof/WellFormed.lean ====
section
/-! DEFINITION. Which operations are legal: the operand ranges of rules R109 and R116. -/

namespace Sys2Proof

/-- An operation whose operands are in the legal ranges of rule R109: a register number that names a register
(rule R110), a band 0 .. 5, a stage 0 .. 9. -/
def wellFormed : Instr → Bool
  | .cfgWrite rr => (cfgRegOfNumber rr).isSome
  | .bqConfigure band stage => (bandOfCode band).isSome && (stageOfCode stage).isSome
  | .bqProcess band stage => (bandOfCode band).isSome && (stageOfCode stage).isSome
  | .buildCascade band => (bandOfCode band).isSome
  | .reqNone | .reqUpdateConfig | .reqRecord | .reqPlay | .reqPassthru | .reqDownloadWav | .reqStop => true
  | .qtabInit | .filterBlock | .cascadeSwap | .rmTableGen | .rmBlock | .rvBlock | .rvClear => true
  | .volBlock | .pitchBlock | .clipBlock | .applyEffects => true
  | .normIn | .denormOut | .recordBlock | .readBlock | .buildWavHeader => true
  | .taskWake | .taskInit | .loopRecord | .loopPlay | .loopPassthru | .loopExport | .taskExit | .taskRebuild => true
  | .bridgePoll => true

end Sys2Proof
end

