-- ==== Sys2Proof/Certificates/Slice0/Obligations.lean ====
section
/-! DEFINITION. The statements for the provers: what the numbered rules of spec/ say the operations and the machine do.
Where a statement says that an operation answers `.next t` under hypotheses on the state and the operands alone, it is
also the completion statement of the operations it names. -/

open Sys2Proof Sys2Proof.Machine

/-! ## Encoding (rules R100 to R117) -/

/-- Rules R107 to R110: the decoder gives back every well-formed operation from its command word. -/
def Obligations.DecodeGivesBackEveryOperation : Prop :=
  ∀ i : Instr, wellFormed i = true → decode (encode i) = .ok i

/-- Rules R108, R109, R117: a word that decodes is the command word of the operation it decodes to, and that operation
is well-formed: every word has one meaning. -/
def Obligations.DecodedWordIsItsEncoding : Prop :=
  ∀ (w : CmdWord) (i : Instr), decode w = .ok i → encode i = w ∧ wellFormed i = true

/-- Words of the spec's own decoding vector V55 (rules R101 to R110, R116), one of each group. -/
def Obligations.SpecWordsDecodeRight : Prop :=
  decode 0x0002 = .ok .reqRecord ∧ decode 0x1018 = .ok (.cfgWrite 0x18) ∧
    cfgRegOfNumber 0x18 = some (.band .lp .freq) ∧ cfgRegOfNumber 0x27 = some (.band .pk .order) ∧
    decode 0x2021 = .ok (.bqConfigure 2 1) ∧ decode 0x2159 = .ok (.bqProcess 5 9) ∧
    decode 0x2205 = .ok (.buildCascade 5) ∧ decode 0x3100 = .ok .rmBlock ∧ decode 0x4000 = .ok .rvBlock ∧
    decode 0x5300 = .ok .applyEffects ∧ decode 0x6400 = .ok .buildWavHeader ∧ decode 0x7400 = .ok .loopPassthru ∧
    decode 0x8000 = .ok .bridgePoll ∧ decode 0x0007 = .error .reservedRequest ∧
    decode 0x1028 = .error .reservedRegister ∧ decode 0x2161 = .error .reservedBand ∧
    decode 0x212A = .error .reservedStage ∧ decode 0x9000 = .error .reservedGroup

/-! ## The step (rules R85, R116, R348) -/

/-- Rules R85, R107: a step runs the decoded operation. A directly named word runs with its operands beside it, a
request and a configuration write as they stand on their ports; a word that `withFetchWord` places runs in the very
state it was placed in (the schedule of turns and the operands beside the word are the model's: assumption log 9, 10,
12). -/
def Obligations.StepRunsTheDecodedOperation : Prop :=
  (∀ (s : State) (w : CmdWord) (b : Beside) (ts : List Turn) (i : Instr), s.turns = .drive w b :: ts →
      decode w = .ok i → step s = exec i { s with turns := ts, beside := b }) ∧
    (∀ (s : State) (w : CmdWord) (ts : List Turn) (i : Instr), s.turns = .request w :: ts → decode w = .ok i →
      i.issuer = .requester → step s = exec i { s with turns := ts }) ∧
    (∀ (s : State) (w : CmdWord) (v : CfgValue) (ts : List Turn) (i : Instr), s.turns = .config w v :: ts →
      decode w = .ok i → i.issuer = .configurator →
      step s = exec i { s with turns := ts, beside := { s.beside with cfgValue := v } }) ∧
    (∀ (s : State) (ts : List Turn), s.turns = .bridge :: ts → step s = exec .bridgePoll { s with turns := ts }) ∧
    ∀ (s : State) (w : CmdWord) (i : Instr), decode w = .ok i → step (s.withFetchWord 16 w.toNat) = exec i s

/-- Rule R348: the Task's one enabled step. It is what the machine does when no other agent is scheduled, and what a
scheduled turn of the Task does. -/
def Obligations.TaskTakesItsEnabledStep : Prop :=
  (∀ s : State, enabledStep s ≠ some .taskRebuild) ∧
    ∀ s u : State, (s.turns = [] ∧ u = s) ∨ (∃ ts, s.turns = .task :: ts ∧ u = { s with turns := ts }) →
      (u.qtabValid = false → step s = exec .qtabInit u) ∧
      (u.qtabValid = true → u.ctl.phase = .wait → u.ctl.wake = true → step s = exec .taskWake u) ∧
      (u.qtabValid = true → u.ctl.phase = .wait → u.ctl.wake = false → step s = .next u) ∧
      (u.qtabValid = true → u.ctl.phase = .init → step s = exec .taskInit u) ∧
      (u.qtabValid = true → u.ctl.phase = .loop → u.ctl.action = .record → step s = exec .loopRecord u) ∧
      (u.qtabValid = true → u.ctl.phase = .loop → u.ctl.action = .play → step s = exec .loopPlay u) ∧
      (u.qtabValid = true → u.ctl.phase = .loop → u.ctl.action = .passthru → step s = exec .loopPassthru u) ∧
      (u.qtabValid = true → u.ctl.phase = .loop → u.ctl.action = .downloadWav → step s = exec .loopExport u) ∧
      (u.qtabValid = true → u.ctl.phase = .exit → step s = exec .taskExit u)

/-- Rule R116: a reserved word changes nothing but the log, and on REQ it is answered `REJ_UNSUPPORTED`. An operation
of another agent presented on REQ or on CFGP is refused the same way (a configuration word on REQ and a request word on
CFGP: assumption log 21). The histories of the ports record the transaction (assumption log 18). -/
def Obligations.ReservedWordsAreRefused : Prop :=
  (∀ (s : State) (w : CmdWord) (ts : List Turn), s.turns = .request w :: ts →
      (∀ i, decode w = .ok i → i.issuer ≠ .requester) →
      step s = .next { s with turns := ts, ports := { s.ports with
        log := s.ports.log ++ [.configOutOfRange (.reservedEncoding w)]
        req := s.ports.req ++ [(w, .rejUnsupported)] } }) ∧
    (∀ (s : State) (w : CmdWord) (v : CfgValue) (ts : List Turn), s.turns = .config w v :: ts →
      (∀ i, decode w = .ok i → i.issuer ≠ .configurator) →
      step s = .next { s with turns := ts, ports := { s.ports with
        log := s.ports.log ++ [.configOutOfRange (.reservedEncoding w)]
        cfgp := s.ports.cfgp ++ [(w, portValue (floatFmt s) v)] } }) ∧
    ∀ (s : State) (w : CmdWord) (b : Beside) (ts : List Turn) (e : DecodeError), s.turns = .drive w b :: ts →
      decode w = .error e →
      step s = .next { s with turns := ts, ports := { s.ports with
        log := s.ports.log ++ [.configOutOfRange (.reservedEncoding w)] } }

/-! ## Requests and configuration writes (rules R303 to R316, R347) -/

/-- Rules R304, R305, R307: the three requests that need no permit, with all that they change. -/
def Obligations.UngatedRequestsAlwaysAccepted : Prop :=
  ∀ s : State,
    exec .reqNone s = .next { s with ports.req := s.ports.req ++ [(0x0000, .accepted)] } ∧
    exec .reqUpdateConfig s = .next { s with
      ctl := { s.ctl with updPend := true, wake := true }
      ports.req := s.ports.req ++ [(0x0001, .accepted)] } ∧
    exec .reqStop s = .next { s with ctl.stop := true, ports.req := s.ports.req ++ [(0x0006, .accepted)] }

/-- Rules R303, R313 to R316, R376: the gated accept procedure, its four outcomes in the order of the tests, with all
that each changes. -/
def Obligations.GatedRequestsCompeteForThePermit : Prop :=
  ∀ (s : State) (i : Instr) (r : ReqCode) (w : CmdWord),
    (i, r, w) ∈ [(Instr.reqRecord, ReqCode.record, (0x0002 : CmdWord)), (.reqPlay, .play, 0x0003),
      (.reqPassthru, .passthru, 0x0004), (.reqDownloadWav, .downloadWav, 0x0005)] →
    let noBuffer := s.hw.bufRoom = none ∧ r ≠ .passthru
    let noIo := s.ctl.ioDisabled = true ∧ r ≠ .downloadWav
    (noBuffer → exec i s = .next { s with ports := { s.ports with
      log := s.ports.log ++ [.resourceUnavailable r .noBuffer], req := s.ports.req ++ [(w, .rejUnsupported)] } }) ∧
    (¬noBuffer → noIo → exec i s = .next { s with ports := { s.ports with
      log := s.ports.log ++ [.resourceUnavailable r .ioDisabled], req := s.ports.req ++ [(w, .rejUnsupported)] } }) ∧
    (¬noBuffer → ¬noIo → s.ctl.permit = false → exec i s = .next { s with ports := { s.ports with
      log := s.ports.log ++ [.busy r], req := s.ports.req ++ [(w, .rejBusy)] } }) ∧
    (¬noBuffer → ¬noIo → s.ctl.permit = true → exec i s = .next { s with
      ctl := { s.ctl with permit := false, action := r, wake := true }
      ports.req := s.ports.req ++ [(w, .accepted)] })

/-- Rules R92, R347: no request touches anything but five controller registers, its response and the log. -/
def Obligations.RequestsTouchOnlyRequestState : Prop :=
  ∀ (s : State) (i : Instr), i.issuer = .requester → ∃ t, exec i s = .next t ∧
    t = { s with
      ctl := { s.ctl with permit := t.ctl.permit, action := t.ctl.action, wake := t.ctl.wake, stop := t.ctl.stop,
                          updPend := t.ctl.updPend }
      ports := { s.ports with req := t.ports.req, log := t.ports.log } }

/-- Rules R33, R40, R110, R112, R116, R306: `CFG_WRITE` of every register number, with a value of the register's type. It
writes the pending copy only. A `real` on the port is a value of the format (rule R9). A value of another type cannot
be presented (rule R112), so that nothing happens: the model's reading, assumption log 13. That a refused transaction
is recorded on CFGP is the model's choice, assumption log 18. -/
def Obligations.ConfigWriteStoresThePendingCopy : Prop :=
  ∀ s : State,
    let f := floatFmt s
    let stored := fun (rr : BitVec 8) (v : CfgValue) (c : CfgRegs) =>
      exec (.cfgWrite rr) { s with beside := { s.beside with cfgValue := v } } = .next { s with
        beside := { s.beside with cfgValue := v }
        cfg := c
        ports.cfgp := s.ports.cfgp ++ [(0x1000 ||| rr.setWidth 16, portValue f v)] }
    (∀ x, stored 0x00 (.u32 x) { s.cfg with sampleRate := x }) ∧
    (∀ x, stored 0x01 (.field16 x) { s.cfg with ctrlEn := x &&& 0x07FF }) ∧
    (∀ x, stored 0x02 (.u32 x) { s.cfg with toneFreq := x }) ∧
    (∀ x, stored 0x03 (.u16 x) { s.cfg with toneAmp := x }) ∧
    (∀ x, stored 0x04 (.u8 x) { s.cfg with decay := x }) ∧
    (∀ x, stored 0x05 (.real x) { s.cfg with clipFactor := fmtReal f x }) ∧
    (∀ x, stored 0x06 (.real x) { s.cfg with pitchRatio := fmtReal f x }) ∧
    (∀ x, stored 0x07 (.s8 x) { s.cfg with volFactor := x }) ∧
    (∀ x, stored 0x08 (.u8 x) { s.cfg with micRoute := x }) ∧
    (∀ x, stored 0x09 (.u8 x) { s.cfg with ampRoute := x }) ∧
    (∀ b : Band,
      let r := bandGet s.cfg.bands b
      let at4 := fun (j : Nat) => BitVec.ofNat 8 (0x10 + 4 * b.index + j)
      (∀ x, stored (at4 0) (.real x) { s.cfg with bands := bandSet s.cfg.bands b { r with freq := fmtReal f x } }) ∧
      (∀ x, stored (at4 1) (.real x) { s.cfg with bands := bandSet s.cfg.bands b { r with q := fmtReal f x } }) ∧
      (∀ x, stored (at4 2) (.real x) { s.cfg with bands := bandSet s.cfg.bands b { r with gain := fmtReal f x } }) ∧
      (∀ x, stored (at4 3) (.u8 x) { s.cfg with bands := bandSet s.cfg.bands b { r with order := x } })) ∧
    (∀ (rr : BitVec 8) (r : CfgReg), cfgRegOfNumber rr = some r → s.beside.cfgValue.type ≠ r.type →
      exec (.cfgWrite rr) s = .next s) ∧
    ∀ rr : BitVec 8, (0x0A ≤ rr.toNat ∧ rr.toNat ≤ 0x0F) ∨ 0x28 ≤ rr.toNat →
      exec (.cfgWrite rr) s = .next { s with ports := { s.ports with
        log := s.ports.log ++ [.configOutOfRange (.reservedEncoding (0x1000 ||| rr.setWidth 16))]
        cfgp := s.ports.cfgp ++ [(0x1000 ||| rr.setWidth 16, portValue f s.beside.cfgValue)] } }

/-! ## The biquad stage (rules R131 to R151) -/

/-- Rules R131 to R133: `BQ_CONFIGURE` on every stage of the shadow bank. Inside the domain the coefficients are those
of `DESIGN` and the parameters are latched, `z1, z2` are kept; outside, nothing at all changes. For the type code 7 the
silent refusal is the model's choice between rules R133 and R116 (assumption log 20). The operands beside the word are
values of the format (rule R9). -/
def Obligations.ConfigureWritesOneShadowStage : Prop :=
  ∀ (s : State) (band : BitVec 3) (stage : BitVec 4) (b : Band) (k : Fin 10), bandOfCode band = some b →
    stageOfCode stage = some k →
    let c := bandGet (shadowBank s) b
    let arg := fmtReal (floatFmt s)
    (∀ (typ : BqType) (fc q g : Rat), s.beside.bqType = typ.code → arg s.beside.fc = .num fc →
      arg s.beside.q = .num q → arg s.beside.gain = .num g → 0 < fc → fc ≤ 1 / 2 → 0 < q →
      let st : Stage := { coefs := designFn s typ fc q g, z1 := c.stages[k].z1, z2 := c.stages[k].z2, typ := typ,
                          fc := .num fc, q := .num q, gain := .num g }
      exec (.bqConfigure band stage) s = .next (setShadowCascade s b { c with stages := c.stages.set k st })) ∧
    ((¬∃ (typ : BqType) (fc q g : Rat), s.beside.bqType = typ.code ∧ arg s.beside.fc = .num fc ∧
      arg s.beside.q = .num q ∧ arg s.beside.gain = .num g ∧ 0 < fc ∧ fc ≤ 1 / 2 ∧ 0 < q) →
      exec (.bqConfigure band stage) s = .next s)

/-- Rule R140: `BQ_PROCESS` on a stage of the active bank below the stage count, in the format's arithmetic, with all
that it changes. On a stage at or above the count it changes nothing (rule R62, entry U6: such a run is refused; that it
is refused without a stop is the model's reading, assumption log 23). -/
def Obligations.ProcessRunsOneActiveStage : Prop :=
  ∀ (s : State) (band : BitVec 3) (stage : BitVec 4) (b : Band) (k : Fin 10), bandOfCode band = some b →
    stageOfCode stage = some k →
    let f := floatFmt s
    let x := fmtReal f s.beside.sample
    let c := bandGet (activeBank s) b
    let st := c.stages[k]
    let y := fAdd f (fMul f st.coefs.a0 x) st.z1
    let st' : Stage := { st with
      z1 := fSub f (fAdd f (fMul f st.coefs.a1 x) st.z2) (fMul f st.coefs.b1 y)
      z2 := fSub f (fMul f st.coefs.a2 x) (fMul f st.coefs.b2 y) }
    (k.val < c.nst → exec (.bqProcess band stage) s =
      .next { setActiveCascade s b { c with stages := c.stages.set k st' } with result := .sample y }) ∧
    (c.nst ≤ k.val → exec (.bqProcess band stage) s = .next s)

/-- Rule R142 over the reals: from rest, a stage computes the difference equation of its five coefficients. -/
def Obligations.StageComputesTheDifferenceEquation : Prop :=
  ∀ (st : Stage) (a0 a1 a2 b1 b2 : Rat) (xs : List Rat), AtRest st →
    st.coefs = ⟨.num a0, .num a1, .num a2, .num b1, .num b2⟩ →
    ∃ ys : List Rat, stageRun realsFmt st (xs.map .num) = ys.map .num ∧ ys.length = xs.length ∧
      ∀ n, n < xs.length → past ys n 0 =
        a0 * past xs n 0 + a1 * past xs n 1 + a2 * past xs n 2 - b1 * past ys n 1 - b2 * past ys n 2

/-- Rule R150 over the reals: at the clamped cutoff a stage at rest is a pure gain and stays at rest. -/
def Obligations.StageAtNyquistIsAPureGain : Prop :=
  ∀ (typ : BqType) (boost : Bool) (v x : Rat) (st : Stage), v ≠ 0 → AtRest st →
    st.coefs = designAtNyquist realsFmt typ boost (.num v) →
    processStage realsFmt st (.num x) = (st, .num (nyquistGain typ boost v * x))

/-- Rules R134, R135, R142 to R151 over the reals: every reference design below Nyquist is stable, for every type and
gain, whatever the positive values of the common terms of rule R135; with the model's values of those terms (assumption
log 3) so is every design of the reference instance, and the instance has the three properties that rule R134 requires
of `DESIGN`: (i) at every frequency the bilinear transform of the analog response of the named type at its cutoff, quality
and gain (that this is what (i) means by the named response and by "bilinear-transform-style" is the model's choice,
assumption log 4), (ii) the one-pole-pair magnitude of a low-pass stage, (iii) a bounded output at `Fc` = 0.5. Under every
format its coefficients are finite (rule R152). -/
def Obligations.ReferenceDesignIsStable : Prop :=
  (∀ (typ : BqType) (boost : Bool) (k v r2 s2v q : Rat), 0 < k → 0 < v → 0 < r2 → 0 < s2v → 0 < q →
    StableCoefs (designBelowNyquist realsFmt typ boost ⟨.num k, .num v, .num r2, .num s2v, .num q⟩)) ∧
  (∀ (typ : BqType) (fc q g : Rat), 0 < fc → fc < 1 / 2 → 0 < q → StableCoefs (refDesign realsFmt typ fc q g)) ∧
    DesignContract realsFmt (refDesign realsFmt) ∧
    ∀ (f : FloatFmt) (typ : BqType) (fc q g : Rat), ∃ a0 a1 a2 b1 b2 : Rat,
      refDesign f typ fc q g = ⟨.num a0, .num a1, .num a2, .num b1, .num b2⟩

/-! ## The Q table, building, filtering and swapping (rules R160 to R177) -/

/-- Rules R160 to R162: `QTAB_INIT` writes a table of 36 entries, the one for order `c` and section `i` at
`c * (c - 1) / 2 + i`, each operation of its formula rounded (rule R9) and none giving a NaN or an infinity (entry U1),
and nothing else. Every entry is a positive number, whatever the format (of the forms of assumption log 2). (Over the
reals an angle is held as its multiple of pi, so that the constant pi is 1 there: assumption log 3.) -/
def Obligations.QTableInitFillsTheTable : Prop :=
  ∀ s : State, ∃ t, exec .qtabInit s = .next t ∧ t = { s with qtab := t.qtab, qtabValid := true } ∧
    t.qtab.length = 36 ∧
    ∀ c i : Nat, 1 ≤ c → c ≤ 8 → i < c →
      let f := finiteFmt (floatFmt s)
      let angle := fDiv f (fMul f (.num (f.ofNat (2 * i + 1))) (.num f.pi)) (.num (f.ofNat (4 * c)))
      ∃ q : Rat, 0 < q ∧ t.qtab[c * (c - 1) / 2 + i]? = some (.num q) ∧
        .num q = fDiv f (.num 1) (fMul f (.num 2) (onNum f.cos angle))

/-- Rules R165, R166, R167, R171 (b), R372, R376: `BUILD_CASCADE` of a band that is disabled, or whose build is refused,
leaves an empty shadow cascade. The refusal is logged: at once where the sample rate, the frequency or the gain is not
usable; after the clamps of the cutoff and of the order where the order is 1 and the requested Q is not a positive finite
number. (How the sample rate enters real arithmetic: assumption log 31.) -/
def Obligations.BuildLeavesAnEmptyCascade : Prop :=
  ∀ (s : State) (band : BitVec 3) (b : Band), bandOfCode band = some b →
    let f := floatFmt s
    let r := bandGet s.act.bands b
    let emptied := setShadowCascade s b { bandGet (shadowBank s) b with nst := 0 }
    let pass := b = .bp ∨ b = .hp ∨ b = .lp
    (s.act.ctrlEn.getLsbD b.index = false → exec (.buildCascade band) s = .next emptied) ∧
    (s.act.ctrlEn.getLsbD b.index = true →
      (s.act.sampleRate = 0 ∨ (∀ q, r.freq ≠ .num q) ∨ (∃ q, r.freq = .num q ∧ q ≤ 0) ∨ ∀ g, r.gain ≠ .num g) →
      exec (.buildCascade band) s = .next { emptied with
        ports := { s.ports with log := s.ports.log ++ [.configOutOfRange (.badParam b)] } }) ∧
    (s.act.ctrlEn.getLsbD b.index = true → s.act.sampleRate ≠ 0 → (∃ q, r.freq = .num q ∧ 0 < q) →
      (∃ g, r.gain = .num g) → (pass → r.order.toNat ≤ 1) → (∀ q, r.q = .num q → q ≤ 0) →
      exec (.buildCascade band) s = .next { emptied with
        ports := { s.ports with log := s.ports.log ++
          (if realAbove (fDiv f r.freq (.num (f.ofNat s.act.sampleRate.toNat))) (1 / 2) then
            [.configOutOfRange (.nyquistClamp b)] else []) ++
          (if pass ∧ r.order = 0 then [.configOutOfRange (.orderClamp b)] else []) ++
          [.configOutOfRange (.badParam b)] } })

/-- Rules R120, R165 to R168 over the reals: `BUILD_CASCADE` of an enabled band with usable parameters. The cutoff is
the frequency over the sample rate, clamped to 0.5; the order is clamped into 1 .. 8 for the pass types and forced to 1
for the others; order 1 uses the requested Q, which must be positive and finite, and a higher order the table's, whatever
the requested Q is; every stage is configured and at rest; the clamps are logged in order; and only the shadow cascade
of the band changes. -/
def Obligations.BuildConfiguresTheShadowCascade : Prop :=
  ∀ (s : State) (band : BitVec 3) (b : Band) (fr g : Rat), bandOfCode band = some b →
    s.hw.floatFmt = .reals → s.act.ctrlEn.getLsbD b.index = true →
    (bandGet s.act.bands b).freq = .num fr → (bandGet s.act.bands b).gain = .num g → s.act.sampleRate ≠ 0 → 0 < fr →
    let sr : Rat := s.act.sampleRate.toNat
    let order := (bandGet s.act.bands b).order.toNat
    let pass := b = .bp ∨ b = .hp ∨ b = .lp
    let c := if b = .bp ∨ b = .hp ∨ b = .lp then max 1 (min 8 order) else 1
    let fc := min (fr / sr) (1 / 2)
    let old := bandGet (shadowBank s) b
    (c = 1 → ∃ q, (bandGet s.act.bands b).q = .num q ∧ 0 < q) →
    (1 < c → s.qtabValid = true ∧ s.qtab = qvalTable realsFmt) →
    ∃ t, exec (.buildCascade band) s = .next t ∧
      t = { setShadowCascade s b (bandGet (shadowBank t) b) with ports := { s.ports with log := t.ports.log } } ∧
      (bandGet (shadowBank t) b).nst = c ∧
      (∀ k : Fin 10, k.val < c → ∃ qk : Rat,
        RealVal.num qk = (if c = 1 then (bandGet s.act.bands b).q
          else s.qtab.getD (c * (c - 1) / 2 + k.val) (.num 0)) ∧
        (bandGet (shadowBank t) b).stages[k] =
          ⟨designFn s (bandType b) fc qk g, .num 0, .num 0, bandType b, .num fc, .num qk, .num g⟩) ∧
      (∀ k : Fin 10, c ≤ k.val → (bandGet (shadowBank t) b).stages[k] = old.stages[k]) ∧
      t.ports.log = s.ports.log ++ (if 1 / 2 < fr / sr then [.configOutOfRange (.nyquistClamp b)] else []) ++
        (if pass ∧ (order < 1 ∨ 8 < order) then [.configOutOfRange (.orderClamp b)] else [])

/-- Rules R22, R141, R170, R171: `FILTER_BLOCK` changes WB and the state `z1, z2` of stages in use, and nothing else:
no coefficient, no count, no stage of the shadow bank, no cascade that is disabled or empty. -/
def Obligations.FilterBlockTouchesOnlyStagesInUse : Prop :=
  ∀ s : State, ∃ t, exec .filterBlock s = .next t ∧ t = { s with wb := t.wb, bank0 := t.bank0, bank1 := t.bank1 } ∧
    t.wb.length = s.wb.length ∧ shadowBank t = shadowBank s ∧
    ∀ b : Band,
      let c := bandGet (activeBank s) b
      let d := bandGet (activeBank t) b
      d.nst = c.nst ∧ (s.act.ctrlEn.getLsbD b.index = false → d = c) ∧
      ∀ k : Fin 10, d.stages[k] = { c.stages[k] with z1 := d.stages[k].z1, z2 := d.stages[k].z2 } ∧
        (c.nst ≤ k.val → d.stages[k] = c.stages[k])

/-- Rules R119, R140, R141 (c), R163, R170, R171: what `FILTER_BLOCK` computes. The bands run in index order; each
enabled band with a cascade takes the block it finds, converted by `s2f`, through its stages in series, in sample order,
and stores it truncated and saturated by `f2s` (the conversion at each band: rule R170 (b), assumption log 19); every
stage in use is left with the state it has after the block, from which the next block goes on. With no band enabled
nothing changes. -/
def Obligations.FilterBlockRunsSamplesInOrder : Prop :=
  (∀ s : State, (∀ b : Band, s.act.ctrlEn.getLsbD b.index = false) → exec .filterBlock s = .next s) ∧
    ∀ s : State, ∃ t, exec .filterBlock s = .next t ∧ t.wb = blockAfter s Band.all ∧
      ∀ (b : Band) (k : Fin 10), s.act.ctrlEn.getLsbD b.index = true → k.val < (bandGet (activeBank s) b).nst →
        let f := floatFmt s
        let stages := (bandGet (activeBank s) b).stages
        let input := (blockAfter s (Band.all.take b.index)).map s2f
        (bandGet (activeBank t) b).stages[k] = stageAfter f stages[k] (seriesRun f (stages.toList.take k.val) input)

/-- Rules R23, R175: `CASCADE_SWAP` exchanges the two banks by one bit and moves no stage. -/
def Obligations.SwapExchangesTheBanks : Prop :=
  ∀ s : State, ∃ t, exec .cascadeSwap s = .next t ∧ t = { s with ctl := { s.ctl with bank := !s.ctl.bank } } ∧
    activeBank t = shadowBank s ∧ shadowBank t = activeBank s

/-! ## The oscillator (rules R190 to R197) -/

/-- Rules R190, R191: `RM_TABLE_GEN` on every setting, with all that it changes; each operation of an entry's formula is
rounded (rule R9), none gives a NaN or an infinity (entry U1), and every entry is at most the amplitude in magnitude,
whatever the format (of the forms of assumption log 2). The narrowing of an entry by `f2s` is the model's reading
(assumption log 27), and so is the conversion of the integers (assumption log 31). (Over the reals an angle is held as its
multiple of pi, so that the constant pi is 1 there: assumption log 3.) -/
def Obligations.ToneTableGeneratedOrRefused : Prop :=
  ∀ s : State,
    let sr := s.act.sampleRate
    let fr := s.act.toneFreq
    let amp := s.act.toneAmp
    let len := sr.toNat / fr.toNat
    let legal := 1 ≤ fr.toNat ∧ 1 ≤ amp.toNat ∧ amp.toNat ≤ 32767 ∧ 1 ≤ len ∧ len ≤ s.hw.rmTableMax
    (¬legal → exec .rmTableGen s = .next { s with
      rmSr := sr
      rmFreq := fr
      rmAmp := amp
      rmValid := false
      rmLen := 0
      rmPhase := 0
      ports.log := s.ports.log ++ [.configOutOfRange .toneTable] }) ∧
    (legal → ∃ t, exec .rmTableGen s = .next t ∧
      t = { s with rmSr := sr, rmFreq := fr, rmAmp := amp, rmValid := true, rmLen := len, rmPhase := 0,
                   sine := t.sine } ∧
      (∀ k, k < len → t.sine[k]? =
        let f := finiteFmt (floatFmt s)
        let angle := fDiv f (fMul f (fMul f (.num 2) (.num f.pi)) (.num (f.ofNat k))) (.num (f.ofNat len))
        some (f2s f (fMul f (.num (f.ofNat amp.toNat)) (onNum f.sin angle)))) ∧
      (∀ k, k < len → |(t.sine.getD k 0).toInt| ≤ amp.toNat) ∧
      ∀ k, len ≤ k → t.sine[k]? = s.sine[k]?)

/-- Rules R195, R196: `RM_BLOCK` with a usable table multiplies each sample by its table entry, divides by the
amplitude toward zero, saturates, and carries the phase on. Without a usable table nothing changes: the rule requires
`RM_VALID` = 1, the rest is the model's reading (assumption log 24). -/
def Obligations.RingModulationMultipliesByTheTable : Prop :=
  ∀ s : State, (s.rmValid = false → exec .rmBlock s = .next s) ∧
    (s.rmValid = true → s.rmPhase < s.rmLen → ∃ t, exec .rmBlock s = .next t ∧
      t = { s with wb := t.wb, rmPhase := (s.rmPhase + s.wb.length) % s.rmLen } ∧ t.wb.length = s.wb.length ∧
      ∀ i, i < s.wb.length → (t.wb.getD i 0).toInt =
        clampS16 (Int.tdiv ((s.wb.getD i 0).toInt * (s.sine.getD ((s.rmPhase + i) % s.rmLen) 0).toInt) s.rmAmp.toNat))

/-! ## The reverb (rules R210 to R216) -/

/-- Rules R210, R211, R214: `RV_BLOCK` adds to each sample what was written `REVERB_LEN` samples ago (before this block
from the delay line, inside it from its own outputs), divided by `DECAY + 1` toward zero, saturates, feeds the sum back
and carries the tap on. -/
def Obligations.ReverbAddsTheDelayedOutput : Prop :=
  ∀ s : State, s.dl.length = s.hw.reverbLen → s.rvTap < s.hw.reverbLen → ∃ t, exec .rvBlock s = .next t ∧
    let len : Nat := s.hw.reverbLen
    t = { s with wb := t.wb, dl := t.dl, rvTap := (s.rvTap + s.wb.length) % len } ∧
    t.wb.length = s.wb.length ∧ t.dl.length = len ∧
    (∀ i, i < s.wb.length →
      let d := if i < len then s.dl.getD ((s.rvTap + i) % len) 0 else t.wb.getD (i - len) 0
      (t.wb.getD i 0).toInt = clampS16 ((s.wb.getD i 0).toInt + Int.tdiv d.toInt (s.act.decay.toNat + 1))) ∧
    (∀ i, i < s.wb.length → s.wb.length ≤ i + len → t.dl.getD ((s.rvTap + i) % len) 0 = t.wb.getD i 0) ∧
    ∀ i, s.wb.length ≤ i → i < len → t.dl.getD ((s.rvTap + i) % len) 0 = s.dl.getD ((s.rvTap + i) % len) 0

/-- Rule R216: `RV_CLEAR` empties the line, so that an `RV_BLOCK` after it, with any decay, passes its first
`REVERB_LEN` samples unchanged. -/
def Obligations.ClearedReverbPassesTheInput : Prop :=
  ∀ s : State, exec .rvClear s = .next { s with dl := List.replicate s.hw.reverbLen 0, rvTap := 0 } ∧
    ∀ t : State, t.dl = List.replicate t.hw.reverbLen 0 → t.rvTap = 0 → ∃ u, exec .rvBlock t = .next u ∧
      u.wb.take t.hw.reverbLen = t.wb.take t.hw.reverbLen

/-! ## The chain (rules R230 to R254) -/

/-- Rules R231, R232: `VOL_BLOCK` mutes, multiplies with saturation or divides toward zero, by the sign of the factor,
and changes nothing but WB. -/
def Obligations.VolumeScalesEverySample : Prop :=
  ∀ s : State, ∃ t, exec .volBlock s = .next t ∧ t = { s with wb := t.wb } ∧ t.wb.length = s.wb.length ∧
    ∀ i, i < s.wb.length →
      let v := s.act.volFactor.toInt
      let x := (s.wb.getD i 0).toInt
      (t.wb.getD i 0).toInt = if v = 0 then 0 else if 0 < v then clampS16 (x * v) else Int.tdiv x (-v)

/-- Rule R236: `PITCH_BLOCK` sends the block to the external transform and takes its answer, whatever it is. Where the
model's queue of answers is empty the answer is free (assumption log 14). -/
def Obligations.PitchStepTakesAnyAnswer : Prop :=
  ∀ s : State,
    (∀ (b : List S16) (rest : List (List S16)), s.env.pvQ = b :: rest → b.length = blockLen s →
      exec .pitchBlock s = .next { s with
        wb := b
        env.pvQ := rest
        ports.pv := s.ports.pv ++ [.process s.wb b] }) ∧
    ∃ t, exec .pitchBlock s = .next t ∧ t.wb.length = blockLen s ∧
      t = { s with wb := t.wb, env := t.env, ports.pv := s.ports.pv ++ [.process s.wb t.wb] }

/-- Rules R240, R242 (a), (d), R243 over the reals: `CLIP_BLOCK` replaces every sample by the truncated value of the
curve, which keeps the sign, is smaller in magnitude for every sample but 0, and at the largest factor lies within 11596
of zero. -/
def Obligations.ClipFollowsTheCurve : Prop :=
  ∀ (s : State) (cf : Rat), s.hw.floatFmt = .reals → s.act.clipFactor = .num cf → 1 ≤ cf →
    ∃ t, exec .clipBlock s = .next t ∧ t = { s with wb := t.wb } ∧ t.wb.length = s.wb.length ∧
      ∀ i, i < s.wb.length →
        let w := (s.wb.getD i 0).toInt
        let o := (t.wb.getD i 0).toInt
        let z : Rat := (w : Rat) / 32768 * cf
        o = trunc (1 / cf * z / (1 + 28 / 100 * z * z) * 32768) ∧ 0 ≤ o * w ∧ (w ≠ 0 → |o| + 1 ≤ |w|) ∧
          (cf = 267 / 100 → |o| ≤ 11596)

/-- Rules R33, R230, R250 to R252: `APPLY_EFFECTS` is the conditional sequence of the six steps, in the fixed order, each
condition read when its step is due; it always completes. Under the bypass flag it changes no filter state, delay line or
phase, and without a pitch ratio it is the volume step alone. -/
def Obligations.ChainRunsTheStepsInOrder : Prop :=
  ∀ s : State, Completes (exec .applyEffects s) ∧ (exec .applyEffects s =
    andThen (execIf (!s.act.ctrlEn.getLsbD 9 && decide (s.act.ctrlEn.extractLsb' 0 6 ≠ 0)) .filterBlock s) fun s =>
    andThen (execIf (!s.act.ctrlEn.getLsbD 9 && (s.act.ctrlEn.getLsbD 6 && s.rmValid)) .rmBlock s) fun s =>
    andThen (execIf (!s.act.ctrlEn.getLsbD 9 && s.act.ctrlEn.getLsbD 7) .rvBlock s) fun s =>
    andThen (exec .volBlock s) fun s =>
    andThen (execIf (decide (s.act.pitchRatio ≠ .num 1)) .pitchBlock s) fun s =>
    execIf (!s.act.ctrlEn.getLsbD 9 && s.act.ctrlEn.getLsbD 8) .clipBlock s) ∧
    (s.act.ctrlEn.getLsbD 9 = true →
      (s.act.pitchRatio = .num 1 → exec .applyEffects s = exec .volBlock s) ∧
      ∃ t, exec .applyEffects s = .next t ∧
        t = { s with wb := t.wb, env := t.env, ports := { s.ports with pv := t.ports.pv } })

/-! ## The sample buffer (rules R260 to R285) -/

/-- Rule R260: `NORM_IN` keeps the 16 most significant bits of every hardware sample, rounding down. -/
def Obligations.NormaliseKeepsTheTopBits : Prop :=
  ∀ s : State, s.beside.hwBlock.length = blockLen s → ∃ t, exec .normIn s = .next t ∧ t = { s with wb := t.wb } ∧
    t.wb.length = blockLen s ∧ ∀ i, i < blockLen s →
      (t.wb.getD i 0).toInt =
        ⌊(((s.beside.hwBlock.getD i 0).setWidth s.hw.hwWidth.bits).toInt : Rat) / 2 ^ (s.hw.hwWidth.bits - 16)⌋

/-- Rule R262: `DENORM_OUT` returns every sample times `2 ^ (HW_WIDTH - 16)` and changes no register. -/
def Obligations.DenormaliseShiftsLeft : Prop :=
  ∀ s : State, ∃ o, exec .denormOut s = .next { s with result := .hwBlock o } ∧ o.length = s.wb.length ∧
    ∀ i, i < s.wb.length → (o.getD i 0).toInt = (s.wb.getD i 0).toInt * 2 ^ (s.hw.hwWidth.bits - 16)

/-- Rule R263: `NORM_IN` of what `DENORM_OUT` returned gives the block back. The converse does not hold: `DENORM_OUT` of
what `NORM_IN` made of hardware samples returns each of them with exactly its low `HW_WIDTH - 16` bits lost, and a width
above 16 has a sample that this changes. -/
def Obligations.WidthRoundTrip : Prop :=
  (∀ s : State, s.wb.length = blockLen s → ∃ o, exec .denormOut s = .next { s with result := .hwBlock o } ∧
      exec .normIn { s with beside := { s.beside with hwBlock := o } } =
        .next { s with beside := { s.beside with hwBlock := o } }) ∧
    (∀ s : State, s.beside.hwBlock.length = blockLen s →
      (∀ h ∈ s.beside.hwBlock, -2 ^ (s.hw.hwWidth.bits - 1) ≤ h.toInt ∧ h.toInt < 2 ^ (s.hw.hwWidth.bits - 1)) →
      ∃ t o, exec .normIn s = .next t ∧ exec .denormOut t = .next { t with result := .hwBlock o } ∧
        o.length = blockLen s ∧ ∀ i, i < blockLen s →
          let h := (s.beside.hwBlock.getD i 0).toInt
          (o.getD i 0).toInt = h - h % 2 ^ (s.hw.hwWidth.bits - 16)) ∧
    ∀ w : HwWidth, w ≠ .w16 → ∃ h : HwSample, -2 ^ (w.bits - 1) ≤ h.toInt ∧ h.toInt < 2 ^ (w.bits - 1) ∧
      denormSample w (normSample w h) ≠ h

/-- Rules R71, R72, R114, R270, R271: `RECORD_BLOCK`. A block that fits is stored after the write cursor, each sample
low byte first, and no other byte changes; one that does not fit changes nothing. -/
def Obligations.RecordBlockAppendsOrRefuses : Prop :=
  ∀ (s : State) (room : BitVec 32), s.hw.bufRoom = some room → s.wb.length = blockLen s → Memory.wf s.rb = true →
    let n := 2 * blockLen s
    (44 + s.wrCur.toNat + n > 44 + room.toNat → exec .recordBlock s = .next { s with result := .transfer .capFull }) ∧
    (44 + s.wrCur.toNat + n ≤ 44 + room.toNat → ∃ t, exec .recordBlock s = .next t ∧
      t = { s with rb := t.rb, wrCur := t.wrCur, result := .transfer .ok } ∧ t.wrCur.toNat = s.wrCur.toNat + n ∧
      (∀ i, i < blockLen s →
        memRead t.rb (44 + s.wrCur.toNat + 2 * i) = (s.wb.getD i 0).extractLsb' 0 8 ∧
        memRead t.rb (44 + s.wrCur.toNat + 2 * i + 1) = (s.wb.getD i 0).extractLsb' 8 8) ∧
      ∀ a, a < 44 + s.wrCur.toNat ∨ 44 + s.wrCur.toNat + n ≤ a → memRead t.rb a = memRead s.rb a)

/-- Rules R72, R275, R276: `READ_BLOCK`. The next stored block is returned whole and the read cursor advances; at the
end of the data nothing changes. RB is never changed. -/
def Obligations.ReadBlockReturnsOrEnds : Prop :=
  ∀ (s : State) (room : BitVec 32), s.hw.bufRoom = some room → s.recEnd.toNat ≤ room.toNat →
    let n := 2 * blockLen s
    (s.recEnd.toNat < s.rdCur.toNat + n → exec .readBlock s = .next { s with result := .transfer .endOfData }) ∧
    (s.rdCur.toNat + n ≤ s.recEnd.toNat → ∃ t, exec .readBlock s = .next t ∧
      t = { s with wb := t.wb, rdCur := t.rdCur, result := .transfer .ok } ∧ t.rdCur.toNat = s.rdCur.toNat + n ∧
      t.wb.length = blockLen s ∧
      ∀ i, i < blockLen s → (t.wb.getD i 0) =
        memRead s.rb (44 + s.rdCur.toNat + 2 * i + 1) ++ memRead s.rb (44 + s.rdCur.toNat + 2 * i))

/-- Rules R73, R276 (c): a block that was recorded reads back bit-exact. -/
def Obligations.RecordedBlockReadsBack : Prop :=
  ∀ (s : State) (room : BitVec 32), s.hw.bufRoom = some room → s.wb.length = blockLen s → Memory.wf s.rb = true →
    s.wrCur.toNat + 2 * blockLen s ≤ room.toNat → ∃ t, exec .recordBlock s = .next t ∧
    ∀ blk : List S16, ∃ u, exec .readBlock { t with wb := blk, rdCur := s.wrCur, recEnd := t.wrCur } = .next u ∧
      u.wb = s.wb

/-- Rules R113, R280, R282: `BUILD_WAV_HEADER` writes the 44 bytes of the header, read here field by field, and nothing
else; without a buffer it has nowhere to write and stops (assumption log 22). -/
def Obligations.HeaderBytesAreAsPrinted : Prop :=
  ∀ s : State, (s.hw.bufRoom = none → exec .buildWavHeader s = .fault .noRecordingBuffer) ∧
    (s.hw.bufRoom ≠ none → Memory.wf s.rb = true → ∃ t, exec .buildWavHeader s = .next t ∧ t = { s with rb := t.rb } ∧
      (∀ a, 44 ≤ a → memRead t.rb a = memRead s.rb a) ∧
      memReadBytes t.rb 0 4 = [0x52, 0x49, 0x46, 0x46] ∧
      memReadBytes t.rb 4 4 = le32 (s.wrCur + 36) ∧
      memReadBytes t.rb 8 16 = [0x57, 0x41, 0x56, 0x45, 0x66, 0x6D, 0x74, 0x20, 0x10, 0, 0, 0, 1, 0, 1, 0] ∧
      memReadBytes t.rb 24 4 = le32 s.act.sampleRate ∧
      memReadBytes t.rb 28 4 = le32 (s.act.sampleRate * 2) ∧
      memReadBytes t.rb 32 8 = [2, 0, 0x10, 0, 0x64, 0x61, 0x74, 0x61] ∧
      memReadBytes t.rb 40 4 = le32 s.wrCur)

/-- Rule R281 (b): building the header twice gives the same buffer as building it once. -/
def Obligations.HeaderIsIdempotent : Prop :=
  ∀ s : State, s.hw.bufRoom ≠ none → Memory.wf s.rb = true →
    ∃ t, exec .buildWavHeader s = .next t ∧ exec .buildWavHeader t = .next t

/-! ## The Task (rules R308 to R348) -/

/-- Rule R308: `TASK_WAKE` takes the notification, serves a pending update, and starts an accepted action. In a state
in which a Task step is not enabled it does nothing (the model's reading, assumption log 11). -/
def Obligations.WakeServesUpdateThenStartsAction : Prop :=
  (∀ (s : State) (i : Instr), i ∈ [Instr.taskWake, .taskInit, .loopRecord, .loopPlay, .loopPassthru, .loopExport,
      .taskExit] → enabledStep s ≠ some i → exec i s = .next s) ∧
    ∀ s : State, s.qtabValid = true → s.ctl.phase = .wait → s.ctl.wake = true →
      ∃ t, execIf s.ctl.updPend .taskRebuild { s with ctl := { s.ctl with wake := false } } = .next t ∧
        exec .taskWake s =
          .next { t with ctl := { t.ctl with phase := if t.ctl.permit = false then .init else .wait } }

/-- Rules R310, R311: `TASK_INIT` on each answer of the hardware, with all that it changes. A download asks no
hardware. The answer is the environment's next one, or a free one where none is queued (assumption log 14). -/
def Obligations.InitDispatchesOnTheAnswer : Prop :=
  ∀ s : State, s.qtabValid = true → s.ctl.phase = .init →
    (s.ctl.action = .downloadWav → exec .taskInit s = .next { s with
      rdCur := 0, ctl := { s.ctl with hdrSent := false, feedback := true, phase := .loop } }) ∧
    ∀ (u : State) (a : HwiAnswer), s.ctl.action ≠ .downloadWav → takeHwi s = (u, a) → u = { s with env := u.env } ∧
      let hwi := s.ports.hwi ++ [⟨s.act.micRoute, s.act.ampRoute, s.ctl.action, a⟩]
      let running := { s.ctl with feedback := true, phase := .loop }
      (a = .ok → s.ctl.action = .record → exec .taskInit s = .next { u with
        wrCur := 0, recEnd := 0, ctl := running, ports := { s.ports with hwi := hwi } }) ∧
      (a = .ok → s.ctl.action = .play → exec .taskInit s = .next { u with
        rdCur := 0, ctl := running, ports := { s.ports with hwi := hwi } }) ∧
      (a = .ok → s.ctl.action = .passthru → exec .taskInit s = .next { u with
        ctl := running, ports := { s.ports with hwi := hwi } }) ∧
      (a = .fail → exec .taskInit s = .next { u with
        ctl := { s.ctl with phase := .exit }
        ports := { s.ports with hwi := hwi, log := s.ports.log ++ [.hwInitFailure s.ctl.action .fail] } }) ∧
      (a = .unsupported → exec .taskInit s = .next { u with
        ctl := { s.ctl with ioDisabled := true, phase := .exit }
        ports := { s.ports with hwi := hwi, log := s.ports.log ++ [.hwInitFailure s.ctl.action .unsupported] } })

/-- Rules R119, R237, R241, R320: `TASK_REBUILD` is the snapshot copy with the clamped clip factor, six `BUILD_CASCADE`
in band order, `CASCADE_SWAP`, and where due `RM_TABLE_GEN` and `PV.init`; then nothing is pending. It always
completes. -/
def Obligations.RebuildRunsItsPartsInOrder : Prop :=
  ∀ s : State,
    let top := (floatFmt s).round (267 / 100)
    let cf := match s.cfg.clipFactor with
      | .num q => if q < 1 then RealVal.num 1 else if realExceeds q top then top else .num q
      | .posInf | .negInf | .nan => RealVal.num 1
    let s0 : State := { s with
      act := { s.cfg with clipFactor := cf }
      ports := { s.ports with
        log := s.ports.log ++ if s.cfg.clipFactor = cf then [] else [.configOutOfRange .clipClamp] } }
    Completes (exec .taskRebuild s) ∧ exec .taskRebuild s =
      andThen (exec (.buildCascade 0) s0) fun s =>
      andThen (exec (.buildCascade 1) s) fun s =>
      andThen (exec (.buildCascade 2) s) fun s =>
      andThen (exec (.buildCascade 3) s) fun s =>
      andThen (exec (.buildCascade 4) s) fun s =>
      andThen (exec (.buildCascade 5) s) fun s =>
      andThen (exec .cascadeSwap s) fun s =>
      andThen (execIf (s.act.ctrlEn.getLsbD 6 && decide (s.act.sampleRate ≠ s.rmSr ∨ s.act.toneFreq ≠ s.rmFreq ∨
        s.act.toneAmp ≠ s.rmAmp)) .rmTableGen s) fun s =>
      .next { s with
        ctl := { s.ctl with updPend := false }
        ports := { s.ports with pv := if s.act.pitchRatio = .num 1 then s.ports.pv
          else s.ports.pv ++ [.init s.act.sampleRate s.act.pitchRatio] } }

/-- Rules R176, R177, R213, R423: after `TASK_REBUILD` every stage in use is at rest, the old active bank is untouched
(it is now the shadow bank), and no sample memory, delay line, cursor or byte of RB has changed. -/
def Obligations.RebuildRestartsEveryFilter : Prop :=
  ∀ s : State, ∃ t, exec .taskRebuild s = .next t ∧
    (∀ b : Band, ∀ k : Fin 10, k.val < (bandGet (activeBank t) b).nst → AtRest (bandGet (activeBank t) b).stages[k]) ∧
    shadowBank t = activeBank s ∧
    t = { s with bank0 := t.bank0, bank1 := t.bank1, act := t.act, sine := t.sine, rmLen := t.rmLen, rmAmp := t.rmAmp,
                 rmPhase := t.rmPhase, rmValid := t.rmValid, rmSr := t.rmSr, rmFreq := t.rmFreq,
                 ctl := { s.ctl with bank := !s.ctl.bank, updPend := false },
                 ports := { s.ports with log := t.ports.log, pv := t.ports.pv } }

/-- Rules R88, R93, R305, R325: the block boundary. A pending update is served before anything else of the loop step,
so that a configuration commits between two blocks; then a set stop flag ends the action, with no block read or
written. -/
def Obligations.BoundaryServesUpdateThenStop : Prop :=
  ∀ (s : State) (i : Instr) (a : ReqCode),
    (i, a) ∈ [(Instr.loopRecord, ReqCode.record), (.loopPlay, .play), (.loopPassthru, .passthru),
      (.loopExport, .downloadWav)] →
    s.qtabValid = true → s.ctl.phase = .loop → s.ctl.action = a →
    (s.ctl.updPend = true → ∃ t, exec .taskRebuild s = .next t ∧ exec i s = exec i t) ∧
    (s.ctl.updPend = false → s.ctl.stop = true → exec i s = .next { s with ctl := { s.ctl with phase := .exit } })

/-- Rules R254, R327, R330: a `LOOP_RECORD` step with an input block and no other agent at its waits: normalise, the
chain where `FX_STAGE` is 0, stage, record; a block that does not fit is logged and ends the action, with all the rest
done. The environment's answers are taken as assumption log 14 says. -/
def Obligations.RecordLoopHandlesOneBlock : Prop :=
  ∀ (s u : State) (h : List HwSample), s.hw.monitorRec = false → enabledStep s = some .loopRecord →
    s.ctl.updPend = false → s.ctl.stop = false → NoVisits s.env → takeIn s = (u, [], .block h) →
    let blk := portBlock (blockLen s) h
    ∃ s2 s4, execIf (!s.act.ctrlEn.getLsbD 10) .applyEffects { s with
        env := u.env
        ports := { s.ports with inp := s.ports.inp ++ [.block blk] }
        wb := blk.map (normSample s.hw.hwWidth) } = .next s2 ∧
      exec .recordBlock { (takeCopy s2).1 with stage := s2.wb, stageNew := true } = .next s4 ∧
      (44 + s.wrCur.toNat + 2 * blockLen s ≤ bufCap s → exec .loopRecord s = .next { s4 with result := s.result }) ∧
      (bufCap s < 44 + s.wrCur.toNat + 2 * blockLen s → exec .loopRecord s = .next { s4 with
        result := s.result
        ctl := { s.ctl with phase := .exit }
        ports := { s4.ports with log := s4.ports.log ++ [.capacityExhausted s.wrCur] } })

/-- Rules R254, R326, R327, R332: a `LOOP_PASSTHRU` step with an input block and no other agent at its waits:
normalise, the chain always, stage, write out; RB and the cursors are not touched. -/
def Obligations.PassthruLoopHandlesOneBlock : Prop :=
  ∀ (s u : State) (h : List HwSample), enabledStep s = some .loopPassthru → s.ctl.updPend = false →
    s.ctl.stop = false → NoVisits s.env → takeIn s = (u, [], .block h) →
    let blk := portBlock (blockLen s) h
    ∃ s2, exec .applyEffects { s with
        env := u.env
        ports := { s.ports with inp := s.ports.inp ++ [.block blk] }
        wb := blk.map (normSample s.hw.hwWidth) } = .next s2 ∧
      let p := takeOut (takeCopy s2).1
      exec .loopPassthru s = .next { s2 with
        stage := s2.wb
        stageNew := true
        env := p.1.env
        ports := { s2.ports with out := s2.ports.out ++ [(s2.wb.map (denormSample s.hw.hwWidth), p.2.2)] } } ∧
      s2.rb = s.rb ∧ s2.wrCur = s.wrCur ∧ s2.recEnd = s.recEnd ∧ s2.rdCur = s.rdCur

/-- Rules R254, R275, R331: a `LOOP_PLAY` step with no other agent at its waits: the end of the data ends the action;
otherwise the next stored block goes through the chain where `FX_STAGE` is 1, is staged and written out. -/
def Obligations.PlayLoopHandlesOneBlock : Prop :=
  ∀ s : State, enabledStep s = some .loopPlay → s.ctl.updPend = false → s.ctl.stop = false →
    (s.recEnd.toNat < s.rdCur.toNat + 2 * blockLen s →
      exec .loopPlay s = .next { s with ctl := { s.ctl with phase := .exit } }) ∧
    (s.rdCur.toNat + 2 * blockLen s ≤ s.recEnd.toNat → 44 + s.recEnd.toNat ≤ bufCap s → NoVisits s.env →
      ∃ s1 s2, exec .readBlock s = .next s1 ∧
        execIf (s.act.ctrlEn.getLsbD 10) .applyEffects { s1 with result := s.result } = .next s2 ∧
        let p := takeOut (takeCopy s2).1
        exec .loopPlay s = .next { s2 with
          stage := s2.wb
          stageNew := true
          env := p.1.env
          ports := { s2.ports with out := s2.ports.out ++ [(s2.wb.map (denormSample s.hw.hwWidth), p.2.2)] } })

/-- Rules R285, R333: a `LOOP_EXPORT` step: the header first, as one chunk of 44 bytes; then one chunk per stored
block, through the chain where `FX_STAGE` is 1, RB unchanged; the end of the data ends the action. -/
def Obligations.ExportLoopEmitsTheFile : Prop :=
  ∀ s : State, enabledStep s = some .loopExport → s.ctl.updPend = false → s.ctl.stop = false →
    (s.ctl.hdrSent = false → s.hw.bufRoom ≠ none → ∃ t, exec .buildWavHeader s = .next t ∧
      exec .loopExport s = .next { t with
        ctl := { s.ctl with hdrSent := true }
        ports := { s.ports with exported := s.ports.exported ++ [memReadBytes t.rb 0 44] } }) ∧
    (s.ctl.hdrSent = true → s.recEnd.toNat < s.rdCur.toNat + 2 * blockLen s →
      exec .loopExport s = .next { s with ctl := { s.ctl with phase := .exit } }) ∧
    (s.ctl.hdrSent = true → s.rdCur.toNat + 2 * blockLen s ≤ s.recEnd.toNat → 44 + s.recEnd.toNat ≤ bufCap s →
      ∃ s1 s2, exec .readBlock s = .next s1 ∧
        execIf (s.act.ctrlEn.getLsbD 10) .applyEffects { s1 with result := s.result } = .next s2 ∧
        exec .loopExport s = .next { s2 with
          ports := { s2.ports with exported := s2.ports.exported ++ [s2.wb.flatMap le16] } } ∧ s2.rb = s.rb)

/-- Rules R340, R378: `TASK_EXIT` marks the end of a recording, clears the stop flag, the feedback and the action,
frees the permit and returns the Task to WAIT, and changes nothing else. -/
def Obligations.ExitReturnsToIdle : Prop :=
  ∀ s : State, s.qtabValid = true → s.ctl.phase = .exit →
    exec .taskExit s = .next { s with
      recEnd := if s.ctl.action = .record then s.wrCur else s.recEnd
      ctl := { s.ctl with stop := false, feedback := false, action := .none, permit := true, phase := .wait } }

/-! ## The Bridge and the waiting points (rules R86, R90, R361) -/

/-- Rules R361, R362: `BRIDGE_POLL` in each of its cases, with all that it changes. The transport's answers are taken as
assumption log 14 says; a poll sends exactly STAGE, no copy being in progress. That the queries at TX are entries of its
history, the one of an unattached transport too, is the model's choice, assumption log 18. Of the environment only the
answers at TX are used up, so that no other agent sees a poll but by STAGE_NEW (rule R362 (e)). -/
def Obligations.BridgeForwardsAtMostOneNewBlock : Prop :=
  ∀ (s u : State) (attached : Bool), takeAttached s = (u, attached) →
    (∃ t, exec .bridgePoll s = .next t ∧ t = { s with
      stageNew := t.stageNew
      env := { s.env with
        attachedQ := t.env.attachedQ
        readyQ := t.env.readyQ
        draws := { s.env.draws with attached := t.env.draws.attached, ready := t.env.draws.ready } }
      ports := { s.ports with tx := t.ports.tx, log := t.ports.log } }) ∧
    u = { s with env := u.env } ∧
    (attached = false → exec .bridgePoll s = .next { u with
      ports := { s.ports with tx := s.ports.tx ++ [.attached false] } }) ∧
    (attached = true → s.stageNew = false → exec .bridgePoll s = .next { u with
      ports := { s.ports with tx := s.ports.tx ++ [.attached true] } }) ∧
    (attached = true → s.stageNew = true → s.hw.transportMax < 2 * blockLen s →
      exec .bridgePoll s = .next { u with
        stageNew := false
        ports := { s.ports with
          tx := s.ports.tx ++ [.attached true]
          log := s.ports.log ++ [.configOutOfRange .transportSize] } }) ∧
    ∀ (v : State) (ready : Bool), attached = true → s.stageNew = true → 2 * blockLen s ≤ s.hw.transportMax →
      takeReady u = (v, ready) → v = { s with env := v.env } ∧
      exec .bridgePoll s = .next { v with
        stageNew := false
        ports := { s.ports with
          tx := s.ports.tx ++ [.attached true, .ready ready] ++
            (if ready then [.send s.stage (2 * blockLen s)] else []) } }

/-- Rules R90, R327, R361, R362 (d): a Bridge poll inside the copy into STAGE is a Bridge poll of a block that takes each
element old or new, independently, and every such mixture is read by some poll: it sends exactly that mixture. STAGE is
not changed by the poll, and whatever the polls did, at the end of the copy STAGE holds the whole new block and STAGE_NEW
is set. The polls that fall into a copy and what each reads new are data (assumption log 15), the transport's answers come
from the model's queues or are free (log 14), and the queries at TX are entries of its history (log 18). -/
def Obligations.TornReadMixesOldAndNew : Prop :=
  (∀ (s : State) (new : List S16) (m : List Bool), s.stage.length = new.length →
      ∃ (t : List S16) (u : State), t.length = s.stage.length ∧
        (∀ i, i < t.length → t.getD i 0 = s.stage.getD i 0 ∨ t.getD i 0 = new.getD i 0) ∧
        exec .bridgePoll { s with stage := t } = .next u ∧
        visitStep (some new) s (.bridge m) = { u with stage := s.stage }) ∧
    (∀ (s : State) (new t : List S16), s.stage.length = new.length → t.length = s.stage.length →
      (∀ i, i < t.length → t.getD i 0 = s.stage.getD i 0 ∨ t.getD i 0 = new.getD i 0) →
      ∃ m : List Bool, ∀ (u v : State), takeAttached s = (u, true) → s.stageNew = true →
        2 * blockLen s ≤ s.hw.transportMax → takeReady u = (v, true) →
        visitStep (some new) s (.bridge m) = { v with
          stageNew := false
          ports := { s.ports with
            tx := s.ports.tx ++ [.attached true, .ready true, .send t (2 * blockLen s)] } }) ∧
    ∀ (s : State) (vs : List Visit) (rest : List (List Visit)), s.env.copyQ = vs :: rest →
      stageBlock s = { vs.foldl (visitStep (some s.wb)) { s with env := { s.env with copyQ := rest } } with
        stage := s.wb, stageNew := true }

/-- Rules R85, R86, R326, R327, R330 to R332: what another agent does while the Task waits is a whole step of that agent
(a configuration visit leaves the model's operand latch as it was: assumption log 15). Visits at the IN wait run before
the answer is taken, visits at the OUT wait before the answer of the output; an input time-out then ends a Record or
Passthru step with no other effect, and a step that completes is its wait for input, the chain, the copy into STAGE and
its wait for output (in a Record step only where MONITOR_REC is 1, rule R330) in this order, with whatever visits fall
there; a Record step whose block no longer fits does all this too, and then logs CapacityExhausted and ends the action.
The visits are data of the model's queues (assumption log 14, 15), and the time-out recorded at IN is its choice (log
18). -/
def Obligations.WaitsAdmitWholeSteps : Prop :=
  (∀ (s : State) (w : CmdWord) (b : Option (List S16)),
      step { s with turns := .request w :: s.turns } = .next (visitStep b s (.request w))) ∧
    (∀ (s : State) (w : CmdWord) (v : CfgValue) (b : Option (List S16)), ∃ t,
      step { s with turns := .config w v :: s.turns } = .next t ∧
      visitStep b s (.config w v) = { t with beside := s.beside }) ∧
    (∀ (s : State) (m : List Bool),
      step { s with turns := .bridge :: s.turns } = .next (visitStep none s (.bridge m))) ∧
    (∀ (s : State) (i : Instr) (vs : List Visit) (rest : List (List Visit × InAnswer)),
      i = .loopRecord ∨ i = .loopPassthru → enabledStep s = some i → s.ctl.updPend = false → s.ctl.stop = false →
      s.env.inQ = (vs, .timeout) :: rest →
      let t := vs.foldl (visitStep none) { s with env := { s.env with inQ := rest } }
      exec i s = .next { t with ports := { t.ports with inp := t.ports.inp ++ [.timeout] } }) ∧
    (∀ (s : State) (vs : List Visit) (h : List HwSample) (rest : List (List Visit × InAnswer)),
      s.env.inQ = (vs, .block h) :: rest →
      let t := vs.foldl (visitStep none) { s with env := { s.env with inQ := rest } }
      let blk := portBlock (blockLen s) h
      readIn s = ({ t with ports := { t.ports with inp := t.ports.inp ++ [.block blk] } }, .block blk)) ∧
    (∀ (s : State) (o : List HwSample) (vs : List Visit) (a : OutAnswer) (rest : List (List Visit × OutAnswer)),
      s.env.outQ = (vs, a) :: rest →
      let t := vs.foldl (visitStep none) { s with env := { s.env with outQ := rest } }
      writeOut o s = { t with ports := { t.ports with out := t.ports.out ++ [(o, a)] } }) ∧
    (∀ (s u : State) (h : List HwSample), enabledStep s = some .loopPassthru → s.ctl.updPend = false →
      s.ctl.stop = false → readIn s = (u, .block h) →
      ∃ v, exec .applyEffects { u with wb := h.map (normSample s.hw.hwWidth) } = .next v ∧
        exec .loopPassthru s = .next (writeOut (v.wb.map (denormSample s.hw.hwWidth)) (stageBlock v))) ∧
    (∀ (s u : State) (h : List HwSample), enabledStep s = some .loopRecord →
      s.ctl.updPend = false → s.ctl.stop = false → readIn s = (u, .block h) →
      ∃ v w, execIf (!s.act.ctrlEn.getLsbD 10) .applyEffects { u with wb := h.map (normSample s.hw.hwWidth) } = .next v ∧
        exec .recordBlock (if s.hw.monitorRec then
            writeOut (v.wb.map (denormSample s.hw.hwWidth)) (stageBlock v) else stageBlock v) = .next w ∧
        (44 + s.wrCur.toNat + 2 * blockLen s ≤ bufCap s → exec .loopRecord s = .next { w with result := s.result }) ∧
        (bufCap s < 44 + s.wrCur.toNat + 2 * blockLen s → exec .loopRecord s = .next { w with
          result := s.result
          ctl := { w.ctl with phase := .exit }
          ports := { w.ports with log := w.ports.log ++ [.capacityExhausted s.wrCur] } })) ∧
    ∀ s : State, enabledStep s = some .loopPlay → s.ctl.updPend = false → s.ctl.stop = false →
      s.rdCur.toNat + 2 * blockLen s ≤ s.recEnd.toNat → 44 + s.recEnd.toNat ≤ bufCap s →
      ∃ u v, exec .readBlock s = .next u ∧
        execIf (s.act.ctrlEn.getLsbD 10) .applyEffects { u with result := s.result } = .next v ∧
        exec .loopPlay s = .next (writeOut (v.wb.map (denormSample s.hw.hwWidth)) (stageBlock v))

/-! ## The machine as a whole -/

/-- Rules R32 to R41, R61, R410: what reset leaves, where the spec gives a value, whatever the parameters. `BAND_Q` is
the format's value of 0.7071 (rule R9, assumption log 26). -/
def Obligations.ResetLeavesTheSpecValues : Prop :=
  let s := State.reset
  s.ctl = { permit := true, action := .none, stop := false, wake := false, updPend := false, phase := .wait,
            bank := false, hdrSent := false, ioDisabled := false, feedback := false } ∧
    s.cfg = s.act ∧ s.cfg.sampleRate = 16000 ∧ s.cfg.ctrlEn = 0 ∧ s.cfg.toneFreq = 0 ∧ s.cfg.toneAmp = 0 ∧
    s.cfg.decay = 0 ∧ s.cfg.clipFactor = .num 1 ∧ s.cfg.pitchRatio = .num 1 ∧ s.cfg.volFactor = 1 ∧
    s.cfg.micRoute = 0 ∧ s.cfg.ampRoute = 0 ∧
    (∀ b, bandGet s.cfg.bands b = ⟨.num 1000, (floatFmt s).round (7071 / 10000), .num 0, 1⟩) ∧
    (∀ b, (bandGet s.bank0 b).nst = 0 ∧ (bandGet s.bank1 b).nst = 0) ∧ s.qtabValid = false ∧
    s.rmLen = 0 ∧ s.rmAmp = 0 ∧ s.rmPhase = 0 ∧ s.rmValid = false ∧ s.rmSr = 0 ∧ s.rmFreq = 0 ∧
    s.dl = List.replicate 1600 0 ∧ s.rvTap = 0 ∧ s.stage = List.replicate (blockLen s) 0 ∧ s.stageNew = false ∧
    s.wrCur = 0 ∧ s.recEnd = 0 ∧ s.rdCur = 0 ∧ s.ports = ⟨[], [], [], [], [], [], [], [], []⟩

/-- The invariant of Safety.lean holds after reset, for every choice of the parameters (rules R42, R61, R62). -/
def Obligations.ResetMeetsTheInvariant : Prop := ∀ hw : HwParams, MachineInv (State.resetWith hw)

/-- Every step keeps the invariant, from every state that meets it, whichever agent moves and whatever the environment
answers (rules R23, R27, R28, R30, R33, R36, R42, R71, R76, R163, R411). -/
def Obligations.StepKeepsTheInvariant : Prop := ∀ s t : State, MachineInv s → step s = .next t → MachineInv t

/-- Rules R11, R76, R373: from a state that meets the invariant no step stops, with the one exception of a header build
named directly on a block without a buffer (assumption log 22). -/
def Obligations.NoStepStopsTheMachine : Prop :=
  ∀ s : State, MachineInv s → (bufPresent s = true ∨ ∀ b ts, s.turns ≠ .drive 0x6400 b :: ts) → Completes (step s)

/-- Rules R305, R325, R340, R346 (d), R378: once a Stop is posted, an accepted action is over and the permit free
within five steps of the Task, whatever the hardware answers. -/
def Obligations.StoppedActionReturnsToIdle : Prop :=
  ∀ s : State, MachineInv s → s.turns = [] → s.ctl.permit = false → s.ctl.stop = true →
    ∃ k t, k ≤ 5 ∧ runSteps k s = .next t ∧ t.ctl.permit = true ∧ controllerState t = .idle

/-- Rules R87, R346 (a), (b): the permit is taken only by an accepted gated request, freed only by `TASK_EXIT`, and the
action changes only in those two steps. -/
def Obligations.PermitIsSingleFlight : Prop :=
  ∀ (s t : State) (i : Instr), MachineInv s → exec i s = .next t →
    (s.ctl.permit = true → t.ctl.permit = false →
      (i = .reqRecord ∨ i = .reqPlay ∨ i = .reqPassthru ∨ i = .reqDownloadWav) ∧ i.request? = some t.ctl.action) ∧
    (s.ctl.permit = false → t.ctl.permit = true → i = .taskExit) ∧
    (s.ctl.permit = t.ctl.permit → s.ctl.action = t.ctl.action)

/-- Rules R60, R371 and the parameters of rule R8: no step rewrites a port history or changes a parameter. -/
def Obligations.HistoriesOnlyGrow : Prop :=
  ∀ s t : State, step s = .next t → HistoriesGrow s.ports t.ports ∧ t.hw = s.hw

/-- Rules R31, R92, R95: no operation but `CFG_WRITE` writes the pending configuration, and no operation but a rebuild
writes the active one: `TASK_REBUILD`, and `TASK_WAKE` and a loop step, which serve a pending update by one; where no update
is pending not these either (where no Configurator step falls into a wait). -/
def Obligations.OnlyTheConfiguratorWritesConfig : Prop :=
  ∀ (s t : State) (i : Instr), NoConfigVisits s.env → exec i s = .next t →
    ((∀ rr, i ≠ .cfgWrite rr) → t.cfg = s.cfg) ∧ (i ≠ .taskRebuild → s.ctl.updPend = false → t.act = s.act) ∧
    (i ∉ [Instr.taskRebuild, .taskWake, .loopRecord, .loopPlay, .loopPassthru, .loopExport] → t.act = s.act)

/-- Rules R88, R95: a pending configuration that no rebuild has served is invisible: whatever CFG holds, every
operation of the Requester, the Task and the Bridge does exactly the same. -/
def Obligations.UnservedConfigIsInvisible : Prop :=
  ∀ (s : State) (c : CfgRegs) (i : Instr), (∀ rr, i ≠ .cfgWrite rr) → i ≠ .taskRebuild → s.ctl.updPend = false →
    NoConfigVisits s.env →
    exec i { s with cfg := c } = mapNext (fun t => { t with cfg := c }) (exec i s)

/-- Rules R70, R213: who writes the memories: RB only a recording and a header build, the delay line only the reverb,
the Q table only `QTAB_INIT` (each alone or inside the operations of the Task that contain it). -/
def Obligations.MemoriesHaveTheirWriters : Prop :=
  ∀ (s t : State) (i : Instr), exec i s = .next t →
    (i ∉ [Instr.recordBlock, .buildWavHeader, .loopRecord, .loopExport] → t.rb = s.rb) ∧
    (i ∉ [Instr.rvBlock, .rvClear, .applyEffects, .loopRecord, .loopPlay, .loopPassthru, .loopExport] →
      t.dl = s.dl ∧ t.rvTap = s.rvTap) ∧
    (i ≠ .qtabInit → t.qtab = s.qtab)
end

