-- ==== Sys2Proof/Laws/Arith.lean ====
section
/-! SUPPORT. The laws of the arithmetic primitives: operations over the reals on finite values, saturation, and the
codes of types, bands and stages. -/

namespace Sys2Proof.Machine

open Sys2Proof

/-! ## The reals -/

@[simp] theorem fAdd_reals (x y : Rat) : fAdd realsFmt (.num x) (.num y) = .num (x + y) := rfl

@[simp] theorem fSub_reals (x y : Rat) : fSub realsFmt (.num x) (.num y) = .num (x - y) := rfl

@[simp] theorem fMul_reals (x y : Rat) : fMul realsFmt (.num x) (.num y) = .num (x * y) := rfl

@[simp] theorem fDiv_reals (x y : Rat) (h : y ≠ 0) : fDiv realsFmt (.num x) (.num y) = .num (x / y) := by
  simp [fDiv, h, realsFmt]

theorem floatFmt_reals (s : State) (h : s.hw.floatFmt = .reals) : floatFmt s = realsFmt := by simp [floatFmt, h, fmtOf]

/-- The format depends on the parameters only. -/
theorem floatFmt_congr {s t : State} (h : s.hw = t.hw) : floatFmt s = floatFmt t := by simp [floatFmt, h]

/-- The design function depends on the parameters only. -/
theorem designFn_congr {s t : State} (h : s.hw = t.hw) : designFn s = designFn t := by
  simp [designFn, h, floatFmt_congr h]

/-- The block length depends on the parameters only. -/
theorem blockLen_congr {s t : State} (h : s.hw = t.hw) : blockLen s = blockLen t := by simp [blockLen, h]

/-- The capacity depends on the parameters only. -/
theorem bufCap_congr {s t : State} (h : s.hw = t.hw) : bufCap s = bufCap t := by simp [bufCap, h]

/-! ## Truncation -/

/-- Toward zero is down for a value that is not negative (rule R12). -/
theorem trunc_of_nonneg {v : Rat} (h : 0 ≤ v) : trunc v = ⌊v⌋ := by
  unfold trunc
  rw [Int.tdiv_eq_ediv_of_nonneg (Rat.num_nonneg.2 h), Rat.floor_def']

/-- Truncation is odd (rule R12). -/
theorem trunc_neg (v : Rat) : trunc (-v) = -trunc v := by
  unfold trunc; simp

/-- Toward zero is up for a value that is not positive (rule R12). -/
theorem trunc_of_nonpos {v : Rat} (h : v ≤ 0) : trunc v = ⌈v⌉ := by
  have e := trunc_of_nonneg (v := -v) (by linarith)
  rw [trunc_neg, Int.floor_neg] at e
  omega

/-! ## The values of a format (rule R9) -/

@[simp] theorem fmtReal_reals (v : RealVal) : fmtReal realsFmt v = v := by cases v <;> rfl

@[simp] theorem portValue_reals (v : CfgValue) : portValue realsFmt v = v := by cases v <;> simp [portValue]

/-- An integer of the range of an s16 is a value of every format. -/
theorem alwaysHeld_int {n : Int} (h : n.natAbs ≤ 32768) : alwaysHeld (n : Rat) = true := by simp [alwaysHeld, h]

/-- The numbers named by `alwaysHeld` are values of a sealed format. -/
theorem sealFmt_holds (f : FloatFmt) {q : Rat} (h : alwaysHeld q = true) : (sealFmt f).holds q = true := by
  show (alwaysHeld q || f.holds q) = true
  rw [h]; rfl

theorem natAbs_trunc_le {q : Rat} (h : |q| ≤ 32768) : (trunc q).natAbs ≤ 32768 := by
  obtain ⟨h1, h2⟩ := abs_le.1 h
  rcases le_total 0 q with h0 | h0
  · rw [trunc_of_nonneg h0]
    have : 0 ≤ ⌊q⌋ := Int.floor_nonneg.2 h0
    have : (⌊q⌋ : Rat) ≤ 32768 := (Int.floor_le q).trans h2
    have : ⌊q⌋ ≤ 32768 := by exact_mod_cast this
    omega
  · rw [trunc_of_nonpos h0]
    have h3 : (-32768 : Int) ≤ ⌈q⌉ := by
      have : (-32768 : Rat) ≤ ⌈q⌉ := h1.trans (Int.le_ceil q)
      exact_mod_cast this
    have h4 : ⌈q⌉ ≤ 0 := Int.ceil_le.2 (by simpa using h0)
    omega

/-- The value next to a number is a value of every format. -/
theorem nextHeld_held (q : Rat) : alwaysHeld (nextHeld q) = true := by
  unfold nextHeld
  split
  · decide
  · split
    · decide
    · split
      · simp [alwaysHeld]
      · exact alwaysHeld_int (natAbs_trunc_le (abs_le.2 ⟨by linarith, by linarith⟩))

/-- A number can be rounded to the value next to it. -/
theorem nextHeld_faithful (q : Rat) : faithfulAt q (nextHeld q) = true := by
  unfold faithfulAt nextHeld
  by_cases h1 : 32768 < q
  · simp [h1]
  by_cases h2 : q < -32768
  · simp [h1, h2]
  by_cases h3 : 0 < q ∧ q < 1 / 2
  · have e : trunc q = 0 := by
      rw [trunc_of_nonneg h3.1.le, Int.floor_eq_zero_iff]; exact ⟨h3.1.le, by linarith [h3.2]⟩
    rw [if_neg h1, if_neg h2, if_pos h3, if_neg h1, if_neg h2, if_neg (fun h => absurd h.1 (not_le.2 h3.2)), e]
    norm_num
  by_cases h4 : 1 / 2 ≤ q ∧ q < 1
  · rw [if_neg h1, if_neg h2, if_neg h3, if_pos h4, if_neg h1, if_neg h2, if_pos h4]
    norm_num
  rw [if_neg h1, if_neg h2, if_neg h3, if_neg h4, if_neg h1, if_neg h2, if_neg h4, decide_eq_true_eq]
  show (⌊q⌋ : Rat) ≤ _ ∧ _ ≤ (⌈q⌉ : Rat)
  have hfc : (⌊q⌋ : Rat) ≤ ⌈q⌉ := by exact_mod_cast Int.floor_le_ceil q
  rcases le_total 0 q with h0 | h0
  · rw [trunc_of_nonneg h0]; exact ⟨le_refl _, hfc⟩
  · rw [trunc_of_nonpos h0]; exact ⟨hfc, le_refl _⟩

/-- What `heldOr` gives satisfies whatever its candidates must and its fallback does. -/
theorem heldOr_spec {holds ok : Rat → Bool} {fallback : Rat} (h1 : holds fallback = true) (h2 : ok fallback = true)
    (r : Rat) : holds (heldOr holds ok fallback r) = true ∧ ok (heldOr holds ok fallback r) = true := by
  unfold heldOr
  split
  · rename_i h; simpa using h
  · exact ⟨h1, h2⟩

/-- `r` is a rounding of `q` that passes no number every format holds. -/
def Rounded (q r : Rat) : Prop := r = q ∨ faithfulAt q r = true

/-- The cases of a rounding, by the numbers that every format holds. -/
theorem Rounded.cases {q r : Rat} (h : Rounded q r) :
    r = q ∨ (32768 < q ∧ 32768 ≤ r) ∨ (q < -32768 ∧ r ≤ -32768) ∨ (0 < q ∧ q < 1 / 2 ∧ 0 ≤ r ∧ r ≤ 1 / 2) ∨
      (1 / 2 ≤ q ∧ q < 1 ∧ 1 / 2 ≤ r ∧ r ≤ 1) ∨
      ((q ≤ 0 ∨ 1 ≤ q) ∧ q ≤ 32768 ∧ -32768 ≤ q ∧ (⌊q⌋ : Rat) ≤ r ∧ r ≤ (⌈q⌉ : Rat)) := by
  rcases h with h | h
  · exact .inl h
  unfold faithfulAt at h
  split at h
  · exact .inr (.inl ⟨‹_›, of_decide_eq_true h⟩)
  split at h
  · exact .inr (.inr (.inl ⟨‹_›, of_decide_eq_true h⟩))
  split at h
  · rename_i h3
    exact .inr (.inr (.inr (.inl ⟨h3.1, h3.2, of_decide_eq_true h⟩)))
  split at h
  · rename_i h4
    exact .inr (.inr (.inr (.inr (.inl ⟨h4.1, h4.2, of_decide_eq_true h⟩))))
  · rename_i h1 h2 h3 h4
    refine .inr (.inr (.inr (.inr (.inr ⟨?_, not_lt.1 h1, not_lt.1 h2, of_decide_eq_true h⟩))))
    by_contra hc
    rw [not_or, not_le, not_le] at hc
    rcases lt_or_ge q (1 / 2) with h5 | h5
    · exact h3 ⟨hc.1, h5⟩
    · exact h4 ⟨h5, hc.2⟩

theorem int_bounds {n : Int} (hn : n.natAbs ≤ 32768) : (-32768 : Rat) ≤ n ∧ (n : Rat) ≤ 32768 := by
  have h1 : (-32768 : Int) ≤ n := by omega
  have h2 : n ≤ (32768 : Int) := by omega
  exact ⟨by exact_mod_cast h1, by exact_mod_cast h2⟩

/-- A rounding does not pass an integer of the range of an s16. -/
theorem Rounded.int_le {q r : Rat} (h : Rounded q r) {n : Int} (hn : n.natAbs ≤ 32768) (hq : (n : Rat) ≤ q) :
    (n : Rat) ≤ r := by
  have hb := int_bounds hn
  have hc : q < 1 → (n : Rat) ≤ 0 := by
    intro hx
    have : (n : Rat) < 1 := hq.trans_lt hx
    have : n < 1 := by exact_mod_cast this
    exact_mod_cast (by omega : n ≤ 0)
  rcases h.cases with rfl | ⟨_, h2⟩ | ⟨h1, _⟩ | ⟨_, h2, h3, _⟩ | ⟨_, h2, h3, _⟩ | ⟨_, _, _, h3, _⟩
  · exact hq
  · exact hb.2.trans h2
  · linarith
  · linarith [hc (by linarith)]
  · linarith [hc h2]
  · have : n ≤ ⌊q⌋ := Int.le_floor.2 hq
    exact le_trans (by exact_mod_cast this) h3

/-- A rounding does not pass an integer of the range of an s16. -/
theorem Rounded.le_int {q r : Rat} (h : Rounded q r) {n : Int} (hn : n.natAbs ≤ 32768) (hq : q ≤ n) :
    r ≤ (n : Rat) := by
  have hb := int_bounds hn
  have hc : 0 < q → (1 : Rat) ≤ n := by
    intro hx
    have : (0 : Rat) < n := hx.trans_le hq
    have : 0 < n := by exact_mod_cast this
    exact_mod_cast (by omega : 1 ≤ n)
  rcases h.cases with rfl | ⟨h1, _⟩ | ⟨_, h2⟩ | ⟨h1, _, _, h4⟩ | ⟨h1, _, _, h4⟩ | ⟨_, _, _, _, h4⟩
  · exact hq
  · linarith
  · exact h2.trans hb.1
  · linarith [hc h1]
  · linarith [hc (by linarith)]
  · have : ⌈q⌉ ≤ n := Int.ceil_le.2 hq
    exact h4.trans (by exact_mod_cast this)

/-- A rounding does not pass one half. -/
theorem Rounded.half_le {q r : Rat} (h : Rounded q r) (hq : 1 / 2 ≤ q) : 1 / 2 ≤ r := by
  rcases h.cases with rfl | ⟨_, h2⟩ | ⟨h1, _⟩ | ⟨_, h2, _, _⟩ | ⟨_, _, h3, _⟩ | ⟨h0, h1, _, h3, _⟩
  · exact hq
  · linarith
  · linarith
  · linarith
  · exact h3
  · have h1 : (1 : Rat) ≤ q := h0.resolve_left (by linarith)
    have : (1 : Int) ≤ ⌊q⌋ := Int.le_floor.2 (by simpa using h1)
    have : (1 : Rat) ≤ ⌊q⌋ := by exact_mod_cast this
    linarith

/-- Rounding leaves a value of the format as it is. -/
theorem sealFmt_round_self (f : FloatFmt) {q : Rat} (h : (sealFmt f).holds q = true) :
    (sealFmt f).round q = .num q := by
  show formatRound (sealFmt f).holds f.round q = _
  simp [formatRound, h]

/-- What a sealed format rounds a number to: a value of it that is a rounding of the number, or beyond the range of an s16
an infinity (rules R9, R141 (b)). -/
theorem sealFmt_round_cases (f : FloatFmt) (q : Rat) :
    (∃ r, (sealFmt f).round q = .num r ∧ (sealFmt f).holds r = true ∧ Rounded q r) ∨
      (32768 < q ∧ (sealFmt f).round q = .posInf) ∨ (q < -32768 ∧ (sealFmt f).round q = .negInf) := by
  have hn := sealFmt_holds f (nextHeld_held q)
  have he : (sealFmt f).round q = formatRound (sealFmt f).holds f.round q := rfl
  by_cases h : (sealFmt f).holds q = true
  · exact .inl ⟨q, sealFmt_round_self f h, h, .inl rfl⟩
  rw [he]
  unfold formatRound
  rw [if_neg h]
  have out : (∃ r, (if 32768 < q then RealVal.posInf else if q < -32768 then RealVal.negInf else .num (nextHeld q)) =
      .num r ∧ (sealFmt f).holds r = true ∧ Rounded q r) ∨
      (32768 < q ∧ (if 32768 < q then RealVal.posInf else if q < -32768 then .negInf else .num (nextHeld q)) = .posInf) ∨
      (q < -32768 ∧ (if 32768 < q then RealVal.posInf else if q < -32768 then .negInf else .num (nextHeld q)) = .negInf) := by
    by_cases h1 : 32768 < q
    · exact .inr (.inl ⟨h1, if_pos h1⟩)
    · by_cases h2 : q < -32768
      · exact .inr (.inr ⟨h2, by rw [if_neg h1, if_pos h2]⟩)
      · exact .inl ⟨_, by rw [if_neg h1, if_neg h2], hn, .inr (nextHeld_faithful q)⟩
  cases f.round q with
  | num r =>
    obtain ⟨h1, h2⟩ := heldOr_spec hn (nextHeld_faithful q) r
    exact .inl ⟨_, rfl, h1, .inr h2⟩
  | posInf | negInf | nan => exact out

/-- What a sealed format rounds to is a value of it. -/
theorem sealFmt_round_isFmtValue (f : FloatFmt) (q : Rat) : isFmtValue (sealFmt f) ((sealFmt f).round q) = true := by
  rcases sealFmt_round_cases f q with ⟨r, h, h1, _⟩ | ⟨_, h⟩ | ⟨_, h⟩ <;> rw [h]
  · exact h1
  · rfl
  · rfl

/-- Inside the range of an s16 a sealed format rounds to a finite number. -/
theorem sealFmt_round_small (f : FloatFmt) {q : Rat} (h : |q| ≤ 32768) :
    ∃ r : Rat, (sealFmt f).round q = .num r ∧ Rounded q r := by
  obtain ⟨h1, h2⟩ := abs_le.1 h
  rcases sealFmt_round_cases f q with ⟨r, h, _, hr⟩ | ⟨h3, _⟩ | ⟨h3, _⟩
  · exact ⟨r, h, hr⟩
  · linarith
  · linarith

/-! ## The equations without a NaN or an infinity (rule R152) -/

/-- A rounding inside those equations is finite, in every format the rules admit. -/
theorem finiteFmt_round (c : FloatChoice) (q : Rat) : ∃ r : Rat, (finiteFmt (fmtOf c)).round q = .num r ∧ Rounded q r := by
  cases c with
  | reals => exact ⟨q, rfl, .inl rfl⟩
  | other =>
    have h2 := (heldOr_spec (sealFmt_holds Config.floatFmt (nextHeld_held q)) (nextHeld_faithful q)
      (Config.floatFmt.finiteRound q)).2
    rcases sealFmt_round_cases Config.floatFmt q with ⟨r, h, _, hr⟩ | ⟨_, h⟩ | ⟨_, h⟩
    · exact ⟨r, by simp [finiteFmt, fmtOf, h], hr⟩
    · exact ⟨_, by simp [finiteFmt, fmtOf, h]; rfl, .inr h2⟩
    · exact ⟨_, by simp [finiteFmt, fmtOf, h]; rfl, .inr h2⟩

/-- A number, and no infinity and no NaN. -/
def IsNum (v : RealVal) : Prop := ∃ q : Rat, v = .num q

theorem IsNum.num (q : Rat) : IsNum (.num q) := ⟨q, rfl⟩

theorem finiteFmt_round_isNum (f : FloatFmt) (q : Rat) : IsNum ((finiteFmt f).round q) := by
  show IsNum (match f.round q with | .num r => .num r | .posInf | .negInf | .nan => .num (f.finiteRound q))
  cases f.round q <;> exact ⟨_, rfl⟩

theorem fAdd_isNum (f : FloatFmt) (a b : RealVal) : IsNum (fAdd (finiteFmt f) a b) := by
  cases a <;> cases b <;> first | exact finiteFmt_round_isNum f _ | exact ⟨_, rfl⟩

theorem fSub_isNum (f : FloatFmt) (a b : RealVal) : IsNum (fSub (finiteFmt f) a b) := by
  cases a <;> cases b <;> first | exact finiteFmt_round_isNum f _ | exact ⟨_, rfl⟩

theorem fMul_isNum (f : FloatFmt) (a b : RealVal) : IsNum (fMul (finiteFmt f) a b) := by
  cases a <;> cases b <;> first | exact finiteFmt_round_isNum f _ | exact ⟨_, rfl⟩

theorem fDiv_isNum (f : FloatFmt) (a b : RealVal) : IsNum (fDiv (finiteFmt f) a b) := by
  cases a <;> cases b <;> try exact ⟨_, rfl⟩
  unfold fDiv
  simp only
  split
  · exact ⟨_, rfl⟩
  · exact finiteFmt_round_isNum f _

theorem onNum_isNum (g : Rat → Rat) {v : RealVal} (h : IsNum v) : IsNum (onNum g v) := by
  obtain ⟨q, rfl⟩ := h; exact ⟨_, rfl⟩

theorem decibel_isNum (f : FloatFmt) (g : Rat) : IsNum (decibel f g) := onNum_isNum _ (fDiv_isNum f _ _)

theorem tanPi_isNum (f : FloatFmt) (fc : Rat) : IsNum (tanPi f fc) := onNum_isNum _ (fMul_isNum f _ _)

/-- The bound of the clip factor is a finite number between 2 and 3 in every format (rules R8, R241). -/
theorem fmtOf_clipMax (c : FloatChoice) : ∃ top : Rat, (fmtOf c).round clipMax = .num top ∧ 2 ≤ top ∧ top ≤ 3 := by
  cases c with
  | reals => exact ⟨clipMax, rfl, by norm_num [clipMax], by norm_num [clipMax]⟩
  | other =>
    obtain ⟨r, h1, h⟩ := sealFmt_round_small Config.floatFmt (q := clipMax) (by norm_num [clipMax, abs_of_pos])
    have h2 := h.int_le (n := 2) (by decide) (by norm_num [clipMax])
    have h3 := h.le_int (n := 3) (by decide) (by norm_num [clipMax])
    exact ⟨r, h1, by exact_mod_cast h2, by exact_mod_cast h3⟩

/-! ## Configuration values -/

/-- A register takes a value exactly of its own type (rule R112). -/
theorem cfgStore_isSome (c : CfgRegs) (r : CfgReg) (v : CfgValue) :
    (cfgStore c r v).isSome = true ↔ v.type = r.type := by
  cases r with
  | band b f => cases f <;> cases v <;> simp [cfgStore, bandRegsStore, CfgValue.type, CfgReg.type, CfgValue.asReal, CfgValue.byte]
  | sampleRate | ctrlEn | toneFreq | toneAmp | decay | clipFactor | pitchRatio | volFactor | micRoute | ampRoute =>
    cases v <;> simp [cfgStore, CfgValue.type, CfgReg.type, CfgValue.asReal, CfgValue.byte, CfgValue.word32,
      CfgValue.word16, CfgValue.field, CfgValue.signedByte]

@[simp] theorem portValue_type (f : FloatFmt) (v : CfgValue) : (portValue f v).type = v.type := by cases v <;> rfl

/-! ## Saturation and narrowing -/

theorem clamp16_ge (n : Int) : -32768 ≤ clamp16 n := by unfold clamp16; split <;> (try split) <;> omega

theorem clamp16_le (n : Int) : clamp16 n ≤ 32767 := by unfold clamp16; split <;> (try split) <;> omega

/-- `sat16` is the nearest value of the range (rule R12). -/
theorem clamp16_eq (n : Int) : clamp16 n = max (-32768) (min 32767 n) := by
  unfold clamp16; split <;> (try split) <;> omega

theorem clamp16_of_mem {n : Int} (h1 : -32768 ≤ n) (h2 : n ≤ 32767) : clamp16 n = n := by
  unfold clamp16; split <;> (try split) <;> omega

/-- A value of the range of an s16 survives the narrowing. -/
theorem toInt_ofInt16 {n : Int} (h1 : -32768 ≤ n) (h2 : n ≤ 32767) : (BitVec.ofInt 16 n).toInt = n := by
  rw [BitVec.toInt_ofInt]
  exact Int.bmod_eq_of_le (by norm_num; omega) (by norm_num; omega)

/-- The value of `sat16` as a number (rule R12). -/
theorem sat16_toInt (n : Int) : (sat16 n).toInt = max (-32768) (min 32767 n) := by
  rw [sat16, toInt_ofInt16 (clamp16_ge n) (clamp16_le n), clamp16_eq]

theorem s16_ge (x : S16) : -32768 ≤ x.toInt := by have := BitVec.le_toInt x; norm_num at this; omega

theorem s16_le (x : S16) : x.toInt ≤ 32767 := by have := BitVec.toInt_lt (x := x); norm_num at this; omega

/-- A truncated quotient is no larger in magnitude than its dividend. -/
theorem natAbs_tdiv_le (a b : Int) : (Int.tdiv a b).natAbs ≤ a.natAbs := by
  rw [Int.natAbs_tdiv]; exact Nat.div_le_self _ _

/-! ## Codes -/

theorem bqTypeOfCode_code (t : BqType) : bqTypeOfCode t.code = some t := by cases t <;> rfl

theorem code_of_bqTypeOfCode {c : BitVec 3} {t : BqType} (h : bqTypeOfCode c = some t) : c = t.code := by
  revert h; revert c; cases t <;> decide

/-- The index of a band, in the width of its field, is its code (rule R104). -/
theorem bandOfCode_index (b : Band) : bandOfCode (BitVec.ofNat 3 b.index) = some b := by cases b <;> rfl

theorem stageOfCode_val (k : Fin 10) : stageOfCode (BitVec.ofNat 4 k.val) = some k := by revert k; decide

end Sys2Proof.Machine
end

