-- ==== Sys2Proof/Laws/Bank.lean ====
section
/-! SUPPORT. The laws of the stage register file: reading and replacing one band, one bank, one stage. -/

namespace Sys2Proof.Machine

open Sys2Proof

@[simp] theorem bandGet_bandSet {α : Type} (p : PerBand α) (b : Band) (v : α) : bandGet (bandSet p b v) b = v := by
  cases b <;> rfl

theorem bandGet_bandSet_ne {α : Type} (p : PerBand α) {b c : Band} (v : α) (h : b ≠ c) :
    bandGet (bandSet p b v) c = bandGet p c := by
  cases b <;> cases c <;> first | rfl | exact absurd rfl h

@[simp] theorem bandSet_bandGet {α : Type} (p : PerBand α) (b : Band) : bandSet p b (bandGet p b) = p := by
  cases b <;> rfl

@[simp] theorem bandGet_same {α : Type} (a : α) (b : Band) : bandGet (PerBand.same a) b = a := by cases b <;> rfl

/-- Two banks that agree on every band are equal. -/
theorem PerBand.ext_bandGet {α : Type} {p q : PerBand α} (h : ∀ b, bandGet p b = bandGet q b) : p = q := by
  obtain ⟨a1, a2, a3, a4, a5, a6⟩ := p
  obtain ⟨b1, b2, b3, b4, b5, b6⟩ := q
  have h1 := h .bp; have h2 := h .hp; have h3 := h .lp; have h4 := h .hs; have h5 := h .ls; have h6 := h .pk
  simp only [bandGet] at h1 h2 h3 h4 h5 h6
  subst h1 h2 h3 h4 h5 h6; rfl

/-! ## Replacing a cascade of one bank -/

@[simp] theorem activeBank_setActiveCascade (s : State) (b : Band) (c : Cascade) :
    activeBank (setActiveCascade s b c) = bandSet (activeBank s) b c := by
  unfold setActiveCascade activeBank; cases h : s.ctl.bank <;> simp [h]

@[simp] theorem shadowBank_setActiveCascade (s : State) (b : Band) (c : Cascade) :
    shadowBank (setActiveCascade s b c) = shadowBank s := by
  unfold setActiveCascade shadowBank; cases h : s.ctl.bank <;> simp [h]

@[simp] theorem shadowBank_setShadowCascade (s : State) (b : Band) (c : Cascade) :
    shadowBank (setShadowCascade s b c) = bandSet (shadowBank s) b c := by
  unfold setShadowCascade shadowBank; cases h : s.ctl.bank <;> simp [h]

@[simp] theorem activeBank_setShadowCascade (s : State) (b : Band) (c : Cascade) :
    activeBank (setShadowCascade s b c) = activeBank s := by
  unfold setShadowCascade activeBank; cases h : s.ctl.bank <;> simp [h]

/-- Replacing a cascade changes at most the two banks. -/
theorem setShadowCascade_eq (s : State) (b : Band) (c : Cascade) :
    setShadowCascade s b c =
      { s with bank0 := (setShadowCascade s b c).bank0, bank1 := (setShadowCascade s b c).bank1 } := by
  unfold setShadowCascade; split <;> rfl

/-- Replacing a cascade changes at most the two banks. -/
theorem setActiveCascade_eq (s : State) (b : Band) (c : Cascade) :
    setActiveCascade s b c =
      { s with bank0 := (setActiveCascade s b c).bank0, bank1 := (setActiveCascade s b c).bank1 } := by
  unfold setActiveCascade; split <;> rfl

@[simp] theorem setShadowCascade_self (s : State) (b : Band) :
    setShadowCascade s b (bandGet (shadowBank s) b) = s := by
  unfold setShadowCascade shadowBank; split <;> simp

@[simp] theorem setActiveCascade_self (s : State) (b : Band) :
    setActiveCascade s b (bandGet (activeBank s) b) = s := by
  unfold setActiveCascade activeBank; split <;> simp

/-- A property of every stage count of both banks survives the replacement of a shadow cascade that has it. -/
theorem setShadowCascade_banks {P : Cascade → Prop} {s : State} {b : Band} {c : Cascade} (hc : P c)
    (h0 : ∀ a, P (bandGet s.bank0 a)) (h1 : ∀ a, P (bandGet s.bank1 a)) :
    (∀ a, P (bandGet (setShadowCascade s b c).bank0 a)) ∧ ∀ a, P (bandGet (setShadowCascade s b c).bank1 a) := by
  have key : ∀ (p : Bank), (∀ a, P (bandGet p a)) → ∀ a, P (bandGet (bandSet p b c) a) := by
    intro p hp a
    by_cases h : b = a
    · subst h; simpa using hc
    · rw [bandGet_bandSet_ne p c h]; exact hp a
  unfold setShadowCascade
  split
  · exact ⟨key _ h0, h1⟩
  · exact ⟨h0, key _ h1⟩

/-- The same for the replacement of an active cascade. -/
theorem setActiveCascade_banks {P : Cascade → Prop} {s : State} {b : Band} {c : Cascade} (hc : P c)
    (h0 : ∀ a, P (bandGet s.bank0 a)) (h1 : ∀ a, P (bandGet s.bank1 a)) :
    (∀ a, P (bandGet (setActiveCascade s b c).bank0 a)) ∧ ∀ a, P (bandGet (setActiveCascade s b c).bank1 a) := by
  have key : ∀ (p : Bank), (∀ a, P (bandGet p a)) → ∀ a, P (bandGet (bandSet p b c) a) := by
    intro p hp a
    by_cases h : b = a
    · subst h; simpa using hc
    · rw [bandGet_bandSet_ne p c h]; exact hp a
  unfold setActiveCascade
  split
  · exact ⟨h0, key _ h1⟩
  · exact ⟨key _ h0, h1⟩

/-! ## One stage -/

/-- Writing a stage back as it was changes nothing. -/
theorem setStage_self (c : Cascade) (k : Fin 10) : setStage c k c.stages[k] = c := by cases c; simp [setStage]

/-- `BQ_PROCESS` writes `z1, z2` only (rule R140). -/
theorem processStage_frame (f : FloatFmt) (st : Stage) (x : RealVal) :
    (processStage f st x).1 = { st with z1 := (processStage f st x).1.z1, z2 := (processStage f st x).1.z2 } := rfl

/-- `BQ_CONFIGURE` never writes `z1, z2` (rule R131). -/
theorem configureStage_state (d : DesignFn) (typ : BitVec 3) (fc q g : RealVal) (st : Stage) :
    (configureStage d typ fc q g st).z1 = st.z1 ∧ (configureStage d typ fc q g st).z2 = st.z2 := by
  unfold configureStage; split <;> exact ⟨rfl, rfl⟩

end Sys2Proof.Machine
end

