-- ==== Sys2Proof/Laws/Blocks.lean ====
section
/-! SUPPORT. What each block operation does to a sequence of samples: the loops of the oscillator, the reverb and the
filters by index, and the width conversions. -/

namespace Sys2Proof.Machine

open Sys2Proof

/-! ## Port blocks and width conversion -/

@[simp] theorem portBlock_length {n : Nat} (len : Nat) (l : List (BitVec n)) : (portBlock len l).length = len := by
  simp only [portBlock, List.length_append, List.length_take, List.length_replicate]; omega

theorem portBlock_self {n : Nat} {len : Nat} {l : List (BitVec n)} (h : l.length = len) : portBlock len l = l := by
  subst h; simp [portBlock]

/-- `DENORM_OUT` multiplies, and the product always fits (rule R262). -/
theorem denormSample_toInt (w : HwWidth) (x : S16) : (denormSample w x).toInt = x.toInt * 2 ^ (w.bits - 16) := by
  have h1 := s16_ge x
  have h2 := s16_le x
  unfold denormSample hwShift
  rw [BitVec.toInt_ofInt]
  cases w <;> simp only [HwWidth.bits] <;> norm_num <;> exact Int.bmod_eq_of_le (by norm_num; omega) (by norm_num; omega)

/-- `NORM_IN` undoes `DENORM_OUT` (rule R263). -/
theorem normSample_denormSample (w : HwWidth) (x : S16) : normSample w (denormSample w x) = x := by
  have h1 := s16_ge x
  have h2 := s16_le x
  have key : hwSampleInt w (denormSample w x) = x.toInt * 2 ^ (w.bits - 16) := by
    unfold hwSampleInt denormSample hwShift
    cases w <;> simp only [HwWidth.bits] <;> rw [BitVec.toInt_setWidth, BitVec.toNat_ofInt] <;> norm_num <;>
      simp only [Int.bmod_def] <;> norm_num <;> split <;> omega
  unfold normSample floorShift
  rw [key]
  have e : (x.toInt * 2 ^ (w.bits - 16)).fdiv (2 ^ hwShift w) = x.toInt := by
    unfold hwShift
    exact Int.mul_fdiv_cancel _ (by positivity)
  rw [e, BitVec.ofInt_toInt]

/-! ## The loop of RM_BLOCK (rule R195) -/

/-- Everything the loop does: one output per sample, the phase moved on, each output the product with the entry the
phase has reached. -/
theorem rmLoop_spec (sine : List S16) (len : Nat) (amp : BitVec 16) (hl : 0 < len) (xs : List S16) (p : Nat)
    (hp : p < len) :
    (rmLoop sine len amp p xs).1.length = xs.length ∧ (rmLoop sine len amp p xs).2 = (p + xs.length) % len ∧
      ∀ i, i < xs.length → (rmLoop sine len amp p xs).1.getD i 0 =
        rmSample (xs.getD i 0) (sine.getD ((p + i) % len) 0) amp := by
  induction xs generalizing p with
  | nil => simp [rmLoop, Nat.mod_eq_of_lt hp]
  | cons x xs ih =>
    obtain ⟨e1, e2, e3⟩ := ih ((p + 1) % len) (Nat.mod_lt _ hl)
    refine ⟨by simp [rmLoop, e1], ?_, ?_⟩
    · simp only [rmLoop, e2, List.length_cons]; rw [Nat.mod_add_mod]; congr 1; omega
    · intro i hi
      cases i with
      | zero => simp [rmLoop, Nat.mod_eq_of_lt hp]
      | succ i =>
        have := e3 i (by simpa using hi)
        rw [Nat.mod_add_mod] at this
        simp only [rmLoop, List.getD_cons_succ, this]
        rw [show p + 1 + i = p + (i + 1) by omega]

@[simp] theorem rmLoop_length (sine : List S16) (len : Nat) (amp : BitVec 16) (p : Nat) (xs : List S16) :
    (rmLoop sine len amp p xs).1.length = xs.length := by
  induction xs generalizing p with
  | nil => rfl
  | cons x xs ih => simp [rmLoop, ih]

/-- The phase stays an index of the table. -/
theorem rmLoop_phase_lt (sine : List S16) (len : Nat) (amp : BitVec 16) (p : Nat) (xs : List S16) (hp : p < len) :
    (rmLoop sine len amp p xs).2 < len := by
  induction xs generalizing p with
  | nil => exact hp
  | cons x xs ih => exact ih _ (Nat.mod_lt _ (by omega))

/-! ## The loop of RV_BLOCK (rule R210) -/

@[simp] theorem rvLoop_length (g : Int) (len : Nat) (dl : List S16) (tap : Nat) (xs : List S16) :
    (rvLoop g len dl tap xs).1.length = xs.length := by
  induction xs generalizing dl tap with
  | nil => rfl
  | cons x xs ih => simp only [rvLoop, List.length_cons, ih]

@[simp] theorem rvLoop_line_length (g : Int) (len : Nat) (dl : List S16) (tap : Nat) (xs : List S16) :
    (rvLoop g len dl tap xs).2.1.length = dl.length := by
  induction xs generalizing dl tap with
  | nil => rfl
  | cons x xs ih => simp only [rvLoop, ih, List.length_set]

/-- The tap stays an index of the delay line. -/
theorem rvLoop_tap_lt (g : Int) (len : Nat) (dl : List S16) (tap : Nat) (xs : List S16) (ht : tap < len) :
    (rvLoop g len dl tap xs).2.2 < len := by
  induction xs generalizing dl tap with
  | nil => exact ht
  | cons x xs ih => exact ih _ _ (Nat.mod_lt _ (by omega))

/-- Everything the loop does, by sample index: the delayed value comes from the delay line within the first `len`
samples and from the loop's own outputs after them; the line ends holding the last `len` outputs, and what was not
reached stays. -/
theorem rvLoop_spec (g : Int) (len : Nat) (hl : 0 < len) (xs dl : List S16) (tap : Nat) (hd : dl.length = len)
    (ht : tap < len) :
    (rvLoop g len dl tap xs).2.2 = (tap + xs.length) % len ∧
    (∀ i, i < xs.length → (rvLoop g len dl tap xs).1.getD i 0 = rvSample g (xs.getD i 0)
      (if i < len then dl.getD ((tap + i) % len) 0 else (rvLoop g len dl tap xs).1.getD (i - len) 0)) ∧
    (∀ i, i < xs.length → xs.length ≤ i + len →
      (rvLoop g len dl tap xs).2.1.getD ((tap + i) % len) 0 = (rvLoop g len dl tap xs).1.getD i 0) ∧
    ∀ i, xs.length ≤ i → i < len →
      (rvLoop g len dl tap xs).2.1.getD ((tap + i) % len) 0 = dl.getD ((tap + i) % len) 0 := by
  induction xs generalizing dl tap with
  | nil => simp [rvLoop, Nat.mod_eq_of_lt ht]
  | cons x xs ih =>
    obtain ⟨e3, e4, e5, e6⟩ := ih (dl.set tap (rvSample g x (dl.getD tap 0))) ((tap + 1) % len) (by simpa using hd)
      (Nat.mod_lt _ hl)
    have hm : ∀ i, ((tap + 1) % len + i) % len = (tap + (i + 1)) % len := by
      intro i; rw [Nat.mod_add_mod]; congr 1; omega
    simp only [hm] at e4 e5 e6
    generalize hr : rvLoop g len (dl.set tap (rvSample g x (dl.getD tap 0))) ((tap + 1) % len) xs = r at *
    have hset : ∀ i, i < len → i ≠ 0 → (dl.set tap (rvSample g x (dl.getD tap 0))).getD ((tap + i) % len) 0 =
        dl.getD ((tap + i) % len) 0 := by
      intro i hi h0
      have : tap ≠ (tap + i) % len := by
        intro e
        by_cases hw : tap + i < len
        · rw [Nat.mod_eq_of_lt hw] at e; omega
        · have : (tap + i) % len = tap + i - len := by
            rw [Nat.mod_eq_sub_mod (by omega), Nat.mod_eq_of_lt (by omega)]
          omega
      simp [List.getD_eq_getElem?_getD, this]
    have hset0 : (dl.set tap (rvSample g x (dl.getD tap 0))).getD tap 0 = rvSample g x (dl.getD tap 0) := by
      simp [List.getD_eq_getElem?_getD, hd, ht]
    refine ⟨?_, ?_, ?_, ?_⟩
    · simp only [rvLoop, hr, e3, List.length_cons]; rw [Nat.mod_add_mod]; congr 1; omega
    · intro i hi
      simp only [rvLoop, hr]
      cases i with
      | zero => simp [hl, Nat.mod_eq_of_lt ht]
      | succ i =>
        have h4 := e4 i (by simpa using hi)
        simp only [List.getD_cons_succ]
        rw [h4]
        congr 1
        by_cases h1 : i + 1 < len
        · rw [if_pos (by omega), if_pos h1, hset _ h1 (by omega)]
        · rw [if_neg h1]
          by_cases h2 : i < len
          · rw [if_pos h2]
            have : i + 1 = len := by omega
            rw [this, Nat.sub_self]
            simp only [Nat.add_mod_right, Nat.mod_eq_of_lt ht, hset0]
            rfl
          · rw [if_neg h2, show i + 1 - len = (i - len) + 1 by omega]; rfl
    · intro i hi hi2
      simp only [rvLoop, hr]
      cases i with
      | zero =>
        have h6 := e6 (len - 1) (by simp at hi2; omega) (by omega)
        rw [show tap + (len - 1 + 1) = tap + len by omega] at h6
        simp only [Nat.add_mod_right, Nat.mod_eq_of_lt ht, hset0] at h6
        simpa [Nat.mod_eq_of_lt ht] using h6
      | succ i => simpa using e5 i (by simpa using hi) (by simp at hi2; omega)
    · intro i hi hi2
      simp only [rvLoop, hr]
      cases i with
      | zero => simp at hi
      | succ i => rw [e6 i (by simpa using hi) (by omega), hset _ hi2 (by omega)]

/-! ## The loops of FILTER_BLOCK (rule R170) -/

/-- A stage that agrees with another in everything but `z1, z2` (rules R21, R140). -/
def SameDesign (a b : Stage) : Prop := a = { b with z1 := a.z1, z2 := a.z2 }

theorem SameDesign.refl (a : Stage) : SameDesign a a := rfl

theorem SameDesign.trans {a b c : Stage} (h : SameDesign a b) (h' : SameDesign b c) : SameDesign a c := by
  unfold SameDesign at *; rw [h']  at h; exact h

/-- One sample through a cascade changes `z1, z2` of the stages it runs through, and nothing else. -/
theorem runCascade_frame (f : FloatFmt) (ks : List (Fin 10)) (stages : Vector Stage 10) (v : RealVal) (k : Fin 10) :
    SameDesign (runCascade f ks stages v).1[k] stages[k] ∧ (k ∉ ks → (runCascade f ks stages v).1[k] = stages[k]) := by
  induction ks generalizing stages v with
  | nil => exact ⟨rfl, fun _ => rfl⟩
  | cons j js ih =>
    obtain ⟨h1, h2⟩ := ih (stages.set j (processStage f stages[j] v).1) (processStage f stages[j] v).2
    simp only [runCascade]
    by_cases hjk : j = k
    · subst hjk
      refine ⟨h1.trans ?_, fun h => absurd (List.mem_cons_self ..) h⟩
      simp [SameDesign, processStage]
    · have e : (stages.set j (processStage f stages[j] v).1)[k] = stages[k] := by
        simp [Fin.val_ne_of_ne hjk]
      rw [e] at h1 h2
      exact ⟨h1, fun h => h2 fun h' => h (List.mem_cons_of_mem _ h')⟩

/-- A block through a cascade keeps its length, and changes `z1, z2` of the stages in use only. -/
theorem filterSamples_frame (f : FloatFmt) (ks : List (Fin 10)) (stages : Vector Stage 10) (xs : List S16) :
    (filterSamples f ks stages xs).2.length = xs.length ∧
      ∀ k : Fin 10, SameDesign (filterSamples f ks stages xs).1[k] stages[k] ∧
        (k ∉ ks → (filterSamples f ks stages xs).1[k] = stages[k]) := by
  induction xs generalizing stages with
  | nil => exact ⟨rfl, fun k => ⟨rfl, fun _ => rfl⟩⟩
  | cons x xs ih =>
    obtain ⟨h1, h2⟩ := ih (runCascade f ks stages (s2f x)).1
    simp only [filterSamples]
    refine ⟨by simp [h1], fun k => ?_⟩
    obtain ⟨a1, a2⟩ := runCascade_frame f ks stages (s2f x) k
    exact ⟨(h2 k).1.trans a1, fun h => by rw [(h2 k).2 h, a2 h]⟩

/-- The first `n` stage indices are those below `n`. -/
theorem mem_take_stageIndices (n : Nat) (k : Fin 10) : k ∈ stageIndices.take n ↔ k.val < n := by
  by_cases h : n ≤ 10
  · interval_cases n <;> (revert k; decide)
  · have : stageIndices.take n = stageIndices := List.take_of_length_le (by simp [stageIndices]; omega)
    rw [this]
    have hk : k ∈ stageIndices := by revert k; decide
    simp [hk]; omega

end Sys2Proof.Machine
end

