-- ==== Sys2Proof/Laws/Build.lean ====
section
/-! SUPPORT. The laws of the Q-value table and of building a cascade (rules R160 to R168). -/

namespace Sys2Proof.Machine

open Sys2Proof

/-! ## The table over the reals -/

/-- A positive finite number. -/
def isPositive (v : RealVal) : Bool :=
  match v with
  | .num q => decide (0 < q.num)
  | .posInf | .negInf | .nan => false

theorem isPositive_iff {v : RealVal} : isPositive v = true ↔ ∃ q : Rat, v = .num q ∧ 0 < q := by
  cases v <;> simp [isPositive]

@[simp] theorem qvalTable_length (f : FloatFmt) : (qvalTable f).length = qtabLen := by
  simp [qvalTable, qvalRow, qtabLen]

/-- Every entry of the table over the reals is positive (rules R161, R162). -/
theorem qvalTable_reals_positive : (qvalTable realsFmt).all isPositive = true := by decide +kernel

theorem qvalTable_reals_getD {n : Nat} (h : n < qtabLen) :
    ∃ q : Rat, (qvalTable realsFmt).getD n (.num 0) = .num q ∧ 0 < q := by
  have hn : n < (qvalTable realsFmt).length := by simpa using h
  have := List.all_eq_true.1 qvalTable_reals_positive _ (List.getElem_mem hn)
  obtain ⟨q, e, hq⟩ := isPositive_iff.1 this
  exact ⟨q, by rw [List.getD_eq_getElem?_getD, List.getElem?_eq_getElem hn, Option.getD_some, e], hq⟩

/-! ## Building -/

/-- The stages a build configures are those of its list, each once; the others keep what they held (rule R165). -/
theorem newStages_getElem (d : DesignFn) (typ : BqType) (fc g : RealVal) (ps : List (Fin 10 × RealVal))
    (stages : Vector Stage 10) (hd : (ps.map Prod.fst).Nodup) (k : Fin 10) :
    (∀ q, (k, q) ∈ ps → (newStages d typ fc g stages ps)[k] = newStage d typ fc q g stages[k]) ∧
    ((∀ q, (k, q) ∉ ps) → (newStages d typ fc g stages ps)[k] = stages[k]) := by
  induction ps generalizing stages with
  | nil => exact ⟨fun q h => absurd h (by simp), fun _ => rfl⟩
  | cons p ps ih =>
    obtain ⟨j, q0⟩ := p
    simp only [List.map_cons, List.nodup_cons] at hd
    obtain ⟨h1, h2⟩ := ih (stages.set j (newStage d typ fc q0 g stages[j])) hd.2
    refine ⟨fun q hq => ?_, fun hn => ?_⟩
    · rcases List.mem_cons.1 hq with e | hm
      · cases e
        have : ∀ q, (k, q) ∉ ps := fun q hm => hd.1 (List.mem_map.2 ⟨_, hm, rfl⟩)
        show (newStages d typ fc g (stages.set k _) ps)[k] = _
        rw [h2 this]; simp
      · have hjk : j ≠ k := by rintro rfl; exact hd.1 (List.mem_map.2 ⟨_, hm, rfl⟩)
        have hv : j.val ≠ k.val := fun e => hjk (Fin.ext e)
        show (newStages d typ fc g (stages.set j _) ps)[k] = _
        rw [h1 q hm]
        congr 1
        simp [hv]
    · have hjk : j ≠ k := by rintro rfl; exact hn q0 (by simp)
      have hv : j.val ≠ k.val := fun e => hjk (Fin.ext e)
      show (newStages d typ fc g (stages.set j _) ps)[k] = _
      rw [h2 fun q hm => hn q (by simp [hm])]
      simp [hv]

/-- The pairs of a stage index and its Q (rule R165). -/
theorem mem_zip_stageIndices (qs : List RealVal) (k : Fin 10) (q : RealVal) :
    (k, q) ∈ stageIndices.zip qs ↔ qs[k.val]? = some q := by
  have hi : ∀ n, stageIndices[n]? = some k ↔ n = k.val := by
    intro n
    by_cases hn : n < 10
    · interval_cases n <;> (revert k; decide)
    · have : stageIndices[n]? = none := List.getElem?_eq_none (by simp [stageIndices]; omega)
      rw [this]; simp; omega
  rw [List.mem_iff_getElem?]
  constructor
  · rintro ⟨n, h⟩
    rw [List.getElem?_zip_eq_some] at h
    obtain ⟨h1, h2⟩ := h
    simp only at h1 h2
    rw [(hi n).1 h1] at h2; exact h2
  · intro h
    exact ⟨k.val, by rw [List.getElem?_zip_eq_some]; exact ⟨(hi _).2 rfl, h⟩⟩

theorem zip_stageIndices_nodup (qs : List RealVal) : ((stageIndices.zip qs).map Prod.fst).Nodup := by
  have key : ∀ (l : List (Fin 10)) (qs : List RealVal), ((l.zip qs).map Prod.fst).Sublist l := by
    intro l
    induction l with
    | nil => intro qs; simp
    | cons a l ih =>
      intro qs
      cases qs with
      | nil => simp
      | cons q qs => simpa using ih qs
  exact List.Nodup.sublist (key _ qs) (by decide)

/-- What a build accepts: the parameters it asks for, and what it makes of them (rules R165 to R168). -/
theorem buildPlan_cases (f : FloatFmt) (qtab : List RealVal) (typ : BqType) (freq q gain : RealVal) (order sr : Nat)
    (b : Band) :
    (badParams freq gain sr = true ∧
      buildPlan f qtab typ freq q gain order sr b = ([.configOutOfRange (.badParam b)], none)) ∨
    (badParams freq gain sr = false ∧
      buildPlan f qtab typ freq q gain order sr b =
        ((clampCutoff (fDiv f freq (.num (f.ofNat sr))) b).1 ++ (clampOrder typ order b).1 ++
            (chooseQ qtab (clampOrder typ order b).2 q b).1,
          (chooseQ qtab (clampOrder typ order b).2 q b).2.map fun qs => ((clampCutoff (fDiv f freq (.num (f.ofNat sr))) b).2, qs))) := by
  unfold buildPlan
  by_cases h : badParams freq gain sr = true
  · exact .inl ⟨h, by rw [if_pos h]⟩
  · exact .inr ⟨by simpa using h, by rw [if_neg h]⟩

/-- The order of a build lies in 1 .. 8 (rule R166). -/
theorem clampOrder_range (typ : BqType) (order : Nat) (b : Band) :
    1 ≤ (clampOrder typ order b).2 ∧ (clampOrder typ order b).2 ≤ maxOrder := by
  unfold clampOrder maxOrder
  cases typ <;> simp only <;> (try split) <;> (try split) <;> simp <;> omega

/-- The number of stage Qs is the order (rule R167). -/
theorem chooseQ_length {qtab : List RealVal} {c : Nat} {q : RealVal} {b : Band} {qs : List RealVal}
    (h : (chooseQ qtab c q b).2 = some qs) : qs.length = c := by
  unfold chooseQ at h
  split at h
  · split at h
    · split at h
      · simp at h; subst h; simp; omega
      · simp at h
    · simp at h
  · simp at h; subst h; simp [tableQs]

/-- A built cascade has at most 8 stages (rules R23, R36 of the count, R166). -/
theorem builtCascade_nst (f : FloatFmt) (d : DesignFn) (act : CfgRegs) (qtab : List RealVal) (b : Band) (old : Cascade) :
    (builtCascade f d act qtab b old).2.nst ≤ maxOrder := by
  unfold builtCascade
  simp only
  split
  · exact Nat.zero_le _
  · split
    · exact Nat.zero_le _
    · rename_i log fc qs h
      show qs.length ≤ maxOrder
      rcases buildPlan_cases f qtab (bandType b) (bandGet act.bands b).freq (bandGet act.bands b).q
        (bandGet act.bands b).gain (bandGet act.bands b).order.toNat act.sampleRate.toNat b with ⟨_, e⟩ | ⟨_, e⟩
      · rw [e] at h; simp at h
      · rw [e] at h
        simp only [Prod.mk.injEq, Option.map_eq_some_iff] at h
        obtain ⟨_, qs', hq, _, rfl⟩ := h
        rw [chooseQ_length hq]
        exact (clampOrder_range _ _ _).2

/-- Every stage a built cascade uses is at rest (rules R165, R177). -/
theorem builtCascade_at_rest (f : FloatFmt) (d : DesignFn) (act : CfgRegs) (qtab : List RealVal) (b : Band)
    (old : Cascade) (k : Fin 10) (hk : k.val < (builtCascade f d act qtab b old).2.nst) :
    (builtCascade f d act qtab b old).2.stages[k].z1 = .num 0 ∧
      (builtCascade f d act qtab b old).2.stages[k].z2 = .num 0 := by
  unfold builtCascade at hk ⊢
  simp only at hk ⊢
  split
  · rename_i h; rw [if_pos h] at hk; simp at hk
  · rename_i h
    rw [if_neg h] at hk
    split
    · rename_i e; rw [e] at hk; simp at hk
    · rename_i log fc qs e
      rw [e] at hk
      have hk' : k.val < qs.length := hk
      have hm := (mem_zip_stageIndices qs k qs[k.val]).2 (List.getElem?_eq_getElem hk')
      have := (newStages_getElem d (bandType b) fc (bandGet act.bands b).gain (stageIndices.zip qs) old.stages
        (zip_stageIndices_nodup qs) k).1 _ hm
      show (newStages d (bandType b) fc (bandGet act.bands b).gain old.stages (stageIndices.zip qs))[k].z1 = _ ∧
        (newStages d (bandType b) fc (bandGet act.bands b).gain old.stages (stageIndices.zip qs))[k].z2 = _
      rw [this]; exact ⟨rfl, rfl⟩

end Sys2Proof.Machine
end

