-- ==== Sys2Proof/Laws/Design.lean ====
section
/-! SUPPORT. The model's values of the elementary functions of the reference design (rule R135): `K` is positive for every
cutoff below Nyquist, `V` is at least 1, and the square roots are positive. -/

namespace Sys2Proof.Machine

open Sys2Proof

/-! ## `K = tan(pi * Fc)` -/

theorem piRat_bounds : 3 < piRat ∧ piRat < 4 := by
  unfold piRat
  rw [Rat.mkRat_eq_div]
  constructor <;> norm_num

/-- The sine of a positive argument up to 2 is positive, however small the argument. -/
theorem sinSmallSafe_pos {x : Rat} (h0 : 0 < x) (h2 : x < 2) : 0 < sinSmallSafe x := by
  refine lt_of_lt_of_le ?_ (le_max_left _ _)
  have h : x ^ 2 < 4 := by nlinarith
  have : x - x ^ 3 / 6 = x * (1 - x ^ 2 / 6) := by ring
  rw [this]
  exact mul_pos h0 (by linarith)

theorem sinQuarter_pos {t : Rat} (h0 : 0 < t) (h1 : t ≤ 1 / 4) : 0 < sinQuarter t := by
  unfold sinQuarter
  split
  · linarith
  · split
    · norm_num
    · split
      · norm_num
      · obtain ⟨h3, h4⟩ := piRat_bounds
        have hp : 0 < 2 * piRat * t := mul_pos (by linarith) h0
        exact lt_min one_pos (sinSmallSafe_pos hp (by nlinarith))

/-- The sine of a part of the first quarter of a turn lies between 0 and 1. -/
theorem sinQuarter_mem {t : Rat} (h0 : 0 ≤ t) (h1 : t ≤ 1 / 4) : 0 ≤ sinQuarter t ∧ sinQuarter t ≤ 1 := by
  constructor
  · rcases h0.eq_or_lt with rfl | h
    · exact le_of_eq (if_pos rfl).symm
    · exact (sinQuarter_pos h h1).le
  · unfold sinQuarter
    split
    · norm_num
    · split
      · norm_num
      · split
        · norm_num
        · exact min_le_left _ _

/-- A sine is at most 1 in magnitude. -/
theorem abs_ratSinTwoPi_le (t : Rat) : |ratSinTwoPi t| ≤ 1 := by
  have h0 : 0 ≤ t - (t.floor : Rat) := sub_nonneg.2 (Int.floor_le t)
  have h1 : t - (t.floor : Rat) < 1 := by
    have := Int.lt_floor_add_one t
    have e : (⌊t⌋ : Rat) = (t.floor : Rat) := rfl
    linarith
  unfold ratSinTwoPi
  simp only
  generalize t - (t.floor : Rat) = r at h0 h1
  have key : ∀ x : Rat, 0 ≤ x ∧ x ≤ 1 → |x| ≤ 1 := fun x h => abs_le.2 ⟨by linarith [h.1], h.2⟩
  split
  · exact key _ (sinQuarter_mem h0 ‹_›)
  · split
    · exact key _ (sinQuarter_mem (by linarith) (by linarith))
    · split
      · rw [abs_neg]; exact key _ (sinQuarter_mem (by linarith) (by linarith))
      · rw [abs_neg]; exact key _ (sinQuarter_mem (by linarith) (by linarith))

/-- The sine of a part of a turn between nothing and a half is positive. -/
theorem ratSinTwoPi_pos {t : Rat} (h0 : 0 < t) (h1 : t < 1 / 2) : 0 < ratSinTwoPi t := by
  have hf : t.floor = 0 := by
    have : ⌊t⌋ = 0 := Int.floor_eq_zero_iff.2 ⟨h0.le, by linarith⟩
    exact this
  unfold ratSinTwoPi
  simp only [hf, Int.cast_zero, sub_zero]
  split
  · exact sinQuarter_pos h0 ‹_›
  · rw [if_pos h1.le]
    exact sinQuarter_pos (by linarith) (by linarith)

/-- `K > 0` for every cutoff between 0 and Nyquist (rule R135). -/
theorem ratTanPi_pos {t : Rat} (h0 : 0 < t) (h1 : t < 1 / 2) : 0 < ratTanPi t :=
  div_pos (ratSinTwoPi_pos (by linarith) (by linarith)) (ratSinTwoPi_pos (by linarith) (by linarith))

/-! ## `V = 10 ^ (|G| / 20)` -/

theorem fixOne_pos : 0 < fixOne := by unfold fixOne; positivity

theorem expTerms_nonneg {x : Int} (hx : 0 ≤ x) (n k : Nat) {t : Int} (ht : 0 ≤ t) : 0 ≤ expTerms x n k t := by
  induction n generalizing k t with
  | zero => exact le_refl _
  | succ n ih =>
    have h : 0 ≤ fixMul t x / (k + 1) :=
      Int.ediv_nonneg (Int.ediv_nonneg (mul_nonneg ht hx) fixOne_pos.le) (by positivity)
    exact add_nonneg ht (ih (k + 1) h)

theorem ratOfFix_ge_one {a : Int} (h : fixOne ≤ a) : 1 ≤ ratOfFix a := by
  unfold ratOfFix
  rw [Rat.mkRat_eq_div]
  have hp : (0 : Rat) < ((2 ^ fixBits : Nat) : Rat) := by positivity
  rw [le_div_iff₀ hp, one_mul]
  have : ((2 ^ fixBits : Nat) : Int) ≤ a := by unfold fixOne at h; exact_mod_cast h
  exact_mod_cast this

/-- A power of ten of an exponent that is not negative is at least 1. -/
theorem ratPow10_ge_one {e : Rat} (he : 0 ≤ e) : 1 ≤ ratPow10 e := by
  have hn : 0 ≤ e.floor := by
    have : 0 ≤ ⌊e⌋ := Int.floor_nonneg.2 he
    exact this
  have hle : ((e.floor : Int) : Rat) ≤ e := Int.floor_le e
  have hx : 0 ≤ fixOfRat ((e - (e.floor : Rat)) * ln10Rat) := by
    have h1 : (0 : Rat) ≤ (e - (e.floor : Rat)) * ln10Rat := by
      refine mul_nonneg (by linarith) ?_
      unfold ln10Rat; rw [Rat.mkRat_eq_div]; norm_num
    exact Int.ediv_nonneg (mul_nonneg (Rat.num_nonneg.2 h1) fixOne_pos.le) (by positivity)
  have hfrac : 1 ≤ (if e = (e.floor : Rat) then 1
      else ratOfFix (expTerms (fixOfRat ((e - (e.floor : Rat)) * ln10Rat)) 80 0 fixOne)) := by
    split
    · exact le_refl _
    · refine ratOfFix_ge_one ?_
      show fixOne ≤ fixOne + _
      have := expTerms_nonneg hx 79 1 (t := fixMul fixOne _ / ((0 : Nat) + 1))
        (Int.ediv_nonneg (Int.ediv_nonneg (mul_nonneg fixOne_pos.le hx) fixOne_pos.le) (by norm_num))
      linarith
  have hpow : (1 : Rat) ≤ ((10 ^ e.floor.natAbs : Nat) : Rat) := by exact_mod_cast Nat.one_le_pow _ _ (by norm_num)
  unfold ratPow10
  simp only
  rw [if_neg (by omega)]
  exact one_le_mul_of_one_le_of_one_le hfrac hpow

/-! ## The square roots -/

theorem sqrtIter_pos {n : Nat} (hn : 0 < n) (k : Nat) {x : Nat} (hx : 0 < x) : 0 < sqrtIter n k x := by
  induction k generalizing x with
  | zero => exact hx
  | succ k ih =>
    have hy : 0 < (x + n / x) / 2 := by
      rcases Nat.lt_or_ge x 2 with h | h
      · have : x = 1 := by omega
        subst this; rw [Nat.div_one]; omega
      · have : 0 ≤ n / x := Nat.zero_le _
        omega
    unfold sqrtIter
    simp only
    split
    · exact ih hy
    · exact hx

theorem natSqrt_pos {n : Nat} (hn : 0 < n) : 0 < natSqrt n := by
  unfold natSqrt
  rw [if_neg (by omega)]
  exact sqrtIter_pos hn _ (by positivity)

/-- The square root of a number of at least 1 is positive (rule R135: `sqrt(2)` and `sqrt(2*V)`). -/
theorem ratSqrt_pos {q : Rat} (h : 1 ≤ q) : 0 < ratSqrt q := by
  have h0 : 0 < q := by linarith
  have hn : 0 < q.num := Rat.num_pos.2 h0
  have hnt : 0 < q.num.toNat := by omega
  have hden : q.den ≤ q.num.toNat := by
    have h1 : (q.den : Rat) ≤ q.num := by
      have hd : (0 : Rat) < q.den := by exact_mod_cast q.pos
      have e : q * q.den = q.num := Rat.mul_den_eq_num q
      nlinarith
    have : (q.den : Int) ≤ q.num := by exact_mod_cast h1
    omega
  unfold ratSqrt
  simp only
  split
  · rw [Rat.mkRat_eq_div]
    have ha := natSqrt_pos hnt
    have hb := natSqrt_pos q.pos
    have : (0 : Rat) < natSqrt q.num.toNat := by exact_mod_cast ha
    have : (0 : Rat) < natSqrt q.den := by exact_mod_cast hb
    exact div_pos (by exact_mod_cast ha) this
  · rw [Rat.mkRat_eq_div]
    have hk : 0 < q.num.toNat * 2 ^ (2 * fixBits) / q.den := by
      refine Nat.div_pos ?_ q.pos
      exact hden.trans (Nat.le_mul_of_pos_right _ (by positivity))
    have ha := natSqrt_pos hk
    exact div_pos (by exact_mod_cast ha) (by positivity)

theorem fSqrt_reals (x : Rat) : fSqrt realsFmt (.num x) = .num (ratSqrt x) := rfl

/-- The common terms of rule R135 under the reals are positive numbers. -/
theorem designTerms_reals (fc q g : Rat) (h0 : 0 < fc) (h1 : fc < 1 / 2) :
    ∃ k v r2 s2v : Rat, designTerms realsFmt fc q g = ⟨.num k, .num v, .num r2, .num s2v, .num q⟩ ∧
      tanPi realsFmt fc = .num k ∧ decibel realsFmt g = .num v ∧ fSqrt realsFmt (.num 2) = .num r2 ∧
      fSqrt realsFmt (.num (2 * v)) = .num s2v ∧ 0 < k ∧ 1 ≤ v ∧ 0 < r2 ∧ 0 < s2v := by
  have hv : 1 ≤ ratPow10 (|g| / 20) := ratPow10_ge_one (by positivity)
  have h20 : ¬(20 : Rat) = 0 := by norm_num
  have hk : tanPi realsFmt fc = .num (ratTanPi fc) := by
    simp [tanPi, finiteFmt, realsFmt, fMul, onNum]
  have hd : decibel realsFmt g = .num (ratPow10 (|g| / 20)) := by
    simp [decibel, finiteFmt, realsFmt, fDiv, onNum]
  refine ⟨ratTanPi fc, ratPow10 (|g| / 20), ratSqrt 2, ratSqrt (2 * ratPow10 (|g| / 20)), ?_, hk, hd, fSqrt_reals _,
    fSqrt_reals _,    ratTanPi_pos h0 h1, hv, ratSqrt_pos (by norm_num), ratSqrt_pos (by linarith)⟩
  unfold designTerms
  rw [hk, hd, fSqrt_reals]
  exact congrArg (fun x => DesignTerms.mk _ _ _ x _) (fSqrt_reals (2 * ratPow10 (|g| / 20)))

/-! ## Numbers in every format (rule R152, entry U1) -/

/-- Every coefficient of the reference design is a number, in every format. -/
theorem refDesign_isNum (f : FloatFmt) (typ : BqType) (fc q g : Rat) :
    let c := refDesign f typ fc q g
    IsNum c.a0 ∧ IsNum c.a1 ∧ IsNum c.a2 ∧ IsNum c.b1 ∧ IsNum c.b2 := by
  have hv := decibel_isNum f g
  unfold refDesign
  simp only
  split
  · unfold designAtNyquist
    cases typ <;> (try cases decide (0 ≤ g)) <;> simp only [if_true, Bool.false_eq_true, if_false] <;>
      refine ⟨?_, ?_, ?_, ?_, ?_⟩ <;> first | exact ⟨_, rfl⟩ | exact hv | exact fMul_isNum f _ _ | exact fDiv_isNum f _ _
  · cases typ <;> cases decide (0 ≤ g) <;> refine ⟨?_, ?_, ?_, ?_, ?_⟩ <;>
      first | exact fMul_isNum f _ _ | exact fDiv_isNum f _ _ | exact fSub_isNum f _ _ | exact ⟨_, rfl⟩

/-- The sine of a number of a format lies between -1 and 1 (rule R190). -/
theorem fmtOf_sin_mem (c : FloatChoice) (x : Rat) : |(fmtOf c).sin x| ≤ 1 := by
  cases c with
  | reals => exact abs_ratSinTwoPi_le _
  | other =>
    have h := (heldOr_spec (holds := (sealFmt Config.floatFmt).holds) (ok := fun r => decide (-1 ≤ r ∧ r ≤ 1))
      (fallback := 0) (sealFmt_holds _ (by decide)) (by decide) (Config.floatFmt.sin x)).2
    exact abs_le.2 (of_decide_eq_true h)

/-- An amplitude of the range of an s16 is its own value in every format. -/
theorem fmtOf_ofNat (c : FloatChoice) {n : Nat} (h : n ≤ 32768) : (fmtOf c).ofNat n = n := by
  cases c with
  | reals => rfl
  | other => exact if_pos (sealFmt_holds _ (by simpa using alwaysHeld_int (n := n) (by omega)))

/-- An entry of the tone table is at most the amplitude in magnitude (rule R190), in every format. -/
theorem sineEntry_le (c : FloatChoice) {amp : Nat} (ha : amp ≤ 32767) (len k : Nat) :
    |(sineEntry (fmtOf c) amp len k).toInt| ≤ amp := by
  obtain ⟨x, hx⟩ := fDiv_isNum (fmtOf c) (fMul (finiteFmt (fmtOf c)) (fMul (finiteFmt (fmtOf c)) (.num 2)
    (.num (fmtOf c).pi)) (.num ((fmtOf c).ofNat k))) (.num ((fmtOf c).ofNat len))
  have hs : sinTurn (fmtOf c) k len = .num ((fmtOf c).sin x) := by
    exact congrArg (onNum (fmtOf c).sin) hx
  obtain ⟨r, hr, hrd⟩ := finiteFmt_round c (amp * (fmtOf c).sin x)
  have he : sineEntry (fmtOf c) amp len k = sat16 (trunc r) := by
    show f2s _ (fMul (finiteFmt (fmtOf c)) (.num ((fmtOf c).ofNat amp)) (sinTurn (fmtOf c) k len)) = _
    rw [hs, fmtOf_ofNat c (by omega)]
    show f2s _ ((finiteFmt (fmtOf c)).round _) = _
    rw [hr]; rfl
  obtain ⟨s1, s2⟩ := abs_le.1 (fmtOf_sin_mem c x)
  have hp : (0 : Rat) ≤ amp := by positivity
  have h1 := hrd.int_le (n := -amp) (by omega) (by push_cast; nlinarith)
  have h2 := hrd.le_int (n := amp) (by omega) (by push_cast; nlinarith)
  have t1 : -(amp : Int) ≤ trunc r ∧ trunc r ≤ amp := by
    rcases le_total 0 r with h0 | h0
    · rw [trunc_of_nonneg h0]
      exact ⟨le_trans (by omega) (Int.floor_nonneg.2 h0), by
        have := Int.floor_le r; exact_mod_cast this.trans h2⟩
    · rw [trunc_of_nonpos h0]
      have h3 : ⌈r⌉ ≤ 0 := Int.ceil_le.2 (by rw [Int.cast_zero]; exact h0)
      exact ⟨by have := Int.le_ceil r; exact_mod_cast h1.trans this, by omega⟩
  rw [he, sat16_toInt, abs_le]
  omega

/-- The cosine of a number of a sealed format is positive and at most 1 (rule R161). -/
theorem sealFmt_cos_mem (f : FloatFmt) (x : Rat) : 0 < (sealFmt f).cos x ∧ (sealFmt f).cos x ≤ 1 :=
  of_decide_eq_true (heldOr_spec (holds := (sealFmt f).holds) (ok := fun r => decide (0 < r ∧ r ≤ 1)) (fallback := 1)
    (sealFmt_holds _ (by decide)) (by decide) (f.cos x)).2

/-- Every entry of the Q table is a positive number, in every format (rules R161, R166). -/
theorem qval_pos (c : FloatChoice) {o i : Nat} (ho : 1 ≤ o) (h8 : o ≤ 8) (hi : i < o) :
    ∃ q : Rat, qval (fmtOf c) o i = .num q ∧ 0 < q := by
  cases c with
  | reals =>
    have ho' : (4 * o : Rat) ≠ 0 := by positivity
    have ht : (2 * i + 1 : Rat) / (4 * o) < 1 / 2 := by
      rw [div_lt_div_iff₀ (by positivity) (by norm_num)]
      have : (i : Rat) + 1 ≤ o := by exact_mod_cast hi
      linarith
    have hp : 0 < ratCosPi ((2 * i + 1 : Rat) / (4 * o)) := by
      have : (0 : Rat) < (2 * i + 1 : Rat) / (4 * o) := by positivity
      exact ratSinTwoPi_pos (by linarith) (by linarith)
    have e : cosPole realsFmt o i = .num (ratCosPi ((2 * i + 1 : Rat) / (4 * o))) := by
      simp [cosPole, finiteFmt, realsFmt, fMul, fDiv, onNum, show ¬o = 0 by omega]
    refine ⟨1 / (2 * ratCosPi ((2 * i + 1 : Rat) / (4 * o))), ?_, by positivity⟩
    show fDiv (finiteFmt realsFmt) (.num 1) (fMul (finiteFmt realsFmt) (.num 2) (cosPole realsFmt o i)) = _
    rw [e]
    show (if 2 * ratCosPi _ = 0 then _ else _) = _
    rw [if_neg (by positivity)]
    rfl
  | other =>
    obtain ⟨a, ha⟩ := fDiv_isNum (sealFmt Config.floatFmt) (fMul (finiteFmt (sealFmt Config.floatFmt))
      (.num ((sealFmt Config.floatFmt).ofNat (2 * i + 1))) (.num (sealFmt Config.floatFmt).pi))
      (.num ((sealFmt Config.floatFmt).ofNat (4 * o)))
    obtain ⟨h1, h2⟩ := sealFmt_cos_mem Config.floatFmt a
    have e : cosPole (fmtOf .other) o i = .num ((sealFmt Config.floatFmt).cos a) :=
      congrArg (onNum (sealFmt Config.floatFmt).cos) ha
    obtain ⟨x, hx, hr⟩ := finiteFmt_round .other (2 * (sealFmt Config.floatFmt).cos a)
    have hx0 := hr.int_le (n := 0) (by decide) (by push_cast; linarith)
    have hx2 := hr.le_int (n := 2) (by decide) (by push_cast; linarith)
    push_cast at hx0 hx2
    have hq : qval (fmtOf .other) o i = fDiv (finiteFmt (fmtOf .other)) (.num 1) (.num x) := by
      show fDiv _ _ (fMul _ _ (cosPole (fmtOf .other) o i)) = _
      rw [e, ← hx]; rfl
    rw [hq]
    by_cases h0 : x = 0
    · subst h0
      refine ⟨(sealFmt Config.floatFmt).finiteSpecial .div (.num 1) (.num 0), by simp [fDiv, finiteFmt, fmtOf], ?_⟩
      have := of_decide_eq_true (heldOr_spec (holds := (sealFmt Config.floatFmt).holds)
        (ok := fun r => decide (1 / 2 ≤ r)) (fallback := 1 / 2) (sealFmt_holds _ (by simp [alwaysHeld])) (by simp)
        (Config.floatFmt.finiteSpecial .div (.num 1) (.num 0))).2
      exact lt_of_lt_of_le (by norm_num) this
    · obtain ⟨y, hy, hry⟩ := finiteFmt_round .other (1 / x)
      refine ⟨y, (if_neg h0).trans hy, ?_⟩
      have hx1 : 0 < x := lt_of_le_of_ne hx0 (Ne.symm h0)
      have : 1 / 2 ≤ 1 / x := one_div_le_one_div_of_le hx1 hx2
      linarith [hry.half_le this]

end Sys2Proof.Machine
end

