-- ==== Sys2Proof/Laws/State.lean ====
section
/-! SUPPORT. One lemma per field and named update of State, true by `rfl`: a proof reads a field of an updated state
without unfolding the update. -/

namespace Sys2Proof.Machine

open Sys2Proof

/-! ## `raise` -/

@[simp] theorem raise_hw (s : State) (r : LogRecord) : (raise s r).hw = s.hw := rfl
@[simp] theorem raise_bank0 (s : State) (r : LogRecord) : (raise s r).bank0 = s.bank0 := rfl
@[simp] theorem raise_bank1 (s : State) (r : LogRecord) : (raise s r).bank1 = s.bank1 := rfl
@[simp] theorem raise_qtab (s : State) (r : LogRecord) : (raise s r).qtab = s.qtab := rfl
@[simp] theorem raise_qtabValid (s : State) (r : LogRecord) : (raise s r).qtabValid = s.qtabValid := rfl
@[simp] theorem raise_wb (s : State) (r : LogRecord) : (raise s r).wb = s.wb := rfl
@[simp] theorem raise_sine (s : State) (r : LogRecord) : (raise s r).sine = s.sine := rfl
@[simp] theorem raise_rmLen (s : State) (r : LogRecord) : (raise s r).rmLen = s.rmLen := rfl
@[simp] theorem raise_rmAmp (s : State) (r : LogRecord) : (raise s r).rmAmp = s.rmAmp := rfl
@[simp] theorem raise_rmPhase (s : State) (r : LogRecord) : (raise s r).rmPhase = s.rmPhase := rfl
@[simp] theorem raise_rmValid (s : State) (r : LogRecord) : (raise s r).rmValid = s.rmValid := rfl
@[simp] theorem raise_rmSr (s : State) (r : LogRecord) : (raise s r).rmSr = s.rmSr := rfl
@[simp] theorem raise_rmFreq (s : State) (r : LogRecord) : (raise s r).rmFreq = s.rmFreq := rfl
@[simp] theorem raise_dl (s : State) (r : LogRecord) : (raise s r).dl = s.dl := rfl
@[simp] theorem raise_rvTap (s : State) (r : LogRecord) : (raise s r).rvTap = s.rvTap := rfl
@[simp] theorem raise_stage (s : State) (r : LogRecord) : (raise s r).stage = s.stage := rfl
@[simp] theorem raise_stageNew (s : State) (r : LogRecord) : (raise s r).stageNew = s.stageNew := rfl
@[simp] theorem raise_rb (s : State) (r : LogRecord) : (raise s r).rb = s.rb := rfl
@[simp] theorem raise_wrCur (s : State) (r : LogRecord) : (raise s r).wrCur = s.wrCur := rfl
@[simp] theorem raise_recEnd (s : State) (r : LogRecord) : (raise s r).recEnd = s.recEnd := rfl
@[simp] theorem raise_rdCur (s : State) (r : LogRecord) : (raise s r).rdCur = s.rdCur := rfl
@[simp] theorem raise_cfg (s : State) (r : LogRecord) : (raise s r).cfg = s.cfg := rfl
@[simp] theorem raise_act (s : State) (r : LogRecord) : (raise s r).act = s.act := rfl
@[simp] theorem raise_ctl (s : State) (r : LogRecord) : (raise s r).ctl = s.ctl := rfl
@[simp] theorem raise_ports_req (s : State) (r : LogRecord) : (raise s r).ports.req = s.ports.req := rfl
@[simp] theorem raise_ports_cfgp (s : State) (r : LogRecord) : (raise s r).ports.cfgp = s.ports.cfgp := rfl
@[simp] theorem raise_ports_inp (s : State) (r : LogRecord) : (raise s r).ports.inp = s.ports.inp := rfl
@[simp] theorem raise_ports_out (s : State) (r : LogRecord) : (raise s r).ports.out = s.ports.out := rfl
@[simp] theorem raise_ports_hwi (s : State) (r : LogRecord) : (raise s r).ports.hwi = s.ports.hwi := rfl
@[simp] theorem raise_ports_exported (s : State) (r : LogRecord) : (raise s r).ports.exported = s.ports.exported := rfl
@[simp] theorem raise_log (s : State) (r : LogRecord) : (raise s r).ports.log = s.ports.log ++ [r] := rfl
@[simp] theorem raise_ports_tx (s : State) (r : LogRecord) : (raise s r).ports.tx = s.ports.tx := rfl
@[simp] theorem raise_ports_pv (s : State) (r : LogRecord) : (raise s r).ports.pv = s.ports.pv := rfl
@[simp] theorem raise_env (s : State) (r : LogRecord) : (raise s r).env = s.env := rfl
@[simp] theorem raise_turns (s : State) (r : LogRecord) : (raise s r).turns = s.turns := rfl
@[simp] theorem raise_beside (s : State) (r : LogRecord) : (raise s r).beside = s.beside := rfl
@[simp] theorem raise_result (s : State) (r : LogRecord) : (raise s r).result = s.result := rfl

/-! ## `raiseAll` -/

@[simp] theorem raiseAll_hw (s : State) (rs : List LogRecord) : (raiseAll s rs).hw = s.hw := rfl
@[simp] theorem raiseAll_bank0 (s : State) (rs : List LogRecord) : (raiseAll s rs).bank0 = s.bank0 := rfl
@[simp] theorem raiseAll_bank1 (s : State) (rs : List LogRecord) : (raiseAll s rs).bank1 = s.bank1 := rfl
@[simp] theorem raiseAll_qtab (s : State) (rs : List LogRecord) : (raiseAll s rs).qtab = s.qtab := rfl
@[simp] theorem raiseAll_qtabValid (s : State) (rs : List LogRecord) : (raiseAll s rs).qtabValid = s.qtabValid := rfl
@[simp] theorem raiseAll_wb (s : State) (rs : List LogRecord) : (raiseAll s rs).wb = s.wb := rfl
@[simp] theorem raiseAll_sine (s : State) (rs : List LogRecord) : (raiseAll s rs).sine = s.sine := rfl
@[simp] theorem raiseAll_rmLen (s : State) (rs : List LogRecord) : (raiseAll s rs).rmLen = s.rmLen := rfl
@[simp] theorem raiseAll_rmAmp (s : State) (rs : List LogRecord) : (raiseAll s rs).rmAmp = s.rmAmp := rfl
@[simp] theorem raiseAll_rmPhase (s : State) (rs : List LogRecord) : (raiseAll s rs).rmPhase = s.rmPhase := rfl
@[simp] theorem raiseAll_rmValid (s : State) (rs : List LogRecord) : (raiseAll s rs).rmValid = s.rmValid := rfl
@[simp] theorem raiseAll_rmSr (s : State) (rs : List LogRecord) : (raiseAll s rs).rmSr = s.rmSr := rfl
@[simp] theorem raiseAll_rmFreq (s : State) (rs : List LogRecord) : (raiseAll s rs).rmFreq = s.rmFreq := rfl
@[simp] theorem raiseAll_dl (s : State) (rs : List LogRecord) : (raiseAll s rs).dl = s.dl := rfl
@[simp] theorem raiseAll_rvTap (s : State) (rs : List LogRecord) : (raiseAll s rs).rvTap = s.rvTap := rfl
@[simp] theorem raiseAll_stage (s : State) (rs : List LogRecord) : (raiseAll s rs).stage = s.stage := rfl
@[simp] theorem raiseAll_stageNew (s : State) (rs : List LogRecord) : (raiseAll s rs).stageNew = s.stageNew := rfl
@[simp] theorem raiseAll_rb (s : State) (rs : List LogRecord) : (raiseAll s rs).rb = s.rb := rfl
@[simp] theorem raiseAll_wrCur (s : State) (rs : List LogRecord) : (raiseAll s rs).wrCur = s.wrCur := rfl
@[simp] theorem raiseAll_recEnd (s : State) (rs : List LogRecord) : (raiseAll s rs).recEnd = s.recEnd := rfl
@[simp] theorem raiseAll_rdCur (s : State) (rs : List LogRecord) : (raiseAll s rs).rdCur = s.rdCur := rfl
@[simp] theorem raiseAll_cfg (s : State) (rs : List LogRecord) : (raiseAll s rs).cfg = s.cfg := rfl
@[simp] theorem raiseAll_act (s : State) (rs : List LogRecord) : (raiseAll s rs).act = s.act := rfl
@[simp] theorem raiseAll_ctl (s : State) (rs : List LogRecord) : (raiseAll s rs).ctl = s.ctl := rfl
@[simp] theorem raiseAll_ports_req (s : State) (rs : List LogRecord) : (raiseAll s rs).ports.req = s.ports.req := rfl
@[simp] theorem raiseAll_ports_cfgp (s : State) (rs : List LogRecord) : (raiseAll s rs).ports.cfgp = s.ports.cfgp := rfl
@[simp] theorem raiseAll_ports_inp (s : State) (rs : List LogRecord) : (raiseAll s rs).ports.inp = s.ports.inp := rfl
@[simp] theorem raiseAll_ports_out (s : State) (rs : List LogRecord) : (raiseAll s rs).ports.out = s.ports.out := rfl
@[simp] theorem raiseAll_ports_hwi (s : State) (rs : List LogRecord) : (raiseAll s rs).ports.hwi = s.ports.hwi := rfl
@[simp] theorem raiseAll_ports_exported (s : State) (rs : List LogRecord) : (raiseAll s rs).ports.exported = s.ports.exported := rfl
@[simp] theorem raiseAll_log (s : State) (rs : List LogRecord) : (raiseAll s rs).ports.log = s.ports.log ++ rs := rfl
@[simp] theorem raiseAll_ports_tx (s : State) (rs : List LogRecord) : (raiseAll s rs).ports.tx = s.ports.tx := rfl
@[simp] theorem raiseAll_ports_pv (s : State) (rs : List LogRecord) : (raiseAll s rs).ports.pv = s.ports.pv := rfl
@[simp] theorem raiseAll_env (s : State) (rs : List LogRecord) : (raiseAll s rs).env = s.env := rfl
@[simp] theorem raiseAll_turns (s : State) (rs : List LogRecord) : (raiseAll s rs).turns = s.turns := rfl
@[simp] theorem raiseAll_beside (s : State) (rs : List LogRecord) : (raiseAll s rs).beside = s.beside := rfl
@[simp] theorem raiseAll_result (s : State) (rs : List LogRecord) : (raiseAll s rs).result = s.result := rfl

/-! ## `respond` -/

@[simp] theorem respond_hw (s : State) (w : CmdWord) (r : Response) : (respond s w r).hw = s.hw := rfl
@[simp] theorem respond_bank0 (s : State) (w : CmdWord) (r : Response) : (respond s w r).bank0 = s.bank0 := rfl
@[simp] theorem respond_bank1 (s : State) (w : CmdWord) (r : Response) : (respond s w r).bank1 = s.bank1 := rfl
@[simp] theorem respond_qtab (s : State) (w : CmdWord) (r : Response) : (respond s w r).qtab = s.qtab := rfl
@[simp] theorem respond_qtabValid (s : State) (w : CmdWord) (r : Response) : (respond s w r).qtabValid = s.qtabValid := rfl
@[simp] theorem respond_wb (s : State) (w : CmdWord) (r : Response) : (respond s w r).wb = s.wb := rfl
@[simp] theorem respond_sine (s : State) (w : CmdWord) (r : Response) : (respond s w r).sine = s.sine := rfl
@[simp] theorem respond_rmLen (s : State) (w : CmdWord) (r : Response) : (respond s w r).rmLen = s.rmLen := rfl
@[simp] theorem respond_rmAmp (s : State) (w : CmdWord) (r : Response) : (respond s w r).rmAmp = s.rmAmp := rfl
@[simp] theorem respond_rmPhase (s : State) (w : CmdWord) (r : Response) : (respond s w r).rmPhase = s.rmPhase := rfl
@[simp] theorem respond_rmValid (s : State) (w : CmdWord) (r : Response) : (respond s w r).rmValid = s.rmValid := rfl
@[simp] theorem respond_rmSr (s : State) (w : CmdWord) (r : Response) : (respond s w r).rmSr = s.rmSr := rfl
@[simp] theorem respond_rmFreq (s : State) (w : CmdWord) (r : Response) : (respond s w r).rmFreq = s.rmFreq := rfl
@[simp] theorem respond_dl (s : State) (w : CmdWord) (r : Response) : (respond s w r).dl = s.dl := rfl
@[simp] theorem respond_rvTap (s : State) (w : CmdWord) (r : Response) : (respond s w r).rvTap = s.rvTap := rfl
@[simp] theorem respond_stage (s : State) (w : CmdWord) (r : Response) : (respond s w r).stage = s.stage := rfl
@[simp] theorem respond_stageNew (s : State) (w : CmdWord) (r : Response) : (respond s w r).stageNew = s.stageNew := rfl
@[simp] theorem respond_rb (s : State) (w : CmdWord) (r : Response) : (respond s w r).rb = s.rb := rfl
@[simp] theorem respond_wrCur (s : State) (w : CmdWord) (r : Response) : (respond s w r).wrCur = s.wrCur := rfl
@[simp] theorem respond_recEnd (s : State) (w : CmdWord) (r : Response) : (respond s w r).recEnd = s.recEnd := rfl
@[simp] theorem respond_rdCur (s : State) (w : CmdWord) (r : Response) : (respond s w r).rdCur = s.rdCur := rfl
@[simp] theorem respond_cfg (s : State) (w : CmdWord) (r : Response) : (respond s w r).cfg = s.cfg := rfl
@[simp] theorem respond_act (s : State) (w : CmdWord) (r : Response) : (respond s w r).act = s.act := rfl
@[simp] theorem respond_ctl (s : State) (w : CmdWord) (r : Response) : (respond s w r).ctl = s.ctl := rfl
@[simp] theorem respond_req (s : State) (w : CmdWord) (r : Response) : (respond s w r).ports.req = s.ports.req ++ [(w, r)] := rfl
@[simp] theorem respond_ports_cfgp (s : State) (w : CmdWord) (r : Response) : (respond s w r).ports.cfgp = s.ports.cfgp := rfl
@[simp] theorem respond_ports_inp (s : State) (w : CmdWord) (r : Response) : (respond s w r).ports.inp = s.ports.inp := rfl
@[simp] theorem respond_ports_out (s : State) (w : CmdWord) (r : Response) : (respond s w r).ports.out = s.ports.out := rfl
@[simp] theorem respond_ports_hwi (s : State) (w : CmdWord) (r : Response) : (respond s w r).ports.hwi = s.ports.hwi := rfl
@[simp] theorem respond_ports_exported (s : State) (w : CmdWord) (r : Response) : (respond s w r).ports.exported = s.ports.exported := rfl
@[simp] theorem respond_ports_log (s : State) (w : CmdWord) (r : Response) : (respond s w r).ports.log = s.ports.log := rfl
@[simp] theorem respond_ports_tx (s : State) (w : CmdWord) (r : Response) : (respond s w r).ports.tx = s.ports.tx := rfl
@[simp] theorem respond_ports_pv (s : State) (w : CmdWord) (r : Response) : (respond s w r).ports.pv = s.ports.pv := rfl
@[simp] theorem respond_env (s : State) (w : CmdWord) (r : Response) : (respond s w r).env = s.env := rfl
@[simp] theorem respond_turns (s : State) (w : CmdWord) (r : Response) : (respond s w r).turns = s.turns := rfl
@[simp] theorem respond_beside (s : State) (w : CmdWord) (r : Response) : (respond s w r).beside = s.beside := rfl
@[simp] theorem respond_result (s : State) (w : CmdWord) (r : Response) : (respond s w r).result = s.result := rfl

/-! ## `recordCfgp` -/

@[simp] theorem recordCfgp_hw (s : State) (w : CmdWord) (v : CfgValue) : (recordCfgp s w v).hw = s.hw := rfl
@[simp] theorem recordCfgp_bank0 (s : State) (w : CmdWord) (v : CfgValue) : (recordCfgp s w v).bank0 = s.bank0 := rfl
@[simp] theorem recordCfgp_bank1 (s : State) (w : CmdWord) (v : CfgValue) : (recordCfgp s w v).bank1 = s.bank1 := rfl
@[simp] theorem recordCfgp_qtab (s : State) (w : CmdWord) (v : CfgValue) : (recordCfgp s w v).qtab = s.qtab := rfl
@[simp] theorem recordCfgp_qtabValid (s : State) (w : CmdWord) (v : CfgValue) : (recordCfgp s w v).qtabValid = s.qtabValid := rfl
@[simp] theorem recordCfgp_wb (s : State) (w : CmdWord) (v : CfgValue) : (recordCfgp s w v).wb = s.wb := rfl
@[simp] theorem recordCfgp_sine (s : State) (w : CmdWord) (v : CfgValue) : (recordCfgp s w v).sine = s.sine := rfl
@[simp] theorem recordCfgp_rmLen (s : State) (w : CmdWord) (v : CfgValue) : (recordCfgp s w v).rmLen = s.rmLen := rfl
@[simp] theorem recordCfgp_rmAmp (s : State) (w : CmdWord) (v : CfgValue) : (recordCfgp s w v).rmAmp = s.rmAmp := rfl
@[simp] theorem recordCfgp_rmPhase (s : State) (w : CmdWord) (v : CfgValue) : (recordCfgp s w v).rmPhase = s.rmPhase := rfl
@[simp] theorem recordCfgp_rmValid (s : State) (w : CmdWord) (v : CfgValue) : (recordCfgp s w v).rmValid = s.rmValid := rfl
@[simp] theorem recordCfgp_rmSr (s : State) (w : CmdWord) (v : CfgValue) : (recordCfgp s w v).rmSr = s.rmSr := rfl
@[simp] theorem recordCfgp_rmFreq (s : State) (w : CmdWord) (v : CfgValue) : (recordCfgp s w v).rmFreq = s.rmFreq := rfl
@[simp] theorem recordCfgp_dl (s : State) (w : CmdWord) (v : CfgValue) : (recordCfgp s w v).dl = s.dl := rfl
@[simp] theorem recordCfgp_rvTap (s : State) (w : CmdWord) (v : CfgValue) : (recordCfgp s w v).rvTap = s.rvTap := rfl
@[simp] theorem recordCfgp_stage (s : State) (w : CmdWord) (v : CfgValue) : (recordCfgp s w v).stage = s.stage := rfl
@[simp] theorem recordCfgp_stageNew (s : State) (w : CmdWord) (v : CfgValue) : (recordCfgp s w v).stageNew = s.stageNew := rfl
@[simp] theorem recordCfgp_rb (s : State) (w : CmdWord) (v : CfgValue) : (recordCfgp s w v).rb = s.rb := rfl
@[simp] theorem recordCfgp_wrCur (s : State) (w : CmdWord) (v : CfgValue) : (recordCfgp s w v).wrCur = s.wrCur := rfl
@[simp] theorem recordCfgp_recEnd (s : State) (w : CmdWord) (v : CfgValue) : (recordCfgp s w v).recEnd = s.recEnd := rfl
@[simp] theorem recordCfgp_rdCur (s : State) (w : CmdWord) (v : CfgValue) : (recordCfgp s w v).rdCur = s.rdCur := rfl
@[simp] theorem recordCfgp_cfg (s : State) (w : CmdWord) (v : CfgValue) : (recordCfgp s w v).cfg = s.cfg := rfl
@[simp] theorem recordCfgp_act (s : State) (w : CmdWord) (v : CfgValue) : (recordCfgp s w v).act = s.act := rfl
@[simp] theorem recordCfgp_ctl (s : State) (w : CmdWord) (v : CfgValue) : (recordCfgp s w v).ctl = s.ctl := rfl
@[simp] theorem recordCfgp_ports_req (s : State) (w : CmdWord) (v : CfgValue) : (recordCfgp s w v).ports.req = s.ports.req := rfl
@[simp] theorem recordCfgp_cfgp (s : State) (w : CmdWord) (v : CfgValue) : (recordCfgp s w v).ports.cfgp = s.ports.cfgp ++ [(w, v)] := rfl
@[simp] theorem recordCfgp_ports_inp (s : State) (w : CmdWord) (v : CfgValue) : (recordCfgp s w v).ports.inp = s.ports.inp := rfl
@[simp] theorem recordCfgp_ports_out (s : State) (w : CmdWord) (v : CfgValue) : (recordCfgp s w v).ports.out = s.ports.out := rfl
@[simp] theorem recordCfgp_ports_hwi (s : State) (w : CmdWord) (v : CfgValue) : (recordCfgp s w v).ports.hwi = s.ports.hwi := rfl
@[simp] theorem recordCfgp_ports_exported (s : State) (w : CmdWord) (v : CfgValue) : (recordCfgp s w v).ports.exported = s.ports.exported := rfl
@[simp] theorem recordCfgp_ports_log (s : State) (w : CmdWord) (v : CfgValue) : (recordCfgp s w v).ports.log = s.ports.log := rfl
@[simp] theorem recordCfgp_ports_tx (s : State) (w : CmdWord) (v : CfgValue) : (recordCfgp s w v).ports.tx = s.ports.tx := rfl
@[simp] theorem recordCfgp_ports_pv (s : State) (w : CmdWord) (v : CfgValue) : (recordCfgp s w v).ports.pv = s.ports.pv := rfl
@[simp] theorem recordCfgp_env (s : State) (w : CmdWord) (v : CfgValue) : (recordCfgp s w v).env = s.env := rfl
@[simp] theorem recordCfgp_turns (s : State) (w : CmdWord) (v : CfgValue) : (recordCfgp s w v).turns = s.turns := rfl
@[simp] theorem recordCfgp_beside (s : State) (w : CmdWord) (v : CfgValue) : (recordCfgp s w v).beside = s.beside := rfl
@[simp] theorem recordCfgp_result (s : State) (w : CmdWord) (v : CfgValue) : (recordCfgp s w v).result = s.result := rfl

/-! ## `recordTx` -/

@[simp] theorem recordTx_hw (s : State) (e : TxEvent) : (recordTx s e).hw = s.hw := rfl
@[simp] theorem recordTx_bank0 (s : State) (e : TxEvent) : (recordTx s e).bank0 = s.bank0 := rfl
@[simp] theorem recordTx_bank1 (s : State) (e : TxEvent) : (recordTx s e).bank1 = s.bank1 := rfl
@[simp] theorem recordTx_qtab (s : State) (e : TxEvent) : (recordTx s e).qtab = s.qtab := rfl
@[simp] theorem recordTx_qtabValid (s : State) (e : TxEvent) : (recordTx s e).qtabValid = s.qtabValid := rfl
@[simp] theorem recordTx_wb (s : State) (e : TxEvent) : (recordTx s e).wb = s.wb := rfl
@[simp] theorem recordTx_sine (s : State) (e : TxEvent) : (recordTx s e).sine = s.sine := rfl
@[simp] theorem recordTx_rmLen (s : State) (e : TxEvent) : (recordTx s e).rmLen = s.rmLen := rfl
@[simp] theorem recordTx_rmAmp (s : State) (e : TxEvent) : (recordTx s e).rmAmp = s.rmAmp := rfl
@[simp] theorem recordTx_rmPhase (s : State) (e : TxEvent) : (recordTx s e).rmPhase = s.rmPhase := rfl
@[simp] theorem recordTx_rmValid (s : State) (e : TxEvent) : (recordTx s e).rmValid = s.rmValid := rfl
@[simp] theorem recordTx_rmSr (s : State) (e : TxEvent) : (recordTx s e).rmSr = s.rmSr := rfl
@[simp] theorem recordTx_rmFreq (s : State) (e : TxEvent) : (recordTx s e).rmFreq = s.rmFreq := rfl
@[simp] theorem recordTx_dl (s : State) (e : TxEvent) : (recordTx s e).dl = s.dl := rfl
@[simp] theorem recordTx_rvTap (s : State) (e : TxEvent) : (recordTx s e).rvTap = s.rvTap := rfl
@[simp] theorem recordTx_stage (s : State) (e : TxEvent) : (recordTx s e).stage = s.stage := rfl
@[simp] theorem recordTx_stageNew (s : State) (e : TxEvent) : (recordTx s e).stageNew = s.stageNew := rfl
@[simp] theorem recordTx_rb (s : State) (e : TxEvent) : (recordTx s e).rb = s.rb := rfl
@[simp] theorem recordTx_wrCur (s : State) (e : TxEvent) : (recordTx s e).wrCur = s.wrCur := rfl
@[simp] theorem recordTx_recEnd (s : State) (e : TxEvent) : (recordTx s e).recEnd = s.recEnd := rfl
@[simp] theorem recordTx_rdCur (s : State) (e : TxEvent) : (recordTx s e).rdCur = s.rdCur := rfl
@[simp] theorem recordTx_cfg (s : State) (e : TxEvent) : (recordTx s e).cfg = s.cfg := rfl
@[simp] theorem recordTx_act (s : State) (e : TxEvent) : (recordTx s e).act = s.act := rfl
@[simp] theorem recordTx_ctl (s : State) (e : TxEvent) : (recordTx s e).ctl = s.ctl := rfl
@[simp] theorem recordTx_ports_req (s : State) (e : TxEvent) : (recordTx s e).ports.req = s.ports.req := rfl
@[simp] theorem recordTx_ports_cfgp (s : State) (e : TxEvent) : (recordTx s e).ports.cfgp = s.ports.cfgp := rfl
@[simp] theorem recordTx_ports_inp (s : State) (e : TxEvent) : (recordTx s e).ports.inp = s.ports.inp := rfl
@[simp] theorem recordTx_ports_out (s : State) (e : TxEvent) : (recordTx s e).ports.out = s.ports.out := rfl
@[simp] theorem recordTx_ports_hwi (s : State) (e : TxEvent) : (recordTx s e).ports.hwi = s.ports.hwi := rfl
@[simp] theorem recordTx_ports_exported (s : State) (e : TxEvent) : (recordTx s e).ports.exported = s.ports.exported := rfl
@[simp] theorem recordTx_ports_log (s : State) (e : TxEvent) : (recordTx s e).ports.log = s.ports.log := rfl
@[simp] theorem recordTx_tx (s : State) (e : TxEvent) : (recordTx s e).ports.tx = s.ports.tx ++ [e] := rfl
@[simp] theorem recordTx_ports_pv (s : State) (e : TxEvent) : (recordTx s e).ports.pv = s.ports.pv := rfl
@[simp] theorem recordTx_env (s : State) (e : TxEvent) : (recordTx s e).env = s.env := rfl
@[simp] theorem recordTx_turns (s : State) (e : TxEvent) : (recordTx s e).turns = s.turns := rfl
@[simp] theorem recordTx_beside (s : State) (e : TxEvent) : (recordTx s e).beside = s.beside := rfl
@[simp] theorem recordTx_result (s : State) (e : TxEvent) : (recordTx s e).result = s.result := rfl

/-! ## `recordPv` -/

@[simp] theorem recordPv_hw (s : State) (e : PvEvent) : (recordPv s e).hw = s.hw := rfl
@[simp] theorem recordPv_bank0 (s : State) (e : PvEvent) : (recordPv s e).bank0 = s.bank0 := rfl
@[simp] theorem recordPv_bank1 (s : State) (e : PvEvent) : (recordPv s e).bank1 = s.bank1 := rfl
@[simp] theorem recordPv_qtab (s : State) (e : PvEvent) : (recordPv s e).qtab = s.qtab := rfl
@[simp] theorem recordPv_qtabValid (s : State) (e : PvEvent) : (recordPv s e).qtabValid = s.qtabValid := rfl
@[simp] theorem recordPv_wb (s : State) (e : PvEvent) : (recordPv s e).wb = s.wb := rfl
@[simp] theorem recordPv_sine (s : State) (e : PvEvent) : (recordPv s e).sine = s.sine := rfl
@[simp] theorem recordPv_rmLen (s : State) (e : PvEvent) : (recordPv s e).rmLen = s.rmLen := rfl
@[simp] theorem recordPv_rmAmp (s : State) (e : PvEvent) : (recordPv s e).rmAmp = s.rmAmp := rfl
@[simp] theorem recordPv_rmPhase (s : State) (e : PvEvent) : (recordPv s e).rmPhase = s.rmPhase := rfl
@[simp] theorem recordPv_rmValid (s : State) (e : PvEvent) : (recordPv s e).rmValid = s.rmValid := rfl
@[simp] theorem recordPv_rmSr (s : State) (e : PvEvent) : (recordPv s e).rmSr = s.rmSr := rfl
@[simp] theorem recordPv_rmFreq (s : State) (e : PvEvent) : (recordPv s e).rmFreq = s.rmFreq := rfl
@[simp] theorem recordPv_dl (s : State) (e : PvEvent) : (recordPv s e).dl = s.dl := rfl
@[simp] theorem recordPv_rvTap (s : State) (e : PvEvent) : (recordPv s e).rvTap = s.rvTap := rfl
@[simp] theorem recordPv_stage (s : State) (e : PvEvent) : (recordPv s e).stage = s.stage := rfl
@[simp] theorem recordPv_stageNew (s : State) (e : PvEvent) : (recordPv s e).stageNew = s.stageNew := rfl
@[simp] theorem recordPv_rb (s : State) (e : PvEvent) : (recordPv s e).rb = s.rb := rfl
@[simp] theorem recordPv_wrCur (s : State) (e : PvEvent) : (recordPv s e).wrCur = s.wrCur := rfl
@[simp] theorem recordPv_recEnd (s : State) (e : PvEvent) : (recordPv s e).recEnd = s.recEnd := rfl
@[simp] theorem recordPv_rdCur (s : State) (e : PvEvent) : (recordPv s e).rdCur = s.rdCur := rfl
@[simp] theorem recordPv_cfg (s : State) (e : PvEvent) : (recordPv s e).cfg = s.cfg := rfl
@[simp] theorem recordPv_act (s : State) (e : PvEvent) : (recordPv s e).act = s.act := rfl
@[simp] theorem recordPv_ctl (s : State) (e : PvEvent) : (recordPv s e).ctl = s.ctl := rfl
@[simp] theorem recordPv_ports_req (s : State) (e : PvEvent) : (recordPv s e).ports.req = s.ports.req := rfl
@[simp] theorem recordPv_ports_cfgp (s : State) (e : PvEvent) : (recordPv s e).ports.cfgp = s.ports.cfgp := rfl
@[simp] theorem recordPv_ports_inp (s : State) (e : PvEvent) : (recordPv s e).ports.inp = s.ports.inp := rfl
@[simp] theorem recordPv_ports_out (s : State) (e : PvEvent) : (recordPv s e).ports.out = s.ports.out := rfl
@[simp] theorem recordPv_ports_hwi (s : State) (e : PvEvent) : (recordPv s e).ports.hwi = s.ports.hwi := rfl
@[simp] theorem recordPv_ports_exported (s : State) (e : PvEvent) : (recordPv s e).ports.exported = s.ports.exported := rfl
@[simp] theorem recordPv_ports_log (s : State) (e : PvEvent) : (recordPv s e).ports.log = s.ports.log := rfl
@[simp] theorem recordPv_ports_tx (s : State) (e : PvEvent) : (recordPv s e).ports.tx = s.ports.tx := rfl
@[simp] theorem recordPv_pv (s : State) (e : PvEvent) : (recordPv s e).ports.pv = s.ports.pv ++ [e] := rfl
@[simp] theorem recordPv_env (s : State) (e : PvEvent) : (recordPv s e).env = s.env := rfl
@[simp] theorem recordPv_turns (s : State) (e : PvEvent) : (recordPv s e).turns = s.turns := rfl
@[simp] theorem recordPv_beside (s : State) (e : PvEvent) : (recordPv s e).beside = s.beside := rfl
@[simp] theorem recordPv_result (s : State) (e : PvEvent) : (recordPv s e).result = s.result := rfl

/-! ## `emitChunk` -/

@[simp] theorem emitChunk_hw (s : State) (bs : List Byte) : (emitChunk s bs).hw = s.hw := rfl
@[simp] theorem emitChunk_bank0 (s : State) (bs : List Byte) : (emitChunk s bs).bank0 = s.bank0 := rfl
@[simp] theorem emitChunk_bank1 (s : State) (bs : List Byte) : (emitChunk s bs).bank1 = s.bank1 := rfl
@[simp] theorem emitChunk_qtab (s : State) (bs : List Byte) : (emitChunk s bs).qtab = s.qtab := rfl
@[simp] theorem emitChunk_qtabValid (s : State) (bs : List Byte) : (emitChunk s bs).qtabValid = s.qtabValid := rfl
@[simp] theorem emitChunk_wb (s : State) (bs : List Byte) : (emitChunk s bs).wb = s.wb := rfl
@[simp] theorem emitChunk_sine (s : State) (bs : List Byte) : (emitChunk s bs).sine = s.sine := rfl
@[simp] theorem emitChunk_rmLen (s : State) (bs : List Byte) : (emitChunk s bs).rmLen = s.rmLen := rfl
@[simp] theorem emitChunk_rmAmp (s : State) (bs : List Byte) : (emitChunk s bs).rmAmp = s.rmAmp := rfl
@[simp] theorem emitChunk_rmPhase (s : State) (bs : List Byte) : (emitChunk s bs).rmPhase = s.rmPhase := rfl
@[simp] theorem emitChunk_rmValid (s : State) (bs : List Byte) : (emitChunk s bs).rmValid = s.rmValid := rfl
@[simp] theorem emitChunk_rmSr (s : State) (bs : List Byte) : (emitChunk s bs).rmSr = s.rmSr := rfl
@[simp] theorem emitChunk_rmFreq (s : State) (bs : List Byte) : (emitChunk s bs).rmFreq = s.rmFreq := rfl
@[simp] theorem emitChunk_dl (s : State) (bs : List Byte) : (emitChunk s bs).dl = s.dl := rfl
@[simp] theorem emitChunk_rvTap (s : State) (bs : List Byte) : (emitChunk s bs).rvTap = s.rvTap := rfl
@[simp] theorem emitChunk_stage (s : State) (bs : List Byte) : (emitChunk s bs).stage = s.stage := rfl
@[simp] theorem emitChunk_stageNew (s : State) (bs : List Byte) : (emitChunk s bs).stageNew = s.stageNew := rfl
@[simp] theorem emitChunk_rb (s : State) (bs : List Byte) : (emitChunk s bs).rb = s.rb := rfl
@[simp] theorem emitChunk_wrCur (s : State) (bs : List Byte) : (emitChunk s bs).wrCur = s.wrCur := rfl
@[simp] theorem emitChunk_recEnd (s : State) (bs : List Byte) : (emitChunk s bs).recEnd = s.recEnd := rfl
@[simp] theorem emitChunk_rdCur (s : State) (bs : List Byte) : (emitChunk s bs).rdCur = s.rdCur := rfl
@[simp] theorem emitChunk_cfg (s : State) (bs : List Byte) : (emitChunk s bs).cfg = s.cfg := rfl
@[simp] theorem emitChunk_act (s : State) (bs : List Byte) : (emitChunk s bs).act = s.act := rfl
@[simp] theorem emitChunk_ctl (s : State) (bs : List Byte) : (emitChunk s bs).ctl = s.ctl := rfl
@[simp] theorem emitChunk_ports_req (s : State) (bs : List Byte) : (emitChunk s bs).ports.req = s.ports.req := rfl
@[simp] theorem emitChunk_ports_cfgp (s : State) (bs : List Byte) : (emitChunk s bs).ports.cfgp = s.ports.cfgp := rfl
@[simp] theorem emitChunk_ports_inp (s : State) (bs : List Byte) : (emitChunk s bs).ports.inp = s.ports.inp := rfl
@[simp] theorem emitChunk_ports_out (s : State) (bs : List Byte) : (emitChunk s bs).ports.out = s.ports.out := rfl
@[simp] theorem emitChunk_ports_hwi (s : State) (bs : List Byte) : (emitChunk s bs).ports.hwi = s.ports.hwi := rfl
@[simp] theorem emitChunk_exported (s : State) (bs : List Byte) : (emitChunk s bs).ports.exported = s.ports.exported ++ [bs] := rfl
@[simp] theorem emitChunk_ports_log (s : State) (bs : List Byte) : (emitChunk s bs).ports.log = s.ports.log := rfl
@[simp] theorem emitChunk_ports_tx (s : State) (bs : List Byte) : (emitChunk s bs).ports.tx = s.ports.tx := rfl
@[simp] theorem emitChunk_ports_pv (s : State) (bs : List Byte) : (emitChunk s bs).ports.pv = s.ports.pv := rfl
@[simp] theorem emitChunk_env (s : State) (bs : List Byte) : (emitChunk s bs).env = s.env := rfl
@[simp] theorem emitChunk_turns (s : State) (bs : List Byte) : (emitChunk s bs).turns = s.turns := rfl
@[simp] theorem emitChunk_beside (s : State) (bs : List Byte) : (emitChunk s bs).beside = s.beside := rfl
@[simp] theorem emitChunk_result (s : State) (bs : List Byte) : (emitChunk s bs).result = s.result := rfl

/-! ## `setPhase` -/

@[simp] theorem setPhase_hw (s : State) (p : Phase) : (setPhase s p).hw = s.hw := rfl
@[simp] theorem setPhase_bank0 (s : State) (p : Phase) : (setPhase s p).bank0 = s.bank0 := rfl
@[simp] theorem setPhase_bank1 (s : State) (p : Phase) : (setPhase s p).bank1 = s.bank1 := rfl
@[simp] theorem setPhase_qtab (s : State) (p : Phase) : (setPhase s p).qtab = s.qtab := rfl
@[simp] theorem setPhase_qtabValid (s : State) (p : Phase) : (setPhase s p).qtabValid = s.qtabValid := rfl
@[simp] theorem setPhase_wb (s : State) (p : Phase) : (setPhase s p).wb = s.wb := rfl
@[simp] theorem setPhase_sine (s : State) (p : Phase) : (setPhase s p).sine = s.sine := rfl
@[simp] theorem setPhase_rmLen (s : State) (p : Phase) : (setPhase s p).rmLen = s.rmLen := rfl
@[simp] theorem setPhase_rmAmp (s : State) (p : Phase) : (setPhase s p).rmAmp = s.rmAmp := rfl
@[simp] theorem setPhase_rmPhase (s : State) (p : Phase) : (setPhase s p).rmPhase = s.rmPhase := rfl
@[simp] theorem setPhase_rmValid (s : State) (p : Phase) : (setPhase s p).rmValid = s.rmValid := rfl
@[simp] theorem setPhase_rmSr (s : State) (p : Phase) : (setPhase s p).rmSr = s.rmSr := rfl
@[simp] theorem setPhase_rmFreq (s : State) (p : Phase) : (setPhase s p).rmFreq = s.rmFreq := rfl
@[simp] theorem setPhase_dl (s : State) (p : Phase) : (setPhase s p).dl = s.dl := rfl
@[simp] theorem setPhase_rvTap (s : State) (p : Phase) : (setPhase s p).rvTap = s.rvTap := rfl
@[simp] theorem setPhase_stage (s : State) (p : Phase) : (setPhase s p).stage = s.stage := rfl
@[simp] theorem setPhase_stageNew (s : State) (p : Phase) : (setPhase s p).stageNew = s.stageNew := rfl
@[simp] theorem setPhase_rb (s : State) (p : Phase) : (setPhase s p).rb = s.rb := rfl
@[simp] theorem setPhase_wrCur (s : State) (p : Phase) : (setPhase s p).wrCur = s.wrCur := rfl
@[simp] theorem setPhase_recEnd (s : State) (p : Phase) : (setPhase s p).recEnd = s.recEnd := rfl
@[simp] theorem setPhase_rdCur (s : State) (p : Phase) : (setPhase s p).rdCur = s.rdCur := rfl
@[simp] theorem setPhase_cfg (s : State) (p : Phase) : (setPhase s p).cfg = s.cfg := rfl
@[simp] theorem setPhase_act (s : State) (p : Phase) : (setPhase s p).act = s.act := rfl
@[simp] theorem setPhase_ctl (s : State) (p : Phase) : (setPhase s p).ctl = { s.ctl with phase := p } := rfl
@[simp] theorem setPhase_ports (s : State) (p : Phase) : (setPhase s p).ports = s.ports := rfl
@[simp] theorem setPhase_env (s : State) (p : Phase) : (setPhase s p).env = s.env := rfl
@[simp] theorem setPhase_turns (s : State) (p : Phase) : (setPhase s p).turns = s.turns := rfl
@[simp] theorem setPhase_beside (s : State) (p : Phase) : (setPhase s p).beside = s.beside := rfl
@[simp] theorem setPhase_result (s : State) (p : Phase) : (setPhase s p).result = s.result := rfl

/-! ## `acceptAction` -/

@[simp] theorem acceptAction_hw (s : State) (r : ReqCode) : (acceptAction r s).hw = s.hw := rfl
@[simp] theorem acceptAction_bank0 (s : State) (r : ReqCode) : (acceptAction r s).bank0 = s.bank0 := rfl
@[simp] theorem acceptAction_bank1 (s : State) (r : ReqCode) : (acceptAction r s).bank1 = s.bank1 := rfl
@[simp] theorem acceptAction_qtab (s : State) (r : ReqCode) : (acceptAction r s).qtab = s.qtab := rfl
@[simp] theorem acceptAction_qtabValid (s : State) (r : ReqCode) : (acceptAction r s).qtabValid = s.qtabValid := rfl
@[simp] theorem acceptAction_wb (s : State) (r : ReqCode) : (acceptAction r s).wb = s.wb := rfl
@[simp] theorem acceptAction_sine (s : State) (r : ReqCode) : (acceptAction r s).sine = s.sine := rfl
@[simp] theorem acceptAction_rmLen (s : State) (r : ReqCode) : (acceptAction r s).rmLen = s.rmLen := rfl
@[simp] theorem acceptAction_rmAmp (s : State) (r : ReqCode) : (acceptAction r s).rmAmp = s.rmAmp := rfl
@[simp] theorem acceptAction_rmPhase (s : State) (r : ReqCode) : (acceptAction r s).rmPhase = s.rmPhase := rfl
@[simp] theorem acceptAction_rmValid (s : State) (r : ReqCode) : (acceptAction r s).rmValid = s.rmValid := rfl
@[simp] theorem acceptAction_rmSr (s : State) (r : ReqCode) : (acceptAction r s).rmSr = s.rmSr := rfl
@[simp] theorem acceptAction_rmFreq (s : State) (r : ReqCode) : (acceptAction r s).rmFreq = s.rmFreq := rfl
@[simp] theorem acceptAction_dl (s : State) (r : ReqCode) : (acceptAction r s).dl = s.dl := rfl
@[simp] theorem acceptAction_rvTap (s : State) (r : ReqCode) : (acceptAction r s).rvTap = s.rvTap := rfl
@[simp] theorem acceptAction_stage (s : State) (r : ReqCode) : (acceptAction r s).stage = s.stage := rfl
@[simp] theorem acceptAction_stageNew (s : State) (r : ReqCode) : (acceptAction r s).stageNew = s.stageNew := rfl
@[simp] theorem acceptAction_rb (s : State) (r : ReqCode) : (acceptAction r s).rb = s.rb := rfl
@[simp] theorem acceptAction_wrCur (s : State) (r : ReqCode) : (acceptAction r s).wrCur = s.wrCur := rfl
@[simp] theorem acceptAction_recEnd (s : State) (r : ReqCode) : (acceptAction r s).recEnd = s.recEnd := rfl
@[simp] theorem acceptAction_rdCur (s : State) (r : ReqCode) : (acceptAction r s).rdCur = s.rdCur := rfl
@[simp] theorem acceptAction_cfg (s : State) (r : ReqCode) : (acceptAction r s).cfg = s.cfg := rfl
@[simp] theorem acceptAction_act (s : State) (r : ReqCode) : (acceptAction r s).act = s.act := rfl
@[simp] theorem acceptAction_ctl (s : State) (r : ReqCode) :
    (acceptAction r s).ctl = { s.ctl with permit := false, action := r, wake := true } := rfl
@[simp] theorem acceptAction_ports (s : State) (r : ReqCode) : (acceptAction r s).ports = s.ports := rfl
@[simp] theorem acceptAction_env (s : State) (r : ReqCode) : (acceptAction r s).env = s.env := rfl
@[simp] theorem acceptAction_turns (s : State) (r : ReqCode) : (acceptAction r s).turns = s.turns := rfl
@[simp] theorem acceptAction_beside (s : State) (r : ReqCode) : (acceptAction r s).beside = s.beside := rfl
@[simp] theorem acceptAction_result (s : State) (r : ReqCode) : (acceptAction r s).result = s.result := rfl

/-! ## `releaseAction` -/

@[simp] theorem releaseAction_hw (s : State) : (releaseAction s).hw = s.hw := rfl
@[simp] theorem releaseAction_bank0 (s : State) : (releaseAction s).bank0 = s.bank0 := rfl
@[simp] theorem releaseAction_bank1 (s : State) : (releaseAction s).bank1 = s.bank1 := rfl
@[simp] theorem releaseAction_qtab (s : State) : (releaseAction s).qtab = s.qtab := rfl
@[simp] theorem releaseAction_qtabValid (s : State) : (releaseAction s).qtabValid = s.qtabValid := rfl
@[simp] theorem releaseAction_wb (s : State) : (releaseAction s).wb = s.wb := rfl
@[simp] theorem releaseAction_sine (s : State) : (releaseAction s).sine = s.sine := rfl
@[simp] theorem releaseAction_rmLen (s : State) : (releaseAction s).rmLen = s.rmLen := rfl
@[simp] theorem releaseAction_rmAmp (s : State) : (releaseAction s).rmAmp = s.rmAmp := rfl
@[simp] theorem releaseAction_rmPhase (s : State) : (releaseAction s).rmPhase = s.rmPhase := rfl
@[simp] theorem releaseAction_rmValid (s : State) : (releaseAction s).rmValid = s.rmValid := rfl
@[simp] theorem releaseAction_rmSr (s : State) : (releaseAction s).rmSr = s.rmSr := rfl
@[simp] theorem releaseAction_rmFreq (s : State) : (releaseAction s).rmFreq = s.rmFreq := rfl
@[simp] theorem releaseAction_dl (s : State) : (releaseAction s).dl = s.dl := rfl
@[simp] theorem releaseAction_rvTap (s : State) : (releaseAction s).rvTap = s.rvTap := rfl
@[simp] theorem releaseAction_stage (s : State) : (releaseAction s).stage = s.stage := rfl
@[simp] theorem releaseAction_stageNew (s : State) : (releaseAction s).stageNew = s.stageNew := rfl
@[simp] theorem releaseAction_rb (s : State) : (releaseAction s).rb = s.rb := rfl
@[simp] theorem releaseAction_wrCur (s : State) : (releaseAction s).wrCur = s.wrCur := rfl
@[simp] theorem releaseAction_recEnd (s : State) : (releaseAction s).recEnd = s.recEnd := rfl
@[simp] theorem releaseAction_rdCur (s : State) : (releaseAction s).rdCur = s.rdCur := rfl
@[simp] theorem releaseAction_cfg (s : State) : (releaseAction s).cfg = s.cfg := rfl
@[simp] theorem releaseAction_act (s : State) : (releaseAction s).act = s.act := rfl
@[simp] theorem releaseAction_ctl (s : State) :
    (releaseAction s).ctl = { s.ctl with stop := false, feedback := false, action := .none, permit := true, phase := .wait } := rfl
@[simp] theorem releaseAction_ports (s : State) : (releaseAction s).ports = s.ports := rfl
@[simp] theorem releaseAction_env (s : State) : (releaseAction s).env = s.env := rfl
@[simp] theorem releaseAction_turns (s : State) : (releaseAction s).turns = s.turns := rfl
@[simp] theorem releaseAction_beside (s : State) : (releaseAction s).beside = s.beside := rfl
@[simp] theorem releaseAction_result (s : State) : (releaseAction s).result = s.result := rfl

/-! ## `dropTurn` -/

@[simp] theorem dropTurn_hw (s : State) : (dropTurn s).hw = s.hw := rfl
@[simp] theorem dropTurn_bank0 (s : State) : (dropTurn s).bank0 = s.bank0 := rfl
@[simp] theorem dropTurn_bank1 (s : State) : (dropTurn s).bank1 = s.bank1 := rfl
@[simp] theorem dropTurn_qtab (s : State) : (dropTurn s).qtab = s.qtab := rfl
@[simp] theorem dropTurn_qtabValid (s : State) : (dropTurn s).qtabValid = s.qtabValid := rfl
@[simp] theorem dropTurn_wb (s : State) : (dropTurn s).wb = s.wb := rfl
@[simp] theorem dropTurn_sine (s : State) : (dropTurn s).sine = s.sine := rfl
@[simp] theorem dropTurn_rmLen (s : State) : (dropTurn s).rmLen = s.rmLen := rfl
@[simp] theorem dropTurn_rmAmp (s : State) : (dropTurn s).rmAmp = s.rmAmp := rfl
@[simp] theorem dropTurn_rmPhase (s : State) : (dropTurn s).rmPhase = s.rmPhase := rfl
@[simp] theorem dropTurn_rmValid (s : State) : (dropTurn s).rmValid = s.rmValid := rfl
@[simp] theorem dropTurn_rmSr (s : State) : (dropTurn s).rmSr = s.rmSr := rfl
@[simp] theorem dropTurn_rmFreq (s : State) : (dropTurn s).rmFreq = s.rmFreq := rfl
@[simp] theorem dropTurn_dl (s : State) : (dropTurn s).dl = s.dl := rfl
@[simp] theorem dropTurn_rvTap (s : State) : (dropTurn s).rvTap = s.rvTap := rfl
@[simp] theorem dropTurn_stage (s : State) : (dropTurn s).stage = s.stage := rfl
@[simp] theorem dropTurn_stageNew (s : State) : (dropTurn s).stageNew = s.stageNew := rfl
@[simp] theorem dropTurn_rb (s : State) : (dropTurn s).rb = s.rb := rfl
@[simp] theorem dropTurn_wrCur (s : State) : (dropTurn s).wrCur = s.wrCur := rfl
@[simp] theorem dropTurn_recEnd (s : State) : (dropTurn s).recEnd = s.recEnd := rfl
@[simp] theorem dropTurn_rdCur (s : State) : (dropTurn s).rdCur = s.rdCur := rfl
@[simp] theorem dropTurn_cfg (s : State) : (dropTurn s).cfg = s.cfg := rfl
@[simp] theorem dropTurn_act (s : State) : (dropTurn s).act = s.act := rfl
@[simp] theorem dropTurn_ctl (s : State) : (dropTurn s).ctl = s.ctl := rfl
@[simp] theorem dropTurn_ports (s : State) : (dropTurn s).ports = s.ports := rfl
@[simp] theorem dropTurn_env (s : State) : (dropTurn s).env = s.env := rfl
@[simp] theorem dropTurn_turns (s : State) : (dropTurn s).turns = s.turns.tail := rfl
@[simp] theorem dropTurn_beside (s : State) : (dropTurn s).beside = s.beside := rfl
@[simp] theorem dropTurn_result (s : State) : (dropTurn s).result = s.result := rfl

/-! ## `withBeside` -/

@[simp] theorem withBeside_hw (s : State) (b : Beside) : (withBeside s b).hw = s.hw := rfl
@[simp] theorem withBeside_bank0 (s : State) (b : Beside) : (withBeside s b).bank0 = s.bank0 := rfl
@[simp] theorem withBeside_bank1 (s : State) (b : Beside) : (withBeside s b).bank1 = s.bank1 := rfl
@[simp] theorem withBeside_qtab (s : State) (b : Beside) : (withBeside s b).qtab = s.qtab := rfl
@[simp] theorem withBeside_qtabValid (s : State) (b : Beside) : (withBeside s b).qtabValid = s.qtabValid := rfl
@[simp] theorem withBeside_wb (s : State) (b : Beside) : (withBeside s b).wb = s.wb := rfl
@[simp] theorem withBeside_sine (s : State) (b : Beside) : (withBeside s b).sine = s.sine := rfl
@[simp] theorem withBeside_rmLen (s : State) (b : Beside) : (withBeside s b).rmLen = s.rmLen := rfl
@[simp] theorem withBeside_rmAmp (s : State) (b : Beside) : (withBeside s b).rmAmp = s.rmAmp := rfl
@[simp] theorem withBeside_rmPhase (s : State) (b : Beside) : (withBeside s b).rmPhase = s.rmPhase := rfl
@[simp] theorem withBeside_rmValid (s : State) (b : Beside) : (withBeside s b).rmValid = s.rmValid := rfl
@[simp] theorem withBeside_rmSr (s : State) (b : Beside) : (withBeside s b).rmSr = s.rmSr := rfl
@[simp] theorem withBeside_rmFreq (s : State) (b : Beside) : (withBeside s b).rmFreq = s.rmFreq := rfl
@[simp] theorem withBeside_dl (s : State) (b : Beside) : (withBeside s b).dl = s.dl := rfl
@[simp] theorem withBeside_rvTap (s : State) (b : Beside) : (withBeside s b).rvTap = s.rvTap := rfl
@[simp] theorem withBeside_stage (s : State) (b : Beside) : (withBeside s b).stage = s.stage := rfl
@[simp] theorem withBeside_stageNew (s : State) (b : Beside) : (withBeside s b).stageNew = s.stageNew := rfl
@[simp] theorem withBeside_rb (s : State) (b : Beside) : (withBeside s b).rb = s.rb := rfl
@[simp] theorem withBeside_wrCur (s : State) (b : Beside) : (withBeside s b).wrCur = s.wrCur := rfl
@[simp] theorem withBeside_recEnd (s : State) (b : Beside) : (withBeside s b).recEnd = s.recEnd := rfl
@[simp] theorem withBeside_rdCur (s : State) (b : Beside) : (withBeside s b).rdCur = s.rdCur := rfl
@[simp] theorem withBeside_cfg (s : State) (b : Beside) : (withBeside s b).cfg = s.cfg := rfl
@[simp] theorem withBeside_act (s : State) (b : Beside) : (withBeside s b).act = s.act := rfl
@[simp] theorem withBeside_ctl (s : State) (b : Beside) : (withBeside s b).ctl = s.ctl := rfl
@[simp] theorem withBeside_ports (s : State) (b : Beside) : (withBeside s b).ports = s.ports := rfl
@[simp] theorem withBeside_env (s : State) (b : Beside) : (withBeside s b).env = s.env := rfl
@[simp] theorem withBeside_turns (s : State) (b : Beside) : (withBeside s b).turns = s.turns := rfl
@[simp] theorem withBeside_beside (s : State) (b : Beside) : (withBeside s b).beside = b := rfl
@[simp] theorem withBeside_result (s : State) (b : Beside) : (withBeside s b).result = s.result := rfl

/-! ## `withCfgValue` -/

@[simp] theorem withCfgValue_hw (s : State) (v : CfgValue) : (withCfgValue s v).hw = s.hw := rfl
@[simp] theorem withCfgValue_bank0 (s : State) (v : CfgValue) : (withCfgValue s v).bank0 = s.bank0 := rfl
@[simp] theorem withCfgValue_bank1 (s : State) (v : CfgValue) : (withCfgValue s v).bank1 = s.bank1 := rfl
@[simp] theorem withCfgValue_qtab (s : State) (v : CfgValue) : (withCfgValue s v).qtab = s.qtab := rfl
@[simp] theorem withCfgValue_qtabValid (s : State) (v : CfgValue) : (withCfgValue s v).qtabValid = s.qtabValid := rfl
@[simp] theorem withCfgValue_wb (s : State) (v : CfgValue) : (withCfgValue s v).wb = s.wb := rfl
@[simp] theorem withCfgValue_sine (s : State) (v : CfgValue) : (withCfgValue s v).sine = s.sine := rfl
@[simp] theorem withCfgValue_rmLen (s : State) (v : CfgValue) : (withCfgValue s v).rmLen = s.rmLen := rfl
@[simp] theorem withCfgValue_rmAmp (s : State) (v : CfgValue) : (withCfgValue s v).rmAmp = s.rmAmp := rfl
@[simp] theorem withCfgValue_rmPhase (s : State) (v : CfgValue) : (withCfgValue s v).rmPhase = s.rmPhase := rfl
@[simp] theorem withCfgValue_rmValid (s : State) (v : CfgValue) : (withCfgValue s v).rmValid = s.rmValid := rfl
@[simp] theorem withCfgValue_rmSr (s : State) (v : CfgValue) : (withCfgValue s v).rmSr = s.rmSr := rfl
@[simp] theorem withCfgValue_rmFreq (s : State) (v : CfgValue) : (withCfgValue s v).rmFreq = s.rmFreq := rfl
@[simp] theorem withCfgValue_dl (s : State) (v : CfgValue) : (withCfgValue s v).dl = s.dl := rfl
@[simp] theorem withCfgValue_rvTap (s : State) (v : CfgValue) : (withCfgValue s v).rvTap = s.rvTap := rfl
@[simp] theorem withCfgValue_stage (s : State) (v : CfgValue) : (withCfgValue s v).stage = s.stage := rfl
@[simp] theorem withCfgValue_stageNew (s : State) (v : CfgValue) : (withCfgValue s v).stageNew = s.stageNew := rfl
@[simp] theorem withCfgValue_rb (s : State) (v : CfgValue) : (withCfgValue s v).rb = s.rb := rfl
@[simp] theorem withCfgValue_wrCur (s : State) (v : CfgValue) : (withCfgValue s v).wrCur = s.wrCur := rfl
@[simp] theorem withCfgValue_recEnd (s : State) (v : CfgValue) : (withCfgValue s v).recEnd = s.recEnd := rfl
@[simp] theorem withCfgValue_rdCur (s : State) (v : CfgValue) : (withCfgValue s v).rdCur = s.rdCur := rfl
@[simp] theorem withCfgValue_cfg (s : State) (v : CfgValue) : (withCfgValue s v).cfg = s.cfg := rfl
@[simp] theorem withCfgValue_act (s : State) (v : CfgValue) : (withCfgValue s v).act = s.act := rfl
@[simp] theorem withCfgValue_ctl (s : State) (v : CfgValue) : (withCfgValue s v).ctl = s.ctl := rfl
@[simp] theorem withCfgValue_ports (s : State) (v : CfgValue) : (withCfgValue s v).ports = s.ports := rfl
@[simp] theorem withCfgValue_env (s : State) (v : CfgValue) : (withCfgValue s v).env = s.env := rfl
@[simp] theorem withCfgValue_turns (s : State) (v : CfgValue) : (withCfgValue s v).turns = s.turns := rfl
@[simp] theorem withCfgValue_beside (s : State) (v : CfgValue) :
    (withCfgValue s v).beside = { s.beside with cfgValue := v } := rfl
@[simp] theorem withCfgValue_result (s : State) (v : CfgValue) : (withCfgValue s v).result = s.result := rfl

/-! ## `scheduleWord` -/

@[simp] theorem scheduleWord_hw (s : State) (w : CmdWord) : (scheduleWord s w).hw = s.hw := rfl
@[simp] theorem scheduleWord_bank0 (s : State) (w : CmdWord) : (scheduleWord s w).bank0 = s.bank0 := rfl
@[simp] theorem scheduleWord_bank1 (s : State) (w : CmdWord) : (scheduleWord s w).bank1 = s.bank1 := rfl
@[simp] theorem scheduleWord_qtab (s : State) (w : CmdWord) : (scheduleWord s w).qtab = s.qtab := rfl
@[simp] theorem scheduleWord_qtabValid (s : State) (w : CmdWord) : (scheduleWord s w).qtabValid = s.qtabValid := rfl
@[simp] theorem scheduleWord_wb (s : State) (w : CmdWord) : (scheduleWord s w).wb = s.wb := rfl
@[simp] theorem scheduleWord_sine (s : State) (w : CmdWord) : (scheduleWord s w).sine = s.sine := rfl
@[simp] theorem scheduleWord_rmLen (s : State) (w : CmdWord) : (scheduleWord s w).rmLen = s.rmLen := rfl
@[simp] theorem scheduleWord_rmAmp (s : State) (w : CmdWord) : (scheduleWord s w).rmAmp = s.rmAmp := rfl
@[simp] theorem scheduleWord_rmPhase (s : State) (w : CmdWord) : (scheduleWord s w).rmPhase = s.rmPhase := rfl
@[simp] theorem scheduleWord_rmValid (s : State) (w : CmdWord) : (scheduleWord s w).rmValid = s.rmValid := rfl
@[simp] theorem scheduleWord_rmSr (s : State) (w : CmdWord) : (scheduleWord s w).rmSr = s.rmSr := rfl
@[simp] theorem scheduleWord_rmFreq (s : State) (w : CmdWord) : (scheduleWord s w).rmFreq = s.rmFreq := rfl
@[simp] theorem scheduleWord_dl (s : State) (w : CmdWord) : (scheduleWord s w).dl = s.dl := rfl
@[simp] theorem scheduleWord_rvTap (s : State) (w : CmdWord) : (scheduleWord s w).rvTap = s.rvTap := rfl
@[simp] theorem scheduleWord_stage (s : State) (w : CmdWord) : (scheduleWord s w).stage = s.stage := rfl
@[simp] theorem scheduleWord_stageNew (s : State) (w : CmdWord) : (scheduleWord s w).stageNew = s.stageNew := rfl
@[simp] theorem scheduleWord_rb (s : State) (w : CmdWord) : (scheduleWord s w).rb = s.rb := rfl
@[simp] theorem scheduleWord_wrCur (s : State) (w : CmdWord) : (scheduleWord s w).wrCur = s.wrCur := rfl
@[simp] theorem scheduleWord_recEnd (s : State) (w : CmdWord) : (scheduleWord s w).recEnd = s.recEnd := rfl
@[simp] theorem scheduleWord_rdCur (s : State) (w : CmdWord) : (scheduleWord s w).rdCur = s.rdCur := rfl
@[simp] theorem scheduleWord_cfg (s : State) (w : CmdWord) : (scheduleWord s w).cfg = s.cfg := rfl
@[simp] theorem scheduleWord_act (s : State) (w : CmdWord) : (scheduleWord s w).act = s.act := rfl
@[simp] theorem scheduleWord_ctl (s : State) (w : CmdWord) : (scheduleWord s w).ctl = s.ctl := rfl
@[simp] theorem scheduleWord_ports (s : State) (w : CmdWord) : (scheduleWord s w).ports = s.ports := rfl
@[simp] theorem scheduleWord_env (s : State) (w : CmdWord) : (scheduleWord s w).env = s.env := rfl
@[simp] theorem scheduleWord_turns (s : State) (w : CmdWord) :
    (scheduleWord s w).turns = .drive w s.beside :: s.turns := rfl
@[simp] theorem scheduleWord_beside (s : State) (w : CmdWord) : (scheduleWord s w).beside = s.beside := rfl
@[simp] theorem scheduleWord_result (s : State) (w : CmdWord) : (scheduleWord s w).result = s.result := rfl

/-! ## `cascadeSwap` -/

@[simp] theorem cascadeSwap_hw (s : State) : (cascadeSwap s).hw = s.hw := rfl
@[simp] theorem cascadeSwap_bank0 (s : State) : (cascadeSwap s).bank0 = s.bank0 := rfl
@[simp] theorem cascadeSwap_bank1 (s : State) : (cascadeSwap s).bank1 = s.bank1 := rfl
@[simp] theorem cascadeSwap_qtab (s : State) : (cascadeSwap s).qtab = s.qtab := rfl
@[simp] theorem cascadeSwap_qtabValid (s : State) : (cascadeSwap s).qtabValid = s.qtabValid := rfl
@[simp] theorem cascadeSwap_wb (s : State) : (cascadeSwap s).wb = s.wb := rfl
@[simp] theorem cascadeSwap_sine (s : State) : (cascadeSwap s).sine = s.sine := rfl
@[simp] theorem cascadeSwap_rmLen (s : State) : (cascadeSwap s).rmLen = s.rmLen := rfl
@[simp] theorem cascadeSwap_rmAmp (s : State) : (cascadeSwap s).rmAmp = s.rmAmp := rfl
@[simp] theorem cascadeSwap_rmPhase (s : State) : (cascadeSwap s).rmPhase = s.rmPhase := rfl
@[simp] theorem cascadeSwap_rmValid (s : State) : (cascadeSwap s).rmValid = s.rmValid := rfl
@[simp] theorem cascadeSwap_rmSr (s : State) : (cascadeSwap s).rmSr = s.rmSr := rfl
@[simp] theorem cascadeSwap_rmFreq (s : State) : (cascadeSwap s).rmFreq = s.rmFreq := rfl
@[simp] theorem cascadeSwap_dl (s : State) : (cascadeSwap s).dl = s.dl := rfl
@[simp] theorem cascadeSwap_rvTap (s : State) : (cascadeSwap s).rvTap = s.rvTap := rfl
@[simp] theorem cascadeSwap_stage (s : State) : (cascadeSwap s).stage = s.stage := rfl
@[simp] theorem cascadeSwap_stageNew (s : State) : (cascadeSwap s).stageNew = s.stageNew := rfl
@[simp] theorem cascadeSwap_rb (s : State) : (cascadeSwap s).rb = s.rb := rfl
@[simp] theorem cascadeSwap_wrCur (s : State) : (cascadeSwap s).wrCur = s.wrCur := rfl
@[simp] theorem cascadeSwap_recEnd (s : State) : (cascadeSwap s).recEnd = s.recEnd := rfl
@[simp] theorem cascadeSwap_rdCur (s : State) : (cascadeSwap s).rdCur = s.rdCur := rfl
@[simp] theorem cascadeSwap_cfg (s : State) : (cascadeSwap s).cfg = s.cfg := rfl
@[simp] theorem cascadeSwap_act (s : State) : (cascadeSwap s).act = s.act := rfl
@[simp] theorem cascadeSwap_ctl (s : State) : (cascadeSwap s).ctl = { s.ctl with bank := !s.ctl.bank } := rfl
@[simp] theorem cascadeSwap_ports (s : State) : (cascadeSwap s).ports = s.ports := rfl
@[simp] theorem cascadeSwap_env (s : State) : (cascadeSwap s).env = s.env := rfl
@[simp] theorem cascadeSwap_turns (s : State) : (cascadeSwap s).turns = s.turns := rfl
@[simp] theorem cascadeSwap_beside (s : State) : (cascadeSwap s).beside = s.beside := rfl
@[simp] theorem cascadeSwap_result (s : State) : (cascadeSwap s).result = s.result := rfl

/-! ## `qtabInit` -/

@[simp] theorem qtabInit_hw (s : State) : (qtabInit s).hw = s.hw := rfl
@[simp] theorem qtabInit_bank0 (s : State) : (qtabInit s).bank0 = s.bank0 := rfl
@[simp] theorem qtabInit_bank1 (s : State) : (qtabInit s).bank1 = s.bank1 := rfl
@[simp] theorem qtabInit_qtab (s : State) : (qtabInit s).qtab = qvalTable (floatFmt s) := rfl
@[simp] theorem qtabInit_qtabValid (s : State) : (qtabInit s).qtabValid = true := rfl
@[simp] theorem qtabInit_wb (s : State) : (qtabInit s).wb = s.wb := rfl
@[simp] theorem qtabInit_sine (s : State) : (qtabInit s).sine = s.sine := rfl
@[simp] theorem qtabInit_rmLen (s : State) : (qtabInit s).rmLen = s.rmLen := rfl
@[simp] theorem qtabInit_rmAmp (s : State) : (qtabInit s).rmAmp = s.rmAmp := rfl
@[simp] theorem qtabInit_rmPhase (s : State) : (qtabInit s).rmPhase = s.rmPhase := rfl
@[simp] theorem qtabInit_rmValid (s : State) : (qtabInit s).rmValid = s.rmValid := rfl
@[simp] theorem qtabInit_rmSr (s : State) : (qtabInit s).rmSr = s.rmSr := rfl
@[simp] theorem qtabInit_rmFreq (s : State) : (qtabInit s).rmFreq = s.rmFreq := rfl
@[simp] theorem qtabInit_dl (s : State) : (qtabInit s).dl = s.dl := rfl
@[simp] theorem qtabInit_rvTap (s : State) : (qtabInit s).rvTap = s.rvTap := rfl
@[simp] theorem qtabInit_stage (s : State) : (qtabInit s).stage = s.stage := rfl
@[simp] theorem qtabInit_stageNew (s : State) : (qtabInit s).stageNew = s.stageNew := rfl
@[simp] theorem qtabInit_rb (s : State) : (qtabInit s).rb = s.rb := rfl
@[simp] theorem qtabInit_wrCur (s : State) : (qtabInit s).wrCur = s.wrCur := rfl
@[simp] theorem qtabInit_recEnd (s : State) : (qtabInit s).recEnd = s.recEnd := rfl
@[simp] theorem qtabInit_rdCur (s : State) : (qtabInit s).rdCur = s.rdCur := rfl
@[simp] theorem qtabInit_cfg (s : State) : (qtabInit s).cfg = s.cfg := rfl
@[simp] theorem qtabInit_act (s : State) : (qtabInit s).act = s.act := rfl
@[simp] theorem qtabInit_ctl (s : State) : (qtabInit s).ctl = s.ctl := rfl
@[simp] theorem qtabInit_ports (s : State) : (qtabInit s).ports = s.ports := rfl
@[simp] theorem qtabInit_env (s : State) : (qtabInit s).env = s.env := rfl
@[simp] theorem qtabInit_turns (s : State) : (qtabInit s).turns = s.turns := rfl
@[simp] theorem qtabInit_beside (s : State) : (qtabInit s).beside = s.beside := rfl
@[simp] theorem qtabInit_result (s : State) : (qtabInit s).result = s.result := rfl

/-! ## `volBlock` -/

@[simp] theorem volBlock_hw (s : State) : (volBlock s).hw = s.hw := rfl
@[simp] theorem volBlock_bank0 (s : State) : (volBlock s).bank0 = s.bank0 := rfl
@[simp] theorem volBlock_bank1 (s : State) : (volBlock s).bank1 = s.bank1 := rfl
@[simp] theorem volBlock_qtab (s : State) : (volBlock s).qtab = s.qtab := rfl
@[simp] theorem volBlock_qtabValid (s : State) : (volBlock s).qtabValid = s.qtabValid := rfl
@[simp] theorem volBlock_wb (s : State) : (volBlock s).wb = s.wb.map (volSample s.act.volFactor.toInt) := rfl
@[simp] theorem volBlock_sine (s : State) : (volBlock s).sine = s.sine := rfl
@[simp] theorem volBlock_rmLen (s : State) : (volBlock s).rmLen = s.rmLen := rfl
@[simp] theorem volBlock_rmAmp (s : State) : (volBlock s).rmAmp = s.rmAmp := rfl
@[simp] theorem volBlock_rmPhase (s : State) : (volBlock s).rmPhase = s.rmPhase := rfl
@[simp] theorem volBlock_rmValid (s : State) : (volBlock s).rmValid = s.rmValid := rfl
@[simp] theorem volBlock_rmSr (s : State) : (volBlock s).rmSr = s.rmSr := rfl
@[simp] theorem volBlock_rmFreq (s : State) : (volBlock s).rmFreq = s.rmFreq := rfl
@[simp] theorem volBlock_dl (s : State) : (volBlock s).dl = s.dl := rfl
@[simp] theorem volBlock_rvTap (s : State) : (volBlock s).rvTap = s.rvTap := rfl
@[simp] theorem volBlock_stage (s : State) : (volBlock s).stage = s.stage := rfl
@[simp] theorem volBlock_stageNew (s : State) : (volBlock s).stageNew = s.stageNew := rfl
@[simp] theorem volBlock_rb (s : State) : (volBlock s).rb = s.rb := rfl
@[simp] theorem volBlock_wrCur (s : State) : (volBlock s).wrCur = s.wrCur := rfl
@[simp] theorem volBlock_recEnd (s : State) : (volBlock s).recEnd = s.recEnd := rfl
@[simp] theorem volBlock_rdCur (s : State) : (volBlock s).rdCur = s.rdCur := rfl
@[simp] theorem volBlock_cfg (s : State) : (volBlock s).cfg = s.cfg := rfl
@[simp] theorem volBlock_act (s : State) : (volBlock s).act = s.act := rfl
@[simp] theorem volBlock_ctl (s : State) : (volBlock s).ctl = s.ctl := rfl
@[simp] theorem volBlock_ports (s : State) : (volBlock s).ports = s.ports := rfl
@[simp] theorem volBlock_env (s : State) : (volBlock s).env = s.env := rfl
@[simp] theorem volBlock_turns (s : State) : (volBlock s).turns = s.turns := rfl
@[simp] theorem volBlock_beside (s : State) : (volBlock s).beside = s.beside := rfl
@[simp] theorem volBlock_result (s : State) : (volBlock s).result = s.result := rfl

/-! ## `clipBlock` -/

@[simp] theorem clipBlock_hw (s : State) : (clipBlock s).hw = s.hw := rfl
@[simp] theorem clipBlock_bank0 (s : State) : (clipBlock s).bank0 = s.bank0 := rfl
@[simp] theorem clipBlock_bank1 (s : State) : (clipBlock s).bank1 = s.bank1 := rfl
@[simp] theorem clipBlock_qtab (s : State) : (clipBlock s).qtab = s.qtab := rfl
@[simp] theorem clipBlock_qtabValid (s : State) : (clipBlock s).qtabValid = s.qtabValid := rfl
@[simp] theorem clipBlock_wb (s : State) :
    (clipBlock s).wb = s.wb.map (clipSample (floatFmt s) s.act.clipFactor) := rfl
@[simp] theorem clipBlock_sine (s : State) : (clipBlock s).sine = s.sine := rfl
@[simp] theorem clipBlock_rmLen (s : State) : (clipBlock s).rmLen = s.rmLen := rfl
@[simp] theorem clipBlock_rmAmp (s : State) : (clipBlock s).rmAmp = s.rmAmp := rfl
@[simp] theorem clipBlock_rmPhase (s : State) : (clipBlock s).rmPhase = s.rmPhase := rfl
@[simp] theorem clipBlock_rmValid (s : State) : (clipBlock s).rmValid = s.rmValid := rfl
@[simp] theorem clipBlock_rmSr (s : State) : (clipBlock s).rmSr = s.rmSr := rfl
@[simp] theorem clipBlock_rmFreq (s : State) : (clipBlock s).rmFreq = s.rmFreq := rfl
@[simp] theorem clipBlock_dl (s : State) : (clipBlock s).dl = s.dl := rfl
@[simp] theorem clipBlock_rvTap (s : State) : (clipBlock s).rvTap = s.rvTap := rfl
@[simp] theorem clipBlock_stage (s : State) : (clipBlock s).stage = s.stage := rfl
@[simp] theorem clipBlock_stageNew (s : State) : (clipBlock s).stageNew = s.stageNew := rfl
@[simp] theorem clipBlock_rb (s : State) : (clipBlock s).rb = s.rb := rfl
@[simp] theorem clipBlock_wrCur (s : State) : (clipBlock s).wrCur = s.wrCur := rfl
@[simp] theorem clipBlock_recEnd (s : State) : (clipBlock s).recEnd = s.recEnd := rfl
@[simp] theorem clipBlock_rdCur (s : State) : (clipBlock s).rdCur = s.rdCur := rfl
@[simp] theorem clipBlock_cfg (s : State) : (clipBlock s).cfg = s.cfg := rfl
@[simp] theorem clipBlock_act (s : State) : (clipBlock s).act = s.act := rfl
@[simp] theorem clipBlock_ctl (s : State) : (clipBlock s).ctl = s.ctl := rfl
@[simp] theorem clipBlock_ports (s : State) : (clipBlock s).ports = s.ports := rfl
@[simp] theorem clipBlock_env (s : State) : (clipBlock s).env = s.env := rfl
@[simp] theorem clipBlock_turns (s : State) : (clipBlock s).turns = s.turns := rfl
@[simp] theorem clipBlock_beside (s : State) : (clipBlock s).beside = s.beside := rfl
@[simp] theorem clipBlock_result (s : State) : (clipBlock s).result = s.result := rfl

/-! ## `normIn` -/

@[simp] theorem normIn_hw (h : List HwSample) (s : State) : (normIn h s).hw = s.hw := rfl
@[simp] theorem normIn_bank0 (h : List HwSample) (s : State) : (normIn h s).bank0 = s.bank0 := rfl
@[simp] theorem normIn_bank1 (h : List HwSample) (s : State) : (normIn h s).bank1 = s.bank1 := rfl
@[simp] theorem normIn_qtab (h : List HwSample) (s : State) : (normIn h s).qtab = s.qtab := rfl
@[simp] theorem normIn_qtabValid (h : List HwSample) (s : State) : (normIn h s).qtabValid = s.qtabValid := rfl
@[simp] theorem normIn_wb (h : List HwSample) (s : State) : (normIn h s).wb = h.map (normSample s.hw.hwWidth) := rfl
@[simp] theorem normIn_sine (h : List HwSample) (s : State) : (normIn h s).sine = s.sine := rfl
@[simp] theorem normIn_rmLen (h : List HwSample) (s : State) : (normIn h s).rmLen = s.rmLen := rfl
@[simp] theorem normIn_rmAmp (h : List HwSample) (s : State) : (normIn h s).rmAmp = s.rmAmp := rfl
@[simp] theorem normIn_rmPhase (h : List HwSample) (s : State) : (normIn h s).rmPhase = s.rmPhase := rfl
@[simp] theorem normIn_rmValid (h : List HwSample) (s : State) : (normIn h s).rmValid = s.rmValid := rfl
@[simp] theorem normIn_rmSr (h : List HwSample) (s : State) : (normIn h s).rmSr = s.rmSr := rfl
@[simp] theorem normIn_rmFreq (h : List HwSample) (s : State) : (normIn h s).rmFreq = s.rmFreq := rfl
@[simp] theorem normIn_dl (h : List HwSample) (s : State) : (normIn h s).dl = s.dl := rfl
@[simp] theorem normIn_rvTap (h : List HwSample) (s : State) : (normIn h s).rvTap = s.rvTap := rfl
@[simp] theorem normIn_stage (h : List HwSample) (s : State) : (normIn h s).stage = s.stage := rfl
@[simp] theorem normIn_stageNew (h : List HwSample) (s : State) : (normIn h s).stageNew = s.stageNew := rfl
@[simp] theorem normIn_rb (h : List HwSample) (s : State) : (normIn h s).rb = s.rb := rfl
@[simp] theorem normIn_wrCur (h : List HwSample) (s : State) : (normIn h s).wrCur = s.wrCur := rfl
@[simp] theorem normIn_recEnd (h : List HwSample) (s : State) : (normIn h s).recEnd = s.recEnd := rfl
@[simp] theorem normIn_rdCur (h : List HwSample) (s : State) : (normIn h s).rdCur = s.rdCur := rfl
@[simp] theorem normIn_cfg (h : List HwSample) (s : State) : (normIn h s).cfg = s.cfg := rfl
@[simp] theorem normIn_act (h : List HwSample) (s : State) : (normIn h s).act = s.act := rfl
@[simp] theorem normIn_ctl (h : List HwSample) (s : State) : (normIn h s).ctl = s.ctl := rfl
@[simp] theorem normIn_ports (h : List HwSample) (s : State) : (normIn h s).ports = s.ports := rfl
@[simp] theorem normIn_env (h : List HwSample) (s : State) : (normIn h s).env = s.env := rfl
@[simp] theorem normIn_turns (h : List HwSample) (s : State) : (normIn h s).turns = s.turns := rfl
@[simp] theorem normIn_beside (h : List HwSample) (s : State) : (normIn h s).beside = s.beside := rfl
@[simp] theorem normIn_result (h : List HwSample) (s : State) : (normIn h s).result = s.result := rfl

/-! ## `rvClear` -/

@[simp] theorem rvClear_hw (s : State) : (rvClear s).hw = s.hw := rfl
@[simp] theorem rvClear_bank0 (s : State) : (rvClear s).bank0 = s.bank0 := rfl
@[simp] theorem rvClear_bank1 (s : State) : (rvClear s).bank1 = s.bank1 := rfl
@[simp] theorem rvClear_qtab (s : State) : (rvClear s).qtab = s.qtab := rfl
@[simp] theorem rvClear_qtabValid (s : State) : (rvClear s).qtabValid = s.qtabValid := rfl
@[simp] theorem rvClear_wb (s : State) : (rvClear s).wb = s.wb := rfl
@[simp] theorem rvClear_sine (s : State) : (rvClear s).sine = s.sine := rfl
@[simp] theorem rvClear_rmLen (s : State) : (rvClear s).rmLen = s.rmLen := rfl
@[simp] theorem rvClear_rmAmp (s : State) : (rvClear s).rmAmp = s.rmAmp := rfl
@[simp] theorem rvClear_rmPhase (s : State) : (rvClear s).rmPhase = s.rmPhase := rfl
@[simp] theorem rvClear_rmValid (s : State) : (rvClear s).rmValid = s.rmValid := rfl
@[simp] theorem rvClear_rmSr (s : State) : (rvClear s).rmSr = s.rmSr := rfl
@[simp] theorem rvClear_rmFreq (s : State) : (rvClear s).rmFreq = s.rmFreq := rfl
@[simp] theorem rvClear_dl (s : State) : (rvClear s).dl = List.replicate s.hw.reverbLen 0 := rfl
@[simp] theorem rvClear_rvTap (s : State) : (rvClear s).rvTap = 0 := rfl
@[simp] theorem rvClear_stage (s : State) : (rvClear s).stage = s.stage := rfl
@[simp] theorem rvClear_stageNew (s : State) : (rvClear s).stageNew = s.stageNew := rfl
@[simp] theorem rvClear_rb (s : State) : (rvClear s).rb = s.rb := rfl
@[simp] theorem rvClear_wrCur (s : State) : (rvClear s).wrCur = s.wrCur := rfl
@[simp] theorem rvClear_recEnd (s : State) : (rvClear s).recEnd = s.recEnd := rfl
@[simp] theorem rvClear_rdCur (s : State) : (rvClear s).rdCur = s.rdCur := rfl
@[simp] theorem rvClear_cfg (s : State) : (rvClear s).cfg = s.cfg := rfl
@[simp] theorem rvClear_act (s : State) : (rvClear s).act = s.act := rfl
@[simp] theorem rvClear_ctl (s : State) : (rvClear s).ctl = s.ctl := rfl
@[simp] theorem rvClear_ports (s : State) : (rvClear s).ports = s.ports := rfl
@[simp] theorem rvClear_env (s : State) : (rvClear s).env = s.env := rfl
@[simp] theorem rvClear_turns (s : State) : (rvClear s).turns = s.turns := rfl
@[simp] theorem rvClear_beside (s : State) : (rvClear s).beside = s.beside := rfl
@[simp] theorem rvClear_result (s : State) : (rvClear s).result = s.result := rfl

/-! ## `rvBlock` -/

@[simp] theorem rvBlock_hw (s : State) : (rvBlock s).hw = s.hw := rfl
@[simp] theorem rvBlock_bank0 (s : State) : (rvBlock s).bank0 = s.bank0 := rfl
@[simp] theorem rvBlock_bank1 (s : State) : (rvBlock s).bank1 = s.bank1 := rfl
@[simp] theorem rvBlock_qtab (s : State) : (rvBlock s).qtab = s.qtab := rfl
@[simp] theorem rvBlock_qtabValid (s : State) : (rvBlock s).qtabValid = s.qtabValid := rfl
@[simp] theorem rvBlock_wb (s : State) :
    (rvBlock s).wb = (rvLoop (decayDivisor s.act) s.hw.reverbLen s.dl s.rvTap s.wb).1 := rfl
@[simp] theorem rvBlock_sine (s : State) : (rvBlock s).sine = s.sine := rfl
@[simp] theorem rvBlock_rmLen (s : State) : (rvBlock s).rmLen = s.rmLen := rfl
@[simp] theorem rvBlock_rmAmp (s : State) : (rvBlock s).rmAmp = s.rmAmp := rfl
@[simp] theorem rvBlock_rmPhase (s : State) : (rvBlock s).rmPhase = s.rmPhase := rfl
@[simp] theorem rvBlock_rmValid (s : State) : (rvBlock s).rmValid = s.rmValid := rfl
@[simp] theorem rvBlock_rmSr (s : State) : (rvBlock s).rmSr = s.rmSr := rfl
@[simp] theorem rvBlock_rmFreq (s : State) : (rvBlock s).rmFreq = s.rmFreq := rfl
@[simp] theorem rvBlock_dl (s : State) :
    (rvBlock s).dl = (rvLoop (decayDivisor s.act) s.hw.reverbLen s.dl s.rvTap s.wb).2.1 := rfl
@[simp] theorem rvBlock_rvTap (s : State) :
    (rvBlock s).rvTap = (rvLoop (decayDivisor s.act) s.hw.reverbLen s.dl s.rvTap s.wb).2.2 := rfl
@[simp] theorem rvBlock_stage (s : State) : (rvBlock s).stage = s.stage := rfl
@[simp] theorem rvBlock_stageNew (s : State) : (rvBlock s).stageNew = s.stageNew := rfl
@[simp] theorem rvBlock_rb (s : State) : (rvBlock s).rb = s.rb := rfl
@[simp] theorem rvBlock_wrCur (s : State) : (rvBlock s).wrCur = s.wrCur := rfl
@[simp] theorem rvBlock_recEnd (s : State) : (rvBlock s).recEnd = s.recEnd := rfl
@[simp] theorem rvBlock_rdCur (s : State) : (rvBlock s).rdCur = s.rdCur := rfl
@[simp] theorem rvBlock_cfg (s : State) : (rvBlock s).cfg = s.cfg := rfl
@[simp] theorem rvBlock_act (s : State) : (rvBlock s).act = s.act := rfl
@[simp] theorem rvBlock_ctl (s : State) : (rvBlock s).ctl = s.ctl := rfl
@[simp] theorem rvBlock_ports (s : State) : (rvBlock s).ports = s.ports := rfl
@[simp] theorem rvBlock_env (s : State) : (rvBlock s).env = s.env := rfl
@[simp] theorem rvBlock_turns (s : State) : (rvBlock s).turns = s.turns := rfl
@[simp] theorem rvBlock_beside (s : State) : (rvBlock s).beside = s.beside := rfl
@[simp] theorem rvBlock_result (s : State) : (rvBlock s).result = s.result := rfl

/-! ## `pvInit` -/

@[simp] theorem pvInit_hw (s : State) : (pvInit s).hw = s.hw := rfl
@[simp] theorem pvInit_bank0 (s : State) : (pvInit s).bank0 = s.bank0 := rfl
@[simp] theorem pvInit_bank1 (s : State) : (pvInit s).bank1 = s.bank1 := rfl
@[simp] theorem pvInit_qtab (s : State) : (pvInit s).qtab = s.qtab := rfl
@[simp] theorem pvInit_qtabValid (s : State) : (pvInit s).qtabValid = s.qtabValid := rfl
@[simp] theorem pvInit_wb (s : State) : (pvInit s).wb = s.wb := rfl
@[simp] theorem pvInit_sine (s : State) : (pvInit s).sine = s.sine := rfl
@[simp] theorem pvInit_rmLen (s : State) : (pvInit s).rmLen = s.rmLen := rfl
@[simp] theorem pvInit_rmAmp (s : State) : (pvInit s).rmAmp = s.rmAmp := rfl
@[simp] theorem pvInit_rmPhase (s : State) : (pvInit s).rmPhase = s.rmPhase := rfl
@[simp] theorem pvInit_rmValid (s : State) : (pvInit s).rmValid = s.rmValid := rfl
@[simp] theorem pvInit_rmSr (s : State) : (pvInit s).rmSr = s.rmSr := rfl
@[simp] theorem pvInit_rmFreq (s : State) : (pvInit s).rmFreq = s.rmFreq := rfl
@[simp] theorem pvInit_dl (s : State) : (pvInit s).dl = s.dl := rfl
@[simp] theorem pvInit_rvTap (s : State) : (pvInit s).rvTap = s.rvTap := rfl
@[simp] theorem pvInit_stage (s : State) : (pvInit s).stage = s.stage := rfl
@[simp] theorem pvInit_stageNew (s : State) : (pvInit s).stageNew = s.stageNew := rfl
@[simp] theorem pvInit_rb (s : State) : (pvInit s).rb = s.rb := rfl
@[simp] theorem pvInit_wrCur (s : State) : (pvInit s).wrCur = s.wrCur := rfl
@[simp] theorem pvInit_recEnd (s : State) : (pvInit s).recEnd = s.recEnd := rfl
@[simp] theorem pvInit_rdCur (s : State) : (pvInit s).rdCur = s.rdCur := rfl
@[simp] theorem pvInit_cfg (s : State) : (pvInit s).cfg = s.cfg := rfl
@[simp] theorem pvInit_act (s : State) : (pvInit s).act = s.act := rfl
@[simp] theorem pvInit_ctl (s : State) : (pvInit s).ctl = s.ctl := rfl
@[simp] theorem pvInit_ports (s : State) :
    (pvInit s).ports = { s.ports with pv := s.ports.pv ++ [.init s.act.sampleRate s.act.pitchRatio] } := rfl
@[simp] theorem pvInit_env (s : State) : (pvInit s).env = s.env := rfl
@[simp] theorem pvInit_turns (s : State) : (pvInit s).turns = s.turns := rfl
@[simp] theorem pvInit_beside (s : State) : (pvInit s).beside = s.beside := rfl
@[simp] theorem pvInit_result (s : State) : (pvInit s).result = s.result := rfl

/-! ## `setActiveCascade` -/

@[simp] theorem setActiveCascade_hw (s : State) (b : Band) (c : Cascade) : (setActiveCascade s b c).hw = s.hw := by
  unfold setActiveCascade; split <;> rfl
@[simp] theorem setActiveCascade_qtab (s : State) (b : Band) (c : Cascade) : (setActiveCascade s b c).qtab = s.qtab := by
  unfold setActiveCascade; split <;> rfl
@[simp] theorem setActiveCascade_qtabValid (s : State) (b : Band) (c : Cascade) : (setActiveCascade s b c).qtabValid = s.qtabValid := by
  unfold setActiveCascade; split <;> rfl
@[simp] theorem setActiveCascade_wb (s : State) (b : Band) (c : Cascade) : (setActiveCascade s b c).wb = s.wb := by
  unfold setActiveCascade; split <;> rfl
@[simp] theorem setActiveCascade_sine (s : State) (b : Band) (c : Cascade) : (setActiveCascade s b c).sine = s.sine := by
  unfold setActiveCascade; split <;> rfl
@[simp] theorem setActiveCascade_rmLen (s : State) (b : Band) (c : Cascade) : (setActiveCascade s b c).rmLen = s.rmLen := by
  unfold setActiveCascade; split <;> rfl
@[simp] theorem setActiveCascade_rmAmp (s : State) (b : Band) (c : Cascade) : (setActiveCascade s b c).rmAmp = s.rmAmp := by
  unfold setActiveCascade; split <;> rfl
@[simp] theorem setActiveCascade_rmPhase (s : State) (b : Band) (c : Cascade) : (setActiveCascade s b c).rmPhase = s.rmPhase := by
  unfold setActiveCascade; split <;> rfl
@[simp] theorem setActiveCascade_rmValid (s : State) (b : Band) (c : Cascade) : (setActiveCascade s b c).rmValid = s.rmValid := by
  unfold setActiveCascade; split <;> rfl
@[simp] theorem setActiveCascade_rmSr (s : State) (b : Band) (c : Cascade) : (setActiveCascade s b c).rmSr = s.rmSr := by
  unfold setActiveCascade; split <;> rfl
@[simp] theorem setActiveCascade_rmFreq (s : State) (b : Band) (c : Cascade) : (setActiveCascade s b c).rmFreq = s.rmFreq := by
  unfold setActiveCascade; split <;> rfl
@[simp] theorem setActiveCascade_dl (s : State) (b : Band) (c : Cascade) : (setActiveCascade s b c).dl = s.dl := by
  unfold setActiveCascade; split <;> rfl
@[simp] theorem setActiveCascade_rvTap (s : State) (b : Band) (c : Cascade) : (setActiveCascade s b c).rvTap = s.rvTap := by
  unfold setActiveCascade; split <;> rfl
@[simp] theorem setActiveCascade_stage (s : State) (b : Band) (c : Cascade) : (setActiveCascade s b c).stage = s.stage := by
  unfold setActiveCascade; split <;> rfl
@[simp] theorem setActiveCascade_stageNew (s : State) (b : Band) (c : Cascade) : (setActiveCascade s b c).stageNew = s.stageNew := by
  unfold setActiveCascade; split <;> rfl
@[simp] theorem setActiveCascade_rb (s : State) (b : Band) (c : Cascade) : (setActiveCascade s b c).rb = s.rb := by
  unfold setActiveCascade; split <;> rfl
@[simp] theorem setActiveCascade_wrCur (s : State) (b : Band) (c : Cascade) : (setActiveCascade s b c).wrCur = s.wrCur := by
  unfold setActiveCascade; split <;> rfl
@[simp] theorem setActiveCascade_recEnd (s : State) (b : Band) (c : Cascade) : (setActiveCascade s b c).recEnd = s.recEnd := by
  unfold setActiveCascade; split <;> rfl
@[simp] theorem setActiveCascade_rdCur (s : State) (b : Band) (c : Cascade) : (setActiveCascade s b c).rdCur = s.rdCur := by
  unfold setActiveCascade; split <;> rfl
@[simp] theorem setActiveCascade_cfg (s : State) (b : Band) (c : Cascade) : (setActiveCascade s b c).cfg = s.cfg := by
  unfold setActiveCascade; split <;> rfl
@[simp] theorem setActiveCascade_act (s : State) (b : Band) (c : Cascade) : (setActiveCascade s b c).act = s.act := by
  unfold setActiveCascade; split <;> rfl
@[simp] theorem setActiveCascade_ctl (s : State) (b : Band) (c : Cascade) : (setActiveCascade s b c).ctl = s.ctl := by
  unfold setActiveCascade; split <;> rfl
@[simp] theorem setActiveCascade_ports (s : State) (b : Band) (c : Cascade) : (setActiveCascade s b c).ports = s.ports := by
  unfold setActiveCascade; split <;> rfl
@[simp] theorem setActiveCascade_env (s : State) (b : Band) (c : Cascade) : (setActiveCascade s b c).env = s.env := by
  unfold setActiveCascade; split <;> rfl
@[simp] theorem setActiveCascade_turns (s : State) (b : Band) (c : Cascade) : (setActiveCascade s b c).turns = s.turns := by
  unfold setActiveCascade; split <;> rfl
@[simp] theorem setActiveCascade_beside (s : State) (b : Band) (c : Cascade) : (setActiveCascade s b c).beside = s.beside := by
  unfold setActiveCascade; split <;> rfl
@[simp] theorem setActiveCascade_result (s : State) (b : Band) (c : Cascade) : (setActiveCascade s b c).result = s.result := by
  unfold setActiveCascade; split <;> rfl

/-! ## `setShadowCascade` -/

@[simp] theorem setShadowCascade_hw (s : State) (b : Band) (c : Cascade) : (setShadowCascade s b c).hw = s.hw := by
  unfold setShadowCascade; split <;> rfl
@[simp] theorem setShadowCascade_qtab (s : State) (b : Band) (c : Cascade) : (setShadowCascade s b c).qtab = s.qtab := by
  unfold setShadowCascade; split <;> rfl
@[simp] theorem setShadowCascade_qtabValid (s : State) (b : Band) (c : Cascade) : (setShadowCascade s b c).qtabValid = s.qtabValid := by
  unfold setShadowCascade; split <;> rfl
@[simp] theorem setShadowCascade_wb (s : State) (b : Band) (c : Cascade) : (setShadowCascade s b c).wb = s.wb := by
  unfold setShadowCascade; split <;> rfl
@[simp] theorem setShadowCascade_sine (s : State) (b : Band) (c : Cascade) : (setShadowCascade s b c).sine = s.sine := by
  unfold setShadowCascade; split <;> rfl
@[simp] theorem setShadowCascade_rmLen (s : State) (b : Band) (c : Cascade) : (setShadowCascade s b c).rmLen = s.rmLen := by
  unfold setShadowCascade; split <;> rfl
@[simp] theorem setShadowCascade_rmAmp (s : State) (b : Band) (c : Cascade) : (setShadowCascade s b c).rmAmp = s.rmAmp := by
  unfold setShadowCascade; split <;> rfl
@[simp] theorem setShadowCascade_rmPhase (s : State) (b : Band) (c : Cascade) : (setShadowCascade s b c).rmPhase = s.rmPhase := by
  unfold setShadowCascade; split <;> rfl
@[simp] theorem setShadowCascade_rmValid (s : State) (b : Band) (c : Cascade) : (setShadowCascade s b c).rmValid = s.rmValid := by
  unfold setShadowCascade; split <;> rfl
@[simp] theorem setShadowCascade_rmSr (s : State) (b : Band) (c : Cascade) : (setShadowCascade s b c).rmSr = s.rmSr := by
  unfold setShadowCascade; split <;> rfl
@[simp] theorem setShadowCascade_rmFreq (s : State) (b : Band) (c : Cascade) : (setShadowCascade s b c).rmFreq = s.rmFreq := by
  unfold setShadowCascade; split <;> rfl
@[simp] theorem setShadowCascade_dl (s : State) (b : Band) (c : Cascade) : (setShadowCascade s b c).dl = s.dl := by
  unfold setShadowCascade; split <;> rfl
@[simp] theorem setShadowCascade_rvTap (s : State) (b : Band) (c : Cascade) : (setShadowCascade s b c).rvTap = s.rvTap := by
  unfold setShadowCascade; split <;> rfl
@[simp] theorem setShadowCascade_stage (s : State) (b : Band) (c : Cascade) : (setShadowCascade s b c).stage = s.stage := by
  unfold setShadowCascade; split <;> rfl
@[simp] theorem setShadowCascade_stageNew (s : State) (b : Band) (c : Cascade) : (setShadowCascade s b c).stageNew = s.stageNew := by
  unfold setShadowCascade; split <;> rfl
@[simp] theorem setShadowCascade_rb (s : State) (b : Band) (c : Cascade) : (setShadowCascade s b c).rb = s.rb := by
  unfold setShadowCascade; split <;> rfl
@[simp] theorem setShadowCascade_wrCur (s : State) (b : Band) (c : Cascade) : (setShadowCascade s b c).wrCur = s.wrCur := by
  unfold setShadowCascade; split <;> rfl
@[simp] theorem setShadowCascade_recEnd (s : State) (b : Band) (c : Cascade) : (setShadowCascade s b c).recEnd = s.recEnd := by
  unfold setShadowCascade; split <;> rfl
@[simp] theorem setShadowCascade_rdCur (s : State) (b : Band) (c : Cascade) : (setShadowCascade s b c).rdCur = s.rdCur := by
  unfold setShadowCascade; split <;> rfl
@[simp] theorem setShadowCascade_cfg (s : State) (b : Band) (c : Cascade) : (setShadowCascade s b c).cfg = s.cfg := by
  unfold setShadowCascade; split <;> rfl
@[simp] theorem setShadowCascade_act (s : State) (b : Band) (c : Cascade) : (setShadowCascade s b c).act = s.act := by
  unfold setShadowCascade; split <;> rfl
@[simp] theorem setShadowCascade_ctl (s : State) (b : Band) (c : Cascade) : (setShadowCascade s b c).ctl = s.ctl := by
  unfold setShadowCascade; split <;> rfl
@[simp] theorem setShadowCascade_ports (s : State) (b : Band) (c : Cascade) : (setShadowCascade s b c).ports = s.ports := by
  unfold setShadowCascade; split <;> rfl
@[simp] theorem setShadowCascade_env (s : State) (b : Band) (c : Cascade) : (setShadowCascade s b c).env = s.env := by
  unfold setShadowCascade; split <;> rfl
@[simp] theorem setShadowCascade_turns (s : State) (b : Band) (c : Cascade) : (setShadowCascade s b c).turns = s.turns := by
  unfold setShadowCascade; split <;> rfl
@[simp] theorem setShadowCascade_beside (s : State) (b : Band) (c : Cascade) : (setShadowCascade s b c).beside = s.beside := by
  unfold setShadowCascade; split <;> rfl
@[simp] theorem setShadowCascade_result (s : State) (b : Band) (c : Cascade) : (setShadowCascade s b c).result = s.result := by
  unfold setShadowCascade; split <;> rfl

end Sys2Proof.Machine
end

