-- ==== Sys2Proof/Laws/Frame.lean ====
section
/-! SUPPORT. One lemma per shared operation: everything of the state it can change. Each has the form
`operation s = { s with <the fields it can change> }`. -/

namespace Sys2Proof.Machine

open Sys2Proof

/-! ## The environment's answers -/

theorem takeIn_frame (s : State) : (takeIn s).1 = { s with env := (takeIn s).1.env } := by
  unfold takeIn; split <;> rfl

theorem takeOut_frame (s : State) : (takeOut s).1 = { s with env := (takeOut s).1.env } := by
  unfold takeOut; split <;> rfl

theorem takeCopy_frame (s : State) : (takeCopy s).1 = { s with env := (takeCopy s).1.env } := by
  unfold takeCopy; split <;> rfl

theorem takeHwi_frame (s : State) : (takeHwi s).1 = { s with env := (takeHwi s).1.env } := by
  unfold takeHwi; split <;> rfl

/-- A query at TX uses up an answer at TX and nothing else of the environment (rule R362 (e)). -/
theorem takeAttached_env (s : State) : (takeAttached s).1.env = { s.env with
    attachedQ := (takeAttached s).1.env.attachedQ
    draws := { s.env.draws with attached := (takeAttached s).1.env.draws.attached } } := by
  unfold takeAttached; split <;> rfl

/-- A query at TX uses up an answer at TX and nothing else of the environment (rule R362 (e)). -/
theorem takeReady_env (s : State) : (takeReady s).1.env = { s.env with
    readyQ := (takeReady s).1.env.readyQ
    draws := { s.env.draws with ready := (takeReady s).1.env.draws.ready } } := by
  unfold takeReady; split <;> rfl

theorem takeAttached_frame (s : State) : (takeAttached s).1 = { s with env := (takeAttached s).1.env } := by
  unfold takeAttached; split <;> rfl

theorem takeReady_frame (s : State) : (takeReady s).1 = { s with env := (takeReady s).1.env } := by
  unfold takeReady; split <;> rfl

theorem takePitch_frame (s : State) : (takePitch s).1 = { s with env := (takePitch s).1.env } := by
  unfold takePitch; split <;> rfl

/-! ## Filtering -/

/-- What block filtering can change: WB, and the state of stages in use of the enabled bands of the active bank
(rules R22, R170, R171). -/
structure FilterFrame (s t : State) : Prop where
  eq : t = { s with wb := t.wb, bank0 := t.bank0, bank1 := t.bank1 }
  length : t.wb.length = s.wb.length
  shadow : shadowBank t = shadowBank s
  band : ∀ b : Band, (bandGet (activeBank t) b).nst = (bandGet (activeBank s) b).nst ∧
    (bandEn s.act b = false → bandGet (activeBank t) b = bandGet (activeBank s) b) ∧
    ∀ k : Fin 10, SameDesign (bandGet (activeBank t) b).stages[k] (bandGet (activeBank s) b).stages[k] ∧
      ((bandGet (activeBank s) b).nst ≤ k.val →
        (bandGet (activeBank t) b).stages[k] = (bandGet (activeBank s) b).stages[k])

theorem FilterFrame.refl (s : State) : FilterFrame s s :=
  ⟨rfl, rfl, rfl, fun _ => ⟨rfl, fun _ => rfl, fun _ => ⟨rfl, fun _ => rfl⟩⟩⟩

theorem FilterFrame.trans {s t u : State} (h : FilterFrame s t) (h' : FilterFrame t u) : FilterFrame s u := by
  have ea : t.act = s.act := by rw [h.eq]
  refine ⟨?_, h'.length.trans h.length, h'.shadow.trans h.shadow, fun b => ?_⟩
  · rw [h'.eq]; rw [h.eq]
  · obtain ⟨a1, a2, a3⟩ := h.band b
    obtain ⟨b1, b2, b3⟩ := h'.band b
    exact ⟨b1.trans a1, fun he => (b2 (by rw [ea]; exact he)).trans (a2 he), fun k =>
      ⟨(b3 k).1.trans (a3 k).1, fun hk => ((b3 k).2 (by rw [a1]; exact hk)).trans ((a3 k).2 hk)⟩⟩

theorem filterBand_frame (s : State) (b : Band) : FilterFrame s (filterBand s b) := by
  unfold filterBand
  simp only
  split
  · rename_i hen
    simp only [Bool.and_eq_true, decide_eq_true_eq] at hen
    obtain ⟨h1, h2⟩ := filterSamples_frame (floatFmt s) (stageIndices.take (bandGet (activeBank s) b).nst)
      (bandGet (activeBank s) b).stages s.wb
    generalize filterSamples (floatFmt s) (stageIndices.take (bandGet (activeBank s) b).nst)
      (bandGet (activeBank s) b).stages s.wb = r at h1 h2
    refine ⟨?_, h1, shadowBank_setActiveCascade s b _, fun a => ?_⟩
    · conv_lhs => rw [setActiveCascade_eq]
    · have e : activeBank { setActiveCascade s b { nst := (bandGet (activeBank s) b).nst, stages := r.1 } with
          wb := r.2 } = bandSet (activeBank s) b { nst := (bandGet (activeBank s) b).nst, stages := r.1 } :=
        activeBank_setActiveCascade s b _
      rw [e]
      by_cases hab : b = a
      · subst hab
        simp only [bandGet_bandSet]
        refine ⟨trivial, fun h => by rw [h] at hen; simp at hen, fun k => ⟨(h2 k).1, fun hk => (h2 k).2 ?_⟩⟩
        rw [mem_take_stageIndices]; omega
      · rw [bandGet_bandSet_ne _ _ hab]
        exact ⟨rfl, fun _ => rfl, fun k => ⟨rfl, fun _ => rfl⟩⟩
  · exact FilterFrame.refl s

theorem filterBlock_frame (s : State) : FilterFrame s (filterBlock s) := by
  have key : ∀ (bs : List Band) (s : State), FilterFrame s (bs.foldl filterBand s) := by
    intro bs
    induction bs with
    | nil => exact FilterFrame.refl
    | cons b bs ih => intro s; exact (filterBand_frame s b).trans (ih _)
  exact key _ s

/-- A band that is not enabled is not filtered (rule R171 (b)). -/
theorem filterBand_off {s : State} {b : Band} (h : bandEn s.act b = false) : filterBand s b = s := by
  simp [filterBand, h]

/-- A band of one stage runs the block through that stage (rules R140, R170). -/
theorem filterSamples_one_stage (f : FloatFmt) (stages : Vector Stage 10) (x : S16) (xs : List S16) :
    filterSamples f [0] stages (x :: xs) =
      ((filterSamples f [0] (stages.set 0 (processStage f stages[0] (s2f x)).1) xs).1,
        f2s f (processStage f stages[0] (s2f x)).2 ::
          (filterSamples f [0] (stages.set 0 (processStage f stages[0] (s2f x)).1) xs).2) := rfl

/-! ## The other effects and the chain -/

theorem rmBlock_frame (s : State) :
    rmBlock s = { s with wb := (rmBlock s).wb, rmPhase := (rmBlock s).rmPhase } := by
  unfold rmBlock; split <;> rfl

theorem pitchBlock_eq (s : State) : pitchBlock s = { s with
    wb := portBlock (blockLen s) (takePitch s).2, env := (takePitch s).1.env,
    ports := { s.ports with pv := s.ports.pv ++ [.process s.wb (portBlock (blockLen s) (takePitch s).2)] } } := by
  show (let r := takePitch s
    let b := portBlock (blockLen r.1) r.2
    { recordPv r.1 (.process r.1.wb b) with wb := b }) = _
  simp only
  rw [takePitch_frame]; rfl

theorem pitchBlock_length (s : State) : (pitchBlock s).wb.length = blockLen s := by
  rw [pitchBlock_eq]; exact portBlock_length _ _

/-- The chain changes WB, the filter state of the active bank, the oscillator's phase, the delay line, and what the
transform answers (rules R230, R250, R252). -/
theorem applyEffects_frame (s : State) : applyEffects s = { s with
    wb := (applyEffects s).wb, bank0 := (applyEffects s).bank0, bank1 := (applyEffects s).bank1,
    rmPhase := (applyEffects s).rmPhase, dl := (applyEffects s).dl, rvTap := (applyEffects s).rvTap,
    env := (applyEffects s).env, ports := { s.ports with pv := (applyEffects s).ports.pv } } := by
  have hd : ∀ {F : State → State → Prop} (c : Bool) (f : State → State) (s : State), F s (f s) → F s s →
      F s (doIf c f s) := by
    intro F c f s h1 h2; cases c <;> assumption
  let R := fun (s t : State) => t = { s with
    wb := t.wb, bank0 := t.bank0, bank1 := t.bank1, rmPhase := t.rmPhase, dl := t.dl, rvTap := t.rvTap,
    env := t.env, ports := { s.ports with pv := t.ports.pv } }
  have tr : ∀ {s t u : State}, R s t → R t u → R s u := by
    intro s t u h h'
    show u = _
    rw [show u = _ from h']; rw [show t = _ from h]
  have rf : ∀ s, R s s := fun _ => rfl
  have h1 : ∀ s, R s (filterBlock s) := fun s => by
    show filterBlock s = _
    rw [(filterBlock_frame s).eq]
  have h2 : ∀ s, R s (rmBlock s) := fun s => by
    show rmBlock s = _
    rw [rmBlock_frame]
  have h3 : ∀ s, R s (pitchBlock s) := fun s => by
    show pitchBlock s = _
    rw [pitchBlock_eq]
  have h4 : ∀ s, R s (frontEffects s) := fun s =>
    tr (hd _ _ _ (h1 s) (rf s)) (tr (hd _ _ _ (h2 _) (rf _)) (hd _ _ _ (show R _ _ from rfl) (rf _)))
  exact tr (hd _ _ _ (h4 s) (rf s)) (tr (show R _ (volBlock _) from rfl)
    (tr (hd _ _ _ (h3 _) (rf _)) (hd _ _ _ (show R _ _ from rfl) (rf _))))

end Sys2Proof.Machine
end

