-- ==== Sys2Proof/Laws/Memory.lean ====
section
/-! SUPPORT. The laws of the Recording Buffer's bytes: a read after a write, the frame of a write, and the canonical
form kept by every memory operation. -/

namespace Sys2Proof.Machine

open Sys2Proof

/-! ## One byte -/

/-- Every address of a memory in canonical form that starts above `a` is above `a`. -/
theorem Memory.wf_cons {k : Nat} {v : Byte} {m : Memory} :
    Memory.wf ((k, v) :: m) = true ↔ v ≠ unlistedByte ∧ (∀ c ∈ m, k < c.1) ∧ Memory.wf m = true := by
  induction m generalizing k v with
  | nil => simp [Memory.wf]
  | cons c m ih =>
    obtain ⟨k', v'⟩ := c
    have h := @ih k' v'
    simp only [Memory.wf, Bool.and_eq_true, bne_iff_ne, decide_eq_true_eq, List.mem_cons, forall_eq_or_imp]
    rw [h]
    constructor
    · rintro ⟨⟨hv, hk⟩, hv', hm, hw⟩
      exact ⟨hv, ⟨hk, fun c hc => hk.trans (hm c hc)⟩, hv', hm, hw⟩
    · rintro ⟨hv, ⟨hk, -⟩, hv', hm, hw⟩
      exact ⟨⟨hv, hk⟩, hv', hm, hw⟩

theorem Memory.wf_nil : Memory.wf [] = true := rfl

/-- A byte below every listed address reads as an unlisted byte. -/
theorem memRead_unlisted {m : Memory} {a : Nat} (h : ∀ c ∈ m, c.1 ≠ a) : memRead m a = unlistedByte := by
  induction m with
  | nil => rfl
  | cons c m ih =>
    obtain ⟨k, v⟩ := c
    simp only [List.mem_cons, forall_eq_or_imp] at h
    simp only [memRead, if_neg h.1]
    exact ih h.2

/-- Read after write: the written address reads the written byte, every other address reads as before. -/
theorem memRead_memWrite {m : Memory} (h : Memory.wf m = true) (a b : Nat) (v : Byte) :
    memRead (memWrite m a v) b = if b = a then v else memRead m b := by
  induction m with
  | nil =>
    by_cases hv : v = unlistedByte
    · by_cases hb : b = a <;> simp [memWrite, memRead, hv, hb]
    · by_cases hb : b = a
      · simp [memWrite, memRead, hv, hb]
      · simp [memWrite, memRead, hv, hb, Ne.symm hb]
  | cons c m ih =>
    obtain ⟨k, w⟩ := c
    obtain ⟨hw, hk, hm⟩ := Memory.wf_cons.1 h
    have hlow : ∀ x, x ≤ k → memRead m x = unlistedByte :=
      fun x hx => memRead_unlisted fun c hc => by have := hk c hc; omega
    simp only [memWrite]
    by_cases h1 : a < k
    · have h2 : memRead ((k, w) :: m) a = unlistedByte := by
        have h3 : k ≠ a := by omega
        simp [memRead, h3, hlow a h1.le]
      by_cases hv : v = unlistedByte
      · by_cases hb : b = a
        · subst hb; simp [h1, hv, h2]
        · simp [h1, hv, hb]
      · by_cases hb : b = a
        · simp [h1, hv, memRead, hb]
        · simp [h1, hv, memRead, hb, Ne.symm hb]
    · by_cases h2 : a = k
      · subst h2
        by_cases hv : v = unlistedByte
        · by_cases hb : b = a
          · subst hb; simp [hv, hlow b le_rfl]
          · simp [hv, memRead, hb, Ne.symm hb]
        · by_cases hb : b = a
          · simp [hv, memRead, hb]
          · simp [hv, memRead, hb, Ne.symm hb]
      · simp only [if_neg h1, if_neg h2, memRead]
        by_cases hb : k = b
        · have : b ≠ a := by omega
          simp [hb, this]
        · simp [hb, ih hm]

/-- A write lists no address but its own that was not listed before. -/
theorem mem_memWrite {m : Memory} {a : Nat} {v : Byte} {c : Host.Cell} (h : c ∈ memWrite m a v) :
    c.1 = a ∨ c ∈ m := by
  induction m with
  | nil =>
    simp only [memWrite] at h
    split at h
    · cases h
    · simp only [List.mem_singleton] at h; exact .inl (by rw [h])
  | cons d m ih =>
    obtain ⟨k, w⟩ := d
    simp only [memWrite] at h
    split at h
    · split at h
      · exact .inr h
      · rcases List.mem_cons.1 h with h | h
        · exact .inl (by rw [h])
        · exact .inr h
    · split at h
      · split at h
        · exact .inr (List.mem_cons_of_mem _ h)
        · rcases List.mem_cons.1 h with h | h
          · exact .inl (by rw [h])
          · exact .inr (List.mem_cons_of_mem _ h)
      · rcases List.mem_cons.1 h with h | h
        · exact .inr (by rw [h]; exact List.mem_cons_self ..)
        · rcases ih h with h | h
          · exact .inl h
          · exact .inr (List.mem_cons_of_mem _ h)

/-- A write keeps the canonical form. -/
theorem memWrite_wf {m : Memory} (h : Memory.wf m = true) (a : Nat) (v : Byte) : Memory.wf (memWrite m a v) = true := by
  induction m with
  | nil =>
    by_cases hv : v = unlistedByte <;> simp [memWrite, Memory.wf, hv]
  | cons c m ih =>
    obtain ⟨k, w⟩ := c
    obtain ⟨hw, hk, hm⟩ := Memory.wf_cons.1 h
    simp only [memWrite]
    split
    · rename_i h1
      split
      · exact h
      · rename_i hv
        refine Memory.wf_cons.2 ⟨hv, fun c hc => ?_, h⟩
        rcases List.mem_cons.1 hc with hc | hc
        · rw [hc]; exact h1
        · exact h1.trans (hk c hc)
    · split
      · rename_i h2
        split
        · exact hm
        · rename_i hv
          exact Memory.wf_cons.2 ⟨hv, fun c hc => by have := hk c hc; omega, hm⟩
      · rename_i h1 h2
        refine Memory.wf_cons.2 ⟨hw, fun c hc => ?_, ih hm⟩
        rcases mem_memWrite hc with hc | hc
        · omega
        · exact hk c hc

/-- Two memories in canonical form that read alike are equal. -/
theorem Memory.ext_read {m n : Memory} (hm : Memory.wf m = true) (hn : Memory.wf n = true)
    (h : ∀ a, memRead m a = memRead n a) : m = n := by
  induction m generalizing n with
  | nil =>
    cases n with
    | nil => rfl
    | cons d n =>
      obtain ⟨k, v⟩ := d
      have hv := (Memory.wf_cons.1 hn).1
      exact absurd (by simpa [memRead] using h k) hv.symm
  | cons c m ih =>
    obtain ⟨k, v⟩ := c
    obtain ⟨hv, hk, hm'⟩ := Memory.wf_cons.1 hm
    cases n with
    | nil => exact absurd (by simpa [memRead] using h k) hv
    | cons d n =>
      obtain ⟨k', v'⟩ := d
      obtain ⟨hv', hk', hn'⟩ := Memory.wf_cons.1 hn
      have e : k = k' := by
        by_contra hne
        rcases Nat.lt_or_gt_of_ne hne with hlt | hlt
        · have h1 := h k
          simp only [memRead, if_true, if_neg (Ne.symm hne)] at h1
          exact hv (h1.trans (memRead_unlisted fun c hc => by have := hk' c hc; omega))
        · have h1 := h k'
          simp only [memRead, if_true, if_neg hne] at h1
          exact hv' (h1.symm.trans (memRead_unlisted fun c hc => by have := hk c hc; omega))
      subst e
      have h0 : v = v' := by simpa [memRead] using h k
      subst h0
      congr 1
      refine ih hm' hn' fun a => ?_
      by_cases ha : k = a
      · subst ha
        rw [memRead_unlisted fun c hc => by have := hk c hc; omega,
          memRead_unlisted fun c hc => by have := hk' c hc; omega]
      · simpa [memRead, ha] using h a

/-! ## Consecutive bytes -/

/-- A write of consecutive bytes keeps the canonical form. -/
theorem memWriteBytes_wf {m : Memory} (h : Memory.wf m = true) (a : Nat) (vs : List Byte) :
    Memory.wf (memWriteBytes m a vs) = true := by
  induction vs generalizing m a with
  | nil => exact h
  | cons v vs ih => exact ih (memWrite_wf h a v) (a + 1)

/-- Read after a write of consecutive bytes: the written bytes read back, every other byte reads as before. -/
theorem memRead_memWriteBytes {m : Memory} (h : Memory.wf m = true) (a b : Nat) (vs : List Byte) :
    memRead (memWriteBytes m a vs) b = if a ≤ b ∧ b < a + vs.length then vs.getD (b - a) 0 else memRead m b := by
  induction vs generalizing m a with
  | nil =>
    have : ¬(a ≤ b ∧ b < a + ([] : List Byte).length) := by simp
    rw [if_neg this]; rfl
  | cons v vs ih =>
    simp only [memWriteBytes]
    rw [ih (memWrite_wf h a v), memRead_memWrite h]
    by_cases h1 : b = a
    · subst h1
      simp
    · by_cases h2 : a + 1 ≤ b ∧ b < a + 1 + vs.length
      · have h3 : a ≤ b ∧ b < a + (v :: vs).length := by simp; omega
        rw [if_pos h2, if_pos h3]
        obtain ⟨d, rfl⟩ := Nat.exists_eq_add_of_le h2.1
        have e1 : a + 1 + d - (a + 1) = d := by omega
        have e2 : a + 1 + d - a = d + 1 := by omega
        rw [e1, e2]; rfl
      · have h3 : ¬(a ≤ b ∧ b < a + (v :: vs).length) := by simp; omega
        rw [if_neg h2, if_neg h3, if_neg h1]

/-- A write of consecutive bytes lists no address outside them that was not listed before. -/
theorem mem_memWriteBytes {m : Memory} {a : Nat} {vs : List Byte} {c : Host.Cell} (h : c ∈ memWriteBytes m a vs) :
    (a ≤ c.1 ∧ c.1 < a + vs.length) ∨ c ∈ m := by
  induction vs generalizing m a with
  | nil => exact .inr h
  | cons v vs ih =>
    rcases ih h with ⟨h1, h2⟩ | h
    · left; simp; omega
    · rcases mem_memWrite h with h | h
      · left; simp; omega
      · exact .inr h

/-- Reading `n` bytes reads each of them. -/
theorem memReadBytes_getD (m : Memory) (a n i : Nat) (h : i < n) : (memReadBytes m a n).getD i 0 = memRead m (a + i) := by
  simp [memReadBytes, List.getD_eq_getElem?_getD, h]

@[simp] theorem memReadBytes_length (m : Memory) (a n : Nat) : (memReadBytes m a n).length = n := by
  simp [memReadBytes]

/-- The bytes of a block: sample `i` is at offset `2 * i`, low byte first (rules R72, R114). -/
theorem blockToBytes_length (wb : List S16) : (blockToBytes wb).length = 2 * wb.length := by
  induction wb with
  | nil => rfl
  | cons x xs ih =>
    simp only [blockToBytes, List.flatMap_cons, List.length_append] at *
    simp [ih, le16]; omega

theorem blockToBytes_low (wb : List S16) (i : Nat) (h : i < wb.length) :
    (blockToBytes wb).getD (2 * i) 0 = (wb.getD i 0).extractLsb' 0 8 := by
  induction wb generalizing i with
  | nil => simp at h
  | cons x xs ih =>
    cases i with
    | zero => simp [blockToBytes, le16]
    | succ i => simpa [blockToBytes, le16, Nat.mul_add] using ih i (by simpa using h)

theorem blockToBytes_high (wb : List S16) (i : Nat) (h : i < wb.length) :
    (blockToBytes wb).getD (2 * i + 1) 0 = (wb.getD i 0).extractLsb' 8 8 := by
  induction wb generalizing i with
  | nil => simp at h
  | cons x xs ih =>
    cases i with
    | zero => simp [blockToBytes, le16]
    | succ i => simpa [blockToBytes, le16, Nat.mul_add] using ih i (by simpa using h)

/-- The header has 44 bytes (rule R113). -/
theorem wavHeader_length (d sr : BitVec 32) : (wavHeader d sr).length = 44 := rfl

end Sys2Proof.Machine
end

