-- ==== Sys2Proof/Laws/PerInstr.lean ====
section
/-! SUPPORT. A family of lemmas, one per operation: the group of an operation's command word names the agent that
issues it (rules R107, R108). -/

namespace Sys2Proof

/-- The agent of a group (the issuer column of rule R108). -/
def issuerOfGroup (g : BitVec 4) : Issuer :=
  if g = 0 then .requester else if g = 1 then .configurator else if g = 8 then .bridge else .task

/-- `GRP` of a command word is its first part (rules R107, R108). -/
theorem wordGrp_commandWord (grp op : BitVec 4) (arg : BitVec 8) : wordGrp (commandWord grp op arg) = grp := by
  apply BitVec.eq_of_getLsbD_eq
  intro i hi
  unfold wordGrp commandWord
  rw [BitVec.getLsbD_extractLsb', BitVec.getLsbD_append, BitVec.getLsbD_append]
  have h1 : ¬(12 + i < 8) := by omega
  have h2 : ¬(12 + i - 8 < 4) := by omega
  have h3 : 12 + i - 8 - 4 = i := by omega
  simp [hi, h1, h2, h3]

namespace Laws.GroupNamesIssuer

/-- The group of the operation's word names its issuer. -/
def Statement (i : Instr) : Prop := issuerOfGroup (wordGrp (encode i)) = i.issuer

/-- A word built from a group has the issuer of that group. -/
theorem of_group {i : Instr} (grp op : BitVec 4) (arg : BitVec 8) (h : encode i = commandWord grp op arg)
    (h' : issuerOfGroup grp = i.issuer) : Statement i := by
  unfold Statement; rw [h, wordGrp_commandWord]; exact h'

theorem reqNone : Statement .reqNone := of_group _ _ _ rfl rfl

theorem reqUpdateConfig : Statement .reqUpdateConfig := of_group _ _ _ rfl rfl

theorem reqRecord : Statement .reqRecord := of_group _ _ _ rfl rfl

theorem reqPlay : Statement .reqPlay := of_group _ _ _ rfl rfl

theorem reqPassthru : Statement .reqPassthru := of_group _ _ _ rfl rfl

theorem reqDownloadWav : Statement .reqDownloadWav := of_group _ _ _ rfl rfl

theorem reqStop : Statement .reqStop := of_group _ _ _ rfl rfl

theorem cfgWrite (rr : BitVec 8) : Statement (.cfgWrite rr) := of_group _ _ _ rfl rfl

theorem bqConfigure (band : BitVec 3) (stage : BitVec 4) : Statement (.bqConfigure band stage) := of_group _ _ _ rfl rfl

theorem bqProcess (band : BitVec 3) (stage : BitVec 4) : Statement (.bqProcess band stage) := of_group _ _ _ rfl rfl

theorem buildCascade (band : BitVec 3) : Statement (.buildCascade band) := of_group _ _ _ rfl rfl

theorem qtabInit : Statement .qtabInit := of_group _ _ _ rfl rfl

theorem filterBlock : Statement .filterBlock := of_group _ _ _ rfl rfl

theorem cascadeSwap : Statement .cascadeSwap := of_group _ _ _ rfl rfl

theorem rmTableGen : Statement .rmTableGen := of_group _ _ _ rfl rfl

theorem rmBlock : Statement .rmBlock := of_group _ _ _ rfl rfl

theorem rvBlock : Statement .rvBlock := of_group _ _ _ rfl rfl

theorem rvClear : Statement .rvClear := of_group _ _ _ rfl rfl

theorem volBlock : Statement .volBlock := of_group _ _ _ rfl rfl

theorem pitchBlock : Statement .pitchBlock := of_group _ _ _ rfl rfl

theorem clipBlock : Statement .clipBlock := of_group _ _ _ rfl rfl

theorem applyEffects : Statement .applyEffects := of_group _ _ _ rfl rfl

theorem normIn : Statement .normIn := of_group _ _ _ rfl rfl

theorem denormOut : Statement .denormOut := of_group _ _ _ rfl rfl

theorem recordBlock : Statement .recordBlock := of_group _ _ _ rfl rfl

theorem readBlock : Statement .readBlock := of_group _ _ _ rfl rfl

theorem buildWavHeader : Statement .buildWavHeader := of_group _ _ _ rfl rfl

theorem taskWake : Statement .taskWake := of_group _ _ _ rfl rfl

theorem taskInit : Statement .taskInit := of_group _ _ _ rfl rfl

theorem loopRecord : Statement .loopRecord := of_group _ _ _ rfl rfl

theorem loopPlay : Statement .loopPlay := of_group _ _ _ rfl rfl

theorem loopPassthru : Statement .loopPassthru := of_group _ _ _ rfl rfl

theorem loopExport : Statement .loopExport := of_group _ _ _ rfl rfl

theorem taskExit : Statement .taskExit := of_group _ _ _ rfl rfl

theorem taskRebuild : Statement .taskRebuild := of_group _ _ _ rfl rfl

theorem bridgePoll : Statement .bridgePoll := of_group _ _ _ rfl rfl

end Laws.GroupNamesIssuer

end Sys2Proof
end

