-- ==== Sys2Proof/Laws/Series.lean ====
section
/-! SUPPORT. A block through a cascade (rule R170): the loop over samples, each through all stages, does what the stages
in series do to the whole block, one after the other. -/

namespace Sys2Proof.Machine

open Sys2Proof

/-- One sample through stages in series. -/
def seriesStep (f : FloatFmt) : List Stage → RealVal → List Stage × RealVal
  | [], v => ([], v)
  | st :: sts, v =>
    let r := processStage f st v
    let q := seriesStep f sts r.2
    (r.1 :: q.1, q.2)

@[simp] theorem seriesRun_nil (f : FloatFmt) (sts : List Stage) : seriesRun f sts [] = [] := by
  induction sts with
  | nil => rfl
  | cons st sts ih => simpa [seriesRun, stageRun] using ih

/-- Stages in series take the first sample through all of them before the second. -/
theorem seriesRun_cons (f : FloatFmt) (sts : List Stage) (x : RealVal) (xs : List RealVal) :
    seriesRun f sts (x :: xs) = (seriesStep f sts x).2 :: seriesRun f (seriesStep f sts x).1 xs := by
  induction sts generalizing x xs with
  | nil => rfl
  | cons st sts ih => simp only [seriesRun, stageRun, seriesStep, ih]

/-- A part of a series takes a sample as it does inside the whole series. -/
theorem seriesStep_take (f : FloatFmt) (sts : List Stage) (x : RealVal) (j : Nat) :
    ((seriesStep f sts x).1).take j = (seriesStep f (sts.take j) x).1 := by
  induction sts generalizing x j with
  | nil => simp [seriesStep]
  | cons st sts ih => cases j <;> simp [seriesStep, ih]

/-- A stage of a series takes what the stages before it give. -/
theorem seriesStep_getElem? (f : FloatFmt) (sts : List Stage) (x : RealVal) (j : Nat) :
    ((seriesStep f sts x).1)[j]? =
      (sts[j]?).map fun st => (processStage f st (seriesStep f (sts.take j) x).2).1 := by
  induction sts generalizing x j with
  | nil => simp [seriesStep]
  | cons st sts ih => cases j <;> simp [seriesStep, ih]

/-- One sample through the stages of a register file, by their distinct indices. -/
theorem runCascade_series (f : FloatFmt) (ks : List (Fin 10)) (hn : ks.Nodup) (stages : Vector Stage 10) (v : RealVal) :
    (ks.map fun k => (runCascade f ks stages v).1[k]) = (seriesStep f (ks.map fun k => stages[k]) v).1 ∧
      (runCascade f ks stages v).2 = (seriesStep f (ks.map fun k => stages[k]) v).2 ∧
      ∀ k, k ∉ ks → (runCascade f ks stages v).1[k] = stages[k] := by
  induction ks generalizing stages v with
  | nil => exact ⟨rfl, rfl, fun _ _ => rfl⟩
  | cons j js ih =>
    obtain ⟨hj, hjs⟩ := List.nodup_cons.1 hn
    obtain ⟨h1, h2, h3⟩ := ih hjs (stages.set j (processStage f stages[j] v).1) (processStage f stages[j] v).2
    have same : ∀ k, k ≠ j → (stages.set j (processStage f stages[j] v).1)[k] = stages[k] := by
      intro k hk
      simp [Fin.val_ne_of_ne (Ne.symm hk)]
    have e : (js.map fun k => (stages.set j (processStage f stages[j] v).1)[k]) = js.map fun k => stages[k] :=
      List.map_congr_left fun k hk => same k fun h => hj (h ▸ hk)
    rw [e] at h1 h2
    refine ⟨?_, ?_, fun k hk => ?_⟩
    · simp only [List.map_cons, runCascade, seriesStep, h1]
      congr 1
      rw [h3 j hj]; simp
    · simpa [runCascade, seriesStep] using h2
    · simp only [List.mem_cons, not_or] at hk
      rw [runCascade, h3 k hk.2, same k hk.1]

/-- A block through a cascade whose stages in use have the given distinct indices: its outputs are those of the stages in
series, converted, and each stage is left as the outputs of the stages before it leave it (rules R141 (c), R163,
R170). -/
theorem filterSamples_series (f : FloatFmt) (ks : List (Fin 10)) (hn : ks.Nodup) (stages : Vector Stage 10)
    (xs : List S16) :
    (filterSamples f ks stages xs).2 = (seriesRun f (ks.map fun k => stages[k]) (xs.map s2f)).map (f2s f) ∧
      ∀ j k, ks[j]? = some k → (filterSamples f ks stages xs).1[k] =
        stageAfter f stages[k] (seriesRun f ((ks.map fun k => stages[k]).take j) (xs.map s2f)) := by
  induction xs generalizing stages with
  | nil => exact ⟨by simp [filterSamples], fun j k _ => by simp [filterSamples, stageAfter]⟩
  | cons x xs ih =>
    obtain ⟨r1, r2, -⟩ := runCascade_series f ks hn stages (s2f x)
    obtain ⟨h1, h2⟩ := ih (runCascade f ks stages (s2f x)).1
    rw [r1] at h1 h2
    refine ⟨?_, fun j k hk => ?_⟩
    · simp only [filterSamples, List.map_cons, seriesRun_cons, h1, r2]
    · have e := seriesStep_getElem? f (ks.map fun k => stages[k]) (s2f x) j
      rw [← r1] at e
      simp only [List.getElem?_map, hk, Option.map_some, Option.some.injEq] at e
      simp only [filterSamples, List.map_cons, seriesRun_cons]
      rw [h2 j k hk, seriesStep_take, e]
      rfl

/-! ## One band of FILTER_BLOCK -/

theorem stageIndices_nodup (n : Nat) : (stageIndices.take n).Nodup :=
  (by decide : stageIndices.Nodup).sublist (List.take_sublist _ _)

theorem stageIndices_getElem? (k : Fin 10) : stageIndices[k.val]? = some k := by revert k; decide

/-- The stages at the first `n` indices, in order. -/
theorem map_take_stageIndices (stages : Vector Stage 10) (n : Nat) :
    ((stageIndices.take n).map fun k => stages[k]) = stages.toList.take n := by
  have h : (stageIndices.map fun k => stages[k]) = stages.toList := by
    apply List.ext_getElem
    · simp [stageIndices]
    · intro i h1 h2
      have : i < 10 := by simpa using h2
      interval_cases i <;> simp [stageIndices]
  rw [List.map_take, h]

/-- A band that is enabled and has stages: it replaces WB and its own stages (rule R170). -/
theorem filterBand_on {s : State} {b : Band} (he : bandEn s.act b = true) (hn : 0 < (bandGet (activeBank s) b).nst) :
    filterBand s b =
      let c := bandGet (activeBank s) b
      let r := filterSamples (floatFmt s) (stageIndices.take c.nst) c.stages s.wb
      { setActiveCascade s b { c with stages := r.1 } with wb := r.2 } := by
  unfold filterBand
  simp only [he, hn, decide_true, Bool.and_self, if_true]

/-- One band makes of the block what its stages in series make of it, and leaves each stage in use as the outputs of the
stages before it leave it (rules R170, R171 (b)); nothing else changes but the two banks and WB. -/
theorem filterBand_series (s : State) (b : Band) :
    (filterBand s b).wb = bandOutput s s.wb b ∧
      (bandEn s.act b = true → ∀ k : Fin 10, k.val < (bandGet (activeBank s) b).nst →
        (bandGet (activeBank (filterBand s b)) b).stages[k] =
          stageAfter (floatFmt s) (bandGet (activeBank s) b).stages[k]
            (seriesRun (floatFmt s) ((bandGet (activeBank s) b).stages.toList.take k.val) (s.wb.map s2f))) ∧
      (∀ a, a ≠ b → bandGet (activeBank (filterBand s b)) a = bandGet (activeBank s) a) := by
  by_cases h : bandEn s.act b = true ∧ 0 < (bandGet (activeBank s) b).nst
  · obtain ⟨h1, h2⟩ := filterSamples_series (floatFmt s) _ (stageIndices_nodup (bandGet (activeBank s) b).nst)
      (bandGet (activeBank s) b).stages s.wb
    rw [map_take_stageIndices] at h1 h2
    rw [filterBand_on h.1 h.2]
    refine ⟨?_, fun _ k hk => ?_, fun a ha => ?_⟩
    · exact h1.trans (if_pos h).symm
    · show (bandGet (activeBank (setActiveCascade _ _ _)) b).stages[k] = _
      rw [activeBank_setActiveCascade, bandGet_bandSet]
      show (filterSamples _ _ _ _).1[k] = _
      rw [h2 k.val k (by rw [List.getElem?_take, if_pos hk]; exact stageIndices_getElem? k), List.take_take,
        Nat.min_eq_left hk.le]
    · show bandGet (activeBank (setActiveCascade _ _ _)) a = _
      rw [activeBank_setActiveCascade, bandGet_bandSet_ne _ _ (Ne.symm ha)]
  · have e : filterBand s b = s := if_neg (by simpa using h)
    rw [e]
    exact ⟨(if_neg h).symm, fun he k hk => absurd ⟨he, by omega⟩ h, fun _ _ => rfl⟩

end Sys2Proof.Machine
end

