-- ==== Sys2Proof/Laws/Task.lean ====
section
/-! SUPPORT. One lemma per shared operation of the Task, the Requester, the Configurator and the Bridge: everything of
the state it can change, and its cases. -/

namespace Sys2Proof.Machine

open Sys2Proof

/-! ## Building and rebuilding -/

@[simp] theorem raiseAll_nil (s : State) : raiseAll s [] = s := by simp [raiseAll]

/-- `BUILD_CASCADE` replaces one shadow cascade and logs (rule R165). -/
theorem buildCascadeOf_frame (s : State) (b : Band) : buildCascadeOf s b =
    { setShadowCascade s b (bandGet (shadowBank (buildCascadeOf s b)) b) with
      ports := { s.ports with log := (buildCascadeOf s b).ports.log } } := by
  have h : bandGet (shadowBank (buildCascadeOf s b)) b =
      (builtCascade (floatFmt s) (designFn s) s.act (readableQtab s) b (bandGet (shadowBank s) b)).2 := by
    show bandGet (shadowBank (setShadowCascade s b _)) b = _
    simp
  rw [h]
  unfold buildCascadeOf raiseAll
  simp

/-- `BUILD_CASCADE` changes the two banks and the log only. -/
theorem buildCascadeOf_fields (s : State) (b : Band) : buildCascadeOf s b = { s with
    bank0 := (buildCascadeOf s b).bank0, bank1 := (buildCascadeOf s b).bank1,
    ports := { s.ports with log := (buildCascadeOf s b).ports.log } } := by
  unfold buildCascadeOf setShadowCascade
  simp only
  split <;> rfl

/-- `BUILD_CASCADE` leaves the active bank alone (rule R23). -/
@[simp] theorem activeBank_buildCascadeOf (s : State) (b : Band) :
    activeBank (buildCascadeOf s b) = activeBank s := by
  show activeBank (setShadowCascade s b _) = _
  simp

/-- `RM_TABLE_GEN` changes the oscillator's registers and the log only (rule R190). -/
theorem rmTableGen_frame (s : State) : rmTableGen s = { s with
    sine := (rmTableGen s).sine, rmLen := (rmTableGen s).rmLen, rmAmp := (rmTableGen s).rmAmp,
    rmPhase := (rmTableGen s).rmPhase, rmValid := (rmTableGen s).rmValid, rmSr := (rmTableGen s).rmSr,
    rmFreq := (rmTableGen s).rmFreq, ports := { s.ports with log := (rmTableGen s).ports.log } } := by
  unfold rmTableGen; simp only; split <;> rfl

/-- What a rebuild can change (rule R320). -/
def RebuildRel (s t : State) : Prop := t = { s with
  bank0 := t.bank0, bank1 := t.bank1, act := t.act, sine := t.sine, rmLen := t.rmLen, rmAmp := t.rmAmp,
  rmPhase := t.rmPhase, rmValid := t.rmValid, rmSr := t.rmSr, rmFreq := t.rmFreq,
  ctl := { s.ctl with bank := t.ctl.bank, updPend := t.ctl.updPend },
  ports := { s.ports with log := t.ports.log, pv := t.ports.pv } }

theorem RebuildRel.trans {s t u : State} (h : RebuildRel s t) (h' : RebuildRel t u) : RebuildRel s u := by
  show u = _
  rw [show u = _ from h']; rw [show t = _ from h]

/-- A conditional operation keeps what both its cases keep. -/
theorem doIf_rel {R : State → State → Prop} {c : Bool} {f : State → State} {s : State} (h : R s (f s)) (h' : R s s) :
    R s (doIf c f s) := by
  cases c <;> assumption

theorem buildAll_rel (bs : List Band) (s : State) : RebuildRel s (bs.foldl buildCascadeOf s) := by
  induction bs generalizing s with
  | nil => rfl
  | cons b bs ih =>
    refine RebuildRel.trans ?_ (ih _)
    show buildCascadeOf s b = _
    rw [buildCascadeOf_fields]

/-- `TASK_REBUILD` changes only what rule R320 names. -/
theorem taskRebuild_rel (s : State) : RebuildRel s (taskRebuild s) := by
  have h1 : RebuildRel s (snapshotConfig s) := rfl
  have h2 := h1.trans (buildAll_rel Band.all _)
  have h3 := h2.trans (show RebuildRel _ (cascadeSwap _) from rfl)
  have h4 := h3.trans (doIf_rel (c := rmStale (cascadeSwap (Band.all.foldl buildCascadeOf (snapshotConfig s))))
    (show RebuildRel _ (rmTableGen _) by show rmTableGen _ = _; rw [rmTableGen_frame]) rfl)
  exact (h4.trans (doIf_rel (R := RebuildRel) (show RebuildRel _ (pvInit _) from rfl) rfl)).trans rfl

theorem servePending_rel (s : State) : RebuildRel s (servePending s) := doIf_rel (taskRebuild_rel s) rfl

/-- After a pending update was served none is pending (rule R320). -/
theorem servePending_done (s : State) : (servePending s).ctl.updPend = false := by
  unfold servePending doIf
  split
  · rfl
  · rename_i h; simpa using h

/-- Without a pending update nothing is served. -/
theorem servePending_none {s : State} (h : s.ctl.updPend = false) : servePending s = s := by
  simp [servePending, doIf, h]

/-- The block boundary without a pending update: only the stop flag counts (rule R325). -/
theorem boundary_none {s : State} (h : s.ctl.updPend = false) :
    boundary s = if s.ctl.stop then (setPhase s .exit, false) else (s, true) := by
  unfold boundary; rw [servePending_none h]

/-! ## Requests, configuration writes, Bridge polls -/

/-- What a step of the Requester can change (rules R92, R303 to R305). -/
def RequestRel (s t : State) : Prop := t = { s with
  ctl := { s.ctl with permit := t.ctl.permit, action := t.ctl.action, wake := t.ctl.wake, stop := t.ctl.stop,
                      updPend := t.ctl.updPend }
  ports := { s.ports with req := t.ports.req, log := t.ports.log } }

/-- The four outcomes of the gated accept procedure (rules R303, R376). -/
theorem gated_cases (r : ReqCode) (s : State) :
    (needsBuffer r = true ∧ bufPresent s = false ∧
      gated r s = (raise s (.resourceUnavailable r .noBuffer), .rejUnsupported)) ∨
    (needsIo r = true ∧ s.ctl.ioDisabled = true ∧
      gated r s = (raise s (.resourceUnavailable r .ioDisabled), .rejUnsupported)) ∨
    (s.ctl.permit = false ∧ gated r s = (raise s (.busy r), .rejBusy)) ∨
    (s.ctl.permit = true ∧ (needsBuffer r = true → bufPresent s = true) ∧
      (needsIo r = true → s.ctl.ioDisabled = false) ∧ gated r s = (acceptAction r s, .accepted)) := by
  unfold gated
  cases h1 : needsBuffer r <;> cases h2 : bufPresent s <;> cases h3 : needsIo r <;> cases h4 : s.ctl.ioDisabled <;>
    cases h5 : s.ctl.permit <;> simp

theorem gated_rel (r : ReqCode) (s : State) : RequestRel s (gated r s).1 := by
  rcases gated_cases r s with ⟨_, _, h⟩ | ⟨_, _, h⟩ | ⟨_, h⟩ | ⟨_, _, _, h⟩ <;> rw [h] <;> rfl

theorem serveRequest_rel (r : ReqCode) (s : State) : RequestRel s (serveRequest r s).1 := by
  cases r <;> first | rfl | exact gated_rel _ s

theorem postRequest_rel (r : ReqCode) (s : State) : RequestRel s (postRequest r s) := by
  have h := serveRequest_rel r s
  show respond (serveRequest r s).1 _ _ = _
  rw [show (serveRequest r s).1 = _ from h]; rfl

theorem requestArrives_rel (w : CmdWord) (s : State) : RequestRel s (requestArrives w s) := by
  unfold requestArrives
  split
  · exact postRequest_rel _ s
  · rfl

/-- What a step of the Configurator can change (rules R92, R306). -/
def ConfigRel (s t : State) : Prop := t = { s with
  cfg := t.cfg
  ports := { s.ports with cfgp := t.ports.cfgp, log := t.ports.log } }

theorem storeRegister_rel (rr : BitVec 8) (r : CfgReg) (v : CfgValue) (s : State) :
    ConfigRel s (storeRegister rr r v s) := by
  unfold storeRegister; split <;> rfl

theorem configWrite_rel (rr : BitVec 8) (v : CfgValue) (s : State) : ConfigRel s (configWrite rr v s) := by
  unfold configWrite
  split
  · exact storeRegister_rel rr _ _ s
  · rfl

theorem configArrives_rel (w : CmdWord) (v : CfgValue) (s : State) : ConfigRel s (configArrives w v s) := by
  unfold configArrives
  split
  · exact configWrite_rel _ v s
  · rfl

/-- What a step of the Bridge can change (rules R92, R361, R362 (e)): of the environment, only its own answers at TX. -/
def BridgeRel (s t : State) : Prop := t = { s with
  stageNew := t.stageNew
  env := { s.env with
    attachedQ := t.env.attachedQ
    readyQ := t.env.readyQ
    draws := { s.env.draws with attached := t.env.draws.attached, ready := t.env.draws.ready } }
  ports := { s.ports with tx := t.ports.tx, log := t.ports.log } }

theorem BridgeRel.trans {s t u : State} (h : BridgeRel s t) (h' : BridgeRel t u) : BridgeRel s u := by
  show u = _
  rw [show u = _ from h']; rw [show t = _ from h]

theorem bridgeForward_eq (t : List S16) (s : State) : bridgeForward t s =
    if s.hw.transportMax < blockBytes s then raise { s with stageNew := false } (.configOutOfRange .transportSize)
    else
      let r := takeReady { s with stageNew := false }
      let u := recordTx r.1 (.ready r.2)
      if r.2 then recordTx u (.send t (blockBytes s)) else u := by
  have h : blockBytes (takeReady { s with stageNew := false }).1 = blockBytes s := by
    rw [takeReady_frame]; rfl
  show (if s.hw.transportMax < blockBytes s then raise { s with stageNew := false } (.configOutOfRange .transportSize)
    else
      let r := takeReady { s with stageNew := false }
      let u := recordTx r.1 (.ready r.2)
      if r.2 then recordTx u (.send t (blockBytes r.1)) else u) = _
  simp only [h]

theorem bridgeForward_rel (t : List S16) (s : State) : BridgeRel s (bridgeForward t s) := by
  rw [bridgeForward_eq]
  split
  · rfl
  · simp only
    have hr : BridgeRel s (takeReady { s with stageNew := false }).1 := by
      unfold takeReady; split <;> rfl
    have h2 := hr.trans (show BridgeRel _ (recordTx _ (.ready (takeReady { s with stageNew := false }).2)) from rfl)
    split
    · exact h2.trans rfl
    · exact h2

theorem bridgePoll_eq (t : List S16) (s : State) : bridgePoll t s =
    let u := recordTx (takeAttached s).1 (.attached (takeAttached s).2)
    if (takeAttached s).2 && s.stageNew then bridgeForward t u else u := by
  have h : (recordTx (takeAttached s).1 (.attached (takeAttached s).2)).stageNew = s.stageNew := by
    show (takeAttached s).1.stageNew = _
    rw [takeAttached_frame]
  simp only [← h]
  rfl

theorem bridgePoll_rel (t : List S16) (s : State) : BridgeRel s (bridgePoll t s) := by
  rw [bridgePoll_eq]
  have hr : BridgeRel s (recordTx (takeAttached s).1 (.attached (takeAttached s).2)) := by
    unfold takeAttached; split <;> rfl
  simp only
  split
  · exact hr.trans (bridgeForward_rel t _)
  · exact hr

/-- After a step of the Bridge every other agent gets the answers it would have got before it (rule R362 (e)). -/
theorem BridgeRel.answers {s t : State} (h : BridgeRel s t) : (takeIn t).2 = (takeIn s).2 ∧
    (takeOut t).2 = (takeOut s).2 ∧ (takeCopy t).2 = (takeCopy s).2 ∧ (takeHwi t).2 = (takeHwi s).2 ∧
    (takePitch t).2 = (takePitch s).2 := by
  rw [show t = _ from h]
  refine ⟨?_, ?_, ?_, ?_, ?_⟩ <;>
    simp only [takeIn, takeOut, takeCopy, takeHwi, takePitch] <;> split <;> simp_all

/-! ## The waiting points -/

/-- What the other agents' steps can change at a waiting point (rules R86, R92). -/
def VisitRel (s t : State) : Prop := t = { s with
  cfg := t.cfg, stageNew := t.stageNew, env := t.env
  ctl := { s.ctl with permit := t.ctl.permit, action := t.ctl.action, wake := t.ctl.wake, stop := t.ctl.stop,
                      updPend := t.ctl.updPend }
  ports := { s.ports with req := t.ports.req, cfgp := t.ports.cfgp, log := t.ports.log, tx := t.ports.tx } }

theorem VisitRel.trans {s t u : State} (h : VisitRel s t) (h' : VisitRel t u) : VisitRel s u := by
  show u = _
  rw [show u = _ from h']; rw [show t = _ from h]

theorem RequestRel.visit {s t : State} (h : RequestRel s t) : VisitRel s t := by
  show t = _
  rw [show t = _ from h]

theorem ConfigRel.visit {s t : State} (h : ConfigRel s t) : VisitRel s t := by
  show t = _
  rw [show t = _ from h]

theorem BridgeRel.visit {s t : State} (h : BridgeRel s t) : VisitRel s t := by
  show t = _
  rw [show t = _ from h]

theorem visitStep_rel (writing : Option (List S16)) (s : State) (v : Visit) : VisitRel s (visitStep writing s v) := by
  cases v with
  | request w => exact (requestArrives_rel w s).visit
  | config w x => exact (configArrives_rel w x s).visit
  | bridge m => cases writing <;> exact (bridgePoll_rel _ s).visit

theorem runVisits_rel (writing : Option (List S16)) (vs : List Visit) (s : State) :
    VisitRel s (runVisits writing s vs) := by
  unfold runVisits
  induction vs generalizing s with
  | nil => rfl
  | cons v vs ih => exact (visitStep_rel writing s v).trans (ih _)

/-- `IN.read()`: what it does to the state, and its answer (rules R86, R326). -/
theorem readIn_eq (s : State) : readIn s =
    let t := runVisits none (takeIn s).1 (takeIn s).2.1
    let a := match (takeIn s).2.2 with
      | .timeout => InAnswer.timeout
      | .block h => .block (portBlock (blockLen s) h)
    ({ t with ports.inp := t.ports.inp ++ [a] }, a) := by
  have h : blockLen (runVisits none (takeIn s).1 (takeIn s).2.1) = blockLen s := by
    apply blockLen_congr
    rw [show runVisits none (takeIn s).1 (takeIn s).2.1 = _ from runVisits_rel none _ _]
    show (takeIn s).1.hw = s.hw
    rw [takeIn_frame]
  simp only [← h]
  rfl

theorem writeOut_eq (o : List HwSample) (s : State) : writeOut o s =
    let t := runVisits none (takeOut s).1 (takeOut s).2.1
    { t with ports.out := t.ports.out ++ [(o, (takeOut s).2.2)] } := rfl

theorem stageBlock_eq (s : State) : stageBlock s =
    { runVisits (some s.wb) (takeCopy s).1 (takeCopy s).2 with stage := s.wb, stageNew := true } := by
  have h1 : (takeCopy s).1.wb = s.wb := by rw [takeCopy_frame]
  have h2 : (runVisits (some s.wb) (takeCopy s).1 (takeCopy s).2).wb = s.wb := by
    rw [show runVisits (some s.wb) (takeCopy s).1 (takeCopy s).2 = _ from runVisits_rel _ _ _]
    exact h1
  have h3 : stageBlock s =
      { runVisits (some (takeCopy s).1.wb) (takeCopy s).1 (takeCopy s).2 with
        stage := (runVisits (some (takeCopy s).1.wb) (takeCopy s).1 (takeCopy s).2).wb, stageNew := true } := rfl
  rw [h3, h1, h2]

/-- What a wait of a loop step can change besides what it answers: a block in, out or staged (rules R326, R327). -/
def WaitRel (s t : State) : Prop := t = { s with
  cfg := t.cfg, stage := t.stage, stageNew := t.stageNew, env := t.env
  ctl := { s.ctl with permit := t.ctl.permit, action := t.ctl.action, wake := t.ctl.wake, stop := t.ctl.stop,
                      updPend := t.ctl.updPend }
  ports := { s.ports with req := t.ports.req, cfgp := t.ports.cfgp, inp := t.ports.inp, out := t.ports.out,
                          log := t.ports.log, tx := t.ports.tx } }

theorem WaitRel.trans {s t u : State} (h : WaitRel s t) (h' : WaitRel t u) : WaitRel s u := by
  show u = _
  rw [show u = _ from h']; rw [show t = _ from h]

theorem VisitRel.wait {s t : State} (h : VisitRel s t) : WaitRel s t := by
  show t = _
  rw [show t = _ from h]

theorem readIn_rel (s : State) : WaitRel s (readIn s).1 := by
  rw [readIn_eq]
  have h1 : WaitRel s (takeIn s).1 := by
    show (takeIn s).1 = _
    rw [takeIn_frame]
  exact (h1.trans (runVisits_rel none _ _).wait).trans rfl

theorem writeOut_rel (o : List HwSample) (s : State) : WaitRel s (writeOut o s) := by
  rw [writeOut_eq]
  have h1 : WaitRel s (takeOut s).1 := by
    show (takeOut s).1 = _
    rw [takeOut_frame]
  exact (h1.trans (runVisits_rel none _ _).wait).trans rfl

theorem stageBlock_rel (s : State) : WaitRel s (stageBlock s) := by
  rw [stageBlock_eq]
  have h1 : WaitRel s (takeCopy s).1 := by
    show (takeCopy s).1 = _
    rw [takeCopy_frame]
  exact (h1.trans (runVisits_rel _ _ _).wait).trans rfl

/-! ## The Recording Buffer -/

/-- The two outcomes of `RECORD_BLOCK` (rules R270, R271). -/
theorem recordBlock_cases (s : State) :
    (bufCap s < recordAddr s + blockBytes s ∧ recordBlock s = (s, .capFull)) ∨
    (recordAddr s + blockBytes s ≤ bufCap s ∧ recordBlock s = ({ s with
      rb := memWriteBytes s.rb (recordAddr s) (blockToBytes s.wb)
      wrCur := BitVec.ofNat 32 (s.wrCur.toNat + blockBytes s) }, .ok)) := by
  unfold recordBlock
  by_cases h : bufCap s < recordAddr s + blockBytes s
  · exact .inl ⟨h, by rw [if_pos h]⟩
  · exact .inr ⟨by omega, by rw [if_neg h]⟩

/-- The three outcomes of `READ_BLOCK` (rule R275; assumption log 22). -/
theorem readBlock_cases (s : State) :
    (s.recEnd.toNat < s.rdCur.toNat + blockBytes s ∧ readBlock s = .next (s, .endOfData)) ∨
    (s.rdCur.toNat + blockBytes s ≤ s.recEnd.toNat ∧ bufCap s < 44 + s.rdCur.toNat + blockBytes s ∧
      readBlock s = .fault .outsideRecordingBuffer) ∨
    (s.rdCur.toNat + blockBytes s ≤ s.recEnd.toNat ∧ 44 + s.rdCur.toNat + blockBytes s ≤ bufCap s ∧
      readBlock s = .next ({ s with
        wb := storedBlock s, rdCur := BitVec.ofNat 32 (s.rdCur.toNat + blockBytes s) }, .ok)) := by
  unfold readBlock
  by_cases h : s.recEnd.toNat < s.rdCur.toNat + blockBytes s
  · exact .inl ⟨h, by rw [if_pos h]⟩
  · by_cases h' : bufCap s < 44 + s.rdCur.toNat + blockBytes s
    · exact .inr (.inl ⟨by omega, h', by rw [if_neg h, if_pos h']⟩)
    · exact .inr (.inr ⟨by omega, by omega, by rw [if_neg h, if_neg h']⟩)

/-! ## Sequencing and enabling -/

/-- A sequence answers a next state exactly when both parts do. -/
theorem andThen_next {α β : Type} {o : Host.Outcome α Fault Refusal} {k : α → Host.Outcome β Fault Refusal} {b : β}
    (h : andThen o k = .next b) : ∃ a, o = .next a ∧ k a = .next b := by
  cases o with
  | next a => exact ⟨a, rfl, h⟩
  | fault e => cases h
  | refused r => cases h

/-- A Task step where it is not enabled, and where it is (rule R348). -/
theorem whenEnabled_cases (i : Instr) (f : State → State) (s : State) :
    (enabledStep s = some i ∧ whenEnabled i f s = f s) ∨ (enabledStep s ≠ some i ∧ whenEnabled i f s = s) := by
  unfold whenEnabled
  by_cases h : enabledStep s = some i
  · exact .inl ⟨h, by rw [if_pos h]⟩
  · exact .inr ⟨h, by rw [if_neg h]⟩

theorem stepWhenEnabled_cases (i : Instr) (f : State → Host.Outcome State Fault Refusal) (s : State) :
    (enabledStep s = some i ∧ stepWhenEnabled i f s = f s) ∨
    (enabledStep s ≠ some i ∧ stepWhenEnabled i f s = .next s) := by
  unfold stepWhenEnabled
  by_cases h : enabledStep s = some i
  · exact .inl ⟨h, by rw [if_pos h]⟩
  · exact .inr ⟨h, by rw [if_neg h]⟩

/-- Which state enables each Task step (the table of rule R348). -/
theorem enabledStep_cases {s : State} {i : Instr} (h : enabledStep s = some i) :
    (s.qtabValid = false ∧ i = .qtabInit) ∨
    (s.qtabValid = true ∧
      ((s.ctl.phase = .wait ∧ s.ctl.wake = true ∧ i = .taskWake) ∨ (s.ctl.phase = .init ∧ i = .taskInit) ∨
        (s.ctl.phase = .loop ∧ s.ctl.action = .record ∧ i = .loopRecord) ∨
        (s.ctl.phase = .loop ∧ s.ctl.action = .play ∧ i = .loopPlay) ∨
        (s.ctl.phase = .loop ∧ s.ctl.action = .passthru ∧ i = .loopPassthru) ∨
        (s.ctl.phase = .loop ∧ s.ctl.action = .downloadWav ∧ i = .loopExport) ∨
        (s.ctl.phase = .exit ∧ i = .taskExit))) := by
  unfold enabledStep at h
  cases hq : s.qtabValid <;> simp [hq] at h
  · exact .inl ⟨rfl, h.symm⟩
  · right
    cases hp : s.ctl.phase <;> simp [hp] at h <;> cases ha : s.ctl.action <;> simp_all

end Sys2Proof.Machine
end

