-- ==== Sys2Proof/Tests/Slice0.lean ====
section
/-! SUPPORT. Tests of the model against the vectors of spec/95_test_vectors.md (each comment names its vector), and
witnesses: concrete states and operands that meet the hypotheses of the statements. -/

open Sys2Proof Sys2Proof.Machine

namespace Sys2Proof.Tests

-- one theorem after the other: each kernel evaluation otherwise holds a thread of its own
set_option Elab.async false

/-! ## Helpers -/

/-- The small parameters of the vectors: `BLOCK_LEN` 4, `REVERB_LEN` 4, `BUF_CAP` 68, the reals, the reference design. -/
def hw4 : HwParams where
  blockLen := ⟨4, by decide⟩
  rmTableMax := ⟨16, by decide⟩
  bufRoom := some 24
  hwWidth := .w16
  transportMax := ⟨1024, by decide⟩
  floatFmt := .reals
  design := .reference
  reverbLen := ⟨4, by decide⟩
  monitorRec := false

/-- The reset state with those parameters. -/
def s0 : State := State.resetWith hw4

/-- The reset state with a working block. -/
def withBlock (xs : List Int) : State := { s0 with wb := xs.map (BitVec.ofInt 16) }

/-- A test of the next state. -/
def nextIs (o : Host.Outcome State Fault Refusal) (p : State → Bool) : Bool :=
  match o with
  | .next s => p s
  | .fault _ | .refused _ => false

/-- The working block is the given one. -/
def wbIs (xs : List Int) (s : State) : Bool := s.wb.map BitVec.toInt == xs

/-- The bytes of RB from an address on are the given ones. -/
def rbIs (a : Nat) (bs : List Nat) (s : State) : Bool := (memReadBytes s.rb a bs.length).map BitVec.toNat == bs

/-- The integer nearest to `10 ^ n` times a value, to compare with a printed decimal of `n` places. -/
def places (n : Nat) (v : RealVal) : Int :=
  match v with
  | .num q => (q * (10 ^ n : Nat) + 1 / 2).floor
  | .posInf | .negInf | .nan => 0

/-- Nine places. -/
def giga (v : RealVal) : Int := places 9 v

/-! ## WellFormed -/

theorem test_wf_refuses_unnamed_register : wellFormed (.cfgWrite 0x0A) = false := by decide
theorem test_wf_refuses_register_past_last : wellFormed (.cfgWrite 0x28) = false := by decide
theorem test_wf_refuses_configure_band : wellFormed (.bqConfigure 6 0) = false := by decide
theorem test_wf_refuses_configure_stage : wellFormed (.bqConfigure 0 10) = false := by decide
theorem test_wf_refuses_process_band : wellFormed (.bqProcess 7 9) = false := by decide
theorem test_wf_refuses_process_stage : wellFormed (.bqProcess 5 15) = false := by decide
theorem test_wf_refuses_build_band : wellFormed (.buildCascade 6) = false := by decide

/-! ## Decoding: `GRP` 15:12, `OP` 11:8, `ARG` 7:0 (rules R107, R108), every row once -/

theorem test_decode_requests : decode 0b0000_0000_00000_000 = .ok .reqNone ∧
    decode 0b0000_0000_00000_001 = .ok .reqUpdateConfig ∧ decode 0b0000_0000_00000_010 = .ok .reqRecord ∧
    decode 0b0000_0000_00000_011 = .ok .reqPlay ∧ decode 0b0000_0000_00000_100 = .ok .reqPassthru ∧
    decode 0b0000_0000_00000_101 = .ok .reqDownloadWav ∧ decode 0b0000_0000_00000_110 = .ok .reqStop := by decide

/-- V55: `BAND_FREQ[2]` and the last register. -/
theorem test_decode_cfg_write : decode 0b0001_0000_00011000 = .ok (.cfgWrite 0x18) ∧
    cfgRegOfNumber 0x18 = some (.band .lp .freq) ∧ decode 0b0001_0000_00100111 = .ok (.cfgWrite 0x27) ∧
    cfgRegOfNumber 0x27 = some (.band .pk .order) := by decide

/-- V55: band 2 stage 1, band 5 stage 9, band 5. -/
theorem test_decode_filter_group : decode 0b0010_0000_0_010_0001 = .ok (.bqConfigure 2 1) ∧
    decode 0b0010_0001_0_101_1001 = .ok (.bqProcess 5 9) ∧ decode 0b0010_0010_00000_101 = .ok (.buildCascade 5) ∧
    decode 0b0010_0011_00000000 = .ok .qtabInit ∧ decode 0b0010_0100_00000000 = .ok .filterBlock ∧
    decode 0b0010_0101_00000000 = .ok .cascadeSwap := by decide

theorem test_decode_effect_groups : decode 0b0011_0000_00000000 = .ok .rmTableGen ∧
    decode 0b0011_0001_00000000 = .ok .rmBlock ∧ decode 0b0100_0000_00000000 = .ok .rvBlock ∧
    decode 0b0100_0001_00000000 = .ok .rvClear ∧ decode 0b0101_0000_00000000 = .ok .volBlock ∧
    decode 0b0101_0001_00000000 = .ok .pitchBlock ∧ decode 0b0101_0010_00000000 = .ok .clipBlock ∧
    decode 0b0101_0011_00000000 = .ok .applyEffects := by decide

theorem test_decode_buffer_group : decode 0b0110_0000_00000000 = .ok .normIn ∧
    decode 0b0110_0001_00000000 = .ok .denormOut ∧ decode 0b0110_0010_00000000 = .ok .recordBlock ∧
    decode 0b0110_0011_00000000 = .ok .readBlock ∧ decode 0b0110_0100_00000000 = .ok .buildWavHeader := by decide

theorem test_decode_task_groups : decode 0b0111_0000_00000000 = .ok .taskWake ∧
    decode 0b0111_0001_00000000 = .ok .taskInit ∧ decode 0b0111_0010_00000000 = .ok .loopRecord ∧
    decode 0b0111_0011_00000000 = .ok .loopPlay ∧ decode 0b0111_0100_00000000 = .ok .loopPassthru ∧
    decode 0b0111_0101_00000000 = .ok .loopExport ∧ decode 0b0111_0110_00000000 = .ok .taskExit ∧
    decode 0b0111_0111_00000000 = .ok .taskRebuild ∧ decode 0b1000_0000_00000000 = .ok .bridgePoll := by decide

/-- V55 and rule R116: every kind of reserved word. -/
theorem test_decode_reserved : decode 0x0007 = .error .reservedRequest ∧ decode 0x0012 = .error .reservedRequest ∧
    decode 0x0102 = .error .reservedRequest ∧ decode 0x1101 = .error .reservedConfigOp ∧
    decode 0x100A = .error .reservedRegister ∧ decode 0x1028 = .error .reservedRegister ∧
    decode 0x10FF = .error .reservedRegister ∧ decode 0x2161 = .error .reservedBand ∧
    decode 0x212A = .error .reservedStage ∧ decode 0x2206 = .error .reservedBand ∧
    decode 0x20A1 = .error .reservedOperation ∧ decode 0x2301 = .error .reservedOperation ∧
    decode 0x8100 = .error .reservedOperation ∧ decode 0x9000 = .error .reservedGroup := by decide

theorem test_decode_table_word : decodeTableWord 16 0x2159 = some (.bqProcess 5 9) ∧
    decodeTableWord 16 0x9000 = none ∧ decodeTableWord 16 0x12159 = none := by decide

/-! ## Requests and writes -/

/-- V60. -/
theorem test_req_none : nextIs (exec .reqNone s0) (fun t =>
    t.ports.req == [(0x0000, .accepted)] && t.ctl == s0.ctl) = true := by decide +kernel
theorem test_req_stop : nextIs (exec .reqStop s0) (fun t => t.ctl == { s0.ctl with stop := true }) = true := by
  decide +kernel
theorem test_req_update_config : nextIs (exec .reqUpdateConfig s0) (fun t =>
    t.ctl == { s0.ctl with updPend := true, wake := true }) = true := by decide +kernel
theorem test_req_record : nextIs (exec .reqRecord s0) (fun t =>
    t.ctl == { s0.ctl with permit := false, action := .record, wake := true }) = true := by decide +kernel

/-- P3, step 2: a second request is rejected busy. -/
theorem test_req_play_busy : nextIs (exec .reqPlay { s0 with ctl := { s0.ctl with permit := false } }) (fun t =>
    t.ports.req == [(0x0003, .rejBusy)] && t.ports.log == [.busy .play]) = true := by decide +kernel

/-- V61: the buffer test comes before the busy test, and Passthru needs no buffer. -/
theorem test_req_without_buffer :
    nextIs (exec .reqDownloadWav { State.resetWith { hw4 with bufRoom := none } with
      ctl := { s0.ctl with permit := false } }) (fun t => t.ports.req == [(0x0005, .rejUnsupported)] &&
        t.ports.log == [.resourceUnavailable .downloadWav .noBuffer]) = true ∧
    nextIs (exec .reqPassthru (State.resetWith { hw4 with bufRoom := none })) (fun t =>
      t.ports.req == [(0x0004, .accepted)]) = true := by decide +kernel

/-- V56. -/
theorem test_cfg_write_masks_ctrl_en : nextIs (exec (.cfgWrite 0x01) { s0 with
    beside := { s0.beside with cfgValue := .field16 0xFFFF } }) (fun t =>
      t.cfg.ctrlEn == 0x07FF && t.act.ctrlEn == 0 && t.ctl == s0.ctl) = true := by decide +kernel

/-- A `real` register takes a `real`; a value of another type is no transaction (rule R112). -/
theorem test_cfg_write_band :
    nextIs (exec (.cfgWrite 0x18) { s0 with beside := { s0.beside with cfgValue := .real (.num 500) } }) (fun t =>
      t.cfg.bands.lp.freq == .num 500 && t.cfg.bands.hp.freq == .num 1000) = true ∧
    nextIs (exec (.cfgWrite 0x04) { s0 with beside := { s0.beside with cfgValue := .u32 300 } }) (fun t =>
      t.cfg == s0.cfg && t.ports.cfgp == []) = true := by decide +kernel

/-! ## The filters -/

/-- The operands of V1: a low-pass at 500 Hz of 16000 Hz, Q 0.707. -/
def v1Operands : Beside :=
  { s0.beside with bqType := 0, fc := .num (1 / 32), q := .num (707 / 1000), gain := .num 0 }

/-- V1: the five coefficients to nine decimal places. -/
theorem test_v1_configure : nextIs (exec (.bqConfigure 2 0) { s0 with beside := v1Operands }) (fun t =>
    let c := (bandGet (shadowBank t) .lp).stages[(0 : Fin 10)].coefs
    [giga c.a0, giga c.a1, giga c.a2, giga c.b1, giga c.b2] ==
      [8442538, 16885077, 8442538, -1723744612, 757514766]) = true := by decide +kernel

/-- V9: a cutoff of 0.6 and the type code 7 are refused without any change. -/
theorem test_v9_configure_refused :
    nextIs (exec (.bqConfigure 2 0) { s0 with beside := { v1Operands with fc := .num (6 / 10) } }) (fun t =>
      t.bank1 == s0.bank1 && t.ports.log == []) = true ∧
    nextIs (exec (.bqConfigure 2 0) { s0 with beside := { v1Operands with bqType := 7 } }) (fun t =>
      t.bank1 == s0.bank1 && t.ports.log == []) = true := by decide +kernel

/-- The stage of V1 in the active bank. -/
def v1Stage : Stage :=
  { Stage.reset with coefs := refDesign realsFmt .lowpass (1 / 32) (707 / 1000) 0 }

/-- The reset state with the stage of V1 as the one stage of band 2. -/
def v1State : State := { setActiveCascade s0 .lp ⟨1, s0.bank0.lp.stages.set 0 v1Stage⟩ with
  act := { s0.act with ctrlEn := 0x0004 } }

/-- A stage at the stage count is not processed (rule R62, entry U6). -/
theorem test_process_unbuilt_stage : nextIs (exec (.bqProcess 2 1) { v1State with
    beside := { s0.beside with sample := .num 10000 } }) (fun t =>
      t.bank0 == v1State.bank0 && t.result == .none) = true := by decide +kernel

/-- V3: one sample through the stage of V1. -/
theorem test_v3_process : nextIs (exec (.bqProcess 2 0) { v1State with beside := { s0.beside with sample := .num 10000 } })
    (fun t =>
      let st := (bandGet (activeBank t) .lp).stages[(0 : Fin 10)]
      places 7 st.z1 == 3143785670 && places 8 st.z2 == 2047190892 &&
        match t.result with
        | .sample y => places 8 y == 8442538352
        | .none | .hwBlock _ | .transfer _ => false) = true := by decide +kernel

/-- V2: two blocks through the stage of V1. -/
theorem test_v2_filter_block : nextIs (exec .filterBlock { v1State with wb := [10000, 0, 0, 0] }) (fun t =>
    wbIs [84, 314, 562, 731] t && nextIs (exec .filterBlock { t with wb := [0, 0, 0, 0] }) (wbIs [834, 884, 892, 868]))
      = true := by decide +kernel

/-- V12: the bands 1 and 2 in series, on an impulse; the second of two blocks goes on from the first. -/
theorem test_v12_two_bands :
    let build := fun (typ : BqType) (fc : Rat) =>
      { Stage.reset with coefs := refDesign realsFmt typ fc (707 / 1000) 0 }
    let s := setActiveCascade (setActiveCascade s0 .hp ⟨1, s0.bank0.hp.stages.set 0 (build .highpass (1 / 8))⟩) .lp
      ⟨1, s0.bank0.lp.stages.set 0 (build .lowpass (1 / 32))⟩
    nextIs (exec .filterBlock { s with wb := [10000, 0, 0, 0], act := { s0.act with ctrlEn := 0x0006 } }) (fun t =>
      wbIs [48, 128, 115, 20] t &&
        nextIs (exec .filterBlock { t with wb := [0, 0, 0, 0] }) (wbIs [-56, -90, -90, -73])) = true := by
  decide +kernel

/-- Rule R135 at a very small cutoff: `K > 0`. -/
theorem test_tan_of_small_cutoff :
    (0 < ratTanPi (1 / 2 ^ 300)) ∧ 2 ^ 300 < ratTanPi (1 / 2 - 1 / 2 ^ 302) := by decide +kernel

/-- V15: the rows of orders 1 to 3 to nine decimal places. -/
theorem test_v15_qtab : nextIs (exec .qtabInit s0) (fun t => t.qtabValid && t.qtab.length == 36 &&
    (t.qtab.take 6).map giga == [707106781, 541196100, 1306562965, 517638090, 707106781, 1931851653]) = true := by
  decide +kernel

/-- A configuration of V13: every band enabled, one register changed. -/
def v13State (f : BandRegs → BandRegs) (b : Band) : State :=
  { s0 with
    qtab := qvalTable realsFmt
    qtabValid := true
    act := { s0.act with ctrlEn := 0x003F, bands := bandSet s0.act.bands b (f (bandGet s0.act.bands b)) } }

/-- V13, `BAND_FREQ[2]` = 9000 and S2: clamped at Nyquist, the limit coefficients, logged. -/
theorem test_v13_nyquist_clamp :
    nextIs (exec (.buildCascade 2) (v13State (fun r => { r with freq := .num 9000 }) .lp)) (fun t =>
      (shadowBank t).lp.nst == 1 && (shadowBank t).lp.stages[(0 : Fin 10)].coefs ==
        ⟨.num 1, .num 2, .num 1, .num 2, .num 1⟩ && t.ports.log == [.configOutOfRange (.nyquistClamp .lp)]) = true := by
  decide +kernel

/-- V13, `BAND_ORDER[2]` = 200: eight stages with the Q values of `QTAB[28..35]`. -/
theorem test_v13_order_clamp :
    nextIs (exec (.buildCascade 2) (v13State (fun r => { r with order := 200 }) .lp)) (fun t =>
      (shadowBank t).lp.nst == 8 && (shadowBank t).lp.stages[(7 : Fin 10)].q == t.qtab.getD 35 .nan &&
        t.ports.log == [.configOutOfRange (.orderClamp .lp)]) = true := by decide +kernel

theorem test_cascade_swap : nextIs (exec .cascadeSwap v1State) (fun t =>
    t.ctl.bank && (shadowBank t).lp.nst == 1 && (activeBank t).lp.nst == 0) = true := by decide +kernel

/-! ## The other effects -/

/-- A setting of the oscillator. -/
def toneState (f : BitVec 32) (amp : BitVec 16) : State :=
  { s0 with act := { s0.act with toneFreq := f, toneAmp := amp } }

/-- V30: (16000, 2000, 1000). -/
theorem test_v30_tone_table : nextIs (exec .rmTableGen (toneState 2000 1000)) (fun t => t.rmValid && t.rmLen == 8 &&
    (t.sine.take 8).map BitVec.toInt == [0, 707, 1000, 707, 0, -707, -1000, -707]) = true := by decide +kernel

/-- V31: a frequency above the sample rate. -/
theorem test_v31_tone_refused : nextIs (exec .rmTableGen (toneState 20000 1000)) (fun t => !t.rmValid && t.rmLen == 0 &&
    t.ports.log == [.configOutOfRange .toneTable]) = true := by decide +kernel

/-- The table of V32. -/
def toneBlock (phase : Nat) (xs : List Int) : State :=
  { withBlock xs with
    sine := [0, 707, 1000, 707, 0, -707, -1000, -707]
    rmLen := 8
    rmAmp := 1000
    rmPhase := phase
    rmValid := true }

/-- V32, row 2: saturation, truncation and the wrap of the phase. -/
theorem test_v32_rm_block : nextIs (exec .rmBlock (toneBlock 4 [10000, -10000, -32768, 32767])) (fun t =>
    wbIs [0, 7070, 32767, -23166] t && t.rmPhase == 0) = true := by decide +kernel

/-- V33. -/
theorem test_v33_rm_block_unusable : nextIs (exec .rmBlock { toneBlock 4 [1, 2, 3, 4] with rmValid := false })
    (fun t => wbIs [1, 2, 3, 4] t && t.rmPhase == 4) = true := by decide +kernel

/-- V34, `DECAY` = 2 with an old line, and the saturating row: 20000 and 20000. -/
theorem test_v34_reverb :
    nextIs (exec .rvBlock { withBlock [0, 0, 0, 0] with dl := [1000, 0, 0, 0], act := { s0.act with decay := 2 } })
      (fun t => wbIs [333, 0, 0, 0] t && t.rvTap == 0) = true ∧
    nextIs (exec .rvBlock { withBlock [20000, 0, 0, 0] with dl := [20000, 0, 0, 0] }) (fun t =>
      wbIs [32767, 0, 0, 0] t && t.dl == [32767, 0, 0, 0]) = true := by decide +kernel

/-- V35. -/
theorem test_v35_clear : nextIs (exec .rvClear { s0 with dl := [1, 2, 3, 4], rvTap := 3 }) (fun t =>
    t.dl == [0, 0, 0, 0] && t.rvTap == 0) = true := by decide +kernel

/-- V36, factors 3, -3 and -128. -/
theorem test_v36_volume :
    nextIs (exec .volBlock { withBlock [100, -20000, 20000, 259] with act := { s0.act with volFactor := 3 } })
      (wbIs [300, -32768, 32767, 777]) = true ∧
    nextIs (exec .volBlock { withBlock [100, -20000, 20000, -7] with act := { s0.act with volFactor := -3 } })
      (wbIs [33, -6666, 6666, -2]) = true ∧
    nextIs (exec .volBlock { withBlock [127, 128, -32768, 32767] with act := { s0.act with volFactor := -128 } })
      (wbIs [0, 1, -256, 255]) = true := by decide +kernel

/-- Rule R236: the answer of the transform replaces the block. -/
theorem test_pitch_block : nextIs (exec .pitchBlock { withBlock [1, 2, 3, 4] with
    env := { s0.env with pvQ := [[9, 8, 7, 6]] } }) (fun t => wbIs [9, 8, 7, 6] t &&
      t.ports.pv == [.process [1, 2, 3, 4] [9, 8, 7, 6]]) = true := by decide +kernel

/-- V40 and V42. -/
theorem test_v40_clip :
    nextIs (exec .clipBlock (withBlock [1, 1000, -10000, -32768])) (wbIs [0, 999, -9745, -25600]) = true ∧
    nextIs (exec .clipBlock { withBlock [3, 23192, 32767, -32768] with
      act := { s0.act with clipFactor := .num clipMax } }) (wbIs [2, 11596, 10937, -10936]) = true := by decide +kernel

/-- V44, block 2: oscillator, reverb, volume and clipping in order. -/
theorem test_v44_chain : nextIs (exec .applyEffects { withBlock [8000, 8000, 8000, 8000] with
    act := { s0.act with ctrlEn := 0x01C0, decay := 1, volFactor := 2 }
    sine := [0, 1000, 0, -1000]
    rmLen := 4
    rmAmp := 1000
    rmValid := true
    dl := [0, 8000, 0, -8000] }) (fun t => wbIs [0, 20865, 0, -20865] t &&
      t.dl.map BitVec.toInt == [0, 12000, 0, -12000]) = true := by decide +kernel

/-- V45: under the bypass flag only the volume acts. -/
theorem test_v45_bypass : nextIs (exec .applyEffects { withBlock [1, -2, 3, 20000] with
    act := { s0.act with ctrlEn := 0x03FF, volFactor := 2 } }) (wbIs [2, -4, 6, 32767]) = true := by decide +kernel

/-! ## The sample buffer -/

/-- V46, `HW_WIDTH` = 32 and 24. -/
theorem test_v46_norm_in :
    nextIs (exec .normIn { State.resetWith { hw4 with hwWidth := .w32 } with
      beside := { s0.beside with hwBlock := [0x12345678, -1, -65536, 65535] } }) (wbIs [4660, -1, -1, 0]) = true ∧
    nextIs (exec .normIn { State.resetWith { hw4 with hwWidth := .w24 } with
      beside := { s0.beside with hwBlock := [0x123456, -1, -256, 255] } }) (wbIs [4660, -1, -1, 0]) = true := by
  decide +kernel

theorem test_v46_denorm_out : nextIs (exec .denormOut { withBlock [32767, -32768, 1, -2] with
    hw := { hw4 with hwWidth := .w32 } }) (fun t =>
      match t.result with
      | .hwBlock o => o.map BitVec.toInt == [2147418112, -2147483648, 65536, -131072]
      | .none | .sample _ | .transfer _ => false) = true := by decide +kernel

/-- V47, call 1, and the call that does not fit. -/
theorem test_v47_record_block :
    nextIs (exec .recordBlock (withBlock [1, -2, 1000, -32768])) (fun t =>
      rbIs 44 [0x01, 0x00, 0xFE, 0xFF, 0xE8, 0x03, 0x00, 0x80] t && t.wrCur == 8 && t.result == .transfer .ok) = true ∧
    nextIs (exec .recordBlock { withBlock [5, 6, 7, 8] with wrCur := 24 }) (fun t =>
      t.rb == [] && t.wrCur == 24 && t.result == .transfer .capFull) = true := by decide +kernel

/-- V48, call 2 and call 3. -/
theorem test_v48_read_block :
    nextIs (exec .readBlock { s0 with
      rb := memWriteBytes [] 52 [0x00, 0x01, 0x00, 0xFF, 0xFF, 0x7F, 0x00, 0x00], recEnd := 16, rdCur := 8 }) (fun t =>
        wbIs [256, -256, 32767, 0] t && t.rdCur == 16 && t.result == .transfer .ok) = true ∧
    nextIs (exec .readBlock { s0 with recEnd := 16, rdCur := 16 }) (fun t =>
      t.rdCur == 16 && t.result == .transfer .endOfData) = true := by decide +kernel

/-- V50, `WR_CUR` = 16. -/
theorem test_v50_header : nextIs (exec .buildWavHeader { s0 with wrCur := 16 }) (rbIs 0
    [0x52, 0x49, 0x46, 0x46, 0x34, 0x00, 0x00, 0x00, 0x57, 0x41, 0x56, 0x45, 0x66, 0x6D, 0x74, 0x20, 0x10, 0x00, 0x00,
     0x00, 0x01, 0x00, 0x01, 0x00, 0x80, 0x3E, 0x00, 0x00, 0x00, 0x7D, 0x00, 0x00, 0x02, 0x00, 0x10, 0x00, 0x64, 0x61,
     0x74, 0x61, 0x10, 0x00, 0x00, 0x00]) = true := by decide +kernel

theorem test_header_without_buffer :
    (match exec .buildWavHeader (State.resetWith { hw4 with bufRoom := none }) with
      | .fault .noRecordingBuffer => true
      | .next _ | .fault .outsideRecordingBuffer | .refused _ => false) = true := by decide +kernel

/-! ## The Task and the Bridge -/

/-- A state in which the Q table is computed and an action runs in a phase. -/
def running (a : ReqCode) (p : Phase) : State :=
  { s0 with
    qtab := qvalTable realsFmt
    qtabValid := true
    ctl := { s0.ctl with permit := false, action := a, phase := p, wake := p == .wait, feedback := p == .loop } }

/-- An environment that answers one input block and one output. -/
def oneBlock (xs : List Int) : Env :=
  { s0.env with inQ := [([], .block (xs.map (BitVec.ofInt 32)))], outQ := [([], .ok)], hwiQ := [.ok] }

/-- P1, step 8. -/
theorem test_p1_wake : nextIs (exec .taskWake (running .passthru .wait)) (fun t =>
    t.ctl.phase == .init && !t.ctl.wake) = true := by decide +kernel

/-- P2, step 3, and P5 (c). -/
theorem test_p2_init :
    nextIs (exec .taskInit { running .record .init with env := oneBlock [], wrCur := 8, recEnd := 8 }) (fun t =>
      t.ctl.phase == .loop && t.ctl.feedback && t.wrCur == 0 && t.recEnd == 0) = true ∧
    nextIs (exec .taskInit { running .passthru .init with env := { s0.env with hwiQ := [.unsupported] } }) (fun t =>
      t.ctl.phase == .exit && t.ctl.ioDisabled && t.ports.log == [.hwInitFailure .passthru .unsupported]) = true := by
  decide +kernel

/-- P2, step 4. -/
theorem test_p2_loop_record : nextIs (exec .loopRecord { running .record .loop with env := oneBlock [1, -2, 1000, -32768] })
    (fun t => rbIs 44 [0x01, 0x00, 0xFE, 0xFF, 0xE8, 0x03, 0x00, 0x80] t && t.wrCur == 8 && t.stageNew) = true := by
  decide +kernel

/-- P3, step 6: the buffer is full. -/
theorem test_p3_loop_record_full :
    nextIs (exec .loopRecord { running .record .loop with env := oneBlock [11, 12, 13, 14], wrCur := 24 }) (fun t =>
      t.ports.log == [.capacityExhausted 24] && t.ctl.phase == .exit && t.stage == [11, 12, 13, 14]) = true := by
  decide +kernel

/-- P3, steps 11 and 12. -/
theorem test_p3_loop_play :
    nextIs (exec .loopPlay { running .play .loop with
      env := oneBlock [], rb := memWriteBytes [] 44 [7, 0, 8, 0, 9, 0, 10, 0], recEnd := 8, wrCur := 8 }) (fun t =>
        wbIs [7, 8, 9, 10] t && t.rdCur == 8 && t.ports.out == [([7, 8, 9, 10], .ok)]) = true ∧
    nextIs (exec .loopPlay { running .play .loop with recEnd := 8, wrCur := 8, rdCur := 8 }) (fun t =>
      t.ctl.phase == .exit && t.ports.out == []) = true := by decide +kernel

/-- P5 (d): the second block, after an update request. -/
theorem test_p5_loop_passthru : nextIs (exec .loopPassthru { running .passthru .loop with
    ctl := { (running .passthru .loop).ctl with updPend := true, wake := true }
    cfg := { s0.cfg with volFactor := 5 }
    env := oneBlock [1, 2, 3, 4] }) (fun t => t.ports.out == [([5, 10, 15, 20], .ok)] && t.ctl.bank && !t.ctl.updPend &&
      t.ctl.wake) = true := by decide +kernel

/-- P2, steps 13 and 15. -/
theorem test_p2_loop_export :
    nextIs (exec .loopExport { running .downloadWav .loop with
      ctl := { (running .downloadWav .loop).ctl with hdrSent := true }
      rb := memWriteBytes [] 44 [0x01, 0x00, 0xFE, 0xFF, 0xE8, 0x03, 0x00, 0x80], recEnd := 8, wrCur := 8 }) (fun t =>
        t.ports.exported == [[0x01, 0x00, 0xFE, 0xFF, 0xE8, 0x03, 0x00, 0x80]] && t.rdCur == 8) = true ∧
    nextIs (exec .loopExport { running .downloadWav .loop with
      ctl := { (running .downloadWav .loop).ctl with hdrSent := true }, recEnd := 8, wrCur := 8, rdCur := 8 }) (fun t =>
        t.ctl.phase == .exit && t.ports.exported == []) = true := by decide +kernel

/-- P2, step 8. -/
theorem test_p2_exit : nextIs (exec .taskExit { running .record .exit with wrCur := 16 }) (fun t =>
    t.recEnd == 16 && t.ctl == { s0.ctl with permit := true }) = true := by decide +kernel

/-- V13, the row with a clip factor of 5.0 and 9000 Hz: the two log records in order. -/
theorem test_v13_rebuild : nextIs (exec .taskRebuild { s0 with
    qtab := qvalTable realsFmt
    cfg := { s0.cfg with ctrlEn := 0x003F, clipFactor := .num 5,
                         bands := bandSet s0.cfg.bands .lp { s0.cfg.bands.lp with freq := .num 9000 } } }) (fun t =>
      t.act.clipFactor == .num clipMax && t.ctl.bank && (Band.all.map fun b => (bandGet t.bank1 b).nst) == [1, 1, 1, 1, 1, 1] &&
        t.ports.log == [.configOutOfRange .clipClamp, .configOutOfRange (.nyquistClamp .lp)]) = true := by decide +kernel

/-- V65, rows 1 and 5. -/
theorem test_v65_bridge_poll :
    nextIs (exec .bridgePoll { s0 with
      stage := [1, 2, 3, 4], stageNew := true, env := { s0.env with attachedQ := [true], readyQ := [true] } }) (fun t =>
        t.ports.tx == [.attached true, .ready true, .send [1, 2, 3, 4] 8] && !t.stageNew) = true ∧
    nextIs (exec .bridgePoll { s0 with
      hw := { hw4 with transportMax := ⟨6, by decide⟩ }
      stageNew := true, env := { s0.env with attachedQ := [true] } }) (fun t =>
        t.ports.tx == [.attached true] && t.ports.log == [.configOutOfRange .transportSize] && !t.stageNew) = true := by
  decide +kernel

/-- Rule R410: the first step after reset is `QTAB_INIT`; then the Task waits. -/
theorem test_first_step : nextIs (step s0) (fun t => t.qtabValid &&
    nextIs (step t) (fun u => u.ctl == s0.ctl && u.ports.log == [])) = true := by decide +kernel

/-- `withFetchWord` runs its word as the very next step; a reserved word only logs (rule R116). -/
theorem test_fetch_word :
    nextIs (step (s0.withFetchWord 16 0x2500)) (fun t => t.ctl.bank && t.turns == []) = true ∧
    nextIs (step (s0.withFetchWord 16 0x9000)) (fun t =>
      t.ports.log == [.configOutOfRange (.reservedEncoding 0x9000)] && t.turns == []) = true := by decide +kernel

/-- Rule R375: the STOP button posts `REQ_STOP`. -/
theorem test_stop_button : nextIs (step { s0 with turns := [buttonTurn .stop] }) (fun t =>
    t.ctl.stop && t.ports.req == [(0x0006, .accepted)]) = true := by decide +kernel

end Sys2Proof.Tests
end

