-- ==== Sys2Proof/Tests/Witness.lean ====
section
/-! SUPPORT. Witnesses: for every statement with hypotheses, concrete states and operands that meet them all, with one
for each clause at a boundary of its range. -/

open Sys2Proof Sys2Proof.Machine

namespace Sys2Proof.Tests

-- one theorem after the other: each kernel evaluation otherwise holds a thread of its own
set_option Elab.async false

/-! ## Encoding and the step -/

theorem witness_DecodeGivesBackEveryOperation : wellFormed (.cfgWrite 0x27) = true ∧
    wellFormed (.bqConfigure 5 9) = true ∧ wellFormed (.bqProcess 0 0) = true ∧ wellFormed (.buildCascade 5) = true ∧
    wellFormed .bridgePoll = true := by decide

theorem witness_DecodedWordIsItsEncoding : decode 0x2159 = .ok (.bqProcess 5 9) := by decide

/-- One clause each: a directly named word, a request, a configuration write, a Bridge turn. -/
theorem witness_StepRunsTheDecodedOperation :
    (∃ s : State, s.turns = [.drive 0x3100 Beside.reset] ∧ decode 0x3100 = .ok .rmBlock) ∧
    (∃ s : State, s.turns = [.request 0x0006] ∧ decode 0x0006 = .ok .reqStop ∧ Instr.reqStop.issuer = .requester) ∧
    (∃ s : State, s.turns = [.config 0x1027 (.u8 4)] ∧ decode 0x1027 = .ok (.cfgWrite 0x27) ∧
      (Instr.cfgWrite 0x27).issuer = .configurator) ∧
    ∃ s : State, s.turns = [.bridge] :=
  ⟨⟨{ s0 with turns := [.drive 0x3100 Beside.reset] }, rfl, by decide⟩,
    ⟨{ s0 with turns := [.request 0x0006] }, rfl, by decide, rfl⟩,
    ⟨{ s0 with turns := [.config 0x1027 (.u8 4)] }, rfl, by decide, rfl⟩, ⟨{ s0 with turns := [.bridge] }, rfl⟩⟩

/-- One state for each of the nine clauses, with no turn scheduled. -/
theorem witness_TaskTakesItsEnabledStep :
    (s0.turns = [] ∧ s0.qtabValid = false) ∧
    (let u := running .passthru .wait
     u.turns = [] ∧ u.qtabValid = true ∧ u.ctl.phase = .wait ∧ u.ctl.wake = true) ∧
    (let u := { running .none .wait with ctl := s0.ctl }
     u.turns = [] ∧ u.qtabValid = true ∧ u.ctl.phase = .wait ∧ u.ctl.wake = false) ∧
    (let u := running .passthru .init
     u.turns = [] ∧ u.qtabValid = true ∧ u.ctl.phase = .init) ∧
    (∀ a ∈ [ReqCode.record, .play, .passthru, .downloadWav],
      let u := running a .loop
      u.turns = [] ∧ u.qtabValid = true ∧ u.ctl.phase = .loop ∧ u.ctl.action = a) ∧
    (let u := running .record .exit
     u.turns = [] ∧ u.qtabValid = true ∧ u.ctl.phase = .exit) := by
  decide +kernel

/-- A reserved request word and a configuration word on REQ, a request word and a reserved register on CFGP, and a
reserved word named directly. -/
theorem witness_ReservedWordsAreRefused :
    (∀ w ∈ [(0x0007 : CmdWord), 0x1001], ∀ i, decode w = .ok i → i.issuer ≠ .requester) ∧
    (∀ w ∈ [(0x0002 : CmdWord), 0x1028], ∀ i, decode w = .ok i → i.issuer ≠ .configurator) ∧
    decode 0x9000 = .error .reservedGroup := by
  refine ⟨fun w hw i h => ?_, fun w hw i h => ?_, by decide⟩
  · simp only [List.mem_cons, List.not_mem_nil, or_false] at hw
    rcases hw with rfl | rfl
    · rw [show decode 0x0007 = .error .reservedRequest by decide] at h; cases h
    · rw [show decode 0x1001 = .ok (.cfgWrite 0x01) by decide] at h; cases h; decide
  · simp only [List.mem_cons, List.not_mem_nil, or_false] at hw
    rcases hw with rfl | rfl
    · rw [show decode 0x0002 = .ok .reqRecord by decide] at h; cases h; decide
    · rw [show decode 0x1028 = .error .reservedRegister by decide] at h; cases h

/-! ## Requests and configuration writes -/

/-- The four outcomes, for a request that needs the buffer. -/
theorem witness_GatedRequestsCompeteForThePermit :
    ((Instr.reqRecord, ReqCode.record, (0x0002 : CmdWord)) ∈ [(Instr.reqRecord, ReqCode.record, (0x0002 : CmdWord)),
      (.reqPlay, .play, 0x0003), (.reqPassthru, .passthru, 0x0004), (.reqDownloadWav, .downloadWav, 0x0005)]) ∧
    (let s := State.resetWith { hw4 with bufRoom := none }
     s.hw.bufRoom = none ∧ ReqCode.record ≠ .passthru) ∧
    (let s := { s0 with ctl := { s0.ctl with ioDisabled := true } }
     ¬(s.hw.bufRoom = none ∧ ReqCode.record ≠ .passthru) ∧ s.ctl.ioDisabled = true ∧ ReqCode.record ≠ .downloadWav) ∧
    (let s := { s0 with ctl := { s0.ctl with permit := false } }
     ¬(s.hw.bufRoom = none ∧ ReqCode.record ≠ .passthru) ∧
      ¬(s.ctl.ioDisabled = true ∧ ReqCode.record ≠ .downloadWav) ∧ s.ctl.permit = false) ∧
    (¬(s0.hw.bufRoom = none ∧ ReqCode.record ≠ .passthru) ∧
      ¬(s0.ctl.ioDisabled = true ∧ ReqCode.record ≠ .downloadWav) ∧ s0.ctl.permit = true) := by
  decide +kernel

theorem witness_RequestsTouchOnlyRequestState : Instr.reqStop.issuer = .requester := rfl

/-- The first and the last number of each range that names no register, and a value of another type than the
register's. -/
theorem witness_ConfigWriteStoresThePendingCopy : (∀ rr ∈ [(0x0A : BitVec 8), 0x0F, 0x28, 0xFF],
    (0x0A ≤ rr.toNat ∧ rr.toNat ≤ 0x0F) ∨ 0x28 ≤ rr.toNat) ∧
    cfgRegOfNumber 0x04 = some .decay ∧ s0.beside.cfgValue.type ≠ CfgReg.decay.type := by decide

/-! ## The filters -/

/-- The last band and stage; a cutoff at the edge of the domain; the reserved type outside it. -/
theorem witness_ConfigureWritesOneShadowStage :
    bandOfCode 5 = some .pk ∧ stageOfCode 9 = some 9 ∧
    (let s := { s0 with beside := { v1Operands with bqType := 4, fc := .num (1 / 2) } }
     s.beside.bqType = BqType.peak.code ∧ fmtReal (floatFmt s) s.beside.fc = .num (1 / 2) ∧
       fmtReal (floatFmt s) s.beside.q = .num (707 / 1000) ∧ fmtReal (floatFmt s) s.beside.gain = .num 0 ∧
       (0 : Rat) < 1 / 2 ∧ (0 : Rat) < 707 / 1000) ∧
    ¬∃ (typ : BqType) (fc q g : Rat), (7 : BitVec 3) = typ.code ∧ fmtReal (floatFmt s0) v1Operands.fc = .num fc ∧
      fmtReal (floatFmt s0) v1Operands.q = .num q ∧ fmtReal (floatFmt s0) v1Operands.gain = .num g ∧ 0 < fc ∧
      fc ≤ 1 / 2 ∧ 0 < q := by
  refine ⟨by decide, by decide, ⟨rfl, rfl, rfl, rfl, by norm_num, by norm_num⟩, ?_⟩
  rintro ⟨typ, _, _, _, h, _⟩
  revert h; cases typ <;> decide

/-- The last stage in use, and the first that is not. -/
theorem witness_ProcessRunsOneActiveStage : bandOfCode 2 = some .lp ∧ stageOfCode 0 = some 0 ∧ stageOfCode 1 = some 1 ∧
    (0 : Fin 10).val < (bandGet (activeBank v1State) .lp).nst ∧
    (bandGet (activeBank v1State) .lp).nst ≤ (1 : Fin 10).val := by decide +kernel

theorem witness_StageComputesTheDifferenceEquation :
    AtRest { Stage.reset with coefs := ⟨.num 1, .num 2, .num 1, .num 2, .num 1⟩ } := ⟨rfl, rfl⟩

theorem witness_StageAtNyquistIsAPureGain : ((2 : Rat) ≠ 0) ∧
    AtRest { Stage.reset with coefs := designAtNyquist realsFmt .lowshelf true (.num 2) } := ⟨by norm_num, rfl, rfl⟩

theorem witness_ReferenceDesignIsStable :
    ((0 : Rat) < 1 / 10 ∧ (0 : Rat) < 2 ∧ (0 : Rat) < 14 / 10 ∧ (0 : Rat) < 2 ∧ (0 : Rat) < 707 / 1000) ∧
    ((0 : Rat) < 1 / 2 ^ 200 ∧ (1 : Rat) / 2 ^ 200 < 1 / 2) ∧ (1 / 2 - 1 / 2 ^ 200 : Rat) < 1 / 2 := by norm_num

/-- A disabled band, and the refusals at their edges: sample rate 0, a frequency of 0, a gain that is not a number, and
with order 1 and order 0 a Q of 0 and one that is not a number. -/
theorem witness_BuildLeavesAnEmptyCascade :
    bandOfCode 0 = some .bp ∧ bandOfCode 5 = some .pk ∧ s0.act.ctrlEn.getLsbD Band.pk.index = false ∧
    (let s := v13State id .pk
     let t := { s with act := { s.act with sampleRate := 0 } }
     t.act.ctrlEn.getLsbD Band.pk.index = true ∧ t.act.sampleRate = 0) ∧
    (let s := v13State (fun r => { r with freq := .num 0 }) .pk
     s.act.ctrlEn.getLsbD Band.pk.index = true ∧ (bandGet s.act.bands .pk).freq = .num 0 ∧ (0 : Rat) ≤ 0) ∧
    (let s := v13State (fun r => { r with gain := .nan }) .pk
     s.act.ctrlEn.getLsbD Band.pk.index = true ∧ (bandGet s.act.bands .pk).gain = .nan) ∧
    ∀ o ∈ [(0 : BitVec 8), 1], ∀ q ∈ [RealVal.num 0, .nan],
      let s := v13State (fun r => { r with order := o, q := q }) .hp
      let r := bandGet s.act.bands .hp
      s.act.ctrlEn.getLsbD Band.hp.index = true ∧ s.act.sampleRate ≠ 0 ∧ r.freq = .num 1000 ∧ r.gain = .num 0 ∧
        r.order.toNat ≤ 1 ∧ r.q = q ∧ ∀ x, q = .num x → x ≤ 0 := by
  have he : (0x003F : BitVec 16).getLsbD Band.pk.index = true := by decide
  have hh : (0x003F : BitVec 16).getLsbD Band.hp.index = true := by decide
  have hs : (16000 : BitVec 32) ≠ 0 := by decide
  refine ⟨by decide, by decide, by decide, ⟨he, rfl⟩, ⟨he, rfl, le_refl _⟩, ⟨he, rfl⟩, fun o ho q hq => ?_⟩
  refine ⟨hh, hs, rfl, rfl, ?_, rfl, ?_⟩
  · have : ∀ o ∈ [(0 : BitVec 8), 1], o.toNat ≤ 1 := by decide
    exact this o ho
  · intro x hx
    simp only [List.mem_cons, List.not_mem_nil, or_false] at hq
    rcases hq with rfl | rfl
    · cases hx; exact le_refl _
    · cases hx

/-- The parameters are usable at the order's and the cutoff's clamps: order 0, 8 and 9, frequency 8000 and 9000; with
order 3 a Q of 0 is usable too. -/
theorem witness_BuildConfiguresTheShadowCascade :
    bandOfCode 2 = some .lp ∧ (∀ o ∈ [(0 : BitVec 8), 1, 8, 9], ∀ fr ∈ [(8000 : Rat), 9000],
      let s := v13State (fun r => { r with order := o, freq := .num fr }) .lp
      s.hw.floatFmt = .reals ∧ s.qtabValid = true ∧ s.qtab = qvalTable realsFmt ∧
        s.act.ctrlEn.getLsbD Band.lp.index = true ∧ (bandGet s.act.bands .lp).freq = .num fr ∧
        (bandGet s.act.bands .lp).q = .num (7071 / 10000) ∧ (bandGet s.act.bands .lp).gain = .num 0 ∧
        s.act.sampleRate ≠ 0 ∧ 0 < fr ∧ (0 : Rat) < 7071 / 10000) ∧
    (let s := v13State (fun r => { r with order := 3, q := .num 0 }) .lp
     s.hw.floatFmt = .reals ∧ s.qtabValid = true ∧ s.qtab = qvalTable realsFmt ∧
       (bandGet s.act.bands .lp).q = .num 0 ∧ max 1 (min 8 (bandGet s.act.bands .lp).order.toNat) ≠ 1) := by
  have he : (0x003F : BitVec 16).getLsbD Band.lp.index = true := by decide
  have hs : (16000 : BitVec 32) ≠ 0 := by decide
  refine ⟨by decide, fun o _ fr hfr => ⟨rfl, rfl, rfl, he, rfl, rfl, rfl, hs, ?_, by norm_num⟩, rfl, rfl, rfl, rfl,
    by decide⟩
  simp only [List.mem_cons, List.not_mem_nil, or_false] at hfr
  rcases hfr with rfl | rfl <;> norm_num

theorem witness_FilterBlockRunsSamplesInOrder :
    (∀ b : Band, s0.act.ctrlEn.getLsbD b.index = false) ∧ v1State.act.ctrlEn.getLsbD Band.lp.index = true ∧
    (0 : Fin 10).val < (bandGet (activeBank v1State) .lp).nst :=
  ⟨fun b => by cases b <;> decide, by decide, by decide +kernel⟩

/-! ## The other effects -/

/-- A table of the largest length, of length 1, and the refusals at the edges of rule R191. -/
theorem witness_ToneTableGeneratedOrRefused :
    let legal := fun (fr : BitVec 32) (amp : BitVec 16) =>
      let s := toneState fr amp
      1 ≤ fr.toNat ∧ 1 ≤ amp.toNat ∧ amp.toNat ≤ 32767 ∧ 1 ≤ s.act.sampleRate.toNat / fr.toNat ∧
        s.act.sampleRate.toNat / fr.toNat ≤ (s.hw.rmTableMax : Nat)
    legal 1000 32767 ∧ legal 16000 1 ∧ ¬legal 0 1 ∧ ¬legal 16001 1 ∧ ¬legal 940 1 ∧ ¬legal 1000 0 ∧ ¬legal 1000 32768 := by
  decide +kernel

theorem witness_RingModulationMultipliesByTheTable : s0.rmValid = false ∧
    (toneBlock 7 [1, 2, 3, 4]).rmValid = true ∧ (toneBlock 7 [1, 2, 3, 4]).rmPhase < (toneBlock 7 [1, 2, 3, 4]).rmLen := by
  decide +kernel

theorem witness_ReverbAddsTheDelayedOutput :
    let s := { withBlock [1, 2, 3, 4] with rvTap := 3 }
    s.dl.length = (s.hw.reverbLen : Nat) ∧ s.rvTap < (s.hw.reverbLen : Nat) := by decide +kernel

theorem witness_ClearedReverbPassesTheInput :
    s0.dl = List.replicate (s0.hw.reverbLen : Nat) 0 ∧ s0.rvTap = 0 := ⟨rfl, rfl⟩

theorem witness_PitchStepTakesAnyAnswer :
    let s := { s0 with env := { s0.env with pvQ := [[9, 8, 7, 6]] } }
    s.env.pvQ = [9, 8, 7, 6] :: [] ∧ [(9 : S16), 8, 7, 6].length = blockLen s := by decide +kernel

/-- Both ends of the factor's range. -/
theorem witness_ClipFollowsTheCurve : s0.hw.floatFmt = .reals ∧ s0.act.clipFactor = .num 1 ∧ (1 : Rat) ≤ 267 / 100 ∧
    (let s := { s0 with act := { s0.act with clipFactor := .num (267 / 100) } }
     s.act.clipFactor = .num (267 / 100)) := ⟨rfl, rfl, by norm_num, rfl⟩

theorem witness_ChainRunsTheStepsInOrder :
    let s := { s0 with act := { s0.act with ctrlEn := 0x03FF } }
    s.act.ctrlEn.getLsbD 9 = true ∧ s.act.pitchRatio = .num 1 := ⟨by decide, rfl⟩

/-! ## The sample buffer -/

theorem witness_NormaliseKeepsTheTopBits :
    ({ s0 with beside := { s0.beside with hwBlock := [1, 2, 3, 4] } } : State).beside.hwBlock.length =
      blockLen { s0 with beside := { s0.beside with hwBlock := [1, 2, 3, 4] } } := by decide +kernel

/-- The ends of the range of a sample of 24 bits. -/
theorem witness_WidthRoundTrip : s0.wb.length = blockLen s0 ∧ HwWidth.w24 ≠ .w16 ∧
    (let s := { State.resetWith { hw4 with hwWidth := .w24 } with
       beside := { s0.beside with hwBlock := [0x7FFFFF, 0xFF800000, 255, 0xFFFFFFFF] } }
     s.beside.hwBlock.length = blockLen s ∧ ∀ h ∈ s.beside.hwBlock,
       -2 ^ (s.hw.hwWidth.bits - 1) ≤ h.toInt ∧ h.toInt < 2 ^ (s.hw.hwWidth.bits - 1)) := by
  have key : ∀ h ∈ [(0x7FFFFF : HwSample), 0xFF800000, 255, 0xFFFFFFFF], -8388608 ≤ h.toInt ∧ h.toInt < 8388608 := by
    intro h hh
    simp only [List.mem_cons, List.not_mem_nil, or_false] at hh
    rcases hh with rfl | rfl | rfl | rfl <;> decide
  have e : (2 : Int) ^ (24 - 1) = 8388608 := by norm_num
  refine ⟨by decide, by decide, by decide, fun h hh => ?_⟩
  change -(2 : Int) ^ (24 - 1) ≤ h.toInt ∧ h.toInt < 2 ^ (24 - 1)
  rw [e]; exact key h hh

/-- The last block that fits, and the first that does not. -/
theorem witness_RecordBlockAppendsOrRefuses :
    s0.hw.bufRoom = some 24 ∧ s0.wb.length = blockLen s0 ∧ Memory.wf s0.rb = true ∧
    (let s := { s0 with wrCur := 16 }
     44 + s.wrCur.toNat + 2 * blockLen s ≤ 44 + (24 : BitVec 32).toNat) ∧
    (let s := { s0 with wrCur := 17 }
     44 + s.wrCur.toNat + 2 * blockLen s > 44 + (24 : BitVec 32).toNat) := by decide +kernel

/-- The last block of the data, and one byte too few. -/
theorem witness_ReadBlockReturnsOrEnds :
    (let s := { s0 with recEnd := 24, rdCur := 16 }
     s.hw.bufRoom = some 24 ∧ s.recEnd.toNat ≤ (24 : BitVec 32).toNat ∧
      s.rdCur.toNat + 2 * blockLen s ≤ s.recEnd.toNat) ∧
    (let s := { s0 with recEnd := 23, rdCur := 16 }
     s.recEnd.toNat < s.rdCur.toNat + 2 * blockLen s) := by decide +kernel

theorem witness_RecordedBlockReadsBack :
    let s := { withBlock [1, -2, 1000, -32768] with wrCur := 16 }
    s.hw.bufRoom = some 24 ∧ s.wb.length = blockLen s ∧ Memory.wf s.rb = true ∧
      s.wrCur.toNat + 2 * blockLen s ≤ (24 : BitVec 32).toNat := by decide +kernel

theorem witness_HeaderBytesAreAsPrinted : (State.resetWith { hw4 with bufRoom := none }).hw.bufRoom = none ∧
    s0.hw.bufRoom ≠ none ∧ Memory.wf s0.rb = true := by decide +kernel

theorem witness_HeaderIsIdempotent : s0.hw.bufRoom ≠ none ∧ Memory.wf s0.rb = true := by decide +kernel

/-! ## The Task -/

theorem witness_WakeServesUpdateThenStartsAction :
    enabledStep s0 ≠ some .taskWake ∧
    (let s := running .passthru .wait
     s.qtabValid = true ∧ s.ctl.phase = .wait ∧ s.ctl.wake = true) := by decide +kernel

/-- A download, and each answer of the hardware for another action. -/
theorem witness_InitDispatchesOnTheAnswer :
    (let s := running .downloadWav .init
     s.qtabValid = true ∧ s.ctl.phase = .init ∧ s.ctl.action = .downloadWav) ∧
    (∀ a ∈ [ReqCode.record, .play, .passthru], ∀ h ∈ [HwiAnswer.ok, .fail, .unsupported],
      let s := { running a .init with env := { s0.env with hwiQ := [h] } }
      s.qtabValid = true ∧ s.ctl.phase = .init ∧ s.ctl.action = a ∧ s.ctl.action ≠ .downloadWav ∧ (takeHwi s).2 = h) := by
  decide +kernel

/-- The boundary of every loop, with an update pending and with a stop posted. -/
theorem witness_BoundaryServesUpdateThenStop :
    ∀ p ∈ [(Instr.loopRecord, ReqCode.record), (.loopPlay, .play), (.loopPassthru, .passthru),
      (.loopExport, .downloadWav)],
    let s := running p.2 .loop
    let u := { s with ctl := { s.ctl with updPend := true } }
    let v := { s with ctl := { s.ctl with stop := true } }
    u.qtabValid = true ∧ u.ctl.phase = .loop ∧ u.ctl.action = p.2 ∧ u.ctl.updPend = true ∧
      v.ctl.updPend = false ∧ v.ctl.stop = true := by decide +kernel

/-- No visit is queued in an environment of one block. -/
theorem noVisits_oneBlock (xs : List Int) : NoVisits (oneBlock xs) :=
  ⟨by simp [oneBlock], by simp [oneBlock], by simp [oneBlock, s0, State.resetWith, Env.reset]⟩

theorem witness_RecordLoopHandlesOneBlock : ∀ w ∈ [(16 : BitVec 32), 17],
    let s := { running .record .loop with env := oneBlock [1, 2, 3, 4], wrCur := w }
    s.hw.monitorRec = false ∧ enabledStep s = some .loopRecord ∧ s.ctl.updPend = false ∧ s.ctl.stop = false ∧
      NoVisits s.env ∧ takeIn s = ({ s with env := { s.env with inQ := [] } }, [], .block [1, 2, 3, 4]) ∧
      (w = 16 → 44 + s.wrCur.toNat + 2 * blockLen s ≤ bufCap s) ∧
      (w = 17 → bufCap s < 44 + s.wrCur.toNat + 2 * blockLen s) := by
  intro w _
  refine ⟨rfl, rfl, rfl, rfl, noVisits_oneBlock _, rfl, ?_, ?_⟩
  · rintro rfl; decide +kernel
  · rintro rfl; decide +kernel

theorem witness_PassthruLoopHandlesOneBlock :
    let s := { running .passthru .loop with env := oneBlock [1, 2, 3, 4] }
    enabledStep s = some .loopPassthru ∧ s.ctl.updPend = false ∧ s.ctl.stop = false ∧ NoVisits s.env ∧
      takeIn s = ({ s with env := { s.env with inQ := [] } }, [], .block [1, 2, 3, 4]) :=
  ⟨rfl, rfl, rfl, noVisits_oneBlock _, rfl⟩

theorem witness_PlayLoopHandlesOneBlock : ∀ r ∈ [(16 : BitVec 32), 24],
    let s := { running .play .loop with env := oneBlock [], wrCur := 24, recEnd := 24, rdCur := r }
    enabledStep s = some .loopPlay ∧ s.ctl.updPend = false ∧ s.ctl.stop = false ∧ NoVisits s.env ∧
      44 + s.recEnd.toNat ≤ bufCap s ∧ (r = 16 → s.rdCur.toNat + 2 * blockLen s ≤ s.recEnd.toNat) ∧
      (r = 24 → s.recEnd.toNat < s.rdCur.toNat + 2 * blockLen s) := by
  intro r _
  refine ⟨rfl, rfl, rfl, noVisits_oneBlock _, Nat.le_refl _, ?_, ?_⟩
  · rintro rfl; decide +kernel
  · rintro rfl; decide +kernel

/-- The header step, a block, and the end of the data. -/
theorem witness_ExportLoopEmitsTheFile :
    (let s := running .downloadWav .loop
     enabledStep s = some .loopExport ∧ s.ctl.updPend = false ∧ s.ctl.stop = false ∧ s.ctl.hdrSent = false ∧
      s.hw.bufRoom ≠ none) ∧
    ∀ r ∈ [(16 : BitVec 32), 24],
      let t := running .downloadWav .loop
      let s := { t with ctl := { t.ctl with hdrSent := true }, wrCur := 24, recEnd := 24, rdCur := r }
      enabledStep s = some .loopExport ∧ s.ctl.updPend = false ∧ s.ctl.stop = false ∧ s.ctl.hdrSent = true ∧
        44 + s.recEnd.toNat ≤ bufCap s ∧ (r = 16 → s.rdCur.toNat + 2 * blockLen s ≤ s.recEnd.toNat) ∧
        (r = 24 → s.recEnd.toNat < s.rdCur.toNat + 2 * blockLen s) := by
  refine ⟨⟨rfl, rfl, rfl, rfl, by decide⟩, fun r _ => ⟨rfl, rfl, rfl, rfl, Nat.le_refl _, ?_, ?_⟩⟩
  · rintro rfl; decide +kernel
  · rintro rfl; decide +kernel

theorem witness_ExitReturnsToIdle : (running .record .exit).qtabValid = true ∧ (running .record .exit).ctl.phase = .exit :=
  ⟨rfl, rfl⟩

/-! ## The Bridge and the waits -/

/-- Not attached; attached without a new block; a block too large, and one that just fits. -/
theorem witness_BridgeForwardsAtMostOneNewBlock :
    ((takeAttached { s0 with env := { s0.env with attachedQ := [false] } }).2 = false) ∧
    (let s := { s0 with env := { s0.env with attachedQ := [true], readyQ := [true] } }
     (takeAttached s).2 = true ∧ s.stageNew = false ∧ (takeReady (takeAttached s).1).2 = true) ∧
    (let s := { s0 with hw := { hw4 with transportMax := ⟨7, by decide⟩ }, stageNew := true }
     s.stageNew = true ∧ (s.hw.transportMax : Nat) < 2 * blockLen s) ∧
    (let s := { s0 with hw := { hw4 with transportMax := ⟨8, by decide⟩ }, stageNew := true }
     s.stageNew = true ∧ 2 * blockLen s ≤ (s.hw.transportMax : Nat)) := by decide +kernel

/-- A poll inside the copy that sends a mixture, and a copy with that poll. -/
theorem witness_TornReadMixesOldAndNew :
    let s : State := { s0 with
      stage := [1, 2, 3, 4], stageNew := true, wb := [5, 6, 7, 8]
      env := { s0.env with attachedQ := [true], readyQ := [true], copyQ := [[.bridge [false, true, false, true]]] } }
    let t : List S16 := [1, 6, 3, 8]
    s.stage.length = s.wb.length ∧ t.length = s.stage.length ∧
      (∀ i, i < t.length → t.getD i 0 = s.stage.getD i 0 ∨ t.getD i 0 = s.wb.getD i 0) ∧ s.stageNew = true ∧
      (takeAttached s).2 = true ∧ (takeReady (takeAttached s).1).2 = true ∧
      2 * blockLen s ≤ (s.hw.transportMax : Nat) ∧
      s.env.copyQ = [Visit.bridge [false, true, false, true]] :: [] := by decide +kernel

/-- A time-out with a visit; an input block and an output with visits; the steps that complete. -/
theorem witness_WaitsAdmitWholeSteps :
    (let s := { running .record .loop with env := { s0.env with inQ := [([.request 0x0006], .timeout)] } }
     enabledStep s = some .loopRecord ∧ s.ctl.updPend = false ∧ s.ctl.stop = false ∧
      s.env.inQ = ([.request 0x0006], .timeout) :: []) ∧
    (∀ p ∈ [(ReqCode.record, Instr.loopRecord), (.passthru, .loopPassthru)],
      let s := { running p.1 .loop with
        env := { s0.env with inQ := [([.request 0x0006], .block [1, 2, 3, 4])], outQ := [([.bridge []], .ok)] } }
      enabledStep s = some p.2 ∧ s.ctl.updPend = false ∧ s.ctl.stop = false ∧ s.hw.monitorRec = false ∧
        s.env.inQ = ([.request 0x0006], .block [1, 2, 3, 4]) :: [] ∧ s.env.outQ = ([.bridge []], .ok) :: [] ∧
        (readIn s).2 = .block [1, 2, 3, 4] ∧ 44 + s.wrCur.toNat + 2 * blockLen s ≤ bufCap s) ∧
    (let s := { running .play .loop with env := oneBlock [], wrCur := 24, recEnd := 24, rdCur := 16 }
     enabledStep s = some .loopPlay ∧ s.ctl.updPend = false ∧ s.ctl.stop = false ∧
      s.rdCur.toNat + 2 * blockLen s ≤ s.recEnd.toNat ∧ 44 + s.recEnd.toNat ≤ bufCap s) := by decide +kernel

/-- A recording with visits at its waits and the monitor on, at a write cursor: the last block that fits, and one that no
longer does. -/
theorem witness_WaitsAdmitWholeSteps_record :
    let at_ := fun (c : BitVec 32) => { running .record .loop with
      wrCur := c
      hw := { hw4 with monitorRec := true }
      env := { s0.env with inQ := [([.request 0x0006], .block [1, 2, 3, 4])], outQ := [([.bridge []], .ok)] } }
    (enabledStep (at_ 16) = some .loopRecord ∧ (at_ 16).ctl.updPend = false ∧ (at_ 16).ctl.stop = false ∧
      (readIn (at_ 16)).2 = .block [1, 2, 3, 4] ∧ 44 + (at_ 16).wrCur.toNat + 2 * blockLen (at_ 16) ≤ bufCap (at_ 16)) ∧
    (enabledStep (at_ 24) = some .loopRecord ∧ (at_ 24).ctl.updPend = false ∧ (at_ 24).ctl.stop = false ∧
      (readIn (at_ 24)).2 = .block [1, 2, 3, 4] ∧
      bufCap (at_ 24) < 44 + (at_ 24).wrCur.toNat + 2 * blockLen (at_ 24)) := by
  refine ⟨⟨?_, ?_, ?_, ?_, ?_⟩, ⟨?_, ?_, ?_, ?_, ?_⟩⟩ <;> decide +kernel

/-! ## The machine as a whole -/

/-- A state of a Passthru that runs, with a Stop posted, that meets the invariant. -/
def stopped : State :=
  { running .passthru .loop with ctl := { (running .passthru .loop).ctl with stop := true } }

theorem stopped_inv : MachineInv stopped where
  shape :=
    { wb_length := by decide +kernel
      stage_length := by decide +kernel
      dl_length := by decide +kernel
      tap_lt := by decide +kernel
      sine_length := by decide +kernel
      qtab_length := by decide +kernel
      qtab_computed := fun _ => rfl
      nst_bank0 := fun b => by cases b <;> decide
      nst_bank1 := fun b => by cases b <;> decide }
  tone := ⟨by decide, by decide, by decide, by decide, by decide⟩
  cursor :=
    { wrCur_fits := fun r _ => Nat.zero_le _
      wrCur_absent := fun h => by cases h
      recEnd_le := by decide
      wrCur_blocks := ⟨0, rfl⟩
      recEnd_blocks := ⟨0, rfl⟩
      rdCur_blocks := ⟨0, rfl⟩
      rdCur_le := fun _ _ => Nat.le_refl _ }
  buffer := ⟨rfl, fun c h => by cases h⟩
  control := ⟨by decide, by decide, by decide, by decide, by decide, by decide, by decide, by decide, by decide⟩
  config := ⟨by decide, by decide, 1, clipMax, rfl, rfl, by norm_num, by norm_num [clipMax]⟩

theorem witness_StepKeepsTheInvariant : MachineInv stopped ∧ ∃ t, step stopped = .next t :=
  ⟨stopped_inv, { stopped with ctl := { stopped.ctl with phase := .exit } }, rfl⟩

/-- Both disjuncts: a buffer is present, and no header build is scheduled. -/
theorem witness_NoStepStopsTheMachine : MachineInv stopped ∧ bufPresent stopped = true ∧
    ∀ b ts, stopped.turns ≠ .drive 0x6400 b :: ts := ⟨stopped_inv, rfl, fun _ _ h => by cases h⟩

theorem witness_StoppedActionReturnsToIdle :
    MachineInv stopped ∧ stopped.turns = [] ∧ stopped.ctl.permit = false ∧ stopped.ctl.stop = true :=
  ⟨stopped_inv, rfl, rfl, rfl⟩

/-- The permit stays taken, is taken, and is freed. -/
theorem witness_PermitIsSingleFlight : (MachineInv stopped ∧ ∃ t, exec .reqPlay stopped = .next t ∧ t.ctl.permit = false) ∧
    (∃ t, exec .reqRecord s0 = .next t ∧ s0.ctl.permit = true ∧ t.ctl.permit = false) ∧
    ∃ t, exec .taskExit (running .record .exit) = .next t ∧ (running .record .exit).ctl.permit = false ∧
      t.ctl.permit = true :=
  ⟨⟨stopped_inv, _, rfl, rfl⟩, ⟨_, rfl, rfl, rfl⟩, ⟨_, rfl, rfl, rfl⟩⟩

theorem witness_HistoriesOnlyGrow : ∃ t, step s0 = .next t := ⟨_, rfl⟩

theorem noConfigVisits_reset : NoConfigVisits s0.env :=
  ⟨by simp [s0, State.resetWith, Env.reset], by simp [s0, State.resetWith, Env.reset],
    by simp [s0, State.resetWith, Env.reset]⟩

theorem witness_OnlyTheConfiguratorWritesConfig : NoConfigVisits s0.env ∧ (∃ t, exec .cascadeSwap s0 = .next t) ∧
    (∀ rr, Instr.cascadeSwap ≠ .cfgWrite rr) ∧ Instr.cascadeSwap ≠ .taskRebuild ∧ s0.ctl.updPend = false ∧
    Instr.cascadeSwap ∉ [Instr.taskRebuild, .taskWake, .loopRecord, .loopPlay, .loopPassthru, .loopExport] :=
  ⟨noConfigVisits_reset, ⟨_, rfl⟩, (fun _ h => by cases h), by decide, rfl, by decide⟩

theorem witness_UnservedConfigIsInvisible : (∀ rr, Instr.applyEffects ≠ .cfgWrite rr) ∧
    Instr.applyEffects ≠ .taskRebuild ∧ s0.ctl.updPend = false ∧ NoConfigVisits s0.env :=
  ⟨(fun _ h => by cases h), by decide, rfl, noConfigVisits_reset⟩

theorem witness_MemoriesHaveTheirWriters : ∃ t, exec .rmBlock s0 = .next t := ⟨_, rfl⟩

end Sys2Proof.Tests
end

/-! # Every step completes, and keeps the port histories and the parameters

Settles O54 and O57. Both rest on two inversion lemmas: `step_cases` (which operation a step runs, and in which
state) and `loopStep_cases` (what a loop step runs). -/

namespace Sys2Proof.Machine

open Sys2Proof

/-! ## Which operation a step runs -/

theorem mem_of_lookupRow {w : CmdWord} {i : Instr} {rows : List (CmdWord × Instr)} (h : lookupRow w rows = some i) :
    (w, i) ∈ rows := by
  induction rows with
  | nil => cases h
  | cons row rest ih =>
    obtain ⟨m, j⟩ := row
    unfold lookupRow at h
    split at h
    · next hw => cases h; simp [hw]
    · exact List.mem_cons_of_mem _ (ih h)

theorem decodeStageWord_ok {make : BitVec 3 → BitVec 4 → Instr} {w : CmdWord} {i : Instr}
    (h : decodeStageWord make w = .ok i) : ∃ band stage, i = make band stage := by
  unfold decodeStageWord at h
  split_ifs at h
  cases h
  exact ⟨_, _, rfl⟩

/-- The rows with an operand field hold four operations (rules R108, R109). -/
theorem decodeFields_ok {w : CmdWord} {i : Instr} (h : decodeFields w = .ok i) :
    (∃ rr, i = .cfgWrite rr) ∨ (∃ band stage, i = .bqConfigure band stage) ∨
      (∃ band stage, i = .bqProcess band stage) ∨ ∃ band, i = .buildCascade band := by
  unfold decodeFields at h
  split_ifs at h
  · cases h; exact .inl ⟨_, rfl⟩
  · exact .inr (.inl (decodeStageWord_ok h))
  · exact .inr (.inr (.inl (decodeStageWord_ok h)))
  · cases h; exact .inr (.inr (.inr ⟨_, rfl⟩))

/-- The one word that names a header build (rule R108). -/
theorem word_of_decode_buildWavHeader {w : CmdWord} (h : decode w = .ok .buildWavHeader) : w = 0x6400 := by
  unfold decode at h
  split at h
  · next i hrow =>
    cases h
    simpa [fixedRows] using mem_of_lookupRow hrow
  · rcases decodeFields_ok h with ⟨_, h⟩ | ⟨_, _, h⟩ | ⟨_, _, h⟩ | ⟨_, h⟩ <;> cases h

theorem operationOfWord_ok {w : CmdWord} {i : Instr} (h : operationOfWord w = some i) : decode w = .ok i := by
  unfold operationOfWord at h
  split at h
  · next hw => cases h; exact hw
  · cases h

/-- The Task never takes a header build for a step of its own (rule R348). -/
theorem enabledStep_ne_buildWavHeader (s : State) : enabledStep s ≠ some .buildWavHeader := by
  intro h
  rcases enabledStep_cases h with ⟨_, h⟩ | ⟨_, h⟩
  · cases h
  · simp at h

/-- A word is taken on REQ only where it decodes to a request (rules R101, R116). -/
theorem requestOfWord_some {w : CmdWord} {i : Instr} (h : requestOfWord w = some i) :
    decode w = .ok i ∧ i.request?.isSome = true := by
  unfold requestOfWord at h
  split at h
  · next hw =>
    split at h
    · next hr => cases h; exact ⟨hw, hr⟩
    · cases h
  · cases h

/-- A word is taken on CFGP only where it decodes to a configuration write (rules R110, R116). -/
theorem configOfWord_some {w : CmdWord} {i : Instr} (h : configOfWord w = some i) :
    decode w = .ok i ∧ i.issuer = .configurator := by
  unfold configOfWord at h
  split at h
  · next hw =>
    split at h
    · next hr => cases h; exact ⟨hw, hr⟩
    · cases h
  · cases h

/-- What a step can be (rules R85, R107, R116, R348): an operation, no move, or the refusal of a word, each in a state
`u` that differs from `s` in the schedule and the operands beside the word only. -/
theorem step_cases (s : State) : ∃ u : State, u = { s with turns := u.turns, beside := u.beside } ∧
    ((∃ i, step s = exec i u ∧ (i = .buildWavHeader → ∃ b ts, s.turns = .drive 0x6400 b :: ts)) ∨
      step s = .next u ∨ (∃ w, step s = .next (rejectOnReq w u)) ∨ (∃ w v, step s = .next (rejectOnCfgp w v u)) ∨
      ∃ w, step s = .next (refuseReserved u w)) := by
  have task : ∀ u : State, step s = taskStep u →
      (∃ i, step s = exec i u ∧ (i = .buildWavHeader → ∃ b ts, s.turns = .drive 0x6400 b :: ts)) ∨ step s = .next u := by
    intro u hu
    cases hi : enabledStep u with
    | none => exact .inr (by simp [hu, taskStep, hi])
    | some i =>
      exact .inl ⟨i, by simp [hu, taskStep, hi], fun e => absurd (e ▸ hi) (enabledStep_ne_buildWavHeader u)⟩
  cases ht : s.turns with
  | nil =>
    rcases task s (by simp [step, ht]) with h | h
    · exact ⟨s, rfl, .inl (by rwa [ht] at h)⟩
    · exact ⟨s, rfl, .inr (.inl h)⟩
  | cons turn ts =>
    cases turn with
    | task =>
      rcases task (dropTurn s) (by simp [step, ht]) with h | h
      · exact ⟨_, rfl, .inl (by rwa [ht] at h)⟩
      · exact ⟨_, rfl, .inr (.inl h)⟩
    | bridge => exact ⟨dropTurn s, rfl, .inl ⟨.bridgePoll, by simp [step, ht], fun e => by cases e⟩⟩
    | request w =>
      refine ⟨dropTurn s, rfl, ?_⟩
      cases hi : requestOfWord w with
      | none => exact .inr (.inr (.inl ⟨w, by simp [step, ht, hi]⟩))
      | some i =>
        refine .inl ⟨i, by simp [step, ht, hi], fun e => ?_⟩
        subst e
        cases (requestOfWord_some hi).2
    | config w v =>
      cases hi : configOfWord w with
      | none => exact ⟨dropTurn s, rfl, .inr (.inr (.inr (.inl ⟨w, v, by simp [step, ht, hi]⟩)))⟩
      | some i =>
        refine ⟨withCfgValue (dropTurn s) v, rfl, .inl ⟨i, by simp [step, ht, hi], fun e => ?_⟩⟩
        subst e
        cases (configOfWord_some hi).2
    | drive w b =>
      cases hi : operationOfWord w with
      | none => exact ⟨dropTurn s, rfl, .inr (.inr (.inr (.inr ⟨w, by simp [step, ht, hi]⟩)))⟩
      | some i =>
        refine ⟨withBeside (dropTurn s) b, rfl, .inl ⟨i, by simp [step, ht, hi], fun e => ⟨b, ts, ?_⟩⟩⟩
        have hw : w = 0x6400 := word_of_decode_buildWavHeader (operationOfWord_ok (e ▸ hi))
        rw [hw]

/-! ## What a loop step runs -/

/-- After the block boundary a loop step handles its block or leaves the loop (rule R325). -/
theorem loopStep_cases (body : State → Host.Outcome State Fault Refusal) (s : State) :
    loopStep body s = body (servePending s) ∨ loopStep body s = .next (setPhase (servePending s) .exit) := by
  unfold loopStep boundary
  cases h : (servePending s).ctl.stop
  · exact .inl (by simp [h])
  · exact .inr (by simp [h])

/-- After the answer at IN a loop step handles the block or ends (rule R326). -/
theorem withInput_cases (body : List HwSample → State → State) (s : State) :
    withInput body s = .next (readIn s).1 ∨ ∃ h, withInput body s = .next (body h (readIn s).1) := by
  unfold withInput
  rcases readIn s with ⟨t, _ | h⟩
  · exact .inl rfl
  · exact .inr ⟨h, rfl⟩

/-! ## O54: every step completes -/

/-- The recorded data lie inside RB (rules R30, R71); an empty recording lies in any buffer. -/
def DataInBuffer (s : State) : Prop := s.recEnd.toNat = 0 ∨ 44 + s.recEnd.toNat ≤ bufCap s

theorem CursorInv.dataInBuffer {s : State} (h : CursorInv s) : DataInBuffer s := by
  have hle := h.recEnd_le
  cases hr : s.hw.bufRoom with
  | none =>
    have hw : s.wrCur.toNat = 0 := by simp [h.wrCur_absent hr]
    exact .inl (by omega)
  | some r =>
    have hfit := h.wrCur_fits r hr
    exact .inr (by simp only [bufCap, hr]; omega)

theorem DataInBuffer.congr {s t : State} (hhw : t.hw = s.hw) (hend : t.recEnd = s.recEnd) (h : DataInBuffer s) :
    DataInBuffer t := by
  unfold DataInBuffer
  rwa [hend, bufCap_congr hhw]

theorem blockBytes_pos (s : State) : 0 < blockBytes s := by
  have h : 0 < blockLen s := s.hw.blockLen.pos
  unfold blockBytes
  omega

/-- A block before the mark lies inside RB, so that `READ_BLOCK` never stops (rule R275). -/
theorem readBlock_completes {s : State} (h : DataInBuffer s) : ∃ r, readBlock s = .next r := by
  rcases readBlock_cases s with ⟨_, hr⟩ | ⟨hbefore, houtside, _⟩ | ⟨_, _, hr⟩
  · exact ⟨_, hr⟩
  · have hpos := blockBytes_pos s
    rcases h with h | h <;> omega
  · exact ⟨_, hr⟩

theorem withStored_completes (body : State → State) {s : State} (h : DataInBuffer s) :
    Completes (withStored body s) := by
  obtain ⟨⟨t, x⟩, hr⟩ := readBlock_completes h
  unfold withStored
  rw [hr]
  cases x <;> exact ⟨_, rfl⟩

theorem withInput_completes (body : List HwSample → State → State) (s : State) : Completes (withInput body s) := by
  rcases withInput_cases body s with h | ⟨_, h⟩ <;> exact ⟨_, h⟩

theorem buildWavHeader_completes {s : State} (h : bufPresent s = true) : Completes (buildWavHeader s) :=
  ⟨_, if_pos h⟩

theorem exportHeader_completes {s : State} (h : bufPresent s = true) : Completes (exportHeader s) := by
  obtain ⟨t, ht⟩ := buildWavHeader_completes h
  unfold exportHeader
  rw [ht]
  exact ⟨_, rfl⟩

/-- A loop step completes where its body does, in the state it was called in or after a rebuild (rule R325). -/
theorem loopStep_completes {body : State → Host.Outcome State Fault Refusal} {s : State}
    (h : ∀ t, RebuildRel s t → Completes (body t)) : Completes (loopStep body s) := by
  rcases loopStep_cases body s with e | e <;> rw [e]
  · exact h _ (servePending_rel s)
  · exact ⟨_, rfl⟩

theorem stepWhenEnabled_completes {i : Instr} {f : State → Host.Outcome State Fault Refusal} {s : State}
    (h : enabledStep s = some i → Completes (f s)) : Completes (stepWhenEnabled i f s) := by
  rcases stepWhenEnabled_cases i f s with ⟨hi, e⟩ | ⟨_, e⟩ <;> rw [e]
  · exact h hi
  · exact ⟨_, rfl⟩

theorem RebuildRel.dataInBuffer {s t : State} (h : RebuildRel s t) (hd : DataInBuffer s) : DataInBuffer t := by
  rw [show t = _ from h]
  exact hd

theorem RebuildRel.bufPresent {s t : State} (h : RebuildRel s t) (hb : bufPresent s = true) : bufPresent t = true := by
  rw [show t = _ from h]
  exact hb

theorem action_of_enabledStep_loopExport {s : State} (h : enabledStep s = some .loopExport) :
    s.ctl.action = .downloadWav := by
  rcases enabledStep_cases h with ⟨_, h⟩ | ⟨_, h⟩
  · cases h
  · have hrow : s.ctl.phase = .loop ∧ s.ctl.action = .downloadWav := by simpa using h
    exact hrow.2

theorem execLoopPlay_completes {s : State} (hd : DataInBuffer s) : Completes (execLoopPlay s) :=
  stepWhenEnabled_completes fun _ => loopStep_completes fun _ ht => withStored_completes _ (ht.dataInBuffer hd)

/-- A download is accepted only with a buffer, so that its header build does not stop (rules R303, R333). -/
theorem execLoopExport_completes {s : State} (hd : DataInBuffer s)
    (hb : needsBuffer s.ctl.action = true → bufPresent s = true) : Completes (execLoopExport s) := by
  refine stepWhenEnabled_completes fun he => loopStep_completes fun t ht => ?_
  have hbuf : bufPresent s = true := hb (by rw [action_of_enabledStep_loopExport he]; rfl)
  show Completes (if t.ctl.hdrSent then withStored exportBody t else exportHeader t)
  split
  · exact withStored_completes _ (ht.dataInBuffer hd)
  · exact exportHeader_completes (ht.bufPresent hbuf)

theorem execReadBlock_completes {s : State} (hd : DataInBuffer s) : Completes (execReadBlock s) := by
  obtain ⟨r, hr⟩ := readBlock_completes hd
  unfold execReadBlock
  rw [hr]
  exact ⟨_, rfl⟩

/-- The only accesses to RB that could fall outside it are reads of a block and header builds (rule R30). -/
theorem exec_completes {i : Instr} {s : State} (hd : DataInBuffer s)
    (hb : needsBuffer s.ctl.action = true → bufPresent s = true) (hi : i = .buildWavHeader → bufPresent s = true) :
    Completes (exec i s) := by
  cases i with
  | readBlock => exact execReadBlock_completes hd
  | buildWavHeader => exact buildWavHeader_completes (hi rfl)
  | loopRecord => exact stepWhenEnabled_completes fun _ => loopStep_completes fun t _ => withInput_completes recordBody t
  | loopPassthru =>
    exact stepWhenEnabled_completes fun _ => loopStep_completes fun t _ => withInput_completes passthruBody t
  | loopPlay => exact execLoopPlay_completes hd
  | loopExport => exact execLoopExport_completes hd hb
  | _ => exact ⟨_, rfl⟩

/-- Settles O54: the invariant keeps the recorded data inside RB and gives every download a buffer, so that only a header
build that a turn names directly can stop. -/
theorem noStepStopsTheMachine : Obligations.NoStepStopsTheMachine := by
  unfold Obligations.NoStepStopsTheMachine
  intro s inv hs
  obtain ⟨u, hu, hstep⟩ := step_cases s
  have hhw : u.hw = s.hw := by rw [hu]
  have hend : u.recEnd = s.recEnd := by rw [hu]
  have hctl : u.ctl = s.ctl := by rw [hu]
  have hbuf : bufPresent u = bufPresent s := by simp only [bufPresent, hhw]
  rcases hstep with ⟨i, h, hdrive⟩ | h | ⟨_, h⟩ | ⟨_, _, h⟩ | ⟨_, h⟩
  · rw [h]
    refine exec_completes (inv.cursor.dataInBuffer.congr hhw hend) ?_ fun hi => ?_
    · rw [hctl, hbuf]
      exact inv.control.buffer_needed
    · obtain ⟨b, ts, hturn⟩ := hdrive hi
      rw [hbuf]
      exact hs.resolve_right fun hne => hne b ts hturn
  all_goals exact ⟨_, h⟩

/-! ## O57: no history is rewritten, no parameter changes -/

/-- Every port history of `t` continues that of `s`, and the parameters are the same (rules R8, R60, R371). -/
def Grows (s t : State) : Prop := HistoriesGrow s.ports t.ports ∧ t.hw = s.hw

/-- Every next state of an outcome grows from `s`. -/
def OutcomeGrows (s : State) (o : Host.Outcome State Fault Refusal) : Prop := ∀ t, o = .next t → Grows s t

theorem Grows.of_same {s t : State} (hports : t.ports = s.ports) (hhw : t.hw = s.hw) : Grows s t :=
  ⟨by simp [HistoriesGrow, hports], hhw⟩

theorem Grows.refl (s : State) : Grows s s := .of_same rfl rfl

theorem HistoriesGrow.trans {p q r : Ports} (h : HistoriesGrow p q) (h' : HistoriesGrow q r) : HistoriesGrow p r := by
  obtain ⟨h1, h2, h3, h4, h5, h6, h7, h8, h9⟩ := h
  obtain ⟨g1, g2, g3, g4, g5, g6, g7, g8, g9⟩ := h'
  exact ⟨h1.trans g1, h2.trans g2, h3.trans g3, h4.trans g4, h5.trans g5, h6.trans g6, h7.trans g7, h8.trans g8,
    h9.trans g9⟩

theorem Grows.trans {s t u : State} (h : Grows s t) (h' : Grows t u) : Grows s u :=
  ⟨HistoriesGrow.trans h.1 h'.1, h'.2.trans h.2⟩

theorem OutcomeGrows.next {s t : State} (h : Grows s t) : OutcomeGrows s (.next t) := by
  intro u hu
  cases hu
  exact h

theorem OutcomeGrows.after {s t : State} {o : Host.Outcome State Fault Refusal} (h : Grows s t)
    (h' : OutcomeGrows t o) : OutcomeGrows s o := fun u hu => h.trans (h' u hu)

/-- A fold of operations that each grow the histories grows them. -/
theorem foldl_grows {α : Type} {f : State → α → State} (h : ∀ s a, Grows s (f s a)) (as : List α) (s : State) :
    Grows s (as.foldl f s) := by
  induction as generalizing s with
  | nil => exact .refl s
  | cons a as ih => exact (h s a).trans (ih _)

/-- A conditional operation grows the histories where the operation does. -/
theorem doIf_grows {f : State → State} (h : ∀ s, Grows s (f s)) (c : Bool) (s : State) : Grows s (doIf c f s) :=
  doIf_rel (h s) (.refl s)

/-! ### The recorders: each appends to its own history -/

theorem raiseAll_grows (s : State) (rs : List LogRecord) : Grows s (raiseAll s rs) := by simp [Grows, HistoriesGrow]

theorem raise_grows (s : State) (r : LogRecord) : Grows s (raise s r) := raiseAll_grows s [r]

theorem respond_grows (s : State) (w : CmdWord) (r : Response) : Grows s (respond s w r) := by
  simp [Grows, HistoriesGrow]

theorem recordCfgp_grows (s : State) (w : CmdWord) (v : CfgValue) : Grows s (recordCfgp s w v) := by
  simp [Grows, HistoriesGrow]

theorem recordTx_grows (s : State) (e : TxEvent) : Grows s (recordTx s e) := by simp [Grows, HistoriesGrow]

theorem recordPv_grows (s : State) (e : PvEvent) : Grows s (recordPv s e) := by simp [Grows, HistoriesGrow]

theorem emitChunk_grows (s : State) (bs : List Byte) : Grows s (emitChunk s bs) := by simp [Grows, HistoriesGrow]

theorem appendIn_grows (s : State) (a : InAnswer) : Grows s { s with ports.inp := s.ports.inp ++ [a] } := by
  simp [Grows, HistoriesGrow]

theorem appendOut_grows (s : State) (e : List HwSample × OutAnswer) :
    Grows s { s with ports.out := s.ports.out ++ [e] } := by
  simp [Grows, HistoriesGrow]

theorem appendHwi_grows (s : State) (e : HwiEvent) : Grows s { s with ports.hwi := s.ports.hwi ++ [e] } := by
  simp [Grows, HistoriesGrow]

theorem refuseReserved_grows (s : State) (w : CmdWord) : Grows s (refuseReserved s w) := raise_grows s _

/-! ### The answers of the environment touch no history -/

theorem takeIn_grows (s : State) : Grows s (takeIn s).1 := by
  rw [takeIn_frame]
  exact .of_same rfl rfl

theorem takeOut_grows (s : State) : Grows s (takeOut s).1 := by
  rw [takeOut_frame]
  exact .of_same rfl rfl

theorem takeCopy_grows (s : State) : Grows s (takeCopy s).1 := by
  rw [takeCopy_frame]
  exact .of_same rfl rfl

theorem takeHwi_grows (s : State) : Grows s (takeHwi s).1 := by
  rw [takeHwi_frame]
  exact .of_same rfl rfl

theorem takeAttached_grows (s : State) : Grows s (takeAttached s).1 := by
  rw [takeAttached_frame]
  exact .of_same rfl rfl

theorem takeReady_grows (s : State) : Grows s (takeReady s).1 := by
  rw [takeReady_frame]
  exact .of_same rfl rfl

theorem takePitch_grows (s : State) : Grows s (takePitch s).1 := by
  rw [takePitch_frame]
  exact .of_same rfl rfl

/-! ### The filters and the other effects -/

theorem setShadowCascade_grows (s : State) (b : Band) (c : Cascade) : Grows s (setShadowCascade s b c) := by
  rw [setShadowCascade_eq]
  exact .of_same rfl rfl

theorem setActiveCascade_grows (s : State) (b : Band) (c : Cascade) : Grows s (setActiveCascade s b c) := by
  rw [setActiveCascade_eq]
  exact .of_same rfl rfl

theorem bqConfigure_grows (band : BitVec 3) (stage : BitVec 4) (s : State) : Grows s (bqConfigure band stage s) := by
  unfold bqConfigure
  split
  · exact setShadowCascade_grows s _ _
  · exact refuseReserved_grows s _

theorem bqProcess_grows (band : BitVec 3) (stage : BitVec 4) (s : State) : Grows s (bqProcess band stage s) := by
  unfold bqProcess
  split
  · dsimp only
    split
    · exact (setActiveCascade_grows s _ _).trans (.of_same rfl rfl)
    · exact .refl s
  · exact refuseReserved_grows s _

theorem buildCascadeOf_grows (s : State) (b : Band) : Grows s (buildCascadeOf s b) :=
  (setShadowCascade_grows s b _).trans (raiseAll_grows _ _)

theorem buildCascade_grows (band : BitVec 3) (s : State) : Grows s (buildCascade band s) := by
  unfold buildCascade
  split
  · exact buildCascadeOf_grows s _
  · exact refuseReserved_grows s _

theorem filterBlock_grows (s : State) : Grows s (filterBlock s) := by
  rw [(filterBlock_frame s).eq]
  exact .of_same rfl rfl

theorem rmTableGen_grows (s : State) : Grows s (rmTableGen s) := by
  unfold rmTableGen
  dsimp only
  split
  · exact .of_same rfl rfl
  · exact Grows.trans (.of_same rfl rfl) (raise_grows _ _)

theorem rmBlock_grows (s : State) : Grows s (rmBlock s) := by
  rw [rmBlock_frame]
  exact .of_same rfl rfl

theorem pitchBlock_grows (s : State) : Grows s (pitchBlock s) := by
  have hrecord := (takePitch_grows s).trans
    (recordPv_grows _ (.process (takePitch s).1.wb (portBlock (blockLen (takePitch s).1) (takePitch s).2)))
  exact hrecord.trans (.of_same rfl rfl)

theorem rvBlock_grows (s : State) : Grows s (rvBlock s) := .of_same rfl rfl

theorem volBlock_grows (s : State) : Grows s (volBlock s) := .of_same rfl rfl

theorem clipBlock_grows (s : State) : Grows s (clipBlock s) := .of_same rfl rfl

theorem frontEffects_grows (s : State) : Grows s (frontEffects s) :=
  ((doIf_grows filterBlock_grows _ s).trans (doIf_grows rmBlock_grows _ _)).trans (doIf_grows rvBlock_grows _ _)

theorem applyEffects_grows (s : State) : Grows s (applyEffects s) :=
  (((doIf_grows frontEffects_grows _ s).trans (volBlock_grows _)).trans (doIf_grows pitchBlock_grows _ _)).trans
    (doIf_grows clipBlock_grows _ _)

/-! ### The Requester, the Configurator and the Bridge -/

theorem gated_grows (r : ReqCode) (s : State) : Grows s (gated r s).1 := by
  rcases gated_cases r s with ⟨_, _, h⟩ | ⟨_, _, h⟩ | ⟨_, h⟩ | ⟨_, _, _, h⟩ <;> rw [h]
  · exact raise_grows s _
  · exact raise_grows s _
  · exact raise_grows s _
  · exact .of_same rfl rfl

theorem serveRequest_grows (r : ReqCode) (s : State) : Grows s (serveRequest r s).1 := by
  cases r with
  | none | updateConfig | stop => exact .of_same rfl rfl
  | record | play | passthru | downloadWav => exact gated_grows _ s

theorem postRequest_grows (r : ReqCode) (s : State) : Grows s (postRequest r s) :=
  (serveRequest_grows r s).trans (respond_grows _ _ _)

theorem rejectOnReq_grows (w : CmdWord) (s : State) : Grows s (rejectOnReq w s) :=
  (refuseReserved_grows s w).trans (respond_grows _ _ _)

theorem requestArrives_grows (w : CmdWord) (s : State) : Grows s (requestArrives w s) := by
  unfold requestArrives
  split
  · exact postRequest_grows _ s
  · exact rejectOnReq_grows w s

theorem rejectOnCfgp_grows (w : CmdWord) (v : CfgValue) (s : State) : Grows s (rejectOnCfgp w v s) :=
  (refuseReserved_grows s w).trans (recordCfgp_grows _ _ _)

theorem storeRegister_grows (rr : BitVec 8) (r : CfgReg) (v : CfgValue) (s : State) :
    Grows s (storeRegister rr r v s) := by
  unfold storeRegister
  split
  · exact Grows.trans (.of_same rfl rfl) (recordCfgp_grows _ _ _)
  · exact .refl s

theorem configWrite_grows (rr : BitVec 8) (v : CfgValue) (s : State) : Grows s (configWrite rr v s) := by
  unfold configWrite
  split
  · exact storeRegister_grows rr _ _ s
  · exact rejectOnCfgp_grows _ v s

theorem configArrives_grows (w : CmdWord) (v : CfgValue) (s : State) : Grows s (configArrives w v s) := by
  unfold configArrives
  split
  · exact configWrite_grows _ v s
  · exact rejectOnCfgp_grows w v s

theorem bridgeForward_grows (t : List S16) (s : State) : Grows s (bridgeForward t s) := by
  have hseen : Grows s { s with stageNew := false } := .of_same rfl rfl
  rw [bridgeForward_eq]
  dsimp only
  split
  · exact hseen.trans (raise_grows _ _)
  · have hready := (hseen.trans (takeReady_grows _)).trans
      (recordTx_grows _ (.ready (takeReady { s with stageNew := false }).2))
    split
    · exact hready.trans (recordTx_grows _ _)
    · exact hready

theorem bridgePoll_grows (t : List S16) (s : State) : Grows s (bridgePoll t s) := by
  have hquery := (takeAttached_grows s).trans (recordTx_grows _ (.attached (takeAttached s).2))
  rw [bridgePoll_eq]
  dsimp only
  split
  · exact hquery.trans (bridgeForward_grows t _)
  · exact hquery

/-! ### The waiting points of a loop step -/

theorem visitStep_grows (writing : Option (List S16)) (s : State) (v : Visit) : Grows s (visitStep writing s v) := by
  cases v with
  | request w => exact requestArrives_grows w s
  | config w x => exact configArrives_grows w x s
  | bridge newAt => cases writing <;> exact bridgePoll_grows _ s

theorem runVisits_grows (writing : Option (List S16)) (vs : List Visit) (s : State) :
    Grows s (runVisits writing s vs) := foldl_grows (visitStep_grows writing) vs s

theorem readIn_grows (s : State) : Grows s (readIn s).1 := by
  rw [readIn_eq]
  exact ((takeIn_grows s).trans (runVisits_grows none _ _)).trans (appendIn_grows _ _)

theorem writeOut_grows (o : List HwSample) (s : State) : Grows s (writeOut o s) := by
  rw [writeOut_eq]
  exact ((takeOut_grows s).trans (runVisits_grows none _ _)).trans (appendOut_grows _ _)

theorem stageBlock_grows (s : State) : Grows s (stageBlock s) := by
  rw [stageBlock_eq]
  exact ((takeCopy_grows s).trans (runVisits_grows _ _ _)).trans (.of_same rfl rfl)

/-! ### The Recording Buffer -/

theorem recordBlock_grows (s : State) : Grows s (recordBlock s).1 := by
  rcases recordBlock_cases s with ⟨_, h⟩ | ⟨_, h⟩ <;> rw [h] <;> exact .of_same rfl rfl

theorem readBlock_grows {s : State} {r : State × Transfer} (h : readBlock s = .next r) : Grows s r.1 := by
  rcases readBlock_cases s with ⟨_, e⟩ | ⟨_, _, e⟩ | ⟨_, _, e⟩ <;> rw [e] at h <;> cases h <;> exact .of_same rfl rfl

theorem buildWavHeader_grows (s : State) : OutcomeGrows s (buildWavHeader s) := by
  unfold buildWavHeader
  split
  · exact .next (.of_same rfl rfl)
  · intro t h
    cases h

theorem execReadBlock_grows (s : State) : OutcomeGrows s (execReadBlock s) := by
  intro t h
  obtain ⟨r, hr, h⟩ := andThen_next h
  cases h
  exact (readBlock_grows hr).trans (.of_same rfl rfl)

/-! ### The Task -/

theorem snapshotConfig_grows (s : State) : Grows s (snapshotConfig s) :=
  Grows.trans (.of_same rfl rfl) (raiseAll_grows _ _)

theorem pvInit_grows (s : State) : Grows s (pvInit s) := recordPv_grows s _

theorem taskRebuild_grows (s : State) : Grows s (taskRebuild s) := by
  have hbuilt : Grows s (Band.all.foldl buildCascadeOf (snapshotConfig s)) :=
    (snapshotConfig_grows s).trans (foldl_grows buildCascadeOf_grows _ _)
  have hswapped : Grows s (cascadeSwap (Band.all.foldl buildCascadeOf (snapshotConfig s))) :=
    hbuilt.trans (.of_same rfl rfl)
  exact ((hswapped.trans (doIf_grows rmTableGen_grows _ _)).trans (doIf_grows pvInit_grows _ _)).trans
    (.of_same rfl rfl)

theorem servePending_grows (s : State) : Grows s (servePending s) := doIf_grows taskRebuild_grows _ s

theorem setPhase_grows (s : State) (p : Phase) : Grows s (setPhase s p) := .of_same rfl rfl

theorem taskWake_grows (s : State) : Grows s (taskWake s) := by
  have hasleep : Grows s { s with ctl.wake := false } := .of_same rfl rfl
  have hserved := hasleep.trans (servePending_grows _)
  unfold taskWake
  dsimp only
  split
  · exact hserved
  · exact hserved.trans (setPhase_grows _ _)

theorem entryAction_grows (a : ReqCode) (s : State) : Grows s (entryAction a s) := by
  cases a <;> exact .of_same rfl rfl

theorem hwiInit_grows (s : State) : Grows s (hwiInit s).1 := (takeHwi_grows s).trans (appendHwi_grows _ _)

theorem initAnswer_grows (s : State) : Grows s (initAnswer s).1 := by
  unfold initAnswer
  split
  · exact .refl s
  · exact hwiInit_grows s

theorem afterInit_grows (s : State) (r : HwiAnswer) : Grows s (afterInit s r) := by
  cases r with
  | ok => exact (entryAction_grows _ s).trans (.of_same rfl rfl)
  | fail => exact (raise_grows s _).trans (setPhase_grows _ _)
  | unsupported =>
    exact (Grows.trans (.of_same rfl rfl) (raise_grows { s with ctl.ioDisabled := true } _)).trans (setPhase_grows _ _)

theorem taskInit_grows (s : State) : Grows s (taskInit s) := (initAnswer_grows s).trans (afterInit_grows _ _)

theorem taskExit_grows (s : State) : Grows s (taskExit s) := by
  unfold taskExit
  split <;> exact .of_same rfl rfl

theorem recordOrExit_grows (s : State) : Grows s (recordOrExit s) := by
  unfold recordOrExit
  rcases recordBlock_cases s with ⟨_, h⟩ | ⟨_, h⟩ <;> rw [h]
  · exact (raise_grows s _).trans (setPhase_grows _ _)
  · exact .of_same rfl rfl

theorem normIn_grows (h : List HwSample) (s : State) : Grows s (normIn h s) := .of_same rfl rfl

theorem recordBody_grows (h : List HwSample) (s : State) : Grows s (recordBody h s) :=
  ((((normIn_grows h s).trans (doIf_grows applyEffects_grows _ _)).trans (stageBlock_grows _)).trans
    (doIf_grows (fun u => writeOut_grows (denormOut u) u) _ _)).trans (recordOrExit_grows _)

theorem passthruBody_grows (h : List HwSample) (s : State) : Grows s (passthruBody h s) :=
  (((normIn_grows h s).trans (applyEffects_grows _)).trans (stageBlock_grows _)).trans (writeOut_grows _ _)

theorem playBody_grows (s : State) : Grows s (playBody s) :=
  ((doIf_grows applyEffects_grows _ s).trans (stageBlock_grows _)).trans (writeOut_grows _ _)

theorem exportBody_grows (s : State) : Grows s (exportBody s) :=
  (doIf_grows applyEffects_grows _ s).trans (emitChunk_grows _ _)

theorem exportHeader_grows (s : State) : OutcomeGrows s (exportHeader s) := by
  intro t h
  obtain ⟨u, hu, h⟩ := andThen_next h
  cases h
  exact ((buildWavHeader_grows s u hu).trans (emitChunk_grows _ _)).trans (.of_same rfl rfl)

theorem withInput_grows {body : List HwSample → State → State} (hbody : ∀ h s, Grows s (body h s)) (s : State) :
    OutcomeGrows s (withInput body s) := by
  rcases withInput_cases body s with e | ⟨h, e⟩ <;> rw [e]
  · exact .next (readIn_grows s)
  · exact .next ((readIn_grows s).trans (hbody h _))

theorem withStored_grows {body : State → State} (hbody : ∀ s, Grows s (body s)) (s : State) :
    OutcomeGrows s (withStored body s) := by
  intro t h
  obtain ⟨⟨u, x⟩, hr, h⟩ := andThen_next h
  have hu : Grows s u := readBlock_grows hr
  cases x <;> cases h
  · exact hu.trans (hbody u)
  · exact hu.trans (setPhase_grows _ _)
  · exact hu.trans (setPhase_grows _ _)

theorem loopStep_grows {body : State → Host.Outcome State Fault Refusal} (hbody : ∀ s, OutcomeGrows s (body s))
    (s : State) : OutcomeGrows s (loopStep body s) := by
  rcases loopStep_cases body s with e | e <;> rw [e]
  · exact .after (servePending_grows s) (hbody _)
  · exact .next ((servePending_grows s).trans (setPhase_grows _ _))

theorem stepWhenEnabled_grows {f : State → Host.Outcome State Fault Refusal} (hf : ∀ s, OutcomeGrows s (f s))
    (i : Instr) (s : State) : OutcomeGrows s (stepWhenEnabled i f s) := by
  rcases stepWhenEnabled_cases i f s with ⟨_, e⟩ | ⟨_, e⟩ <;> rw [e]
  · exact hf s
  · exact .next (.refl s)

theorem whenEnabled_grows {f : State → State} (hf : ∀ s, Grows s (f s)) (i : Instr) (s : State) :
    Grows s (whenEnabled i f s) := by
  rcases whenEnabled_cases i f s with ⟨_, e⟩ | ⟨_, e⟩ <;> rw [e]
  · exact hf s
  · exact .refl s

theorem exportStep_grows (s : State) :
    OutcomeGrows s (if s.ctl.hdrSent then withStored exportBody s else exportHeader s) := by
  split
  · exact withStored_grows exportBody_grows s
  · exact exportHeader_grows s

/-! ### The operations and the step -/

theorem exec_grows (i : Instr) (s : State) : OutcomeGrows s (exec i s) := by
  cases i with
  | reqNone | reqUpdateConfig | reqRecord | reqPlay | reqPassthru | reqDownloadWav | reqStop =>
    exact .next (postRequest_grows _ s)
  | cfgWrite rr => exact .next (configWrite_grows rr _ s)
  | bqConfigure band stage => exact .next (bqConfigure_grows band stage s)
  | bqProcess band stage => exact .next (bqProcess_grows band stage s)
  | buildCascade band => exact .next (buildCascade_grows band s)
  | qtabInit | cascadeSwap | rvClear | denormOut => exact .next (.of_same rfl rfl)
  | filterBlock => exact .next (filterBlock_grows s)
  | rmTableGen => exact .next (rmTableGen_grows s)
  | rmBlock => exact .next (rmBlock_grows s)
  | pitchBlock => exact .next (pitchBlock_grows s)
  | rvBlock => exact .next (rvBlock_grows s)
  | volBlock => exact .next (volBlock_grows s)
  | clipBlock => exact .next (clipBlock_grows s)
  | normIn => exact .next (normIn_grows _ s)
  | applyEffects => exact .next (applyEffects_grows s)
  | recordBlock => exact .next ((recordBlock_grows s).trans (.of_same rfl rfl))
  | readBlock => exact execReadBlock_grows s
  | buildWavHeader => exact buildWavHeader_grows s
  | taskWake => exact .next (whenEnabled_grows taskWake_grows _ s)
  | taskInit => exact .next (whenEnabled_grows taskInit_grows _ s)
  | loopRecord => exact stepWhenEnabled_grows (loopStep_grows (withInput_grows recordBody_grows)) _ s
  | loopPlay => exact stepWhenEnabled_grows (loopStep_grows (withStored_grows playBody_grows)) _ s
  | loopPassthru => exact stepWhenEnabled_grows (loopStep_grows (withInput_grows passthruBody_grows)) _ s
  | loopExport => exact stepWhenEnabled_grows (loopStep_grows exportStep_grows) _ s
  | taskExit => exact .next (whenEnabled_grows taskExit_grows _ s)
  | taskRebuild => exact .next (taskRebuild_grows s)
  | bridgePoll => exact .next (bridgePoll_grows _ s)

theorem step_grows (s : State) : OutcomeGrows s (step s) := by
  obtain ⟨u, hu, hstep⟩ := step_cases s
  have hsu : Grows s u := .of_same (by rw [hu]) (by rw [hu])
  rcases hstep with ⟨i, h, _⟩ | h | ⟨w, h⟩ | ⟨w, v, h⟩ | ⟨w, h⟩ <;> rw [h] <;> refine .after hsu ?_
  · exact exec_grows i u
  · exact .next (.refl u)
  · exact .next (rejectOnReq_grows w u)
  · exact .next (rejectOnCfgp_grows w v u)
  · exact .next (refuseReserved_grows u w)

/-- Settles O57: every operation only appends to the histories of the ports, and none writes the parameters. -/
theorem historiesOnlyGrow : Obligations.HistoriesOnlyGrow := by
  unfold Obligations.HistoriesOnlyGrow
  exact step_grows

end Sys2Proof.Machine

/-! # Reset, configuration writes, one active stage, the filters and the bank swap

Settles O10, O12, O19, O21, O51 and O52. -/

namespace Sys2Proof.Machine

open Sys2Proof

/-! ## O10: a configuration write of every register number -/

/-- Every register is found under its number (rule R110). -/
theorem cfgRegOfNumber_cfgRegNumber (r : CfgReg) : cfgRegOfNumber (cfgRegNumber r) = some r := by
  cases r with
  | band b f => cases b <;> cases f <;> rfl
  | _ => rfl

/-- The numbers of rule R40 name no register. -/
theorem cfgRegOfNumber_eq_none {rr : BitVec 8} (h : (0x0A ≤ rr.toNat ∧ rr.toNat ≤ 0x0F) ∨ 0x28 ≤ rr.toNat) :
    cfgRegOfNumber rr = none := by
  unfold cfgRegOfNumber
  split
  case h_11 =>
    have hband : ¬(0x10 ≤ rr.toNat ∧ rr.toNat < 0x28) := by omega
    rw [if_neg hband]
  all_goals omega

/-- The command word of `CFG_WRITE`: group 1 and the register number (rule R108). -/
theorem encode_cfgWrite (rr : BitVec 8) : encode (.cfgWrite rr) = 0x1000 ||| rr.setWidth 16 :=
  BitVec.append_def (0x10 : BitVec 8) rr

/-- `CFG_WRITE` of a register with a value of its type (rule R306). -/
theorem exec_cfgWrite_stores {s : State} {v : CfgValue} {c : CfgRegs} (r : CfgReg)
    (hc : cfgStore s.cfg r (portValue (floatFmt s) v) = some c) :
    exec (.cfgWrite (cfgRegNumber r)) { s with beside := { s.beside with cfgValue := v } } = .next { s with
      beside := { s.beside with cfgValue := v }
      cfg := c
      ports.cfgp := s.ports.cfgp ++ [(0x1000 ||| (cfgRegNumber r).setWidth 16, portValue (floatFmt s) v)] } := by
  rw [← encode_cfgWrite]
  show Host.Outcome.next (configWrite _ v { s with beside := { s.beside with cfgValue := v } }) = _
  unfold configWrite
  rw [cfgRegOfNumber_cfgRegNumber]
  dsimp only
  unfold storeRegister
  rw [show floatFmt { s with beside := { s.beside with cfgValue := v } } = floatFmt s from rfl, hc]
  rfl

/-- A value of another type than the register's cannot be presented (rule R112). -/
theorem exec_cfgWrite_mistyped {s : State} {rr : BitVec 8} {r : CfgReg} (hr : cfgRegOfNumber rr = some r)
    (hv : s.beside.cfgValue.type ≠ r.type) : exec (.cfgWrite rr) s = .next s := by
  have hnone : cfgStore s.cfg r (portValue (floatFmt s) s.beside.cfgValue) = none := by
    rw [← Option.not_isSome_iff_eq_none, cfgStore_isSome, portValue_type]
    exact hv
  show Host.Outcome.next (configWrite rr s.beside.cfgValue s) = _
  unfold configWrite
  rw [hr]
  dsimp only
  unfold storeRegister
  rw [hnone]

/-- A register number that names no register is refused (rules R40, R116). -/
theorem exec_cfgWrite_refused {s : State} {rr : BitVec 8} (hr : cfgRegOfNumber rr = none) :
    exec (.cfgWrite rr) s = .next (rejectOnCfgp (0x1000 ||| rr.setWidth 16) s.beside.cfgValue s) := by
  show Host.Outcome.next (configWrite rr s.beside.cfgValue s) = _
  unfold configWrite
  rw [hr, encode_cfgWrite]

/-- Settles O10: each register number finds its register, whose store answers the printed copy. -/
theorem configWriteStoresThePendingCopy : Obligations.ConfigWriteStoresThePendingCopy := by
  unfold Obligations.ConfigWriteStoresThePendingCopy
  intro s
  refine ⟨fun x => exec_cfgWrite_stores .sampleRate rfl, fun x => exec_cfgWrite_stores .ctrlEn rfl,
    fun x => exec_cfgWrite_stores .toneFreq rfl, fun x => exec_cfgWrite_stores .toneAmp rfl,
    fun x => exec_cfgWrite_stores .decay rfl, fun x => exec_cfgWrite_stores .clipFactor rfl,
    fun x => exec_cfgWrite_stores .pitchRatio rfl, fun x => exec_cfgWrite_stores .volFactor rfl,
    fun x => exec_cfgWrite_stores .micRoute rfl, fun x => exec_cfgWrite_stores .ampRoute rfl, fun b => ?_,
    fun rr r hr hv => exec_cfgWrite_mistyped hr hv, fun rr h => exec_cfgWrite_refused (cfgRegOfNumber_eq_none h)⟩
  exact ⟨fun x => exec_cfgWrite_stores (.band b .freq) rfl, fun x => exec_cfgWrite_stores (.band b .q) rfl,
    fun x => exec_cfgWrite_stores (.band b .gain) rfl, fun x => exec_cfgWrite_stores (.band b .order) rfl⟩

/-! ## O12, O19 and O21: one stage, one block, one swap -/

/-- Settles O12: below the count the stage is processed and written back, at or above it the operation refuses. -/
theorem processRunsOneActiveStage : Obligations.ProcessRunsOneActiveStage := by
  unfold Obligations.ProcessRunsOneActiveStage
  intro s band stage b k hb hk
  have hexec : exec (.bqProcess band stage) s = .next (
      if k.val < (bandGet (activeBank s) b).nst then
        let r := processStage (floatFmt s) (bandGet (activeBank s) b).stages[k] (realOperand s s.beside.sample)
        { setActiveCascade s b (setStage (bandGet (activeBank s) b) k r.1) with result := .sample r.2 }
      else s) := by
    show Host.Outcome.next (bqProcess band stage s) = _
    unfold bqProcess
    rw [hb, hk]
  dsimp only
  rw [hexec]
  exact ⟨fun h => by rw [if_pos h]; rfl, fun h => by rw [if_neg (by omega)]⟩

/-- Settles O19: the frame of block filtering, band by band. -/
theorem filterBlockTouchesOnlyStagesInUse : Obligations.FilterBlockTouchesOnlyStagesInUse := by
  unfold Obligations.FilterBlockTouchesOnlyStagesInUse
  intro s
  have h := filterBlock_frame s
  exact ⟨filterBlock s, rfl, h.eq, h.length, h.shadow, h.band⟩

theorem activeBank_cascadeSwap (s : State) : activeBank (cascadeSwap s) = shadowBank s := by
  unfold activeBank shadowBank
  cases h : s.ctl.bank <;> simp [cascadeSwap, h]

theorem shadowBank_cascadeSwap (s : State) : shadowBank (cascadeSwap s) = activeBank s := by
  unfold activeBank shadowBank
  cases h : s.ctl.bank <;> simp [cascadeSwap, h]

/-- Settles O21: only the bank bit is inverted, and each bank is read in the place of the other. -/
theorem swapExchangesTheBanks : Obligations.SwapExchangesTheBanks := by
  unfold Obligations.SwapExchangesTheBanks
  intro s
  exact ⟨cascadeSwap s, rfl, rfl, activeBank_cascadeSwap s, shadowBank_cascadeSwap s⟩

/-! ## O51 and O52: the state after reset -/

/-- Every cascade of both banks is empty after reset (rule R61). -/
theorem resetWith_nst (hw : HwParams) (b : Band) :
    (bandGet (State.resetWith hw).bank0 b).nst = 0 ∧ (bandGet (State.resetWith hw).bank1 b).nst = 0 := by
  cases b <;> exact ⟨rfl, rfl⟩

/-- Settles O51: the reset state, field by field. -/
theorem resetLeavesTheSpecValues : Obligations.ResetLeavesTheSpecValues := by
  unfold Obligations.ResetLeavesTheSpecValues
  refine ⟨rfl, rfl, rfl, rfl, rfl, rfl, rfl, rfl, rfl, rfl, rfl, rfl, fun b => ?_, resetWith_nst _, rfl, rfl, rfl, rfl,
    rfl, rfl, rfl, rfl, rfl, rfl, rfl, rfl, rfl, rfl, rfl⟩
  exact bandGet_same _ b

theorem resetWith_shapeInv (hw : HwParams) : ShapeInv (State.resetWith hw) where
  wb_length := List.length_replicate
  stage_length := List.length_replicate
  dl_length := List.length_replicate
  tap_lt := hw.reverbLen.pos
  sine_length := List.length_replicate
  qtab_length := List.length_replicate
  qtab_computed := nofun
  nst_bank0 b := by rw [(resetWith_nst hw b).1]; exact Nat.zero_le _
  nst_bank1 b := by rw [(resetWith_nst hw b).2]; exact Nat.zero_le _

theorem resetWith_cursorInv (hw : HwParams) : CursorInv (State.resetWith hw) where
  wrCur_fits _ _ := Nat.zero_le _
  wrCur_absent _ := rfl
  recEnd_le := le_rfl
  wrCur_blocks := dvd_zero _
  recEnd_blocks := dvd_zero _
  rdCur_blocks := dvd_zero _
  rdCur_le := nofun

/-- An Idle controller with no update pending that would not wake the Task meets its invariant (rule R42). -/
theorem ControlInv.of_idle {s : State} (hpermit : s.ctl.permit = true) (hphase : s.ctl.phase = .wait)
    (haction : s.ctl.action = .none) (hfeedback : s.ctl.feedback = false)
    (hpending : s.ctl.updPend = true → s.ctl.wake = true) : ControlInv s where
  idle_phase _ := hphase
  idle_action _ := haction
  taken_action h := by simp [hpermit] at h
  accepted_wakes h := by simp [hpermit] at h
  pending_wakes := hpending
  loop_feedback h := by simp [hphase] at h
  feedback_phase h := by simp [hfeedback] at h
  table_first h := absurd hphase h
  buffer_needed h := by simp [haction, needsBuffer] at h

theorem resetIn_reserved (f : FloatFmt) : (CfgRegs.resetIn f).ctrlEn.extractLsb' 11 5 = 0 := by
  show (0 : BitVec 16).extractLsb' 11 5 = 0
  decide

theorem resetWith_configInv (hw : HwParams) : ConfigInv (State.resetWith hw) where
  cfg_reserved := resetIn_reserved _
  act_reserved := resetIn_reserved _
  act_clip := by
    obtain ⟨top, htop, hlow, _⟩ := fmtOf_clipMax hw.floatFmt
    exact ⟨1, top, rfl, htop, le_rfl, by linarith⟩

/-- Settles O52: each part of the invariant holds of the reset state. -/
theorem resetMeetsTheInvariant : Obligations.ResetMeetsTheInvariant := by
  unfold Obligations.ResetMeetsTheInvariant
  intro hw
  exact
    { shape := resetWith_shapeInv hw
      tone := ⟨nofun, Nat.zero_le _, nofun, nofun, nofun⟩
      cursor := resetWith_cursorInv hw
      buffer := ⟨rfl, nofun⟩
      control := .of_idle rfl rfl rfl rfl nofun
      config := resetWith_configInv hw }

end Sys2Proof.Machine

/-! # What keeps the data: the part of the invariant that is not the controller's

Most operations leave the controller alone. `DataStep` says so, together with what they keep of the memories, the
cursors and the configuration; `DataStep.inv` turns it into the invariant of the machine. -/

namespace Sys2Proof.Machine

open Sys2Proof

/-- The invariant of the machine without its clauses on the controller. -/
structure DataInv (s : State) : Prop where
  shape : ShapeInv s
  tone : ToneInv s
  cursor : CursorInv s
  buffer : BufferInv s
  config : ConfigInv s

theorem MachineInv.data {s : State} (inv : MachineInv s) : DataInv s :=
  ⟨inv.shape, inv.tone, inv.cursor, inv.buffer, inv.config⟩

theorem DataInv.machine {s : State} (d : DataInv s) (c : ControlInv s) : MachineInv s :=
  ⟨d.shape, d.tone, d.cursor, d.buffer, c, d.config⟩

/-- A change that keeps the data's invariant and of the controller changes only the bits about which the invariant says
nothing; a pending update may be cleared. -/
structure DataStep (s t : State) : Prop where
  data : DataInv s → DataInv t
  hw : t.hw = s.hw
  table : t.qtabValid = s.qtabValid
  ctl : t.ctl = { s.ctl with stop := t.ctl.stop, bank := t.ctl.bank, hdrSent := t.ctl.hdrSent,
                             ioDisabled := t.ctl.ioDisabled, updPend := t.ctl.updPend }
  pending : t.ctl.updPend = true → s.ctl.updPend = true

/-- A change of the data alone. -/
theorem DataStep.of_data {s t : State} (data : DataInv s → DataInv t) (hw : t.hw = s.hw := by rfl)
    (table : t.qtabValid = s.qtabValid := by rfl) (ctl : t.ctl = s.ctl := by rfl) : DataStep s t :=
  ⟨data, hw, table, by rw [ctl], by rw [ctl]; exact id⟩

theorem DataStep.refl (s : State) : DataStep s s := ⟨id, rfl, rfl, rfl, id⟩

theorem DataStep.trans {s t u : State} (h : DataStep s t) (h' : DataStep t u) : DataStep s u where
  data d := h'.data (h.data d)
  hw := h'.hw.trans h.hw
  table := h'.table.trans h.table
  ctl := by rw [h'.ctl]; rw [h.ctl]
  pending p := h.pending (h'.pending p)

theorem DataStep.phase {s t : State} (h : DataStep s t) : t.ctl.phase = s.ctl.phase := by rw [h.ctl]

theorem DataStep.control {s t : State} (h : DataStep s t) (c : ControlInv s) : ControlInv t := by
  have hpermit : t.ctl.permit = s.ctl.permit := by rw [h.ctl]
  have haction : t.ctl.action = s.ctl.action := by rw [h.ctl]
  have hwake : t.ctl.wake = s.ctl.wake := by rw [h.ctl]
  have hfeedback : t.ctl.feedback = s.ctl.feedback := by rw [h.ctl]
  have hbuf : bufPresent t = bufPresent s := by simp only [bufPresent, h.hw]
  constructor <;> simp only [hpermit, haction, hwake, hfeedback, h.phase, h.table, hbuf]
  · exact c.idle_phase
  · exact c.idle_action
  · exact c.taken_action
  · exact c.accepted_wakes
  · exact fun p => c.pending_wakes (h.pending p)
  · exact c.loop_feedback
  · exact c.feedback_phase
  · exact c.table_first
  · exact c.buffer_needed

theorem DataStep.inv {s t : State} (h : DataStep s t) (inv : MachineInv s) : MachineInv t :=
  (h.data inv.data).machine (h.control inv.control)

theorem foldl_dataStep {α : Type} {f : State → α → State} (h : ∀ s a, DataStep s (f s a)) (as : List α) (s : State) :
    DataStep s (as.foldl f s) := by
  induction as generalizing s with
  | nil => exact .refl s
  | cons a as ih => exact (h s a).trans (ih _)

theorem doIf_dataStep {f : State → State} (h : ∀ s, DataStep s (f s)) (c : Bool) (s : State) :
    DataStep s (doIf c f s) := doIf_rel (h s) (.refl s)

/-! ### One lemma for each part of the state -/

/-- The fields the invariant does not read: the port histories, the environment's answers, the schedule, the latches
and some bits of the controller. -/
def Unread (s t : State) : Prop := t = { s with
  rmSr := t.rmSr, rmFreq := t.rmFreq, stageNew := t.stageNew, ports := t.ports, env := t.env, turns := t.turns
  beside := t.beside, result := t.result
  ctl := { s.ctl with stop := t.ctl.stop, bank := t.ctl.bank, hdrSent := t.ctl.hdrSent,
                      ioDisabled := t.ctl.ioDisabled } }

theorem Unread.dataStep {s t : State} (h : Unread s t) : DataStep s t := by
  rw [show t = _ from h]
  exact
    { data := fun d =>
        { shape := { d.shape with }, tone := { d.tone with }, cursor := { d.cursor with }, buffer := { d.buffer with }
          config := { d.config with } }
      hw := rfl
      table := rfl
      ctl := rfl
      pending := id }

theorem clearPending_dataStep (s : State) : DataStep s { s with ctl := { s.ctl with updPend := false } } where
  data d :=
    { shape := { d.shape with }, tone := { d.tone with }, cursor := { d.cursor with }, buffer := { d.buffer with }
      config := { d.config with } }
  hw := rfl
  table := rfl
  ctl := rfl
  pending := nofun

theorem wb_dataStep {s : State} {l : List S16} (hl : DataInv s → l.length = blockLen s) :
    DataStep s { s with wb := l } :=
  .of_data fun d =>
    { shape := { d.shape with wb_length := hl d }, tone := { d.tone with }, cursor := { d.cursor with }
      buffer := { d.buffer with }, config := { d.config with } }

theorem stage_dataStep {s : State} {l : List S16} (hl : DataInv s → l.length = blockLen s) :
    DataStep s { s with stage := l, stageNew := true } :=
  .of_data fun d =>
    { shape := { d.shape with stage_length := hl d }, tone := { d.tone with }, cursor := { d.cursor with }
      buffer := { d.buffer with }, config := { d.config with } }

/-- The stage counts of both banks stay within the largest order (rules R23, R163). -/
theorem banks_dataStep {s : State} {p q : Bank}
    (h : DataInv s → (∀ b, (bandGet p b).nst ≤ maxOrder) ∧ ∀ b, (bandGet q b).nst ≤ maxOrder) :
    DataStep s { s with bank0 := p, bank1 := q } :=
  .of_data fun d =>
    { shape := { d.shape with nst_bank0 := (h d).1, nst_bank1 := (h d).2 }, tone := { d.tone with }
      cursor := { d.cursor with }, buffer := { d.buffer with }, config := { d.config with } }

theorem line_dataStep {s : State} {l : List S16} {tap : Nat}
    (h : DataInv s → l.length = s.hw.reverbLen ∧ tap < s.hw.reverbLen) :
    DataStep s { s with dl := l, rvTap := tap } :=
  .of_data fun d =>
    { shape := { d.shape with dl_length := (h d).1, tap_lt := (h d).2 }, tone := { d.tone with }
      cursor := { d.cursor with }, buffer := { d.buffer with }, config := { d.config with } }

theorem phase_dataStep {s : State} {n : Nat} (h : DataInv s → s.rmValid = true → n < s.rmLen) :
    DataStep s { s with rmPhase := n } :=
  .of_data fun d =>
    { shape := { d.shape with }, tone := { d.tone with phase_lt := h d }, cursor := { d.cursor with }
      buffer := { d.buffer with }, config := { d.config with } }

theorem config_dataStep {s : State} {c : CfgRegs} (h : DataInv s → c.ctrlEn.extractLsb' 11 5 = 0) :
    DataStep s { s with cfg := c } :=
  .of_data fun d =>
    { shape := { d.shape with }, tone := { d.tone with }, cursor := { d.cursor with }, buffer := { d.buffer with }
      config := { d.config with cfg_reserved := h d } }

theorem bytes_dataStep {s : State} {m : Memory}
    (h : DataInv s → Memory.wf m = true ∧ ∀ c ∈ m, c.1 < bufCap s) : DataStep s { s with rb := m } :=
  .of_data fun d =>
    { shape := { d.shape with }, tone := { d.tone with }, cursor := { d.cursor with }, buffer := ⟨(h d).1, (h d).2⟩
      config := { d.config with } }

theorem cursors_dataStep {s : State} {w e r : BitVec 32}
    (h : DataInv s → CursorInv { s with wrCur := w, recEnd := e, rdCur := r }) :
    DataStep s { s with wrCur := w, recEnd := e, rdCur := r } :=
  .of_data fun d =>
    { shape := { d.shape with }, tone := { d.tone with }, cursor := h d, buffer := { d.buffer with }
      config := { d.config with } }

/-! ### The recorders and the environment's answers -/

theorem raiseAll_dataStep (s : State) (rs : List LogRecord) : DataStep s (raiseAll s rs) := Unread.dataStep rfl

theorem refuseReserved_dataStep (s : State) (w : CmdWord) : DataStep s (refuseReserved s w) := Unread.dataStep rfl

theorem BridgeRel.dataStep {s t : State} (h : BridgeRel s t) : DataStep s t := by
  rw [show t = _ from h]
  exact Unread.dataStep rfl

/-! ### The filters -/

theorem setShadowCascade_dataStep {s : State} {b : Band} {c : Cascade} (hc : DataInv s → c.nst ≤ maxOrder) :
    DataStep s (setShadowCascade s b c) := by
  rw [setShadowCascade_eq]
  exact banks_dataStep fun d =>
    setShadowCascade_banks (P := fun c => c.nst ≤ maxOrder) (hc d) d.shape.nst_bank0 d.shape.nst_bank1

theorem setActiveCascade_dataStep {s : State} {b : Band} {c : Cascade} (hc : DataInv s → c.nst ≤ maxOrder) :
    DataStep s (setActiveCascade s b c) := by
  rw [setActiveCascade_eq]
  exact banks_dataStep fun d =>
    setActiveCascade_banks (P := fun c => c.nst ≤ maxOrder) (hc d) d.shape.nst_bank0 d.shape.nst_bank1

theorem ShapeInv.nst_active {s : State} (h : ShapeInv s) (b : Band) : (bandGet (activeBank s) b).nst ≤ maxOrder := by
  unfold activeBank
  split
  · exact h.nst_bank1 b
  · exact h.nst_bank0 b

theorem ShapeInv.nst_shadow {s : State} (h : ShapeInv s) (b : Band) : (bandGet (shadowBank s) b).nst ≤ maxOrder := by
  unfold shadowBank
  split
  · exact h.nst_bank0 b
  · exact h.nst_bank1 b

theorem bqConfigure_dataStep (band : BitVec 3) (stage : BitVec 4) (s : State) :
    DataStep s (bqConfigure band stage s) := by
  unfold bqConfigure
  split
  · exact setShadowCascade_dataStep fun d => d.shape.nst_shadow _
  · exact refuseReserved_dataStep s _

theorem bqProcess_dataStep (band : BitVec 3) (stage : BitVec 4) (s : State) : DataStep s (bqProcess band stage s) := by
  unfold bqProcess
  split
  · dsimp only
    split
    · refine DataStep.trans (setActiveCascade_dataStep fun d => ?_) (Unread.dataStep rfl)
      exact d.shape.nst_active _
    · exact .refl s
  · exact refuseReserved_dataStep s _

theorem buildCascadeOf_dataStep (s : State) (b : Band) : DataStep s (buildCascadeOf s b) :=
  (setShadowCascade_dataStep fun _ => builtCascade_nst _ _ _ _ _ _).trans (raiseAll_dataStep _ _)

theorem buildCascade_dataStep (band : BitVec 3) (s : State) : DataStep s (buildCascade band s) := by
  unfold buildCascade
  split
  · exact buildCascadeOf_dataStep s _
  · exact refuseReserved_dataStep s _

theorem filterBand_dataStep (s : State) (b : Band) : DataStep s (filterBand s b) := by
  by_cases h : bandEn s.act b = true ∧ 0 < (bandGet (activeBank s) b).nst
  · rw [filterBand_on h.1 h.2]
    refine DataStep.trans (setActiveCascade_dataStep fun d => ?_) (wb_dataStep fun d => ?_)
    · exact d.shape.nst_active b
    · rw [(filterSamples_frame _ _ _ _).1, ← d.shape.wb_length, setActiveCascade_wb]
  · have hoff : filterBand s b = s := if_neg (by simpa using h)
    rw [hoff]
    exact .refl s

theorem filterBlock_dataStep (s : State) : DataStep s (filterBlock s) := foldl_dataStep filterBand_dataStep _ s

theorem cascadeSwap_dataStep (s : State) : DataStep s (cascadeSwap s) := Unread.dataStep rfl

/-! ### The oscillator, the reverb and the rest of the chain -/

/-- A table is usable exactly where the setting is legal (rules R190, R191). -/
theorem rmTableGen_dataStep (s : State) : DataStep s (rmTableGen s) := by
  unfold rmTableGen
  dsimp only
  split
  · next hlegal =>
    unfold rmLegal at hlegal
    obtain ⟨_, hamp, hamp', hlen, hlen'⟩ := of_decide_eq_true hlegal
    exact .of_data fun d =>
      { shape := { d.shape with
          sine_length := by
            have hsine := d.shape.sine_length
            simp only [sineTable, List.length_append, List.length_map, List.length_range, List.length_drop]
            omega }
        tone := ⟨fun _ => hlen, hlen', fun _ => hlen, fun _ => hamp, fun _ => hamp'⟩
        cursor := { d.cursor with }, buffer := { d.buffer with }, config := { d.config with } }
  · exact .of_data fun d =>
      { shape := { d.shape with }, tone := ⟨nofun, Nat.zero_le _, nofun, nofun, nofun⟩
        cursor := { d.cursor with }, buffer := { d.buffer with }, config := { d.config with } }

theorem rmBlock_dataStep (s : State) : DataStep s (rmBlock s) := by
  unfold rmBlock
  split
  · exact (wb_dataStep fun d => (rmLoop_length _ _ _ _ _).trans d.shape.wb_length).trans
      (phase_dataStep fun d hvalid => rmLoop_phase_lt _ _ _ _ _ (d.tone.phase_lt hvalid))
  · exact .refl s

theorem rvBlock_dataStep (s : State) : DataStep s (rvBlock s) :=
  (wb_dataStep fun d => (rvLoop_length _ _ _ _ _).trans d.shape.wb_length).trans
    (line_dataStep fun d => ⟨(rvLoop_line_length _ _ _ _ _).trans d.shape.dl_length,
      rvLoop_tap_lt _ _ _ _ _ d.shape.tap_lt⟩)

theorem rvClear_dataStep (s : State) : DataStep s (rvClear s) :=
  line_dataStep fun _ => ⟨List.length_replicate, s.hw.reverbLen.pos⟩

theorem volBlock_dataStep (s : State) : DataStep s (volBlock s) :=
  wb_dataStep fun d => (List.length_map _).trans d.shape.wb_length

theorem clipBlock_dataStep (s : State) : DataStep s (clipBlock s) :=
  wb_dataStep fun d => (List.length_map _).trans d.shape.wb_length

theorem pitchBlock_dataStep (s : State) : DataStep s (pitchBlock s) := by
  rw [pitchBlock_eq]
  exact (wb_dataStep fun _ => portBlock_length _ _).trans (Unread.dataStep rfl)

theorem frontEffects_dataStep (s : State) : DataStep s (frontEffects s) :=
  ((doIf_dataStep filterBlock_dataStep _ s).trans (doIf_dataStep rmBlock_dataStep _ _)).trans
    (doIf_dataStep rvBlock_dataStep _ _)

theorem applyEffects_dataStep (s : State) : DataStep s (applyEffects s) :=
  (((doIf_dataStep frontEffects_dataStep _ s).trans (volBlock_dataStep _)).trans
    (doIf_dataStep pitchBlock_dataStep _ _)).trans (doIf_dataStep clipBlock_dataStep _ _)

/-! ### The Recording Buffer -/

theorem normIn_dataStep {h : List HwSample} {s : State} (hl : h.length = blockLen s) : DataStep s (normIn h s) :=
  wb_dataStep fun _ => (List.length_map _).trans hl

/-- A block that fits moves the write cursor by a whole block and stays inside the buffer (rules R30, R71, R270). -/
theorem recordBlock_dataStep (s : State) : DataStep s (recordBlock s).1 := by
  rcases recordBlock_cases s with ⟨_, h⟩ | ⟨hfit, h⟩ <;> rw [h]
  · exact .refl s
  · cases hroom : s.hw.bufRoom with
    | none =>
      unfold bufCap recordAddr at hfit
      rw [hroom] at hfit
      dsimp only at hfit
      omega
    | some r =>
      have hcap : s.wrCur.toNat + blockBytes s ≤ r.toNat := by
        unfold bufCap recordAddr at hfit
        rw [hroom] at hfit
        dsimp only at hfit
        omega
      have hnew : (BitVec.ofNat 32 (s.wrCur.toNat + blockBytes s)).toNat = s.wrCur.toNat + blockBytes s := by
        rw [BitVec.toNat_ofNat, Nat.mod_eq_of_lt (by have := r.isLt; omega)]
      refine DataStep.trans (t := { s with rb := memWriteBytes s.rb (recordAddr s) (blockToBytes s.wb) })
        (bytes_dataStep fun d => ⟨memWriteBytes_wf d.buffer.rb_wf _ _, fun c hc => ?_⟩)
        (cursors_dataStep (e := s.recEnd) (r := s.rdCur) fun d => { d.cursor with
          wrCur_fits := fun r' hr' => ?_
          wrCur_absent := fun habsent => ?_
          recEnd_le := ?_
          wrCur_blocks := ?_ })
      · rcases mem_memWriteBytes hc with ⟨_, hlt⟩ | hold
        · have hwb := d.shape.wb_length
          rw [blockToBytes_length] at hlt
          unfold blockBytes at hfit
          omega
        · exact d.buffer.rb_bounded c hold
      · have hr : some r = some r' := hroom.symm.trans hr'
        cases hr
        exact hnew.le.trans hcap
      · exact absurd (hroom.symm.trans habsent) (by simp)
      · have hle : s.recEnd.toNat ≤ s.wrCur.toNat := d.cursor.recEnd_le
        show s.recEnd.toNat ≤ (BitVec.ofNat 32 (s.wrCur.toNat + blockBytes s)).toNat
        omega
      · show blockBytes s ∣ (BitVec.ofNat 32 (s.wrCur.toNat + blockBytes s)).toNat
        rw [hnew]
        exact dvd_add d.cursor.wrCur_blocks (dvd_refl _)

/-- A block that is read moves the read cursor by a whole block up to the mark at most (rules R30, R275). -/
theorem readBlock_dataStep {s : State} {r : State × Transfer} (h : readBlock s = .next r) : DataStep s r.1 := by
  rcases readBlock_cases s with ⟨_, e⟩ | ⟨_, _, e⟩ | ⟨hbefore, _, e⟩ <;> rw [e] at h <;> cases h
  · exact .refl s
  · have hnew : (BitVec.ofNat 32 (s.rdCur.toNat + blockBytes s)).toNat = s.rdCur.toNat + blockBytes s := by
      rw [BitVec.toNat_ofNat, Nat.mod_eq_of_lt (by have := s.recEnd.isLt; omega)]
    refine DataStep.trans (t := { s with wb := storedBlock s }) (wb_dataStep fun _ => by simp [storedBlock])
      (cursors_dataStep (w := s.wrCur) (e := s.recEnd) fun d => { d.cursor with
        rdCur_blocks := ?_
        rdCur_le := fun _ _ => hnew.le.trans hbefore })
    show blockBytes s ∣ (BitVec.ofNat 32 (s.rdCur.toNat + blockBytes s)).toNat
    rw [hnew]
    exact dvd_add d.cursor.rdCur_blocks (dvd_refl _)

theorem buildWavHeader_dataStep {s t : State} (h : buildWavHeader s = .next t) : DataStep s t := by
  unfold buildWavHeader at h
  split at h
  · next hpresent =>
    cases h
    refine bytes_dataStep fun d => ⟨memWriteBytes_wf d.buffer.rb_wf _ _, fun c hc => ?_⟩
    rcases mem_memWriteBytes hc with ⟨_, hlt⟩ | hold
    · rw [wavHeader_length] at hlt
      obtain ⟨r, hr⟩ := Option.isSome_iff_exists.1 hpresent
      unfold bufCap
      rw [hr]
      dsimp only
      omega
    · exact d.buffer.rb_bounded c hold
  · cases h

/-! ### The configuration -/

/-- The stored bits of CTRL_EN are bits 10:0 (rules R33, R306). -/
theorem masked_reserved (x : BitVec 16) : (x &&& ctrlEnMask).extractLsb' 11 5 = 0 := by
  apply BitVec.eq_of_getLsbD_eq
  intro i hi
  rw [BitVec.getLsbD_extractLsb', BitVec.getLsbD_and]
  interval_cases i <;> simp [ctrlEnMask]

theorem cfgStore_reserved {c c' : CfgRegs} {r : CfgReg} {v : CfgValue} (h : cfgStore c r v = some c')
    (hc : c.ctrlEn.extractLsb' 11 5 = 0) : c'.ctrlEn.extractLsb' 11 5 = 0 := by
  cases r with
  | ctrlEn =>
    obtain ⟨x, _, rfl⟩ := Option.map_eq_some_iff.1 h
    exact masked_reserved x
  | sampleRate | toneFreq | toneAmp | decay | clipFactor | pitchRatio | volFactor | micRoute | ampRoute | band =>
    obtain ⟨x, _, rfl⟩ := Option.map_eq_some_iff.1 h
    exact hc

theorem rejectOnCfgp_dataStep (w : CmdWord) (v : CfgValue) (s : State) : DataStep s (rejectOnCfgp w v s) :=
  Unread.dataStep rfl

theorem storeRegister_dataStep (rr : BitVec 8) (r : CfgReg) (v : CfgValue) (s : State) :
    DataStep s (storeRegister rr r v s) := by
  unfold storeRegister
  split
  · next hc =>
    exact (config_dataStep fun d => cfgStore_reserved hc d.config.cfg_reserved).trans (Unread.dataStep rfl)
  · exact .refl s

theorem configWrite_dataStep (rr : BitVec 8) (v : CfgValue) (s : State) : DataStep s (configWrite rr v s) := by
  unfold configWrite
  split
  · exact storeRegister_dataStep rr _ _ s
  · exact rejectOnCfgp_dataStep _ v s

theorem configArrives_dataStep (w : CmdWord) (v : CfgValue) (s : State) : DataStep s (configArrives w v s) := by
  unfold configArrives
  split
  · exact configWrite_dataStep _ v s
  · exact rejectOnCfgp_dataStep w v s

/-- The active clip factor lies between 1 and the format's value of `CLIP_MAX`, whatever is pending (rule R241). -/
theorem clampClip_range (c : FloatChoice) (v : RealVal) : ∃ q top, (clampClip (fmtOf c) v).2 = .num q ∧
    (fmtOf c).round clipMax = .num top ∧ 1 ≤ q ∧ q ≤ top := by
  obtain ⟨top, htop, hlow, _⟩ := fmtOf_clipMax c
  cases v with
  | num q =>
    unfold clampClip
    dsimp only
    split_ifs with hsmall hlarge
    · exact ⟨1, top, rfl, htop, le_rfl, by linarith⟩
    · exact ⟨top, top, htop, htop, by linarith, le_rfl⟩
    · rw [htop] at hlarge
      exact ⟨q, top, rfl, htop, not_lt.1 hsmall, by simpa [realExceeds] using hlarge⟩
  | posInf | negInf | nan => exact ⟨1, top, rfl, htop, le_rfl, by linarith⟩

theorem snapshotConfig_dataStep (s : State) : DataStep s (snapshotConfig s) := by
  refine DataStep.trans (t := { s with act := { s.cfg with
    clipFactor := (clampClip (floatFmt s) s.cfg.clipFactor).2 } }) ?_ (raiseAll_dataStep _ _)
  exact .of_data fun d =>
    { shape := { d.shape with }, tone := { d.tone with }, cursor := { d.cursor with }, buffer := { d.buffer with }
      config := { d.config with
        act_reserved := d.config.cfg_reserved
        act_clip := clampClip_range s.hw.floatFmt s.cfg.clipFactor } }

theorem pvInit_dataStep (s : State) : DataStep s (pvInit s) := Unread.dataStep rfl

theorem taskRebuild_dataStep (s : State) : DataStep s (taskRebuild s) := by
  have hbuilt : DataStep s (Band.all.foldl buildCascadeOf (snapshotConfig s)) :=
    (snapshotConfig_dataStep s).trans (foldl_dataStep buildCascadeOf_dataStep _ _)
  exact (((hbuilt.trans (cascadeSwap_dataStep _)).trans (doIf_dataStep rmTableGen_dataStep _ _)).trans
    (doIf_dataStep pvInit_dataStep _ _)).trans (clearPending_dataStep _)

theorem servePending_dataStep (s : State) : DataStep s (servePending s) := doIf_dataStep taskRebuild_dataStep _ s

end Sys2Proof.Machine

/-! # O53: every step keeps the invariant

The steps that move the controller: requests, the Task's wake, initialisation, loops and exit. -/

namespace Sys2Proof.Machine

open Sys2Proof

/-- A change that keeps the invariant and leaves the Task in its phase. -/
def Keeps (s t : State) : Prop := (MachineInv s → MachineInv t) ∧ t.ctl.phase = s.ctl.phase

theorem Keeps.refl (s : State) : Keeps s s := ⟨id, rfl⟩

theorem Keeps.trans {s t u : State} (h : Keeps s t) (h' : Keeps t u) : Keeps s u :=
  ⟨fun inv => h'.1 (h.1 inv), h'.2.trans h.2⟩

theorem DataStep.keeps {s t : State} (h : DataStep s t) : Keeps s t := ⟨h.inv, h.phase⟩

theorem Unread.keeps {s t : State} (h : Unread s t) : Keeps s t := h.dataStep.keeps

theorem MachineInv.unread {s t : State} (inv : MachineInv s) (h : Unread s t) : MachineInv t := h.dataStep.inv inv

theorem doIf_keeps {f : State → State} (h : ∀ s, Keeps s (f s)) (c : Bool) (s : State) : Keeps s (doIf c f s) :=
  doIf_rel (h s) (.refl s)

/-- A change of the controller alone: besides its own clauses only the read cursor's depends on it. -/
theorem MachineInv.setCtl {s : State} {c : Ctl} (inv : MachineInv s) (hc : ControlInv { s with ctl := c })
    (hcursor : CursorInv { s with ctl := c }) : MachineInv { s with ctl := c } where
  shape := { inv.shape with }
  tone := { inv.tone with }
  cursor := hcursor
  buffer := { inv.buffer with }
  control := hc
  config := { inv.config with }

/-! ### The Requester -/

/-- An accepted action takes a free permit, so that the Task waits and is woken (rules R303, R384). -/
theorem acceptAction_keeps {r : ReqCode} {s : State} (hfree : s.ctl.permit = true) (hr : isGated r = true)
    (hbuf : needsBuffer r = true → bufPresent s = true) : Keeps s (acceptAction r s) := by
  refine ⟨fun inv => ?_, rfl⟩
  have hwait : s.ctl.phase = .wait := inv.control.idle_phase hfree
  refine inv.setCtl ?_ { inv.cursor with rdCur_le := fun hloop => absurd (hwait.symm.trans hloop) (by decide) }
  exact
    { inv.control with
      idle_phase := nofun
      idle_action := nofun
      taken_action := fun _ => hr
      accepted_wakes := fun _ _ => rfl
      pending_wakes := fun _ => rfl
      buffer_needed := hbuf }

theorem gated_keeps {r : ReqCode} (hr : isGated r = true) (s : State) : Keeps s (gated r s).1 := by
  rcases gated_cases r s with ⟨_, _, h⟩ | ⟨_, _, h⟩ | ⟨_, h⟩ | ⟨hfree, hbuf, _, h⟩ <;> rw [h]
  · exact Unread.keeps rfl
  · exact Unread.keeps rfl
  · exact Unread.keeps rfl
  · exact acceptAction_keeps hfree hr hbuf

theorem serveRequest_keeps (r : ReqCode) (s : State) : Keeps s (serveRequest r s).1 := by
  cases r with
  | none | stop => exact Unread.keeps rfl
  | updateConfig =>
    refine ⟨fun inv => inv.setCtl ?_ { inv.cursor with }, rfl⟩
    exact { inv.control with accepted_wakes := fun _ _ => rfl, pending_wakes := fun _ => rfl }
  | record | play | passthru | downloadWav => exact gated_keeps rfl s

theorem postRequest_keeps (r : ReqCode) (s : State) : Keeps s (postRequest r s) :=
  (serveRequest_keeps r s).trans (Unread.keeps rfl)

theorem requestArrives_keeps (w : CmdWord) (s : State) : Keeps s (requestArrives w s) := by
  unfold requestArrives
  split
  · exact postRequest_keeps _ s
  · exact Unread.keeps rfl

/-! ### The waiting points of a loop step -/

theorem visitStep_keeps (writing : Option (List S16)) (s : State) (v : Visit) : Keeps s (visitStep writing s v) := by
  cases v with
  | request w => exact requestArrives_keeps w s
  | config w x => exact (configArrives_dataStep w x s).keeps
  | bridge newAt => cases writing <;> exact (bridgePoll_rel _ s).dataStep.keeps

theorem runVisits_keeps (writing : Option (List S16)) (vs : List Visit) (s : State) :
    Keeps s (runVisits writing s vs) := by
  unfold runVisits
  induction vs generalizing s with
  | nil => exact .refl s
  | cons v vs ih => exact (visitStep_keeps writing s v).trans (ih _)

theorem takeIn_keeps (s : State) : Keeps s (takeIn s).1 := by
  rw [takeIn_frame]
  exact Unread.keeps rfl

theorem takeOut_keeps (s : State) : Keeps s (takeOut s).1 := by
  rw [takeOut_frame]
  exact Unread.keeps rfl

theorem takeCopy_keeps (s : State) : Keeps s (takeCopy s).1 := by
  rw [takeCopy_frame]
  exact Unread.keeps rfl

theorem readIn_keeps (s : State) : Keeps s (readIn s).1 := by
  rw [readIn_eq]
  exact ((takeIn_keeps s).trans (runVisits_keeps none _ _)).trans (Unread.keeps rfl)

/-- A block read at IN has the block's length (rule R60). -/
theorem length_of_readIn {s t : State} {h : List HwSample} (e : readIn s = (t, .block h)) : h.length = blockLen t := by
  have ht : t.hw = s.hw := by
    have hrel := readIn_rel s
    rw [e] at hrel
    rw [show t = _ from hrel]
  rw [readIn_eq] at e
  obtain ⟨_, e⟩ := Prod.mk.inj e
  split at e
  · cases e
  · cases e
    rw [portBlock_length, blockLen_congr ht]

theorem writeOut_keeps (o : List HwSample) (s : State) : Keeps s (writeOut o s) := by
  rw [writeOut_eq]
  exact ((takeOut_keeps s).trans (runVisits_keeps none _ _)).trans (Unread.keeps rfl)

theorem stageBlock_keeps (s : State) : Keeps s (stageBlock s) := by
  have hvisited : Keeps s (runVisits (some s.wb) (takeCopy s).1 (takeCopy s).2) :=
    (takeCopy_keeps s).trans (runVisits_keeps _ _ _)
  have hhw : (runVisits (some s.wb) (takeCopy s).1 (takeCopy s).2).hw = s.hw := by
    rw [show runVisits (some s.wb) (takeCopy s).1 (takeCopy s).2 = _ from runVisits_rel _ _ _]
    show (takeCopy s).1.hw = _
    rw [takeCopy_frame]
  rw [stageBlock_eq]
  refine ⟨fun inv => ?_, hvisited.2⟩
  refine (stage_dataStep fun _ => ?_).inv (hvisited.1 inv)
  rw [inv.shape.wb_length, blockLen_congr hhw]

/-! ### The Task's wake, initialisation and exit -/

/-- Leaving a loop, or an initialisation that failed (rules R310, R325). -/
theorem setPhase_exit_inv {s : State} (inv : MachineInv s) (hp : s.ctl.phase ≠ .wait) :
    MachineInv (setPhase s .exit) := by
  have htaken : s.ctl.permit ≠ true := fun hfree => hp (inv.control.idle_phase hfree)
  refine inv.setCtl ?_ { inv.cursor with rdCur_le := nofun }
  exact
    { inv.control with
      idle_phase := fun hfree => absurd hfree htaken
      accepted_wakes := nofun
      loop_feedback := nofun
      feedback_phase := fun _ => .inr rfl
      table_first := fun _ => inv.control.table_first hp }

/-- The controller of an accepted action whose initialisation is due (rules R308, R384). -/
theorem ControlInv.of_init {s : State} (hpermit : s.ctl.permit = false) (hphase : s.ctl.phase = .init)
    (haction : isGated s.ctl.action = true) (hfeedback : s.ctl.feedback = false)
    (hpending : s.ctl.updPend = true → s.ctl.wake = true) (htable : s.qtabValid = true)
    (hbuf : needsBuffer s.ctl.action = true → bufPresent s = true) : ControlInv s where
  idle_phase h := by simp [hpermit] at h
  idle_action h := by simp [hpermit] at h
  taken_action _ := haction
  accepted_wakes _ h := by simp [hphase] at h
  pending_wakes := hpending
  loop_feedback h := by simp [hphase] at h
  feedback_phase h := by simp [hfeedback] at h
  table_first _ := htable
  buffer_needed := hbuf

/-- Feedback is off outside a loop and its exit (rule R311). -/
theorem ControlInv.feedback_off {s : State} (c : ControlInv s) (hloop : s.ctl.phase ≠ .loop)
    (hexit : s.ctl.phase ≠ .exit) : s.ctl.feedback = false := by
  by_contra hon
  rcases c.feedback_phase (by simpa using hon) with h | h
  · exact hloop h
  · exact hexit h

/-- The Task sleeps again and serves what woke it; an accepted action moves it on to its initialisation (rule R308). -/
theorem taskWake_inv {s : State} (inv : MachineInv s) (hp : s.ctl.phase = .wait) (hq : s.qtabValid = true) :
    MachineInv (taskWake s) := by
  have hstep := servePending_dataStep { s with ctl := { s.ctl with wake := false } }
  have hasleep : DataInv { s with ctl := { s.ctl with wake := false } } :=
    { shape := { inv.shape with }, tone := { inv.tone with }, cursor := { inv.cursor with }
      buffer := { inv.buffer with }, config := { inv.config with } }
  have hserved := servePending_done { s with ctl := { s.ctl with wake := false } }
  unfold taskWake
  dsimp only
  generalize servePending { s with ctl := { s.ctl with wake := false } } = u at hstep hserved
  have d : DataInv u := hstep.data hasleep
  have hpermit : u.ctl.permit = s.ctl.permit := by rw [hstep.ctl]
  have haction : u.ctl.action = s.ctl.action := by rw [hstep.ctl]
  have hfeedback : u.ctl.feedback = false := by
    rw [hstep.ctl]
    exact inv.control.feedback_off (by simp [hp]) (by simp [hp])
  have hpending : u.ctl.updPend = true → u.ctl.wake = true := by simp [hserved]
  split
  · next hfree =>
    have hidle : s.ctl.action = .none := inv.control.idle_action (hpermit.symm.trans hfree)
    exact d.machine (.of_idle hfree (hstep.phase.trans hp) (haction.trans hidle) hfeedback hpending)
  · next htaken =>
    have htaken : u.ctl.permit = false := by simpa using htaken
    have hgated : isGated u.ctl.action = true := by
      rw [haction]
      exact inv.control.taken_action (hpermit.symm.trans htaken)
    have hbuf : needsBuffer u.ctl.action = true → bufPresent u = true := by
      rw [haction, show bufPresent u = bufPresent s from congrArg (·.bufRoom.isSome) hstep.hw]
      exact inv.control.buffer_needed
    refine DataInv.machine { shape := { d.shape with }, tone := { d.tone with }
                             cursor := { d.cursor with rdCur_le := nofun }
                             buffer := { d.buffer with }, config := { d.config with } } ?_
    exact .of_init htaken rfl hgated hfeedback hpending (hstep.table.trans hq) hbuf

theorem hwiInit_keeps (s : State) : Keeps s (hwiInit s).1 := by
  have htaken : Keeps s (takeHwi s).1 := by
    rw [takeHwi_frame]
    exact Unread.keeps rfl
  exact htaken.trans (Unread.keeps rfl)

theorem initAnswer_keeps (s : State) : Keeps s (initAnswer s).1 := by
  unfold initAnswer
  split
  · exact .refl s
  · exact hwiInit_keeps s

theorem rewind_dataStep (s : State) : DataStep s { s with rdCur := 0 } :=
  cursors_dataStep (w := s.wrCur) (e := s.recEnd) fun d => { d.cursor with
    rdCur_blocks := dvd_zero _
    rdCur_le := fun _ _ => Nat.zero_le _ }

/-- Before a loop starts no clause binds the read cursor, so that the entry action may move every cursor to 0
(rule R311). -/
theorem entryAction_inv {s : State} (inv : MachineInv s) (hp : s.ctl.phase = .init) (a : ReqCode) :
    MachineInv (entryAction a s) := by
  have hvoid : s.ctl.phase ≠ .loop := by simp [hp]
  cases a with
  | record =>
    exact (cursors_dataStep (w := 0) (e := 0) (r := s.rdCur) fun d => { d.cursor with
      wrCur_fits := fun _ _ => Nat.zero_le _
      wrCur_absent := fun _ => rfl
      recEnd_le := le_rfl
      wrCur_blocks := dvd_zero _
      recEnd_blocks := dvd_zero _
      rdCur_le := fun hloop => absurd hloop hvoid }).inv inv
  | play => exact (rewind_dataStep s).inv inv
  | downloadWav => exact ((rewind_dataStep s).inv inv).unread rfl
  | passthru | none | updateConfig | stop => exact inv

/-- The loop of an action starts with its feedback on (rules R310, R311). -/
theorem startLoop_inv {s : State} (inv : MachineInv s) (hp : s.ctl.phase = .init)
    (hrd : s.ctl.action = .play ∨ s.ctl.action = .downloadWav → s.rdCur = 0) :
    MachineInv { s with ctl := { s.ctl with feedback := true, phase := .loop } } := by
  have hne : s.ctl.phase ≠ .wait := by simp [hp]
  refine inv.setCtl ?_ { inv.cursor with rdCur_le := fun _ hact => ?_ }
  · exact
      { inv.control with
        idle_phase := fun hfree => absurd (inv.control.idle_phase hfree) hne
        accepted_wakes := nofun
        loop_feedback := fun _ => rfl
        feedback_phase := fun _ => .inl rfl
        table_first := fun _ => inv.control.table_first hne }
  · show s.rdCur.toNat ≤ s.recEnd.toNat
    rw [hrd hact]
    exact Nat.zero_le _

theorem afterInit_inv {s : State} (inv : MachineInv s) (hp : s.ctl.phase = .init) (r : HwiAnswer) :
    MachineInv (afterInit s r) := by
  have hne : s.ctl.phase ≠ .wait := by simp [hp]
  cases r with
  | ok =>
    refine startLoop_inv (entryAction_inv inv hp s.ctl.action) ?_ ?_
    · cases s.ctl.action <;> exact hp
    · cases hact : s.ctl.action <;> simp [entryAction, hact]
  | fail | unsupported => exact setPhase_exit_inv (inv.unread rfl) hne

theorem taskInit_inv {s : State} (inv : MachineInv s) (hp : s.ctl.phase = .init) : MachineInv (taskInit s) :=
  afterInit_inv ((initAnswer_keeps s).1 inv) ((initAnswer_keeps s).2.trans hp) _

/-- The return to Idle keeps the invariant from every state (rules R340, R378). -/
theorem releaseAction_inv {s : State} (inv : MachineInv s) : MachineInv (releaseAction s) :=
  inv.setCtl (.of_idle rfl rfl rfl rfl inv.control.pending_wakes) { inv.cursor with rdCur_le := nofun }

/-- The mark moves up to the write cursor, past every recorded block (rules R30, R340). -/
theorem markEnd_dataStep (s : State) : DataStep s { s with recEnd := s.wrCur } :=
  cursors_dataStep (w := s.wrCur) (r := s.rdCur) fun d => { d.cursor with
    recEnd_le := le_rfl
    recEnd_blocks := d.cursor.wrCur_blocks
    rdCur_le := fun hloop hact => (d.cursor.rdCur_le hloop hact).trans d.cursor.recEnd_le }

theorem taskExit_inv {s : State} (inv : MachineInv s) : MachineInv (taskExit s) := by
  unfold taskExit
  split
  · exact releaseAction_inv ((markEnd_dataStep s).inv inv)
  · exact releaseAction_inv inv

/-! ### The loops -/

/-- Every next state of an outcome meets the invariant. -/
def OutcomeInv (o : Host.Outcome State Fault Refusal) : Prop := ∀ t, o = .next t → MachineInv t

theorem OutcomeInv.next {s : State} (h : MachineInv s) : OutcomeInv (.next s) := by
  intro t e
  cases e
  exact h

theorem recordOrExit_inv {s t : State} (hst : Keeps s t) (inv : MachineInv s) (hp : s.ctl.phase ≠ .wait) :
    MachineInv (recordOrExit t) := by
  have inv : MachineInv t := hst.1 inv
  have hstep := recordBlock_dataStep t
  unfold recordOrExit
  rcases recordBlock_cases t with ⟨_, h⟩ | ⟨_, h⟩ <;> rw [h] at hstep ⊢
  · exact setPhase_exit_inv (inv.unread rfl) (by rwa [raise_ctl, hst.2])
  · exact hstep.inv inv

theorem recordBody_inv {h : List HwSample} {s : State} (inv : MachineInv s) (hp : s.ctl.phase ≠ .wait)
    (hl : h.length = blockLen s) : MachineInv (recordBody h s) :=
  recordOrExit_inv
    ((((normIn_dataStep hl).trans (doIf_dataStep applyEffects_dataStep _ _)).keeps.trans (stageBlock_keeps _)).trans
      (doIf_keeps (fun u => writeOut_keeps (denormOut u) u) _ _)) inv hp

theorem passthruBody_inv {h : List HwSample} {s : State} (inv : MachineInv s) (hl : h.length = blockLen s) :
    MachineInv (passthruBody h s) :=
  ((((normIn_dataStep hl).trans (applyEffects_dataStep _)).keeps.trans (stageBlock_keeps _)).trans
    (writeOut_keeps _ _)).1 inv

theorem playBody_keeps (s : State) : Keeps s (playBody s) :=
  ((doIf_dataStep applyEffects_dataStep _ s).keeps.trans (stageBlock_keeps _)).trans (writeOut_keeps _ _)

theorem exportBody_keeps (s : State) : Keeps s (exportBody s) :=
  (doIf_dataStep applyEffects_dataStep _ s).keeps.trans (Unread.keeps rfl)

theorem exportHeader_inv {s : State} (inv : MachineInv s) : OutcomeInv (exportHeader s) := by
  intro t h
  obtain ⟨u, hu, h⟩ := andThen_next h
  cases h
  exact ((buildWavHeader_dataStep hu).inv inv).unread rfl

theorem withInput_inv {body : List HwSample → State → State} {s : State} (inv : MachineInv s)
    (hp : s.ctl.phase ≠ .wait)
    (hbody : ∀ h t, MachineInv t → t.ctl.phase ≠ .wait → h.length = blockLen t → MachineInv (body h t)) :
    OutcomeInv (withInput body s) := by
  obtain ⟨hinv, hphase⟩ := readIn_keeps s
  unfold withInput
  rcases hr : readIn s with ⟨t, _ | h⟩ <;> rw [hr] at hinv hphase
  · exact .next (hinv inv)
  · exact .next (hbody h t (hinv inv) (by rwa [hphase]) (length_of_readIn hr))

theorem withStored_inv {body : State → State} {s : State} (inv : MachineInv s) (hp : s.ctl.phase ≠ .wait)
    (hbody : ∀ t, Keeps t (body t)) : OutcomeInv (withStored body s) := by
  intro t h
  obtain ⟨⟨u, x⟩, hr, h⟩ := andThen_next h
  have hread : DataStep s u := readBlock_dataStep hr
  have hinv : MachineInv u := hread.inv inv
  have hphase : u.ctl.phase ≠ .wait := by rwa [hread.phase]
  cases x <;> cases h
  · exact (hbody u).1 hinv
  · exact setPhase_exit_inv hinv hphase
  · exact setPhase_exit_inv hinv hphase

theorem loopStep_inv {body : State → Host.Outcome State Fault Refusal} {s : State} (inv : MachineInv s)
    (hp : s.ctl.phase ≠ .wait) (hbody : ∀ t, MachineInv t → t.ctl.phase ≠ .wait → OutcomeInv (body t)) :
    OutcomeInv (loopStep body s) := by
  obtain ⟨hserved, hphase⟩ := (servePending_dataStep s).keeps
  have hne : (servePending s).ctl.phase ≠ .wait := by rwa [hphase]
  rcases loopStep_cases body s with e | e <;> rw [e]
  · exact hbody _ (hserved inv) hne
  · exact .next (setPhase_exit_inv (hserved inv) hne)

theorem stepWhenEnabled_inv {i : Instr} {f : State → Host.Outcome State Fault Refusal} {s : State} (inv : MachineInv s)
    (h : enabledStep s = some i → OutcomeInv (f s)) : OutcomeInv (stepWhenEnabled i f s) := by
  rcases stepWhenEnabled_cases i f s with ⟨hi, e⟩ | ⟨_, e⟩ <;> rw [e]
  · exact h hi
  · exact .next inv

theorem whenEnabled_inv {i : Instr} {f : State → State} {s : State} (inv : MachineInv s)
    (h : enabledStep s = some i → MachineInv (f s)) : MachineInv (whenEnabled i f s) := by
  rcases whenEnabled_cases i f s with ⟨hi, e⟩ | ⟨_, e⟩ <;> rw [e]
  · exact h hi
  · exact inv

/-! ### The operations and the step -/

/-- The Task loops where a loop step is enabled (rule R348). -/
theorem phase_of_enabled_loop {s : State} {i : Instr} (h : enabledStep s = some i)
    (hi : i = .loopRecord ∨ i = .loopPlay ∨ i = .loopPassthru ∨ i = .loopExport) : s.ctl.phase ≠ .wait := by
  rcases enabledStep_cases h with ⟨_, rfl⟩ | ⟨_, hrow⟩
  · simp at hi
  · rcases hrow with ⟨_, _, rfl⟩ | ⟨_, rfl⟩ | ⟨hp, _⟩ | ⟨hp, _⟩ | ⟨hp, _⟩ | ⟨hp, _⟩ | ⟨hp, _⟩
    · simp at hi
    · simp at hi
    all_goals simp [hp]

theorem qtabInit_inv {s : State} (inv : MachineInv s) : MachineInv (qtabInit s) where
  shape := { inv.shape with qtab_length := qvalTable_length _, qtab_computed := fun _ => rfl }
  tone := { inv.tone with }
  cursor := { inv.cursor with }
  buffer := { inv.buffer with }
  control := { inv.control with table_first := fun _ => rfl }
  config := { inv.config with }

theorem execTaskWake_inv {s : State} (inv : MachineInv s) : MachineInv (whenEnabled .taskWake taskWake s) :=
  whenEnabled_inv inv fun he => by
    rcases enabledStep_cases he with ⟨_, h⟩ | ⟨hq, h⟩
    · cases h
    · have hrow : s.ctl.phase = .wait ∧ s.ctl.wake = true := by simpa using h
      exact taskWake_inv inv hrow.1 hq

theorem execTaskInit_inv {s : State} (inv : MachineInv s) : MachineInv (whenEnabled .taskInit taskInit s) :=
  whenEnabled_inv inv fun he => by
    rcases enabledStep_cases he with ⟨_, h⟩ | ⟨_, h⟩
    · cases h
    · exact taskInit_inv inv (by simpa using h)

theorem execReadBlock_inv {s : State} (inv : MachineInv s) : OutcomeInv (execReadBlock s) := by
  intro t h
  obtain ⟨r, hr, h⟩ := andThen_next h
  cases h
  exact ((readBlock_dataStep hr).inv inv).unread rfl

theorem execLoopRecord_inv {s : State} (inv : MachineInv s) : OutcomeInv (execLoopRecord s) :=
  stepWhenEnabled_inv inv fun he => loopStep_inv inv (phase_of_enabled_loop he (by simp)) fun _ hu hp =>
    withInput_inv hu hp fun _ _ ht hpt hl => recordBody_inv ht hpt hl

theorem execLoopPassthru_inv {s : State} (inv : MachineInv s) : OutcomeInv (execLoopPassthru s) :=
  stepWhenEnabled_inv inv fun he => loopStep_inv inv (phase_of_enabled_loop he (by simp)) fun _ hu hp =>
    withInput_inv hu hp fun _ _ ht _ hl => passthruBody_inv ht hl

theorem execLoopPlay_inv {s : State} (inv : MachineInv s) : OutcomeInv (execLoopPlay s) :=
  stepWhenEnabled_inv inv fun he => loopStep_inv inv (phase_of_enabled_loop he (by simp)) fun _ hu hp =>
    withStored_inv hu hp playBody_keeps

theorem execLoopExport_inv {s : State} (inv : MachineInv s) : OutcomeInv (execLoopExport s) :=
  stepWhenEnabled_inv inv fun he => loopStep_inv inv (phase_of_enabled_loop he (by simp)) fun u hu hp => by
    show OutcomeInv (if u.ctl.hdrSent then withStored exportBody u else exportHeader u)
    split
    · exact withStored_inv hu hp exportBody_keeps
    · exact exportHeader_inv hu

theorem exec_inv (i : Instr) {s : State} (inv : MachineInv s) : OutcomeInv (exec i s) := by
  cases i with
  | reqNone | reqUpdateConfig | reqRecord | reqPlay | reqPassthru | reqDownloadWav | reqStop =>
    exact .next ((postRequest_keeps _ s).1 inv)
  | cfgWrite rr => exact .next ((configWrite_dataStep rr _ s).inv inv)
  | bqConfigure band stage => exact .next ((bqConfigure_dataStep band stage s).inv inv)
  | bqProcess band stage => exact .next ((bqProcess_dataStep band stage s).inv inv)
  | buildCascade band => exact .next ((buildCascade_dataStep band s).inv inv)
  | qtabInit => exact .next (qtabInit_inv inv)
  | filterBlock => exact .next ((filterBlock_dataStep s).inv inv)
  | cascadeSwap => exact .next ((cascadeSwap_dataStep s).inv inv)
  | rmTableGen => exact .next ((rmTableGen_dataStep s).inv inv)
  | rmBlock => exact .next ((rmBlock_dataStep s).inv inv)
  | rvBlock => exact .next ((rvBlock_dataStep s).inv inv)
  | rvClear => exact .next ((rvClear_dataStep s).inv inv)
  | volBlock => exact .next ((volBlock_dataStep s).inv inv)
  | pitchBlock => exact .next ((pitchBlock_dataStep s).inv inv)
  | clipBlock => exact .next ((clipBlock_dataStep s).inv inv)
  | applyEffects => exact .next ((applyEffects_dataStep s).inv inv)
  | normIn => exact .next ((normIn_dataStep (portBlock_length _ _)).inv inv)
  | denormOut => exact .next (inv.unread rfl)
  | recordBlock => exact .next (((recordBlock_dataStep s).inv inv).unread rfl)
  | readBlock => exact execReadBlock_inv inv
  | buildWavHeader => exact fun t h => (buildWavHeader_dataStep h).inv inv
  | taskWake => exact .next (execTaskWake_inv inv)
  | taskInit => exact .next (execTaskInit_inv inv)
  | loopRecord => exact execLoopRecord_inv inv
  | loopPlay => exact execLoopPlay_inv inv
  | loopPassthru => exact execLoopPassthru_inv inv
  | loopExport => exact execLoopExport_inv inv
  | taskExit => exact .next (whenEnabled_inv inv fun _ => taskExit_inv inv)
  | taskRebuild => exact .next ((taskRebuild_dataStep s).inv inv)
  | bridgePoll => exact .next ((bridgePoll_rel _ s).dataStep.inv inv)

/-- Settles O53: a step is an operation or the refusal of a word, in a state that meets the invariant too. -/
theorem stepKeepsTheInvariant : Obligations.StepKeepsTheInvariant := by
  unfold Obligations.StepKeepsTheInvariant
  intro s t inv
  obtain ⟨u, hu, hstep⟩ := step_cases s
  have hinv : MachineInv u := by
    rw [hu]
    exact inv.unread rfl
  show step s = .next t → MachineInv t
  rcases hstep with ⟨i, h, _⟩ | h | ⟨w, h⟩ | ⟨w, v, h⟩ | ⟨w, h⟩ <;> rw [h]
  · exact exec_inv i hinv t
  · exact OutcomeInv.next hinv t
  · exact OutcomeInv.next (s := rejectOnReq w u) (hinv.unread rfl) t
  · exact OutcomeInv.next (s := rejectOnCfgp w v u) (hinv.unread rfl) t
  · exact OutcomeInv.next (s := refuseReserved u w) (hinv.unread rfl) t

end Sys2Proof.Machine

/-! # O58 and O60: the configuration and the memories have their writers

Most operations touch neither (`Untouched`). What a loop step does between its block boundary and its end is followed
once for every relation that its parts satisfy (`BlockFrame`). -/

namespace Sys2Proof.Machine

open Sys2Proof

/-! ### Operations that write neither a configuration nor one of the three memories -/

/-- Both configurations are as before. -/
structure SameConfig (s t : State) : Prop where
  cfg : t.cfg = s.cfg
  act : t.act = s.act

/-- The Recording Buffer, the delay line and the Q table are as before. -/
structure SameMemories (s t : State) : Prop where
  rb : t.rb = s.rb
  dl : t.dl = s.dl
  tap : t.rvTap = s.rvTap
  qtab : t.qtab = s.qtab

structure Untouched (s t : State) : Prop where
  config : SameConfig s t
  memories : SameMemories s t

theorem Untouched.of_eq {s t : State} (cfg : t.cfg = s.cfg := by rfl) (act : t.act = s.act := by rfl)
    (rb : t.rb = s.rb := by rfl) (dl : t.dl = s.dl := by rfl) (tap : t.rvTap = s.rvTap := by rfl)
    (qtab : t.qtab = s.qtab := by rfl) : Untouched s t := ⟨⟨cfg, act⟩, ⟨rb, dl, tap, qtab⟩⟩

theorem Untouched.refl (s : State) : Untouched s s := .of_eq

theorem Untouched.trans {s t u : State} (h : Untouched s t) (h' : Untouched t u) : Untouched s u where
  config := ⟨h'.config.cfg.trans h.config.cfg, h'.config.act.trans h.config.act⟩
  memories :=
    ⟨h'.memories.rb.trans h.memories.rb, h'.memories.dl.trans h.memories.dl, h'.memories.tap.trans h.memories.tap,
      h'.memories.qtab.trans h.memories.qtab⟩

theorem RequestRel.untouched {s t : State} (h : RequestRel s t) : Untouched s t := by
  rw [show t = _ from h]
  exact .of_eq

theorem BridgeRel.untouched {s t : State} (h : BridgeRel s t) : Untouched s t := by
  rw [show t = _ from h]
  exact .of_eq

theorem refuseReserved_untouched (s : State) (w : CmdWord) : Untouched s (refuseReserved s w) := .of_eq

theorem setShadowCascade_untouched (s : State) (b : Band) (c : Cascade) : Untouched s (setShadowCascade s b c) := by
  rw [setShadowCascade_eq]
  exact .of_eq

theorem bqConfigure_untouched (band : BitVec 3) (stage : BitVec 4) (s : State) :
    Untouched s (bqConfigure band stage s) := by
  unfold bqConfigure
  split
  · exact setShadowCascade_untouched s _ _
  · exact refuseReserved_untouched s _

theorem bqProcess_untouched (band : BitVec 3) (stage : BitVec 4) (s : State) :
    Untouched s (bqProcess band stage s) := by
  unfold bqProcess
  split
  · dsimp only
    split
    · rw [setActiveCascade_eq]
      exact .of_eq
    · exact .refl s
  · exact refuseReserved_untouched s _

theorem buildCascade_untouched (band : BitVec 3) (s : State) : Untouched s (buildCascade band s) := by
  unfold buildCascade
  split
  · rw [buildCascadeOf_fields]
    exact .of_eq
  · exact refuseReserved_untouched s _

theorem filterBlock_untouched (s : State) : Untouched s (filterBlock s) := by
  rw [(filterBlock_frame s).eq]
  exact .of_eq

theorem rmTableGen_untouched (s : State) : Untouched s (rmTableGen s) := by
  rw [rmTableGen_frame]
  exact .of_eq

theorem rmBlock_untouched (s : State) : Untouched s (rmBlock s) := by
  rw [rmBlock_frame]
  exact .of_eq

theorem pitchBlock_untouched (s : State) : Untouched s (pitchBlock s) := by
  rw [pitchBlock_eq]
  exact .of_eq

theorem readBlock_untouched {s : State} {r : State × Transfer} (h : readBlock s = .next r) : Untouched s r.1 := by
  rcases readBlock_cases s with ⟨_, e⟩ | ⟨_, _, e⟩ | ⟨_, _, e⟩ <;> rw [e] at h <;> cases h <;> exact .of_eq

theorem initAnswer_untouched (s : State) : Untouched s (initAnswer s).1 := by
  unfold initAnswer
  split
  · exact .refl s
  · show Untouched s { (takeHwi s).1 with ports.hwi := _ }
    rw [takeHwi_frame]
    exact .of_eq

theorem afterInit_untouched (s : State) (r : HwiAnswer) : Untouched s (afterInit s r) := by
  cases r with
  | ok =>
    show Untouched s { entryAction s.ctl.action s with ctl := _ }
    cases s.ctl.action <;> exact .of_eq
  | fail | unsupported => exact .of_eq

theorem taskInit_untouched (s : State) : Untouched s (taskInit s) :=
  (initAnswer_untouched s).trans (afterInit_untouched _ _)

theorem taskExit_untouched (s : State) : Untouched s (taskExit s) := by
  unfold taskExit
  split <;> exact .of_eq

theorem whenEnabled_untouched {f : State → State} (hf : ∀ s, Untouched s (f s)) (i : Instr) (s : State) :
    Untouched s (whenEnabled i f s) := by
  rcases whenEnabled_cases i f s with ⟨_, e⟩ | ⟨_, e⟩ <;> rw [e]
  · exact hf s
  · exact .refl s

theorem execReadBlock_untouched {s t : State} (h : execReadBlock s = .next t) : Untouched s t := by
  obtain ⟨r, hr, h⟩ := andThen_next h
  cases h
  exact (readBlock_untouched hr).trans .of_eq

/-- The operations that own neither a configuration nor one of the three memories. -/
def ownsNothing : Instr → Bool
  | .cfgWrite _ | .qtabInit | .rvBlock | .rvClear | .applyEffects | .recordBlock | .buildWavHeader => false
  | .taskWake | .loopRecord | .loopPlay | .loopPassthru | .loopExport | .taskRebuild => false
  | .reqNone | .reqUpdateConfig | .reqRecord | .reqPlay | .reqPassthru | .reqDownloadWav | .reqStop => true
  | .bqConfigure _ _ | .bqProcess _ _ | .buildCascade _ | .filterBlock | .cascadeSwap => true
  | .rmTableGen | .rmBlock | .volBlock | .pitchBlock | .clipBlock => true
  | .normIn | .denormOut | .readBlock | .taskInit | .taskExit | .bridgePoll => true

theorem exec_untouched {i : Instr} {s t : State} (hi : ownsNothing i = true) (h : exec i s = .next t) :
    Untouched s t := by
  cases i with
  | cfgWrite | qtabInit | rvBlock | rvClear | applyEffects | recordBlock | buildWavHeader => cases hi
  | taskWake | loopRecord | loopPlay | loopPassthru | loopExport | taskRebuild => cases hi
  | readBlock => exact execReadBlock_untouched h
  | reqNone | reqUpdateConfig | reqRecord | reqPlay | reqPassthru | reqDownloadWav | reqStop =>
    cases h
    exact (postRequest_rel _ s).untouched
  | bqConfigure band stage => cases h; exact bqConfigure_untouched band stage s
  | bqProcess band stage => cases h; exact bqProcess_untouched band stage s
  | buildCascade band => cases h; exact buildCascade_untouched band s
  | filterBlock => cases h; exact filterBlock_untouched s
  | rmTableGen => cases h; exact rmTableGen_untouched s
  | rmBlock => cases h; exact rmBlock_untouched s
  | pitchBlock => cases h; exact pitchBlock_untouched s
  | cascadeSwap | volBlock | clipBlock | normIn | denormOut => cases h; exact .of_eq
  | taskInit => cases h; exact whenEnabled_untouched taskInit_untouched _ s
  | taskExit => cases h; exact whenEnabled_untouched taskExit_untouched _ s
  | bridgePoll => cases h; exact (bridgePoll_rel _ s).untouched

/-! ### Operations that serve a pending update -/

/-- What serving a pending update leaves: the pending configuration, the three memories, and the active configuration
unless an update was pending. -/
structure Served (s t : State) : Prop where
  cfg : t.cfg = s.cfg
  act : s.ctl.updPend = false → t.act = s.act
  memories : SameMemories s t

theorem Untouched.served {s t : State} (h : Untouched s t) : Served s t :=
  ⟨h.config.cfg, fun _ => h.config.act, h.memories⟩

theorem RebuildRel.memories {s t : State} (h : RebuildRel s t) : SameMemories s t := by
  rw [show t = _ from h]
  exact ⟨rfl, rfl, rfl, rfl⟩

theorem RebuildRel.cfg {s t : State} (h : RebuildRel s t) : t.cfg = s.cfg := by rw [show t = _ from h]

theorem servePending_served (s : State) : Served s (servePending s) where
  cfg := (servePending_rel s).cfg
  act h := by rw [servePending_none h]
  memories := (servePending_rel s).memories

theorem taskWake_served (s : State) : Served s (taskWake s) := by
  obtain ⟨hcfg, hact, hrb, hdl, htap, hqtab⟩ := servePending_served { s with ctl := { s.ctl with wake := false } }
  unfold taskWake
  dsimp only
  split <;> exact ⟨hcfg, hact, hrb, hdl, htap, hqtab⟩

theorem execTaskWake_served (s : State) : Served s (whenEnabled .taskWake taskWake s) := by
  rcases whenEnabled_cases .taskWake taskWake s with ⟨_, e⟩ | ⟨_, e⟩ <;> rw [e]
  · exact taskWake_served s
  · exact (Untouched.refl s).served

/-! ### Operations that write one configuration or one memory -/

theorem ConfigRel.act {s t : State} (h : ConfigRel s t) : t.act = s.act := by rw [show t = _ from h]

theorem ConfigRel.memories {s t : State} (h : ConfigRel s t) : SameMemories s t := by
  rw [show t = _ from h]
  exact ⟨rfl, rfl, rfl, rfl⟩

theorem applyEffects_sameConfig (s : State) : SameConfig s (applyEffects s) := by
  rw [applyEffects_frame]
  exact ⟨rfl, rfl⟩

/-- A block that is recorded goes to RB, the write cursor moves, and nothing else changes. -/
theorem recordBlock_fields (s : State) : ∃ m w, (recordBlock s).1 = { s with rb := m, wrCur := w } := by
  rcases recordBlock_cases s with ⟨_, h⟩ | ⟨_, h⟩ <;> rw [h] <;> exact ⟨_, _, rfl⟩

theorem buildWavHeader_fields {s t : State} (h : buildWavHeader s = .next t) : ∃ m, t = { s with rb := m } := by
  unfold buildWavHeader at h
  split at h
  · cases h
    exact ⟨_, rfl⟩
  · cases h

theorem recordOrExit_fields (s : State) : Untouched { s with rb := (recordOrExit s).rb } (recordOrExit s) := by
  unfold recordOrExit
  rcases recordBlock_cases s with ⟨_, h⟩ | ⟨_, h⟩ <;> rw [h] <;> exact .of_eq

theorem exportHeader_fields {s t : State} (h : exportHeader s = .next t) : Untouched { s with rb := t.rb } t := by
  obtain ⟨u, hu, h⟩ := andThen_next h
  obtain ⟨m, rfl⟩ := buildWavHeader_fields hu
  cases h
  exact .of_eq

/-! ### The body of a loop step -/

/-- A relation that holds across each part of a loop step after its block boundary (rules R325 to R333). -/
structure BlockFrame (R : State → State → Prop) : Prop where
  trans : ∀ {s t u}, R s t → R t u → R s u
  refl : ∀ s, R s s
  phase : ∀ s p, R s (setPhase s p)
  input : ∀ s, R s (readIn s).1
  norm : ∀ h s, R s (normIn h s)
  chain : ∀ s, R s (applyEffects s)
  staged : ∀ s, R s (stageBlock s)
  output : ∀ o s, R s (writeOut o s)
  read : ∀ {s r}, readBlock s = .next r → R s r.1

section
variable {R : State → State → Prop} {s t : State}

theorem BlockFrame.withInput (F : BlockFrame R) {body : List HwSample → State → State} (hbody : ∀ h u, R u (body h u))
    (h : withInput body s = .next t) : R s t := by
  rcases withInput_cases body s with e | ⟨b, e⟩ <;> rw [e] at h <;> cases h
  · exact F.input s
  · exact F.trans (F.input s) (hbody b _)

theorem BlockFrame.withStored (F : BlockFrame R) {body : State → State} (hbody : ∀ u, R u (body u))
    (h : withStored body s = .next t) : R s t := by
  obtain ⟨⟨u, x⟩, hr, h⟩ := andThen_next h
  have hu : R s u := F.read hr
  cases x <;> cases h
  · exact F.trans hu (hbody u)
  · exact F.trans hu (F.phase u _)
  · exact F.trans hu (F.phase u _)

/-- A loop step that is enabled serves a pending update and then runs its body or leaves the loop. -/
theorem BlockFrame.loop (F : BlockFrame R) {body : State → Host.Outcome State Fault Refusal}
    (hbody : ∀ {u v}, body u = .next v → R u v) {i : Instr} (h : stepWhenEnabled i (loopStep body) s = .next t) :
    R (servePending s) t ∨ t = s := by
  rcases stepWhenEnabled_cases i (loopStep body) s with ⟨_, e⟩ | ⟨_, e⟩ <;> rw [e] at h
  · left
    rcases loopStep_cases body s with e | e <;> rw [e] at h
    · exact hbody h
    · cases h
      exact F.phase _ _
  · cases h
    exact .inr rfl

theorem BlockFrame.loopRecord (F : BlockFrame R) (hrecord : ∀ u, R u (recordOrExit u))
    (h : execLoopRecord s = .next t) : R (servePending s) t ∨ t = s :=
  F.loop (F.withInput fun b u => F.trans (F.trans (F.trans (F.trans (F.norm b u) (doIf_rel (F.chain _) (F.refl _)))
    (F.staged _)) (doIf_rel (f := fun v => writeOut (denormOut v) v) (F.output _ _) (F.refl _))) (hrecord _)) h

theorem BlockFrame.loopPassthru (F : BlockFrame R) (h : execLoopPassthru s = .next t) :
    R (servePending s) t ∨ t = s :=
  F.loop (F.withInput fun b u => F.trans (F.trans (F.trans (F.norm b u) (F.chain _)) (F.staged _)) (F.output _ _)) h

theorem BlockFrame.loopPlay (F : BlockFrame R) (h : execLoopPlay s = .next t) : R (servePending s) t ∨ t = s :=
  F.loop (F.withStored fun _ => F.trans (F.trans (doIf_rel (F.chain _) (F.refl _)) (F.staged _)) (F.output _ _)) h

theorem BlockFrame.loopExport (F : BlockFrame R) (hchunk : ∀ u bs, R u (emitChunk u bs))
    (hheader : ∀ {u v}, exportHeader u = .next v → R u v) (h : execLoopExport s = .next t) :
    R (servePending s) t ∨ t = s := by
  refine F.loop (fun {u v} e => ?_) h
  split at e
  · exact F.withStored (fun _ => F.trans (doIf_rel (F.chain _) (F.refl _)) (hchunk _ _)) e
  · exact hheader e

end

/-- A field that no wait, no chain and no move of WB, phase or read cursor touches is the same across a loop step's
body. -/
theorem BlockFrame.of_field {α : Type} (field : State → α) (hwait : ∀ {s t}, WaitRel s t → field t = field s)
    (hchain : ∀ s, field (applyEffects s) = field s) (hphase : ∀ s p, field (setPhase s p) = field s)
    (hwb : ∀ s l, field { s with wb := l } = field s)
    (hread : ∀ s l r, field { s with wb := l, rdCur := r } = field s) :
    BlockFrame fun s t => field t = field s where
  trans h h' := h'.trans h
  refl _ := rfl
  phase := hphase
  input s := hwait (readIn_rel s)
  norm _ s := hwb s _
  chain := hchain
  staged s := hwait (stageBlock_rel s)
  output o s := hwait (writeOut_rel o s)
  read {s r} h := by
    rcases readBlock_cases s with ⟨_, e⟩ | ⟨_, _, e⟩ | ⟨_, _, e⟩ <;> rw [e] at h <;> cases h
    · rfl
    · exact hread s _ _

/-! ### O60: the memories -/

theorem bufferFrame : BlockFrame fun s t => t.rb = s.rb :=
  .of_field State.rb (fun {s t} h => by rw [show t = _ from h]) (fun s => by rw [applyEffects_frame]) (fun _ _ => rfl)
    (fun _ _ => rfl) fun _ _ _ => rfl

theorem qtabFrame : BlockFrame fun s t => t.qtab = s.qtab :=
  .of_field State.qtab (fun {s t} h => by rw [show t = _ from h]) (fun s => by rw [applyEffects_frame])
    (fun _ _ => rfl) (fun _ _ => rfl) fun _ _ _ => rfl

/-- What the statement says of the memories after one operation. -/
def MemoryClauses (i : Instr) (s t : State) : Prop :=
  (i ∉ [Instr.recordBlock, .buildWavHeader, .loopRecord, .loopExport] → t.rb = s.rb) ∧
    (i ∉ [Instr.rvBlock, .rvClear, .applyEffects, .loopRecord, .loopPlay, .loopPassthru, .loopExport] →
      t.dl = s.dl ∧ t.rvTap = s.rvTap) ∧
    (i ≠ .qtabInit → t.qtab = s.qtab)

theorem SameMemories.clauses {s t : State} (h : SameMemories s t) (i : Instr) : MemoryClauses i s t :=
  ⟨fun _ => h.rb, fun _ => ⟨h.dl, h.tap⟩, fun _ => h.qtab⟩

/-- A field that a rebuild leaves and the body leaves is the same after the loop step. -/
theorem same_of_loop {α : Type} {field : State → α} {s t : State} (hserved : field (servePending s) = field s)
    (h : field t = field (servePending s) ∨ t = s) : field t = field s := by
  rcases h with h | rfl
  · exact h.trans hserved
  · rfl

/-- Settles O60: the operations outside the lists leave the memories, and a loop step leaves what its parts leave. -/
theorem memoriesHaveTheirWriters : Obligations.MemoriesHaveTheirWriters := by
  unfold Obligations.MemoriesHaveTheirWriters
  intro s t i h
  show MemoryClauses i s t
  have hserved : SameMemories s (servePending s) := (servePending_served s).memories
  cases i with
  | buildWavHeader =>
    obtain ⟨m, rfl⟩ := buildWavHeader_fields h
    exact ⟨fun hi => absurd (by simp) hi, fun _ => ⟨rfl, rfl⟩, fun _ => rfl⟩
  | loopRecord =>
    exact ⟨fun hi => absurd (by simp) hi, fun hi => absurd (by simp) hi, fun _ => same_of_loop hserved.qtab
      (qtabFrame.loopRecord (fun u => (recordOrExit_fields u).memories.qtab) h)⟩
  | loopPlay =>
    exact ⟨fun _ => same_of_loop hserved.rb (bufferFrame.loopPlay h), fun hi => absurd (by simp) hi,
      fun _ => same_of_loop hserved.qtab (qtabFrame.loopPlay h)⟩
  | loopPassthru =>
    exact ⟨fun _ => same_of_loop hserved.rb (bufferFrame.loopPassthru h), fun hi => absurd (by simp) hi,
      fun _ => same_of_loop hserved.qtab (qtabFrame.loopPassthru h)⟩
  | loopExport =>
    exact ⟨fun hi => absurd (by simp) hi, fun hi => absurd (by simp) hi, fun _ => same_of_loop hserved.qtab
      (qtabFrame.loopExport (fun _ _ => rfl) (fun e => (exportHeader_fields e).memories.qtab) h)⟩
  | qtabInit =>
    cases h
    exact ⟨fun _ => rfl, fun _ => ⟨rfl, rfl⟩, fun hi => absurd rfl hi⟩
  | rvBlock | rvClear =>
    cases h
    exact ⟨fun _ => rfl, fun hi => absurd (by simp) hi, fun _ => rfl⟩
  | applyEffects =>
    cases h
    exact ⟨fun _ => bufferFrame.chain s, fun hi => absurd (by simp) hi, fun _ => qtabFrame.chain s⟩
  | recordBlock =>
    obtain ⟨m, w, hr⟩ := recordBlock_fields s
    cases h
    exact ⟨fun hi => absurd (by simp) hi, fun _ => by simp [hr], fun _ => by simp [hr]⟩
  | cfgWrite rr =>
    cases h
    exact (configWrite_rel rr _ s).memories.clauses _
  | taskWake =>
    cases h
    exact (execTaskWake_served s).memories.clauses _
  | taskRebuild =>
    cases h
    exact (taskRebuild_rel s).memories.clauses _
  | _ => exact (exec_untouched rfl h).memories.clauses _

end Sys2Proof.Machine

namespace Sys2Proof.Machine

open Sys2Proof

/-! ### O58: the configurations -/

/-- Where no Configurator step falls into a coming wait, both configurations are as before, and none falls into a later
wait. -/
def ConfigKept (s t : State) : Prop := NoConfigVisits s.env → SameConfig s t ∧ NoConfigVisits t.env

theorem ConfigKept.refl (s : State) : ConfigKept s s := fun hq => ⟨⟨rfl, rfl⟩, hq⟩

theorem ConfigKept.trans {s t u : State} (h : ConfigKept s t) (h' : ConfigKept t u) : ConfigKept s u := fun hq =>
  have ⟨hst, hqt⟩ := h hq
  have ⟨htu, hqu⟩ := h' hqt
  ⟨⟨htu.cfg.trans hst.cfg, htu.act.trans hst.act⟩, hqu⟩

/-- An operation that touches no configuration and none of the answers that come with visits. -/
theorem ConfigKept.of_eq {s t : State} (cfg : t.cfg = s.cfg := by rfl) (act : t.act = s.act := by rfl)
    (inQ : t.env.inQ = s.env.inQ := by rfl) (outQ : t.env.outQ = s.env.outQ := by rfl)
    (copyQ : t.env.copyQ = s.env.copyQ := by rfl) : ConfigKept s t := by
  intro hq
  refine ⟨⟨cfg, act⟩, ?_⟩
  unfold NoConfigVisits
  rw [inQ, outQ, copyQ]
  exact hq

theorem RequestRel.configKept {s t : State} (h : RequestRel s t) : ConfigKept s t := by
  rw [show t = _ from h]
  exact .of_eq

theorem BridgeRel.configKept {s t : State} (h : BridgeRel s t) : ConfigKept s t := by
  rw [show t = _ from h]
  exact .of_eq

/-- A visit that is no configuration write is a request or a Bridge poll (rules R86, R92). -/
theorem visitStep_configKept {v : Visit} (hv : ∀ w x, v ≠ .config w x) (writing : Option (List S16)) (s : State) :
    ConfigKept s (visitStep writing s v) := by
  cases v with
  | request w => exact (requestArrives_rel w s).configKept
  | config w x => exact absurd rfl (hv w x)
  | bridge newAt => cases writing <;> exact (bridgePoll_rel _ s).configKept

theorem runVisits_configKept {vs : List Visit} (hvs : ∀ w x, Visit.config w x ∉ vs) (writing : Option (List S16))
    (s : State) : ConfigKept s (runVisits writing s vs) := by
  unfold runVisits
  induction vs generalizing s with
  | nil => exact .refl s
  | cons v vs ih =>
    have hhead : ∀ w x, v ≠ .config w x := fun w x e => hvs w x (by simp [e])
    have htail : ∀ w x, Visit.config w x ∉ vs := fun w x hm => hvs w x (List.mem_cons_of_mem _ hm)
    exact (visitStep_configKept hhead writing s).trans (ih htail _)

theorem takeIn_quiet {s : State} (hq : NoConfigVisits s.env) :
    (∀ w x, Visit.config w x ∉ (takeIn s).2.1) ∧ NoConfigVisits (takeIn s).1.env := by
  obtain ⟨hin, hout, hcopy⟩ := hq
  unfold takeIn
  split
  · next e rest hqueue =>
    rw [hqueue] at hin
    exact ⟨hin e List.mem_cons_self, fun p hp => hin p (List.mem_cons_of_mem _ hp), hout, hcopy⟩
  · exact ⟨fun _ _ => List.not_mem_nil, hin, hout, hcopy⟩

theorem takeOut_quiet {s : State} (hq : NoConfigVisits s.env) :
    (∀ w x, Visit.config w x ∉ (takeOut s).2.1) ∧ NoConfigVisits (takeOut s).1.env := by
  obtain ⟨hin, hout, hcopy⟩ := hq
  unfold takeOut
  split
  · next e rest hqueue =>
    rw [hqueue] at hout
    exact ⟨hout e List.mem_cons_self, hin, fun p hp => hout p (List.mem_cons_of_mem _ hp), hcopy⟩
  · exact ⟨fun _ _ => List.not_mem_nil, hin, hout, hcopy⟩

theorem takeCopy_quiet {s : State} (hq : NoConfigVisits s.env) :
    (∀ w x, Visit.config w x ∉ (takeCopy s).2) ∧ NoConfigVisits (takeCopy s).1.env := by
  obtain ⟨hin, hout, hcopy⟩ := hq
  unfold takeCopy
  split
  · next vs rest hqueue =>
    rw [hqueue] at hcopy
    exact ⟨hcopy vs List.mem_cons_self, hin, hout, fun p hp => hcopy p (List.mem_cons_of_mem _ hp)⟩
  · exact ⟨fun _ _ => List.not_mem_nil, hin, hout, hcopy⟩

/-- A wait whose answer brings no Configurator step: the answer is taken in `t`, its visits run, and an update that
touches no configuration ends in `u`. -/
theorem wait_configKept {s t u : State} {vs : List Visit} {writing : Option (List S16)}
    (hconfig : SameConfig s t)
    (hquiet : NoConfigVisits s.env → (∀ w x, Visit.config w x ∉ vs) ∧ NoConfigVisits t.env)
    (hu : ConfigKept (runVisits writing t vs) u) : ConfigKept s u := by
  intro hq
  obtain ⟨hvs, hqt⟩ := hquiet hq
  have hst : ConfigKept s t := fun _ => ⟨hconfig, hqt⟩
  exact (hst.trans ((runVisits_configKept hvs writing t).trans hu)) hq

theorem readIn_configKept (s : State) : ConfigKept s (readIn s).1 := by
  rw [readIn_eq]
  exact wait_configKept (by rw [takeIn_frame]; exact ⟨rfl, rfl⟩) takeIn_quiet .of_eq

theorem writeOut_configKept (o : List HwSample) (s : State) : ConfigKept s (writeOut o s) := by
  rw [writeOut_eq]
  exact wait_configKept (by rw [takeOut_frame]; exact ⟨rfl, rfl⟩) takeOut_quiet .of_eq

theorem stageBlock_configKept (s : State) : ConfigKept s (stageBlock s) := by
  rw [stageBlock_eq]
  exact wait_configKept (by rw [takeCopy_frame]; exact ⟨rfl, rfl⟩) takeCopy_quiet .of_eq

theorem filterBlock_configKept (s : State) : ConfigKept s (filterBlock s) := by
  rw [(filterBlock_frame s).eq]
  exact .of_eq

theorem rmBlock_configKept (s : State) : ConfigKept s (rmBlock s) := by
  rw [rmBlock_frame]
  exact .of_eq

theorem takePitch_queues (s : State) : (takePitch s).1.env.inQ = s.env.inQ ∧ (takePitch s).1.env.outQ = s.env.outQ ∧
    (takePitch s).1.env.copyQ = s.env.copyQ := by
  unfold takePitch
  split <;> exact ⟨rfl, rfl, rfl⟩

theorem pitchBlock_configKept (s : State) : ConfigKept s (pitchBlock s) := by
  obtain ⟨hin, hout, hcopy⟩ := takePitch_queues s
  rw [pitchBlock_eq]
  exact .of_eq rfl rfl hin hout hcopy

theorem doIf_configKept {f : State → State} (h : ∀ s, ConfigKept s (f s)) (c : Bool) (s : State) :
    ConfigKept s (doIf c f s) := doIf_rel (h s) (.refl s)

theorem frontEffects_configKept (s : State) : ConfigKept s (frontEffects s) :=
  ((doIf_configKept filterBlock_configKept _ s).trans (doIf_configKept rmBlock_configKept _ _)).trans
    (doIf_configKept (fun _ => .of_eq) _ _)

theorem applyEffects_configKept (s : State) : ConfigKept s (applyEffects s) :=
  (((doIf_configKept frontEffects_configKept _ s).trans .of_eq).trans
    (doIf_configKept pitchBlock_configKept _ _)).trans (doIf_configKept (fun _ => .of_eq) _ _)

theorem configFrame : BlockFrame ConfigKept where
  trans := .trans
  refl := .refl
  phase _ _ := .of_eq
  input := readIn_configKept
  norm _ _ := .of_eq
  chain := applyEffects_configKept
  staged := stageBlock_configKept
  output := writeOut_configKept
  read {s r} h := by
    rcases readBlock_cases s with ⟨_, e⟩ | ⟨_, _, e⟩ | ⟨_, _, e⟩ <;> rw [e] at h <;> cases h <;> exact .of_eq

theorem recordOrExit_configKept (s : State) : ConfigKept s (recordOrExit s) := by
  unfold recordOrExit
  rcases recordBlock_cases s with ⟨_, h⟩ | ⟨_, h⟩ <;> rw [h] <;> exact .of_eq

theorem exportHeader_configKept {s t : State} (h : exportHeader s = .next t) : ConfigKept s t := by
  obtain ⟨u, hu, h⟩ := andThen_next h
  obtain ⟨m, rfl⟩ := buildWavHeader_fields hu
  cases h
  exact .of_eq

/-- What the statement says of the configurations after one operation. -/
def ConfigClauses (i : Instr) (s t : State) : Prop :=
  ((∀ rr, i ≠ .cfgWrite rr) → t.cfg = s.cfg) ∧ (i ≠ .taskRebuild → s.ctl.updPend = false → t.act = s.act) ∧
    (i ∉ [Instr.taskRebuild, .taskWake, .loopRecord, .loopPlay, .loopPassthru, .loopExport] → t.act = s.act)

theorem SameConfig.clauses {s t : State} (h : SameConfig s t) (i : Instr) : ConfigClauses i s t :=
  ⟨fun _ => h.cfg, fun _ _ => h.act, fun _ => h.act⟩

theorem ConfigClauses.of_served {s t : State} {i : Instr}
    (hi : i ∈ [Instr.taskRebuild, .taskWake, .loopRecord, .loopPlay, .loopPassthru, .loopExport])
    (hcfg : t.cfg = s.cfg) (hact : i ≠ .taskRebuild → s.ctl.updPend = false → t.act = s.act) : ConfigClauses i s t :=
  ⟨fun _ => hcfg, hact, fun hn => absurd hi hn⟩

/-- A loop step writes the active configuration only where it serves a pending update. -/
theorem ConfigClauses.of_loop {s t : State} {i : Instr} (hq : NoConfigVisits s.env)
    (hi : i ∈ [Instr.taskRebuild, .taskWake, .loopRecord, .loopPlay, .loopPassthru, .loopExport])
    (h : ConfigKept (servePending s) t ∨ t = s) : ConfigClauses i s t := by
  rcases h with h | rfl
  · have hserved := servePending_served s
    have hqs : NoConfigVisits (servePending s).env := by
      rw [show servePending s = _ from servePending_rel s]
      exact hq
    obtain ⟨hbody, _⟩ := h hqs
    exact .of_served hi (hbody.cfg.trans hserved.cfg) fun _ hnone => hbody.act.trans (hserved.act hnone)
  · exact SameConfig.clauses ⟨rfl, rfl⟩ i

/-- Settles O58: the writers of the two configurations, one case for each operation that could be one. -/
theorem onlyTheConfiguratorWritesConfig : Obligations.OnlyTheConfiguratorWritesConfig := by
  unfold Obligations.OnlyTheConfiguratorWritesConfig
  intro s t i hq h
  show ConfigClauses i s t
  cases i with
  | cfgWrite rr =>
    cases h
    have hact : (configWrite rr s.beside.cfgValue s).act = s.act := (configWrite_rel rr _ s).act
    exact ⟨fun hi => absurd rfl (hi rr), fun _ _ => hact, fun _ => hact⟩
  | taskRebuild =>
    cases h
    exact .of_served (by simp) (taskRebuild_rel s).cfg fun hi => absurd rfl hi
  | taskWake =>
    cases h
    have hserved := execTaskWake_served s
    exact .of_served (by simp) hserved.cfg fun _ => hserved.act
  | loopRecord => exact .of_loop hq (by simp) (configFrame.loopRecord recordOrExit_configKept h)
  | loopPlay => exact .of_loop hq (by simp) (configFrame.loopPlay h)
  | loopPassthru => exact .of_loop hq (by simp) (configFrame.loopPassthru h)
  | loopExport =>
    exact .of_loop hq (by simp) (configFrame.loopExport (fun _ _ => .of_eq) exportHeader_configKept h)
  | qtabInit | rvBlock | rvClear =>
    cases h
    exact SameConfig.clauses ⟨rfl, rfl⟩ _
  | applyEffects =>
    cases h
    exact (applyEffects_sameConfig s).clauses _
  | recordBlock =>
    obtain ⟨m, w, hr⟩ := recordBlock_fields s
    cases h
    exact SameConfig.clauses ⟨by simp [hr], by simp [hr]⟩ _
  | buildWavHeader =>
    obtain ⟨m, rfl⟩ := buildWavHeader_fields h
    exact SameConfig.clauses ⟨rfl, rfl⟩ _
  | _ => exact (exec_untouched rfl h).config.clauses _

end Sys2Proof.Machine

/-! # What a turn runs, the block boundary, the reads and the waiting points

Settles O4, O9, O34, O42, O49 and O50. -/

namespace Sys2Proof.Machine

open Sys2Proof

/-! ### O4: the operation of a scheduled word -/

theorem operationOfWord_of_decode {w : CmdWord} {i : Instr} (h : decode w = .ok i) : operationOfWord w = some i := by
  simp [operationOfWord, h]

/-- An operation of the Requester posts a request (rules R101, R108). -/
theorem request_of_issuer {i : Instr} (h : i.issuer = .requester) : ∃ r, i.request? = some r := by
  cases i with
  | reqNone | reqUpdateConfig | reqRecord | reqPlay | reqPassthru | reqDownloadWav | reqStop => exact ⟨_, rfl⟩
  | _ => cases h

theorem requestOfWord_of_decode {w : CmdWord} {i : Instr} (h : decode w = .ok i) (hi : i.issuer = .requester) :
    requestOfWord w = some i := by
  obtain ⟨r, hr⟩ := request_of_issuer hi
  simp [requestOfWord, h, hr]

theorem configOfWord_of_decode {w : CmdWord} {i : Instr} (h : decode w = .ok i) (hi : i.issuer = .configurator) :
    configOfWord w = some i := by
  simp [configOfWord, h, hi]

/-- Settles O4: what each kind of turn looks its word up in, and the state it leaves to the operation. -/
theorem stepRunsTheDecodedOperation : Obligations.StepRunsTheDecodedOperation := by
  unfold Obligations.StepRunsTheDecodedOperation
  refine ⟨fun s w b ts i ht hw => ?_, fun s w ts i ht hw hi => ?_, fun s w v ts i ht hw hi => ?_, fun s ts ht => ?_,
    fun s w i hw => ?_⟩
  · simp [step, ht, operationOfWord_of_decode hw, withBeside, dropTurn]
  · simp [step, ht, requestOfWord_of_decode hw hi, dropTurn]
  · simp [step, ht, configOfWord_of_decode hw hi, withCfgValue, dropTurn]
  · simp [step, ht, dropTurn]
  · simp [step, State.withFetchWord, scheduleWord, operationOfWord_of_decode hw, withBeside, dropTurn]

/-! ### O9: the requests -/

/-- An operation of the Requester posts its request and does nothing else (rules R303 to R307, R313 to R316). -/
theorem exec_of_request {i : Instr} {r : ReqCode} (h : i.request? = some r) (s : State) :
    exec i s = .next (postRequest r s) := by
  cases i with
  | reqNone | reqUpdateConfig | reqRecord | reqPlay | reqPassthru | reqDownloadWav | reqStop => cases h; rfl
  | _ => cases h

/-- Settles O9: every operation of the Requester posts a request, and what a post can change is `RequestRel`. -/
theorem requestsTouchOnlyRequestState : Obligations.RequestsTouchOnlyRequestState := by
  unfold Obligations.RequestsTouchOnlyRequestState
  intro s i hi
  obtain ⟨r, hr⟩ := request_of_issuer hi
  exact ⟨postRequest r s, exec_of_request hr s, postRequest_rel r s⟩

/-! ### O34: `READ_BLOCK` -/

theorem storedBlock_length (s : State) : (storedBlock s).length = blockLen s := by simp [storedBlock]

/-- Sample `i` of a stored block lies at byte `2 * i` of it, low byte first (rules R72, R275). -/
theorem storedBlock_getD {s : State} {i : Nat} (h : i < blockLen s) :
    (storedBlock s).getD i 0 = sampleAt s.rb (44 + s.rdCur.toNat + 2 * i) := by
  simp [storedBlock, List.getD_eq_getElem?_getD, h]

theorem bufCap_of_room {s : State} {room : BitVec 32} (h : s.hw.bufRoom = some room) : bufCap s = 44 + room.toNat := by
  simp [bufCap, h]

/-- A block before the mark, in a buffer that holds the data, is returned and the read cursor advances (rule R275). -/
theorem readBlock_ok {s : State} (hbefore : s.rdCur.toNat + blockBytes s ≤ s.recEnd.toNat)
    (hroom : 44 + s.recEnd.toNat ≤ bufCap s) : readBlock s =
      .next ({ s with wb := storedBlock s, rdCur := BitVec.ofNat 32 (s.rdCur.toNat + blockBytes s) }, .ok) := by
  rcases readBlock_cases s with ⟨_, _⟩ | ⟨_, _, _⟩ | ⟨_, _, h⟩
  · omega
  · omega
  · exact h

theorem readBlock_end {s : State} (h : s.recEnd.toNat < s.rdCur.toNat + blockBytes s) :
    readBlock s = .next (s, .endOfData) := if_pos h

/-- The operation is the read, its answer in the result latch (rule R275; assumption log 12). -/
theorem exec_readBlock {s u : State} {x : Transfer} (h : readBlock s = .next (u, x)) :
    exec .readBlock s = .next { u with result := .transfer x } := by
  show andThen (readBlock s) _ = _
  rw [h]
  rfl

/-- The cursor after a block that lies before the mark does not wrap around. -/
theorem toNat_advanced {s : State} (h : s.rdCur.toNat + blockBytes s ≤ s.recEnd.toNat) :
    (BitVec.ofNat 32 (s.rdCur.toNat + blockBytes s)).toNat = s.rdCur.toNat + blockBytes s := by
  have hlt := s.recEnd.isLt
  exact Nat.mod_eq_of_lt (by omega)

/-- Settles O34: the two outcomes of a read in a buffer that holds the data. -/
theorem readBlockReturnsOrEnds : Obligations.ReadBlockReturnsOrEnds := by
  unfold Obligations.ReadBlockReturnsOrEnds
  intro s room hroom hend
  refine ⟨fun h => exec_readBlock (readBlock_end h), fun h => ?_⟩
  have hread := readBlock_ok h (by rw [bufCap_of_room hroom]; omega)
  exact ⟨_, exec_readBlock hread, rfl, toNat_advanced h, storedBlock_length s, fun i hi => storedBlock_getD hi⟩

/-! ### O42: the block boundary -/

/-- The loop steps and the actions whose loops they are (rule R348). -/
def loopActions : List (Instr × ReqCode) :=
  [(.loopRecord, .record), (.loopPlay, .play), (.loopPassthru, .passthru), (.loopExport, .downloadWav)]

theorem enabledStep_loop {s : State} {i : Instr} {a : ReqCode} (hi : (i, a) ∈ loopActions) (hq : s.qtabValid = true)
    (hp : s.ctl.phase = .loop) (ha : s.ctl.action = a) : enabledStep s = some i := by
  simp only [loopActions, List.mem_cons, Prod.mk.injEq, List.not_mem_nil, or_false] at hi
  rcases hi with ⟨rfl, rfl⟩ | ⟨rfl, rfl⟩ | ⟨rfl, rfl⟩ | ⟨rfl, rfl⟩ <;> simp [enabledStep, hq, hp, ha]

/-- Every loop operation is a loop step over a body of its own (rules R325, R348). -/
theorem exec_loop {i : Instr} {a : ReqCode} (hi : (i, a) ∈ loopActions) :
    ∃ body, ∀ s, exec i s = stepWhenEnabled i (loopStep body) s := by
  simp only [loopActions, List.mem_cons, Prod.mk.injEq, List.not_mem_nil, or_false] at hi
  rcases hi with ⟨rfl, rfl⟩ | ⟨rfl, rfl⟩ | ⟨rfl, rfl⟩ | ⟨rfl, rfl⟩ <;> exact ⟨_, fun _ => rfl⟩

theorem stepWhenEnabled_on {i : Instr} {s : State} (h : enabledStep s = some i)
    (f : State → Host.Outcome State Fault Refusal) : stepWhenEnabled i f s = f s := if_pos h

/-- A rebuild leaves the Task the step it had (rules R320, R348). -/
theorem enabledStep_taskRebuild (s : State) : enabledStep (taskRebuild s) = enabledStep s := by
  rw [show taskRebuild s = _ from taskRebuild_rel s]
  rfl

/-- A pending update is served once: after `TASK_REBUILD` the boundary finds none (rules R320, R325). -/
theorem boundary_taskRebuild {s : State} (h : s.ctl.updPend = true) : boundary (taskRebuild s) = boundary s := by
  have hserved : servePending s = taskRebuild s := by simp [servePending, doIf, h]
  have hdone : servePending (taskRebuild s) = taskRebuild s := servePending_none rfl
  simp only [boundary, hserved, hdone]

theorem loopStep_congr {s t : State} (h : boundary s = boundary t) (body : State → Host.Outcome State Fault Refusal) :
    loopStep body s = loopStep body t := by
  simp only [loopStep, h]

/-- With nothing pending and the stop flag clear a loop step is its body (rule R325). -/
theorem loopStep_goes_on {s : State} (hpend : s.ctl.updPend = false) (hstop : s.ctl.stop = false)
    (body : State → Host.Outcome State Fault Refusal) : loopStep body s = body s := by
  simp [loopStep, boundary_none hpend, hstop]

/-- With nothing pending and the stop flag set a loop step only leaves the loop (rules R93, R325). -/
theorem loopStep_stops {s : State} (hpend : s.ctl.updPend = false) (hstop : s.ctl.stop = true)
    (body : State → Host.Outcome State Fault Refusal) : loopStep body s = .next (setPhase s .exit) := by
  simp [loopStep, boundary_none hpend, hstop]

/-- Settles O42: the four loops share their boundary, and the boundary serves an update before it samples the flag. -/
theorem boundaryServesUpdateThenStop : Obligations.BoundaryServesUpdateThenStop := by
  unfold Obligations.BoundaryServesUpdateThenStop
  intro s i a hi hq hp ha
  have henabled : enabledStep s = some i := enabledStep_loop hi hq hp ha
  obtain ⟨body, hbody⟩ := exec_loop hi
  have hs : exec i s = loopStep body s := by rw [hbody, stepWhenEnabled_on henabled]
  refine ⟨fun hpend => ⟨taskRebuild s, rfl, ?_⟩, fun hpend hstop => ?_⟩
  · rw [hs, hbody, stepWhenEnabled_on ((enabledStep_taskRebuild s).trans henabled)]
    exact loopStep_congr (boundary_taskRebuild hpend).symm body
  · rw [hs, loopStep_stops hpend hstop]
    rfl

/-! ### O49: the torn read -/

theorem tornRead_length (m : List Bool) (old new : List S16) : (tornRead m old new).length = old.length := by
  induction m, old, new using tornRead.induct with
  | case1 old new => simp [tornRead]
  | case2 m new => cases m <;> simp [tornRead]
  | case3 m old => cases m <;> cases old <;> simp [tornRead]
  | case4 m o os n ns ih => simp [tornRead, ih]
  | case5 m o os n ns ih => simp [tornRead, ih]
/-- A torn read takes each element old or new (rule R90). -/
theorem tornRead_getD (m : List Bool) (old new : List S16) (i : Nat) :
    (tornRead m old new).getD i 0 = old.getD i 0 ∨ (tornRead m old new).getD i 0 = new.getD i 0 := by
  induction m, old, new using tornRead.induct generalizing i with
  | case1 old new => simp [tornRead]
  | case2 m new => cases m <;> simp [tornRead]
  | case3 m old => cases m <;> cases old <;> simp [tornRead]
  | case4 m o os n ns ih =>
    cases i with
    | zero => simp [tornRead]
    | succ i => simpa [tornRead] using ih i
  | case5 m o os n ns ih =>
    cases i with
    | zero => simp [tornRead]
    | succ i => simpa [tornRead] using ih i

/-- The choice of a poll that reads `t`: new wherever `t` is not the old element. -/
def tornChoice (t old : List S16) : List Bool := List.zipWith (fun x o => x != o) t old

/-- Every mixture of old and new is read by some poll (rule R90). -/
theorem tornRead_tornChoice {t old new : List S16} (hnew : old.length = new.length) (ht : t.length = old.length)
    (hmix : ∀ i, i < t.length → t.getD i 0 = old.getD i 0 ∨ t.getD i 0 = new.getD i 0) :
    tornRead (tornChoice t old) old new = t := by
  induction t generalizing old new with
  | nil =>
    have hold : old = [] := List.length_eq_zero_iff.1 ht.symm
    simp [tornChoice, tornRead, hold]
  | cons x xs ih =>
    obtain ⟨o, os, rfl⟩ := List.exists_cons_of_length_eq_add_one ht.symm
    obtain ⟨n, ns, rfl⟩ := List.exists_cons_of_length_eq_add_one hnew.symm
    have hhead : x = o ∨ x = n := by simpa using hmix 0 (by simp)
    have htail : tornRead (tornChoice xs os) os ns = xs :=
      ih (by simpa using hnew) (by simpa using ht) fun i hi => by simpa using hmix (i + 1) (by simpa using hi)
    show tornRead ((x != o) :: tornChoice xs os) (o :: os) (n :: ns) = x :: xs
    cases hx : x != o with
    | false =>
      have hold : x = o := by simpa using hx
      rw [tornRead, htail, hold]
    | true =>
      have hn : x = n := hhead.resolve_left (by simpa using hx)
      rw [tornRead, htail, hn]

/-- STAGE and the pending configuration replaced: a Bridge poll looks at neither, having read its block. -/
def withStageCfg (l : List S16) (c : CfgRegs) (s : State) : State := { s with stage := l, cfg := c }

theorem withStageCfg_same {l : List S16} {c : CfgRegs} {s : State} (hl : s.stage = l) (hc : s.cfg = c) :
    withStageCfg l c s = s := by
  subst hl hc
  rfl

theorem takeAttached_withStageCfg (l : List S16) (c : CfgRegs) (s : State) :
    takeAttached (withStageCfg l c s) = (withStageCfg l c (takeAttached s).1, (takeAttached s).2) := by
  unfold takeAttached withStageCfg
  dsimp only
  split <;> rfl

theorem takeReady_withStageCfg (l : List S16) (c : CfgRegs) (s : State) :
    takeReady (withStageCfg l c s) = (withStageCfg l c (takeReady s).1, (takeReady s).2) := by
  unfold takeReady withStageCfg
  dsimp only
  split <;> rfl

theorem bridgeForward_withStageCfg (t l : List S16) (c : CfgRegs) (s : State) :
    bridgeForward t (withStageCfg l c s) = withStageCfg l c (bridgeForward t s) := by
  have hready := takeReady_withStageCfg l c { s with stageNew := false }
  have hnew : { withStageCfg l c s with stageNew := false } = withStageCfg l c { s with stageNew := false } := rfl
  rw [bridgeForward_eq, bridgeForward_eq, hnew, hready]
  by_cases hsize : (s.hw.transportMax : Nat) < blockBytes s
  · have hsize' : ((withStageCfg l c s).hw.transportMax : Nat) < blockBytes (withStageCfg l c s) := hsize
    rw [if_pos hsize, if_pos hsize']
    rfl
  · have hsize' : ¬((withStageCfg l c s).hw.transportMax : Nat) < blockBytes (withStageCfg l c s) := hsize
    rw [if_neg hsize, if_neg hsize']
    dsimp only
    cases (takeReady { s with stageNew := false }).2 <;> rfl

/-- A poll works on the block it read: neither STAGE nor CFG has a part in it (rules R90, R361). -/
theorem bridgePoll_withStageCfg (t l : List S16) (c : CfgRegs) (s : State) :
    bridgePoll t (withStageCfg l c s) = withStageCfg l c (bridgePoll t s) := by
  rw [bridgePoll_eq, bridgePoll_eq, takeAttached_withStageCfg]
  dsimp only
  have hnew : (withStageCfg l c s).stageNew = s.stageNew := rfl
  rw [hnew]
  cases (takeAttached s).2 && s.stageNew
  · rfl
  · exact bridgeForward_withStageCfg t l c (recordTx (takeAttached s).1 (.attached (takeAttached s).2))

/-- A poll of `t` is, but for STAGE, the poll of a STAGE that holds another block (rule R90). -/
theorem bridgePoll_restage (t l : List S16) (s : State) :
    { bridgePoll t { s with stage := l } with stage := s.stage } = bridgePoll t s := by
  have hstage : (bridgePoll t s).stage = s.stage := by rw [show bridgePoll t s = _ from bridgePoll_rel t s]
  have hcfg : (bridgePoll t s).cfg = s.cfg := by rw [show bridgePoll t s = _ from bridgePoll_rel t s]
  have hpoll : bridgePoll t { s with stage := l } = withStageCfg l s.cfg (bridgePoll t s) :=
    bridgePoll_withStageCfg t l s.cfg s
  rw [hpoll]
  exact withStageCfg_same hstage hcfg

/-- A block that is not too large is sent where the transport is ready (rule R361). -/
theorem bridgeForward_sends {s v : State} (t : List S16) (hsize : blockBytes s ≤ s.hw.transportMax)
    (hready : takeReady { s with stageNew := false } = (v, true)) :
    bridgeForward t s = recordTx (recordTx v (.ready true)) (.send t (blockBytes s)) := by
  rw [bridgeForward_eq, if_neg (Nat.not_lt.2 hsize), hready]
  rfl

/-- The answer at TX depends on the environment only. -/
theorem takeReady_of_env {s u v : State} {a : Bool} (h : takeReady u = (v, a)) (henv : s.env = u.env) :
    takeReady s = ({ s with env := v.env }, a) := by
  have hs : ((takeReady s).1.env, (takeReady s).2) = (v.env, a) := by
    rw [show v = (takeReady u).1 by rw [h], show a = (takeReady u).2 by rw [h]]
    unfold takeReady
    rw [henv]
    split <;> rfl
  obtain ⟨hv, ha⟩ := Prod.mk.inj hs
  rw [← hv, ← ha]
  exact Prod.ext (takeReady_frame s) rfl

/-- A poll that finds the transport attached and ready and a new block that is not too large sends what it read (rule
R361). -/
theorem bridgePoll_sends {s u v : State} (t : List S16) (hattached : takeAttached s = (u, true))
    (hnew : s.stageNew = true) (hsize : 2 * blockLen s ≤ s.hw.transportMax) (hready : takeReady u = (v, true)) :
    bridgePoll t s = { v with
      stageNew := false
      ports := { s.ports with tx := s.ports.tx ++ [.attached true, .ready true, .send t (2 * blockLen s)] } } := by
  have hu : u = { s with env := u.env } := by simpa [hattached] using takeAttached_frame s
  have hv : v = { u with env := v.env } := by simpa [hready] using takeReady_frame u
  rw [bridgePoll_eq, hattached, hnew]
  rw [hu] at hready hv ⊢
  have hsend := bridgeForward_sends t hsize (s := recordTx { s with env := u.env } (.attached true))
    (takeReady_of_env hready rfl)
  refine hsend.trans ?_
  rw [hv]
  simp only [recordTx, List.append_assoc, List.cons_append, List.nil_append]
  rfl

theorem takeCopy_of_cons {s : State} {vs : List Visit} {rest : List (List Visit)} (h : s.env.copyQ = vs :: rest) :
    takeCopy s = ({ s with env := { s.env with copyQ := rest } }, vs) := by
  simp [takeCopy, h]

/-- Settles O49: a poll inside the copy is a poll of a mixture, every mixture has its poll, and the copy ends whole. -/
theorem tornReadMixesOldAndNew : Obligations.TornReadMixesOldAndNew := by
  unfold Obligations.TornReadMixesOldAndNew
  refine ⟨fun s new m _ => ?_, fun s new t hlen ht hmix => ?_, fun s vs rest hq => ?_⟩
  · exact ⟨tornRead m s.stage new, _, tornRead_length _ _ _, fun i _ => tornRead_getD _ _ _ i, rfl,
      (bridgePoll_restage _ _ s).symm⟩
  · refine ⟨tornChoice t s.stage, fun u v hattached hnew hsize hready => ?_⟩
    show bridgePoll (tornRead (tornChoice t s.stage) s.stage new) s = _
    rw [tornRead_tornChoice hlen ht hmix, bridgePoll_sends t hattached hnew hsize hready]
  · rw [stageBlock_eq, takeCopy_of_cons hq]
    rfl

/-! ### O50: the waiting points of a loop step -/

/-- A request at a wait does what the Requester's own turn does (rule R86). -/
theorem step_request_turn (w : CmdWord) (s : State) :
    step { s with turns := .request w :: s.turns } = .next (requestArrives w s) := by
  cases h : requestOfWord w with
  | none => simp [step, requestArrives, h, dropTurn]
  | some i =>
    obtain ⟨r, hr⟩ := Option.isSome_iff_exists.1 (requestOfWord_some h).2
    simp [step, requestArrives, h, hr, exec_of_request hr, dropTurn]

theorem fixedRows_not_configurator : ∀ row ∈ fixedRows, row.2.issuer ≠ .configurator := by decide

/-- The register number of a configuration write is the `ARG` field of its word (rules R107, R110). -/
theorem decodeFields_cfgWrite {w : CmdWord} {rr : BitVec 8} (h : decodeFields w = .ok (.cfgWrite rr)) :
    rr = wordArg w := by
  unfold decodeFields at h
  split_ifs at h
  · cases h; rfl
  · obtain ⟨_, _, h⟩ := decodeStageWord_ok h
    cases h
  · obtain ⟨_, _, h⟩ := decodeStageWord_ok h
    cases h
  · cases h

theorem configOfWord_cfgWrite {w : CmdWord} {i : Instr} (h : configOfWord w = some i) : i = .cfgWrite (wordArg w) := by
  obtain ⟨hw, hi⟩ := configOfWord_some h
  unfold decode at hw
  split at hw
  · next j hrow =>
    cases hw
    exact absurd hi (fixedRows_not_configurator _ (mem_of_lookupRow hrow))
  · rcases decodeFields_ok hw with ⟨rr, rfl⟩ | ⟨_, _, rfl⟩ | ⟨_, _, rfl⟩ | ⟨_, rfl⟩
    · rw [decodeFields_cfgWrite hw]
    all_goals cases hi

/-- A write takes its value as an argument, so that the operand latch has no part in it (assumption log 12). -/
theorem configWrite_latch (rr : BitVec 8) (v x : CfgValue) (s : State) :
    { configWrite rr v (withCfgValue s x) with beside := s.beside } = configWrite rr v s := by
  unfold configWrite
  cases cfgRegOfNumber rr with
  | none => rfl
  | some r =>
    show { storeRegister rr r (portValue (floatFmt s) v) (withCfgValue s x) with beside := s.beside } =
      storeRegister rr r (portValue (floatFmt s) v) s
    unfold storeRegister
    rw [withCfgValue_cfg]
    cases cfgStore s.cfg r (portValue (floatFmt s) v) <;> rfl

/-- A configuration write at a wait does what the Configurator's own turn does, but for the operand latch (rule R86,
assumption log 15). -/
theorem step_config_turn (w : CmdWord) (v : CfgValue) (s : State) :
    ∃ t, step { s with turns := .config w v :: s.turns } = .next t ∧
      configArrives w v s = { t with beside := s.beside } := by
  cases h : configOfWord w with
  | none =>
    refine ⟨rejectOnCfgp w v s, by simp [step, h, dropTurn], ?_⟩
    simp only [configArrives, h]
    rfl
  | some i =>
    cases configOfWord_cfgWrite h
    refine ⟨configWrite (wordArg w) v (withCfgValue s v), ?_, ?_⟩
    · simp [step, h, dropTurn, exec, execCfgWrite]
    · simp only [configArrives, h, Option.isSome_some, if_true, configWrite_latch]

theorem takeIn_of_cons {s : State} {vs : List Visit} {a : InAnswer} {rest : List (List Visit × InAnswer)}
    (h : s.env.inQ = (vs, a) :: rest) : takeIn s = ({ s with env := { s.env with inQ := rest } }, vs, a) := by
  simp [takeIn, h]

theorem takeOut_of_cons {s : State} {vs : List Visit} {a : OutAnswer} {rest : List (List Visit × OutAnswer)}
    (h : s.env.outQ = (vs, a) :: rest) : takeOut s = ({ s with env := { s.env with outQ := rest } }, vs, a) := by
  simp [takeOut, h]

/-- A time-out at IN: the visits run, and the time-out is recorded (rules R86, R326; assumption log 18). -/
theorem readIn_of_timeout {s : State} {vs : List Visit} {rest : List (List Visit × InAnswer)}
    (h : s.env.inQ = (vs, .timeout) :: rest) : readIn s =
      let t := runVisits none { s with env := { s.env with inQ := rest } } vs
      ({ t with ports := { t.ports with inp := t.ports.inp ++ [.timeout] } }, .timeout) := by
  rw [readIn_eq, takeIn_of_cons h]

/-- With nothing pending and the stop flag clear an enabled loop operation runs its body (rules R325, R348). -/
theorem loop_runs_body {i : Instr} {s : State} (henabled : enabledStep s = some i) (hpend : s.ctl.updPend = false)
    (hstop : s.ctl.stop = false) (body : State → Host.Outcome State Fault Refusal) :
    stepWhenEnabled i (loopStep body) s = body s := by
  rw [stepWhenEnabled_on henabled, loopStep_goes_on hpend hstop]

theorem withInput_timeout {s u : State} (h : readIn s = (u, .timeout)) (body : List HwSample → State → State) :
    withInput body s = .next u := by
  simp [withInput, h]

theorem withInput_block {s u : State} {b : List HwSample} (h : readIn s = (u, .block b))
    (body : List HwSample → State → State) : withInput body s = .next (body b u) := by
  simp [withInput, h]

theorem withStored_ok {s u : State} (h : readBlock s = .next (u, .ok)) (body : State → State) :
    withStored body s = .next (body u) := by
  simp [withStored, h, andThen]

theorem execIf_applyEffects (c : Bool) (s : State) :
    execIf c .applyEffects s = .next (doIf c applyEffects s) := by
  cases c <;> rfl

/-- What a loop step leaves until it records: the parameters, the active configuration, the write cursor and the latch
of the result. -/
structure Steady (s t : State) : Prop where
  hw : t.hw = s.hw
  act : t.act = s.act
  cursor : t.wrCur = s.wrCur
  result : t.result = s.result

theorem WaitRel.steady {s t : State} (h : WaitRel s t) : Steady s t := by
  rw [show t = _ from h]
  exact ⟨rfl, rfl, rfl, rfl⟩

theorem steadyFrame : BlockFrame Steady where
  trans h h' := ⟨h'.hw.trans h.hw, h'.act.trans h.act, h'.cursor.trans h.cursor, h'.result.trans h.result⟩
  refl _ := ⟨rfl, rfl, rfl, rfl⟩
  phase _ _ := ⟨rfl, rfl, rfl, rfl⟩
  input s := (readIn_rel s).steady
  norm _ _ := ⟨rfl, rfl, rfl, rfl⟩
  chain s := by
    rw [applyEffects_frame]
    exact ⟨rfl, rfl, rfl, rfl⟩
  staged s := (stageBlock_rel s).steady
  output o s := (writeOut_rel o s).steady
  read {s r} h := by
    rcases readBlock_cases s with ⟨_, e⟩ | ⟨_, _, e⟩ | ⟨_, _, e⟩ <;> rw [e] at h <;> cases h <;>
      exact ⟨rfl, rfl, rfl, rfl⟩

/-- What goes out after the copy is the block that was copied (rules R262, R327). -/
theorem denormOut_stageBlock (s : State) : denormOut (stageBlock s) = s.wb.map (denormSample s.hw.hwWidth) := by
  rw [show stageBlock s = _ from stageBlock_rel s]
  rfl

theorem normIn_of_hw {s u : State} (h : u.hw = s.hw) (b : List HwSample) :
    normIn b u = { u with wb := b.map (normSample s.hw.hwWidth) } := by
  rw [← h]
  rfl

/-- The state in which a Record loop step records the block it finished (rule R330). -/
def beforeRecord (v : State) : State :=
  if v.hw.monitorRec then writeOut (v.wb.map (denormSample v.hw.hwWidth)) (stageBlock v) else stageBlock v

theorem beforeRecord_steady (v : State) : Steady v (beforeRecord v) := by
  unfold beforeRecord
  split
  · exact steadyFrame.trans (steadyFrame.staged v) (steadyFrame.output _ _)
  · exact steadyFrame.staged v

theorem doIf_monitor (v : State) :
    doIf (stageBlock v).hw.monitorRec (fun s => writeOut (denormOut s) s) (stageBlock v) = beforeRecord v := by
  unfold doIf beforeRecord
  rw [(steadyFrame.staged v).hw, ← denormOut_stageBlock]

theorem recordBody_eq (b : List HwSample) (u : State) : recordBody b u =
    recordOrExit (beforeRecord (doIf (!fxStage u.act) applyEffects (normIn b u))) :=
  congrArg recordOrExit (doIf_monitor _)

theorem playBody_eq {s r : State} (h : Steady s r) : playBody r =
    writeOut ((doIf (fxStage s.act) applyEffects r).wb.map (denormSample s.hw.hwWidth))
      (stageBlock (doIf (fxStage s.act) applyEffects r)) := by
  have hv : Steady s (doIf (fxStage s.act) applyEffects r) :=
    steadyFrame.trans h (doIf_rel (steadyFrame.chain r) (steadyFrame.refl r))
  rw [← hv.hw, ← denormOut_stageBlock, ← h.act]
  rfl

theorem recordOrExit_fits {s : State} (h : 44 + s.wrCur.toNat + 2 * blockLen s ≤ bufCap s) :
    recordOrExit s = (recordBlock s).1 := by
  rcases recordBlock_cases s with ⟨hfull, _⟩ | ⟨_, e⟩
  · exact absurd hfull (Nat.not_lt.2 h)
  · simp [recordOrExit, e]

theorem recordOrExit_full {s : State} (h : bufCap s < 44 + s.wrCur.toNat + 2 * blockLen s) :
    (recordBlock s).1 = s ∧ recordOrExit s = setPhase (raise s (.capacityExhausted s.wrCur)) .exit := by
  rcases recordBlock_cases s with ⟨_, e⟩ | ⟨hfits, _⟩
  · simp [recordOrExit, e]
  · exact absurd h (Nat.not_lt.2 hfits)

/-- A Record step's recording, told by the operation `RECORD_BLOCK`: with the result latch as it was before, and where
the block does not fit with the condition logged and the loop left (rules R271, R330). -/
theorem recordOrExit_eq {s x : State} (h : Steady s x) : ∃ w, exec .recordBlock x = .next w ∧
    (44 + s.wrCur.toNat + 2 * blockLen s ≤ bufCap s → recordOrExit x = { w with result := s.result }) ∧
    (bufCap s < 44 + s.wrCur.toNat + 2 * blockLen s → recordOrExit x = { w with
      result := s.result
      ctl := { w.ctl with phase := .exit }
      ports := { w.ports with log := w.ports.log ++ [.capacityExhausted s.wrCur] } }) := by
  obtain ⟨hhw, _, hcursor, hresult⟩ := h
  rw [← bufCap_congr hhw, ← blockLen_congr hhw, ← hcursor, ← hresult]
  refine ⟨_, rfl, fun hfits => ?_, fun hfull => ?_⟩
  · obtain ⟨m, c, hrecorded⟩ := recordBlock_fields x
    rw [recordOrExit_fits hfits, hrecorded]
  · obtain ⟨hsame, hexit⟩ := recordOrExit_full hfull
    rw [hexit, hsame]
    rfl

/-- Settles O50: the agents' steps at a wait are their turns, the waits run them in order, and each loop step is its
parts one after the other. -/
theorem waitsAdmitWholeSteps : Obligations.WaitsAdmitWholeSteps := by
  unfold Obligations.WaitsAdmitWholeSteps
  refine ⟨fun s w _ => step_request_turn w s, fun s w v _ => step_config_turn w v s, fun _ _ => rfl, ?timeout, ?input,
    ?output, ?passthru, ?record, ?play⟩
  case timeout =>
    intro s i vs rest hi henabled hpend hstop hq
    have hread := readIn_of_timeout hq
    rcases hi with rfl | rfl
    · exact (loop_runs_body henabled hpend hstop (withInput recordBody)).trans (withInput_timeout hread _)
    · exact (loop_runs_body henabled hpend hstop (withInput passthruBody)).trans (withInput_timeout hread _)
  case input =>
    intro s vs b rest hq
    rw [readIn_eq, takeIn_of_cons hq]
    rfl
  case output =>
    intro s o vs a rest hq
    rw [writeOut_eq, takeOut_of_cons hq]
    rfl
  case passthru =>
    intro s u b henabled hpend hstop hread
    have hu : u.hw = s.hw := by simpa [hread] using (readIn_rel s).steady.hw
    have hv : (applyEffects (normIn b u)).hw = s.hw :=
      (steadyFrame.trans (steadyFrame.norm b u) (steadyFrame.chain _)).hw.trans hu
    rw [← normIn_of_hw hu, ← hv]
    refine ⟨applyEffects (normIn b u), rfl, ?_⟩
    rw [← denormOut_stageBlock]
    exact (loop_runs_body henabled hpend hstop (withInput passthruBody)).trans (withInput_block hread _)
  case record =>
    intro s u b henabled hpend hstop hread
    have hu : Steady s u := by simpa [hread] using (readIn_rel s).steady
    have hv : Steady s (doIf (!fxStage u.act) applyEffects (normIn b u)) :=
      steadyFrame.trans (steadyFrame.trans hu (steadyFrame.norm b u))
        (doIf_rel (steadyFrame.chain _) (steadyFrame.refl _))
    have hloop : exec .loopRecord s = .next (recordBody b u) :=
      (loop_runs_body henabled hpend hstop (withInput recordBody)).trans (withInput_block hread _)
    rw [recordBody_eq] at hloop
    have hgate : (!s.act.ctrlEn.getLsbD 10) = !fxStage u.act := by rw [hu.act]; rfl
    rw [← normIn_of_hw hu.hw, hgate, execIf_applyEffects, hloop, ← hv.hw]
    obtain ⟨w, hw, hfits, hfull⟩ := recordOrExit_eq (steadyFrame.trans hv (beforeRecord_steady _))
    exact ⟨_, w, rfl, hw, fun h => congrArg _ (hfits h), fun h => congrArg _ (hfull h)⟩
  case play =>
    intro s henabled hpend hstop hbefore hroom
    have hread := readBlock_ok hbefore hroom
    have hr : Steady s _ := steadyFrame.read hread
    refine ⟨_, _, exec_readBlock hread, execIf_applyEffects _ _, ?_⟩
    exact (loop_runs_body henabled hpend hstop (withStored playBody)).trans
      ((withStored_ok hread _).trans (congrArg _ (playBody_eq hr)))

end Sys2Proof.Machine

/-! # O56: the permit

While the permit is taken every part of a loop step leaves it taken and the action as it is (`HoldsPermit`); outside the
loops only an accepted request and `TASK_EXIT` move it. -/

namespace Sys2Proof.Machine

open Sys2Proof

/-- The permit and the action are as before. -/
structure SamePermit (s t : State) : Prop where
  permit : t.ctl.permit = s.ctl.permit
  action : t.ctl.action = s.ctl.action

/-- A permit that is taken stays with its action. -/
def HoldsPermit (s t : State) : Prop := s.ctl.permit = false → SamePermit s t

theorem SamePermit.trans {s t u : State} (h : SamePermit s t) (h' : SamePermit t u) : SamePermit s u :=
  ⟨h'.permit.trans h.permit, h'.action.trans h.action⟩

theorem SamePermit.of_ctl {s t : State} (h : t.ctl = s.ctl) : SamePermit s t := ⟨by rw [h], by rw [h]⟩

theorem SamePermit.holds {s t : State} (h : SamePermit s t) : HoldsPermit s t := fun _ => h

theorem HoldsPermit.trans {s t u : State} (h : HoldsPermit s t) (h' : HoldsPermit t u) : HoldsPermit s u := fun hs =>
  have hst := h hs
  hst.trans (h' (hst.permit.trans hs))

theorem DataStep.samePermit {s t : State} (h : DataStep s t) : SamePermit s t := ⟨by rw [h.ctl], by rw [h.ctl]⟩

/-! ### The parts of a loop step -/

/-- The permit goes from free to an accepted action. -/
structure TakesPermit (r : ReqCode) (s t : State) : Prop where
  gated : isGated r = true
  free : s.ctl.permit = true
  taken : t.ctl.permit = false
  action : t.ctl.action = r

theorem gated_permit {r : ReqCode} (hr : isGated r = true) (s : State) :
    SamePermit s (gated r s).1 ∨ TakesPermit r s (gated r s).1 := by
  rcases gated_cases r s with ⟨_, _, h⟩ | ⟨_, _, h⟩ | ⟨_, h⟩ | ⟨hfree, _, _, h⟩ <;> rw [h]
  · exact .inl ⟨rfl, rfl⟩
  · exact .inl ⟨rfl, rfl⟩
  · exact .inl ⟨rfl, rfl⟩
  · exact .inr ⟨hr, hfree, rfl, rfl⟩

/-- A request takes a free permit where it is gated and accepted, and leaves the permit otherwise (rules R303 to
R307). -/
theorem postRequest_permit (r : ReqCode) (s : State) :
    SamePermit s (postRequest r s) ∨ TakesPermit r s (postRequest r s) := by
  have of_gated : ∀ {r}, isGated r = true → postRequest r s = respond (gated r s).1 (requestWord r) (gated r s).2 →
      SamePermit s (postRequest r s) ∨ TakesPermit r s (postRequest r s) := by
    intro r hr e
    rw [e]
    rcases gated_permit hr s with h | h
    · exact .inl ⟨h.permit, h.action⟩
    · exact .inr ⟨hr, h.free, h.taken, h.action⟩
  cases r with
  | none | updateConfig | stop => exact .inl ⟨rfl, rfl⟩
  | record | play | passthru | downloadWav => exact of_gated rfl rfl

theorem requestArrives_holds (w : CmdWord) (s : State) : HoldsPermit s (requestArrives w s) := by
  intro htaken
  unfold requestArrives
  split
  · next r _ =>
    rcases postRequest_permit r s with h | h
    · exact h
    · exact absurd (htaken.symm.trans h.free) (by simp)
  · exact ⟨rfl, rfl⟩

theorem visitStep_holds (writing : Option (List S16)) (s : State) (v : Visit) :
    HoldsPermit s (visitStep writing s v) := by
  cases v with
  | request w => exact requestArrives_holds w s
  | config w x => exact (configArrives_dataStep w x s).samePermit.holds
  | bridge newAt => cases writing <;> exact (bridgePoll_rel _ s).dataStep.samePermit.holds

theorem runVisits_holds (writing : Option (List S16)) (vs : List Visit) (s : State) :
    HoldsPermit s (runVisits writing s vs) := by
  unfold runVisits
  induction vs generalizing s with
  | nil => exact fun _ => ⟨rfl, rfl⟩
  | cons v vs ih => exact (visitStep_holds writing s v).trans (ih _)

theorem readIn_holds (s : State) : HoldsPermit s (readIn s).1 := by
  have htaken : SamePermit s (takeIn s).1 := .of_ctl (by rw [takeIn_frame])
  rw [readIn_eq]
  exact (htaken.holds.trans (runVisits_holds none _ _)).trans fun _ => ⟨rfl, rfl⟩

theorem writeOut_holds (o : List HwSample) (s : State) : HoldsPermit s (writeOut o s) := by
  have htaken : SamePermit s (takeOut s).1 := .of_ctl (by rw [takeOut_frame])
  rw [writeOut_eq]
  exact (htaken.holds.trans (runVisits_holds none _ _)).trans fun _ => ⟨rfl, rfl⟩

theorem stageBlock_holds (s : State) : HoldsPermit s (stageBlock s) := by
  have htaken : SamePermit s (takeCopy s).1 := .of_ctl (by rw [takeCopy_frame])
  rw [stageBlock_eq]
  exact (htaken.holds.trans (runVisits_holds _ _ _)).trans fun _ => ⟨rfl, rfl⟩

theorem permitFrame : BlockFrame HoldsPermit where
  trans := .trans
  refl _ _ := ⟨rfl, rfl⟩
  phase _ _ _ := ⟨rfl, rfl⟩
  input := readIn_holds
  norm _ _ _ := ⟨rfl, rfl⟩
  chain s := (applyEffects_dataStep s).samePermit.holds
  staged := stageBlock_holds
  output := writeOut_holds
  read h := (readBlock_dataStep h).samePermit.holds

theorem recordOrExit_holds (s : State) : HoldsPermit s (recordOrExit s) := by
  unfold recordOrExit
  rcases recordBlock_cases s with ⟨_, h⟩ | ⟨_, h⟩ <;> rw [h] <;> exact fun _ => ⟨rfl, rfl⟩

theorem exportHeader_holds {s t : State} (h : exportHeader s = .next t) : HoldsPermit s t := by
  obtain ⟨u, hu, h⟩ := andThen_next h
  obtain ⟨m, rfl⟩ := buildWavHeader_fields hu
  cases h
  exact fun _ => ⟨rfl, rfl⟩

/-! ### The Task outside its loops -/

theorem taskWake_samePermit (s : State) : SamePermit s (taskWake s) := by
  have hserved := (servePending_dataStep { s with ctl := { s.ctl with wake := false } }).samePermit
  unfold taskWake
  dsimp only
  split <;> exact ⟨hserved.permit, hserved.action⟩

theorem initAnswer_samePermit (s : State) : SamePermit s (initAnswer s).1 := by
  unfold initAnswer
  split
  · exact ⟨rfl, rfl⟩
  · have htaken : (takeHwi s).1.ctl = s.ctl := by rw [takeHwi_frame]
    exact .of_ctl htaken

theorem afterInit_samePermit (s : State) (r : HwiAnswer) : SamePermit s (afterInit s r) := by
  cases r with
  | ok =>
    show SamePermit s { entryAction s.ctl.action s with ctl := _ }
    cases ha : s.ctl.action <;> exact ⟨rfl, rfl⟩
  | fail | unsupported => exact ⟨rfl, rfl⟩

theorem taskInit_samePermit (s : State) : SamePermit s (taskInit s) :=
  (initAnswer_samePermit s).trans (afterInit_samePermit _ _)

theorem whenEnabled_samePermit {f : State → State} (hf : ∀ s, SamePermit s (f s)) (i : Instr) (s : State) :
    SamePermit s (whenEnabled i f s) := by
  rcases whenEnabled_cases i f s with ⟨_, e⟩ | ⟨_, e⟩ <;> rw [e]
  · exact hf s
  · exact ⟨rfl, rfl⟩

/-! ### The operations -/

/-- What the statement says of the permit after one operation. -/
def PermitClauses (i : Instr) (s t : State) : Prop :=
  (s.ctl.permit = true → t.ctl.permit = false →
      (i = .reqRecord ∨ i = .reqPlay ∨ i = .reqPassthru ∨ i = .reqDownloadWav) ∧ i.request? = some t.ctl.action) ∧
    (s.ctl.permit = false → t.ctl.permit = true → i = .taskExit) ∧
    (s.ctl.permit = t.ctl.permit → s.ctl.action = t.ctl.action)

theorem SamePermit.clauses {s t : State} (h : SamePermit s t) (i : Instr) : PermitClauses i s t :=
  ⟨fun hs ht => by simp [h.permit, hs] at ht, fun hs ht => by simp [h.permit, hs] at ht, fun _ => h.action.symm⟩

/-- A gated request is one of four operations (rule R303). -/
theorem gated_operation {i : Instr} {r : ReqCode} (hi : i.request? = some r) (hr : isGated r = true) :
    i = .reqRecord ∨ i = .reqPlay ∨ i = .reqPassthru ∨ i = .reqDownloadWav := by
  cases i with
  | reqRecord | reqPlay | reqPassthru | reqDownloadWav => simp
  | reqNone | reqUpdateConfig | reqStop => cases hi; cases hr
  | _ => cases hi

theorem PermitClauses.of_request {i : Instr} {r : ReqCode} {s t : State} (hi : i.request? = some r)
    (h : exec i s = .next t) : PermitClauses i s t := by
  rw [exec_of_request hi] at h
  cases h
  rcases postRequest_permit r s with hsame | htakes
  · exact hsame.clauses i
  · refine ⟨fun _ _ => ⟨gated_operation hi htakes.gated, by rw [hi, htakes.action]⟩, fun hs => ?_, fun hst => ?_⟩
    · simp [htakes.free] at hs
    · simp [htakes.free, htakes.taken] at hst

theorem mem_loopActions {i : Instr} {a : ReqCode} (h : (i, a) ∈ loopActions) :
    i = .loopRecord ∨ i = .loopPlay ∨ i = .loopPassthru ∨ i = .loopExport := by
  simp only [loopActions, List.mem_cons, Prod.mk.injEq, List.not_mem_nil, or_false] at h
  exact h.imp And.left (.imp And.left (.imp And.left And.left))

/-- A loop step is enabled only while the permit is taken (rules R42, R348). -/
theorem PermitClauses.of_loop {i : Instr} {a : ReqCode} {s t : State} (inv : MachineInv s) (hi : (i, a) ∈ loopActions)
    (h : exec i s = .next t) (hholds : HoldsPermit (servePending s) t ∨ t = s) : PermitClauses i s t := by
  have hserved := (servePending_dataStep s).samePermit
  obtain ⟨body, hbody⟩ := exec_loop hi
  rw [hbody] at h
  rcases hholds with hholds | rfl
  · cases hp : s.ctl.permit with
    | false => exact (hserved.holds.trans hholds hp).clauses i
    | true =>
      rcases stepWhenEnabled_cases i (loopStep body) s with ⟨henabled, _⟩ | ⟨_, e⟩
      · exact absurd (inv.control.idle_phase hp) (phase_of_enabled_loop henabled (mem_loopActions hi))
      · rw [e] at h
        cases h
        exact SamePermit.clauses ⟨rfl, rfl⟩ i
  · exact SamePermit.clauses ⟨rfl, rfl⟩ i

/-- `TASK_EXIT` frees the permit; where it was free no action stood (rules R42, R340). -/
theorem PermitClauses.of_exit {s : State} (inv : MachineInv s) :
    PermitClauses .taskExit s (whenEnabled .taskExit taskExit s) := by
  rcases whenEnabled_cases .taskExit taskExit s with ⟨_, e⟩ | ⟨_, e⟩ <;> rw [e]
  · exact ⟨nofun, fun _ _ => rfl, fun hs => inv.control.idle_action hs⟩
  · exact SamePermit.clauses ⟨rfl, rfl⟩ _

/-- Settles O56: requests, loop steps and `TASK_EXIT` each have their lemma; nothing else touches permit or action. -/
theorem permitIsSingleFlight : Obligations.PermitIsSingleFlight := by
  unfold Obligations.PermitIsSingleFlight
  intro s t i inv h
  show PermitClauses i s t
  cases i with
  | reqNone | reqUpdateConfig | reqRecord | reqPlay | reqPassthru | reqDownloadWav | reqStop =>
    exact .of_request rfl h
  | loopRecord =>
    exact .of_loop (a := .record) inv (by simp [loopActions]) h (permitFrame.loopRecord recordOrExit_holds h)
  | loopPlay => exact .of_loop (a := .play) inv (by simp [loopActions]) h (permitFrame.loopPlay h)
  | loopPassthru => exact .of_loop (a := .passthru) inv (by simp [loopActions]) h (permitFrame.loopPassthru h)
  | loopExport =>
    exact .of_loop (a := .downloadWav) inv (by simp [loopActions]) h
      (permitFrame.loopExport (fun _ _ _ => ⟨rfl, rfl⟩) exportHeader_holds h)
  | taskExit => cases h; exact .of_exit inv
  | taskWake => cases h; exact (whenEnabled_samePermit taskWake_samePermit _ s).clauses _
  | taskInit => cases h; exact (whenEnabled_samePermit taskInit_samePermit _ s).clauses _
  | readBlock =>
    obtain ⟨r, hr, h⟩ := andThen_next h
    cases h
    exact ((readBlock_dataStep hr).samePermit.trans ⟨rfl, rfl⟩).clauses _
  | buildWavHeader => exact (buildWavHeader_dataStep h).samePermit.clauses _
  | cfgWrite rr => cases h; exact (configWrite_dataStep rr _ s).samePermit.clauses _
  | bqConfigure band stage => cases h; exact (bqConfigure_dataStep band stage s).samePermit.clauses _
  | bqProcess band stage => cases h; exact (bqProcess_dataStep band stage s).samePermit.clauses _
  | buildCascade band => cases h; exact (buildCascade_dataStep band s).samePermit.clauses _
  | filterBlock => cases h; exact (filterBlock_dataStep s).samePermit.clauses _
  | rmTableGen => cases h; exact (rmTableGen_dataStep s).samePermit.clauses _
  | rmBlock => cases h; exact (rmBlock_dataStep s).samePermit.clauses _
  | pitchBlock => cases h; exact (pitchBlock_dataStep s).samePermit.clauses _
  | applyEffects => cases h; exact (applyEffects_dataStep s).samePermit.clauses _
  | recordBlock => cases h; exact ((recordBlock_dataStep s).samePermit.trans ⟨rfl, rfl⟩).clauses _
  | taskRebuild => cases h; exact (taskRebuild_dataStep s).samePermit.clauses _
  | bridgePoll => cases h; exact (bridgePoll_rel _ s).dataStep.samePermit.clauses _
  | qtabInit | cascadeSwap | rvBlock | rvClear | volBlock | clipBlock | normIn | denormOut =>
    cases h
    exact SamePermit.clauses ⟨rfl, rfl⟩ _

end Sys2Proof.Machine

/-! # O59: a pending configuration is invisible

An operation that is `Blind` does the same whatever CFG holds. A wait is blind where no Configurator step falls into it,
and leaves none for the later waits (`QuietBlind`), so that the parts of a loop step compose. -/

namespace Sys2Proof.Machine

open Sys2Proof

/-- CFG replaced. -/
def withPending (c : CfgRegs) (s : State) : State := { s with cfg := c }

/-- What the operation does does not depend on CFG, and CFG is not changed by it. -/
def Blind (f : State → State) : Prop := ∀ c s, f (withPending c s) = withPending c (f s)

theorem Blind.id : Blind fun s => s := fun _ _ => rfl

theorem Blind.comp {f g : State → State} (hg : Blind g) (hf : Blind f) : Blind fun s => g (f s) := fun c s =>
  (congrArg g (hf c s)).trans (hg c (f s))

theorem Blind.ite {p : State → Prop} [∀ s, Decidable (p s)] {f g : State → State}
    (hp : ∀ c s, p (withPending c s) ↔ p s) (hf : Blind f) (hg : Blind g) :
    Blind fun s => if p s then f s else g s := by
  intro c s
  simp only [hp]
  split
  · exact hf c s
  · exact hg c s

theorem Blind.doIf {b : State → Bool} {f : State → State} (hb : ∀ c s, b (withPending c s) = b s) (hf : Blind f) :
    Blind fun s => doIf (b s) f s :=
  .ite (p := fun s => b s = true) (fun c s => by rw [hb]) hf .id

/-- An operation that first reads what does not depend on CFG. -/
theorem Blind.reads {α : Type} {g : State → α} {f : α → State → State} (hg : ∀ c s, g (withPending c s) = g s)
    (hf : ∀ a, Blind (f a)) : Blind fun s => f (g s) s := fun c s =>
  (congrArg (f · (withPending c s)) (hg c s)).trans (hf (g s) c s)

theorem foldl_blind {α : Type} {f : State → α → State} (h : ∀ a, Blind fun s => f s a) (as : List α) :
    Blind fun s => as.foldl f s := by
  induction as with
  | nil => exact .id
  | cons a as ih => exact ih.comp (h a)

/-! ### The filters -/

theorem setShadowCascade_blind (b : Band) (k : Cascade) : Blind fun s => setShadowCascade s b k :=
  .ite (p := fun s => s.ctl.bank = true) (fun _ _ => .rfl) (fun _ _ => rfl) fun _ _ => rfl

theorem setActiveCascade_blind (b : Band) (k : Cascade) : Blind fun s => setActiveCascade s b k :=
  .ite (p := fun s => s.ctl.bank = true) (fun _ _ => .rfl) (fun _ _ => rfl) fun _ _ => rfl

theorem bqConfigure_blind (band : BitVec 3) (stage : BitVec 4) : Blind (bqConfigure band stage) := by
  intro c s
  unfold bqConfigure
  split
  · exact setShadowCascade_blind _ _ c s
  · rfl

/-- One sample's new stage and its output put into the state (rule R140). -/
def putSample (b : Band) (r : Cascade × RealVal) (s : State) : State :=
  { setActiveCascade s b r.1 with result := .sample r.2 }

/-- What `BQ_PROCESS` computes before it writes (rule R140). -/
def sampleOf (b : Band) (k : Fin 10) (s : State) : Cascade × RealVal :=
  let c := bandGet (activeBank s) b
  let r := processStage (floatFmt s) c.stages[k] (realOperand s s.beside.sample)
  (setStage c k r.1, r.2)

theorem putSample_blind (b : Band) (r : Cascade × RealVal) : Blind (putSample b r) :=
  Blind.comp (g := fun t => { t with result := .sample r.2 }) (fun _ _ => rfl) (setActiveCascade_blind b r.1)

theorem bqProcess_blind (band : BitVec 3) (stage : BitVec 4) : Blind (bqProcess band stage) := by
  unfold bqProcess
  cases bandOfCode band with
  | none => exact fun _ _ => rfl
  | some b =>
    cases stageOfCode stage with
    | none => exact fun _ _ => rfl
    | some k =>
      exact .ite (p := fun s => k.val < (bandGet (activeBank s) b).nst) (f := fun s => putSample b (sampleOf b k s) s)
        (fun _ _ => .rfl) (.reads (fun _ _ => rfl) (putSample_blind b)) .id

theorem buildCascadeOf_blind (b : Band) : Blind fun s => buildCascadeOf s b := by
  intro c s
  exact congrArg (raiseAll · _) (setShadowCascade_blind b _ c s)

theorem buildCascade_blind (band : BitVec 3) : Blind (buildCascade band) := by
  intro c s
  unfold buildCascade
  cases bandOfCode band with
  | none => rfl
  | some b => exact buildCascadeOf_blind b c s

/-- One filtered block put into the state: the stages of a band of the active bank, and WB (rule R170). -/
def putFiltered (b : Band) (r : Cascade × List S16) (s : State) : State :=
  { setActiveCascade s b r.1 with wb := r.2 }

/-- What one band of `FILTER_BLOCK` computes before it writes (rule R170). -/
def filteredOf (b : Band) (s : State) : Cascade × List S16 :=
  let c := bandGet (activeBank s) b
  let r := filterSamples (floatFmt s) (stageIndices.take c.nst) c.stages s.wb
  ({ c with stages := r.1 }, r.2)

theorem putFiltered_blind (b : Band) (r : Cascade × List S16) : Blind (putFiltered b r) :=
  Blind.comp (g := fun t => { t with wb := r.2 }) (fun _ _ => rfl) (setActiveCascade_blind b r.1)

theorem filterBand_blind (b : Band) : Blind fun s => filterBand s b :=
  .ite (p := fun s => (bandEn s.act b && decide (0 < (bandGet (activeBank s) b).nst)) = true)
    (f := fun s => putFiltered b (filteredOf b s) s) (fun _ _ => .rfl)
    (.reads (fun _ _ => rfl) (putFiltered_blind b)) .id

theorem filterBlock_blind : Blind filterBlock := foldl_blind filterBand_blind Band.all

/-! ### The other effects -/

theorem rmTableGen_blind : Blind rmTableGen :=
  .ite (p := fun s => rmLegal s.hw.rmTableMax s.act.sampleRate s.act.toneFreq s.act.toneAmp = true) (fun _ _ => .rfl)
    (fun _ _ => rfl) fun _ _ => rfl

theorem rmBlock_blind : Blind rmBlock := .ite (p := fun s => s.rmValid = true) (fun _ _ => .rfl) (fun _ _ => rfl) .id

theorem takePitch_withPending (c : CfgRegs) (s : State) :
    takePitch (withPending c s) = (withPending c (takePitch s).1, (takePitch s).2) := by
  unfold takePitch withPending
  dsimp only
  split <;> rfl

theorem pitchBlock_blind : Blind pitchBlock := by
  intro c s
  rw [pitchBlock_eq, pitchBlock_eq, takePitch_withPending]
  rfl

theorem frontEffects_blind : Blind frontEffects :=
  (Blind.doIf (b := fun s => rvEn s.act) (f := rvBlock) (fun _ _ => rfl) fun _ _ => rfl).comp
    ((Blind.doIf (b := fun s => rmEn s.act && s.rmValid) (fun _ _ => rfl) rmBlock_blind).comp
      (Blind.doIf (b := fun s => anyBandEn s.act) (fun _ _ => rfl) filterBlock_blind))

theorem applyEffects_blind : Blind applyEffects :=
  (Blind.doIf (b := fun s => !bypass s.act && clipEn s.act) (f := clipBlock) (fun _ _ => rfl) fun _ _ => rfl).comp
    ((Blind.doIf (b := fun s => s.act.pitchRatio != .num 1) (fun _ _ => rfl) pitchBlock_blind).comp
      (Blind.comp (g := volBlock) (fun _ _ => rfl)
        (Blind.doIf (b := fun s => !bypass s.act) (fun _ _ => rfl) frontEffects_blind)))

/-! ### The Recording Buffer -/

theorem recordBlock_withPending (c : CfgRegs) (s : State) :
    recordBlock (withPending c s) = (withPending c (recordBlock s).1, (recordBlock s).2) := by
  have hfull : bufCap (withPending c s) < recordAddr (withPending c s) + blockBytes (withPending c s) ↔
      bufCap s < recordAddr s + blockBytes s := .rfl
  unfold recordBlock
  simp only [hfull]
  split <;> rfl

theorem recordOrExit_blind : Blind recordOrExit := by
  intro c s
  unfold recordOrExit
  rw [recordBlock_withPending]
  rcases recordBlock s with ⟨t, _ | _ | _⟩ <;> rfl

/-! ### Outcomes -/

/-- `Blind` of an operation that may stop: it stops alike whatever CFG holds. -/
def OutcomeBlind (f : State → Host.Outcome State Fault Refusal) (s : State) : Prop :=
  ∀ c, f (withPending c s) = mapNext (withPending c) (f s)

theorem Blind.next {f : State → State} (hf : Blind f) (s : State) : OutcomeBlind (fun s => .next (f s)) s := fun c =>
  congrArg _ (hf c s)

theorem OutcomeBlind.ite {p : State → Prop} [∀ s, Decidable (p s)] {f g : State → Host.Outcome State Fault Refusal}
    {s : State} (hp : ∀ c s, p (withPending c s) ↔ p s) (hf : OutcomeBlind f s) (hg : OutcomeBlind g s) :
    OutcomeBlind (fun s => if p s then f s else g s) s := by
  intro c
  simp only [hp]
  split
  · exact hf c
  · exact hg c

theorem readBlock_withPending (c : CfgRegs) (s : State) :
    readBlock (withPending c s) = andThen (readBlock s) fun r => .next (withPending c r.1, r.2) := by
  have hstored : storedBlock (withPending c s) = storedBlock s := rfl
  have hend : (withPending c s).recEnd.toNat < (withPending c s).rdCur.toNat + blockBytes (withPending c s) ↔
      s.recEnd.toNat < s.rdCur.toNat + blockBytes s := .rfl
  have hout : bufCap (withPending c s) < 44 + (withPending c s).rdCur.toNat + blockBytes (withPending c s) ↔
      bufCap s < 44 + s.rdCur.toNat + blockBytes s := .rfl
  unfold readBlock
  simp only [hend, hout, hstored]
  split
  · rfl
  · split <;> rfl

theorem withHeader_blind : Blind fun s =>
    { s with rb := memWriteBytes s.rb 0 (wavHeader s.wrCur s.act.sampleRate) } :=
  .reads (g := fun s => memWriteBytes s.rb 0 (wavHeader s.wrCur s.act.sampleRate)) (f := fun m s => { s with rb := m })
    (fun _ _ => rfl) fun _ _ _ => rfl

theorem buildWavHeader_blind (s : State) : OutcomeBlind buildWavHeader s :=
  .ite (p := fun s => bufPresent s = true) (fun _ _ => .rfl) (withHeader_blind.next s) fun _ => rfl

/-! ### The Requester and the Bridge -/

theorem gated_withPending (r : ReqCode) (c : CfgRegs) (s : State) :
    gated r (withPending c s) = (withPending c (gated r s).1, (gated r s).2) := by
  have hbuf : bufPresent (withPending c s) = bufPresent s := rfl
  have hctl : (withPending c s).ctl = s.ctl := rfl
  unfold gated
  simp only [hbuf, hctl]
  split_ifs <;> rfl

theorem serveRequest_withPending (r : ReqCode) (c : CfgRegs) (s : State) :
    serveRequest r (withPending c s) = (withPending c (serveRequest r s).1, (serveRequest r s).2) := by
  cases r with
  | none | updateConfig | stop => rfl
  | record | play | passthru | downloadWav => exact gated_withPending _ c s

theorem postRequest_blind (r : ReqCode) : Blind (postRequest r) := by
  intro c s
  unfold postRequest
  rw [serveRequest_withPending]
  rfl

theorem requestArrives_blind (w : CmdWord) : Blind (requestArrives w) := by
  intro c s
  unfold requestArrives
  split
  · exact postRequest_blind _ c s
  · rfl

theorem bridgePoll_blind (t : List S16) : Blind (bridgePoll t) := by
  intro c s
  have hstage : (bridgePoll t s).stage = s.stage := by rw [show bridgePoll t s = _ from bridgePoll_rel t s]
  calc bridgePoll t (withStageCfg s.stage c s) = withStageCfg s.stage c (bridgePoll t s) :=
        bridgePoll_withStageCfg t _ c s
    _ = withStageCfg (bridgePoll t s).stage c (bridgePoll t s) := by rw [hstage]

/-! ### The waiting points -/

theorem visitStep_blind {v : Visit} (hv : ∀ w x, v ≠ .config w x) (writing : Option (List S16)) :
    Blind fun s => visitStep writing s v := by
  cases v with
  | request w => exact requestArrives_blind w
  | config w x => exact absurd rfl (hv w x)
  | bridge newAt =>
    cases writing with
    | none => exact .reads (g := State.stage) (fun _ _ => rfl) bridgePoll_blind
    | some new => exact .reads (g := fun s => tornRead newAt s.stage new) (fun _ _ => rfl) bridgePoll_blind

theorem runVisits_blind {vs : List Visit} (hvs : ∀ w x, Visit.config w x ∉ vs) (writing : Option (List S16)) :
    Blind fun s => runVisits writing s vs := by
  induction vs with
  | nil => exact .id
  | cons v vs ih =>
    have hhead : ∀ w x, v ≠ .config w x := fun w x e => hvs w x (by simp [e])
    have htail : ∀ w x, Visit.config w x ∉ vs := fun w x hm => hvs w x (List.mem_cons_of_mem _ hm)
    exact (ih htail).comp (visitStep_blind hhead writing)

theorem takeIn_withPending (c : CfgRegs) (s : State) :
    takeIn (withPending c s) = (withPending c (takeIn s).1, (takeIn s).2) := by
  unfold takeIn withPending
  dsimp only
  split <;> rfl

theorem takeOut_withPending (c : CfgRegs) (s : State) :
    takeOut (withPending c s) = (withPending c (takeOut s).1, (takeOut s).2) := by
  unfold takeOut withPending
  dsimp only
  split <;> rfl

theorem takeCopy_withPending (c : CfgRegs) (s : State) :
    takeCopy (withPending c s) = (withPending c (takeCopy s).1, (takeCopy s).2) := by
  unfold takeCopy withPending
  dsimp only
  split <;> rfl

theorem takeHwi_withPending (c : CfgRegs) (s : State) :
    takeHwi (withPending c s) = (withPending c (takeHwi s).1, (takeHwi s).2) := by
  unfold takeHwi withPending
  dsimp only
  split <;> rfl

theorem readIn_withPending {s : State} (hq : NoConfigVisits s.env) (c : CfgRegs) :
    readIn (withPending c s) = (withPending c (readIn s).1, (readIn s).2) := by
  have hvisits := runVisits_blind (takeIn_quiet hq).1 none c (takeIn s).1
  dsimp only at hvisits
  rw [readIn_eq, readIn_eq, takeIn_withPending, hvisits]
  rfl

/-- A part of a loop step that is blind where no Configurator step falls into its waits, and leaves none for the later
waits. -/
structure QuietBlind (f : State → State) : Prop where
  kept : ∀ s, ConfigKept s (f s)
  blind : ∀ s, NoConfigVisits s.env → ∀ c, f (withPending c s) = withPending c (f s)

theorem Blind.quiet {f : State → State} (hf : Blind f) (hk : ∀ s, ConfigKept s (f s)) : QuietBlind f :=
  ⟨hk, fun s _ c => hf c s⟩

theorem QuietBlind.comp {f g : State → State} (hg : QuietBlind g) (hf : QuietBlind f) :
    QuietBlind fun s => g (f s) where
  kept s := (hf.kept s).trans (hg.kept (f s))
  blind s hq c := (congrArg g (hf.blind s hq c)).trans (hg.blind (f s) (hf.kept s hq).2 c)

theorem QuietBlind.doIf {b : State → Bool} {f : State → State} (hb : ∀ c s, b (withPending c s) = b s)
    (hf : QuietBlind f) : QuietBlind fun s => doIf (b s) f s where
  kept s := doIf_configKept hf.kept (b s) s
  blind s hq c := by
    simp only [hb]
    cases b s
    · rfl
    · exact hf.blind s hq c

theorem writeOut_quiet (o : List HwSample) : QuietBlind (writeOut o) where
  kept := writeOut_configKept o
  blind s hq c := by
    have hvisits := runVisits_blind (takeOut_quiet hq).1 none c (takeOut s).1
    dsimp only at hvisits
    rw [writeOut_eq, writeOut_eq, takeOut_withPending, hvisits]
    rfl

/-- `OUT.write` of the block in WB (rules R262, R326). -/
theorem writeWb_quiet : QuietBlind fun s => writeOut (denormOut s) s where
  kept s := writeOut_configKept _ s
  blind s hq c := (writeOut_quiet (denormOut s)).blind s hq c

theorem stageBlock_quiet : QuietBlind stageBlock where
  kept := stageBlock_configKept
  blind s hq c := by
    have hvisits := runVisits_blind (takeCopy_quiet hq).1 (some s.wb) c (takeCopy s).1
    have hwb : (withPending c s).wb = s.wb := rfl
    dsimp only at hvisits
    rw [stageBlock_eq, stageBlock_eq, takeCopy_withPending, hwb, hvisits]
    rfl

/-! ### The Task -/

theorem normIn_quiet (h : List HwSample) : QuietBlind (normIn h) := Blind.quiet (fun _ _ => rfl) fun _ => .of_eq

theorem applyEffects_quiet : QuietBlind applyEffects := applyEffects_blind.quiet applyEffects_configKept

theorem recordBody_quiet (h : List HwSample) : QuietBlind (recordBody h) :=
  (recordOrExit_blind.quiet recordOrExit_configKept).comp
    ((QuietBlind.doIf (b := fun s => s.hw.monitorRec) (fun _ _ => rfl) writeWb_quiet).comp
      (stageBlock_quiet.comp
        ((QuietBlind.doIf (b := fun s => !fxStage s.act) (fun _ _ => rfl) applyEffects_quiet).comp (normIn_quiet h))))

theorem passthruBody_quiet (h : List HwSample) : QuietBlind (passthruBody h) :=
  writeWb_quiet.comp (stageBlock_quiet.comp (applyEffects_quiet.comp (normIn_quiet h)))

theorem playBody_quiet : QuietBlind playBody :=
  writeWb_quiet.comp
    (stageBlock_quiet.comp (QuietBlind.doIf (b := fun s => fxStage s.act) (fun _ _ => rfl) applyEffects_quiet))

theorem exportBody_quiet : QuietBlind exportBody :=
  QuietBlind.comp (g := fun s => emitChunk s (blockToBytes s.wb)) (Blind.quiet (fun _ _ => rfl) fun _ => .of_eq)
    (QuietBlind.doIf (b := fun s => fxStage s.act) (fun _ _ => rfl) applyEffects_quiet)

theorem withInput_blind {body : List HwSample → State → State} (hbody : ∀ h, QuietBlind (body h)) {s : State}
    (hq : NoConfigVisits s.env) : OutcomeBlind (withInput body) s := by
  intro c
  have hkept := (readIn_configKept s hq).2
  unfold withInput
  rw [readIn_withPending hq]
  rcases hr : readIn s with ⟨u, _ | h⟩ <;> rw [hr] at hkept
  · rfl
  · exact congrArg _ ((hbody h).blind u hkept c)

theorem withStored_blind {body : State → State} (hbody : QuietBlind body) {s : State} (hq : NoConfigVisits s.env) :
    OutcomeBlind (withStored body) s := by
  intro c
  unfold withStored
  rw [readBlock_withPending]
  cases hr : readBlock s with
  | fault | refused => rfl
  | next r =>
    obtain ⟨u, x⟩ := r
    have hkept : NoConfigVisits u.env := (configFrame.read hr hq).2
    cases x with
    | ok => exact congrArg _ (hbody.blind u hkept c)
    | endOfData | capFull => rfl

theorem exportHeader_blind (s : State) : OutcomeBlind exportHeader s := by
  intro c
  unfold exportHeader
  rw [buildWavHeader_blind s c]
  cases buildWavHeader s <;> rfl

/-- Without a pending update a loop step reads no configuration but the active one (rules R88, R325). -/
theorem loopStep_blind {body : State → Host.Outcome State Fault Refusal} {s : State} (hpend : s.ctl.updPend = false)
    (hbody : OutcomeBlind body s) : OutcomeBlind (loopStep body) s := by
  intro c
  have hpend' : (withPending c s).ctl.updPend = false := hpend
  cases hstop : s.ctl.stop with
  | true =>
    rw [loopStep_stops hpend hstop, loopStep_stops hpend' hstop]
    rfl
  | false =>
    rw [loopStep_goes_on hpend hstop, loopStep_goes_on hpend' hstop]
    exact hbody c

theorem stepWhenEnabled_blind {f : State → Host.Outcome State Fault Refusal} {s : State} (hf : OutcomeBlind f s)
    (i : Instr) : OutcomeBlind (stepWhenEnabled i f) s :=
  .ite (p := fun s => enabledStep s = some i) (fun _ _ => .rfl) hf fun _ => rfl

theorem whenEnabled_blind {f : State → State} (hf : Blind f) (i : Instr) : Blind (whenEnabled i f) :=
  .ite (p := fun s => enabledStep s = some i) (fun _ _ => .rfl) hf .id

/-- `TASK_WAKE` with nothing to serve (rule R308). -/
def wakeUp (s : State) : State :=
  if s.ctl.permit then { s with ctl.wake := false } else setPhase { s with ctl.wake := false } .init

theorem taskWake_none {s : State} (h : s.ctl.updPend = false) : taskWake s = wakeUp s := by
  unfold taskWake
  rw [servePending_none (show ({ s with ctl.wake := false } : State).ctl.updPend = false from h)]
  rfl

theorem wakeUp_blind : Blind wakeUp :=
  .ite (p := fun s => s.ctl.permit = true) (fun _ _ => .rfl) (fun _ _ => rfl) fun _ _ => rfl

theorem execTaskWake_none {s : State} (h : s.ctl.updPend = false) :
    exec .taskWake s = .next (whenEnabled .taskWake wakeUp s) := by
  show Host.Outcome.next (whenEnabled .taskWake taskWake s) = _
  unfold whenEnabled
  rw [taskWake_none h]

theorem execTaskWake_blind {s : State} (h : s.ctl.updPend = false) : OutcomeBlind (exec .taskWake) s := by
  intro c
  have h' : (withPending c s).ctl.updPend = false := h
  rw [execTaskWake_none h, execTaskWake_none h']
  exact (whenEnabled_blind wakeUp_blind .taskWake).next s c

theorem initAnswer_withPending (c : CfgRegs) (s : State) :
    initAnswer (withPending c s) = (withPending c (initAnswer s).1, (initAnswer s).2) := by
  have hctl : (withPending c s).ctl = s.ctl := rfl
  unfold initAnswer hwiInit
  rw [hctl, takeHwi_withPending]
  split <;> rfl

theorem afterInit_blind (r : HwiAnswer) : Blind fun s => afterInit s r := by
  intro c s
  cases r with
  | ok =>
    have hctl : (withPending c s).ctl = s.ctl := rfl
    unfold afterInit
    dsimp only
    rw [hctl]
    cases s.ctl.action <;> rfl
  | fail | unsupported => rfl

theorem taskInit_blind : Blind taskInit := by
  intro c s
  unfold taskInit
  rw [initAnswer_withPending]
  exact afterInit_blind _ c _

theorem taskExit_blind : Blind taskExit :=
  Blind.comp (g := releaseAction) (fun _ _ => rfl)
    (.ite (p := fun s => s.ctl.action = .record) (f := fun s => { s with recEnd := s.wrCur }) (fun _ _ => .rfl)
      (fun _ _ => rfl) .id)

theorem execReadBlock_blind (s : State) : OutcomeBlind (exec .readBlock) s := by
  intro c
  show andThen (readBlock (withPending c s)) _ = mapNext _ (andThen (readBlock s) _)
  rw [readBlock_withPending]
  cases readBlock s <;> rfl

theorem execRecordBlock_blind (s : State) : OutcomeBlind (exec .recordBlock) s := by
  intro c
  show Host.Outcome.next { (recordBlock (withPending c s)).1 with
    result := .transfer (recordBlock (withPending c s)).2 } = _
  rw [recordBlock_withPending]
  rfl

theorem exportStep_blind {s : State} (hq : NoConfigVisits s.env) :
    OutcomeBlind (fun s => if s.ctl.hdrSent then withStored exportBody s else exportHeader s) s :=
  .ite (p := fun s => s.ctl.hdrSent = true) (fun _ _ => .rfl) (withStored_blind exportBody_quiet hq)
    (exportHeader_blind s)

/-- Settles O59: every other operation is blind, a loop step and a wake where no update is pending. -/
theorem unservedConfigIsInvisible : Obligations.UnservedConfigIsInvisible := by
  unfold Obligations.UnservedConfigIsInvisible
  intro s c i hwrite hrebuild hpend hq
  show exec i (withPending c s) = mapNext (withPending c) (exec i s)
  cases i with
  | cfgWrite rr => exact absurd rfl (hwrite rr)
  | taskRebuild => exact absurd rfl hrebuild
  | reqNone | reqUpdateConfig | reqRecord | reqPlay | reqPassthru | reqDownloadWav | reqStop =>
    exact (postRequest_blind _).next s c
  | bqConfigure band stage => exact (bqConfigure_blind band stage).next s c
  | bqProcess band stage => exact (bqProcess_blind band stage).next s c
  | buildCascade band => exact (buildCascade_blind band).next s c
  | filterBlock => exact filterBlock_blind.next s c
  | rmTableGen => exact rmTableGen_blind.next s c
  | rmBlock => exact rmBlock_blind.next s c
  | pitchBlock => exact pitchBlock_blind.next s c
  | applyEffects => exact applyEffects_blind.next s c
  | qtabInit | cascadeSwap | rvBlock | rvClear | volBlock | clipBlock | normIn | denormOut => rfl
  | recordBlock => exact execRecordBlock_blind s c
  | readBlock => exact execReadBlock_blind s c
  | buildWavHeader => exact buildWavHeader_blind s c
  | taskWake => exact execTaskWake_blind hpend c
  | taskInit => exact (whenEnabled_blind taskInit_blind _).next s c
  | taskExit => exact (whenEnabled_blind taskExit_blind _).next s c
  | loopRecord => exact stepWhenEnabled_blind (loopStep_blind hpend (withInput_blind recordBody_quiet hq)) _ c
  | loopPassthru => exact stepWhenEnabled_blind (loopStep_blind hpend (withInput_blind passthruBody_quiet hq)) _ c
  | loopPlay => exact stepWhenEnabled_blind (loopStep_blind hpend (withStored_blind playBody_quiet hq)) _ c
  | loopExport => exact stepWhenEnabled_blind (loopStep_blind hpend (exportStep_blind hq)) _ c
  | bridgePoll => exact (Blind.reads (g := State.stage) (fun _ _ => rfl) bridgePoll_blind).next s c

end Sys2Proof.Machine

/-! # The command word: decoder and encoder undo each other, and a reserved word is refused

Settles O1, O2, O3 and O6. -/

namespace Sys2Proof.Machine

open Sys2Proof

/-! ### The parts of a command word (rule R107) -/

theorem wordArg_commandWord (grp op : BitVec 4) (arg : BitVec 8) : wordArg (commandWord grp op arg) = arg :=
  BitVec.extractLsb'_append_eq_right

theorem wordOp_commandWord (grp op : BitVec 4) (arg : BitVec 8) : wordOp (commandWord grp op arg) = op := by
  unfold wordOp commandWord
  rw [BitVec.extractLsb'_append_eq_of_le le_rfl]
  exact BitVec.extractLsb'_append_eq_right

/-- `GRP`, `OP` and `ARG` are the whole word. -/
theorem commandWord_parts (w : CmdWord) : commandWord (wordGrp w) (wordOp w) (wordArg w) = w := by
  unfold commandWord wordGrp wordOp wordArg
  rw [BitVec.extractLsb'_append_extractLsb'_eq_extractLsb' (show 12 = 8 + 4 from rfl),
    BitVec.extractLsb'_append_extractLsb'_eq_extractLsb' (show 8 = 0 + 8 from rfl)]
  exact BitVec.extractLsb'_eq_self

/-- A word is known by its parts. -/
theorem commandWord_eq {w : CmdWord} {grp op : BitVec 4} {arg : BitVec 8} (hgrp : wordGrp w = grp) (hop : wordOp w = op)
    (harg : wordArg w = arg) : commandWord grp op arg = w := by
  rw [← hgrp, ← hop, ← harg, commandWord_parts]

/-- A field of `ARG` is read from the word at the same place (rule R109). -/
theorem extractLsb'_commandWord (grp op : BitVec 4) (arg : BitVec 8) {start len : Nat} (h : start + len ≤ 8) :
    (commandWord grp op arg).extractLsb' start len = arg.extractLsb' start len :=
  BitVec.extractLsb'_append_eq_of_add_le h

/-! ### `ARG` of a stage word (rules R109, R131, R140) -/

theorem stageArg_stage (band : BitVec 3) (stage : BitVec 4) : (stageArg band stage).extractLsb' 0 4 = stage :=
  BitVec.extractLsb'_append_eq_right

theorem stageArg_band (band : BitVec 3) (stage : BitVec 4) : (stageArg band stage).extractLsb' 4 3 = band := by
  unfold stageArg
  rw [BitVec.extractLsb'_append_eq_of_le le_rfl]
  exact BitVec.extractLsb'_append_eq_right

/-- Bit 7 of a stage word is zero. -/
theorem stageWord_bit7 (grp op : BitVec 4) (band : BitVec 3) (stage : BitVec 4) :
    (commandWord grp op (stageArg band stage)).getLsbD 7 = false := by
  simp only [commandWord, stageArg, BitVec.getLsbD_append]
  rfl

/-- A word whose bit 7 is zero has the `ARG` of its band and stage fields. -/
theorem wordArg_eq_stageArg {w : CmdWord} (h : w.getLsbD 7 = false) :
    wordArg w = stageArg (w.extractLsb' 4 3) (w.extractLsb' 0 4) := by
  have hzero : (0 : BitVec 1) = w.extractLsb' 7 1 := by
    apply BitVec.eq_of_getLsbD_eq
    intro i hi
    obtain rfl : i = 0 := by omega
    rw [BitVec.getLsbD_extractLsb', h]
    rfl
  unfold stageArg wordArg
  rw [hzero, BitVec.extractLsb'_append_extractLsb'_eq_extractLsb' (show 7 = 4 + 3 from rfl),
    BitVec.extractLsb'_append_extractLsb'_eq_extractLsb' (show 4 = 0 + 4 from rfl)]

/-- What a stage word with legal fields decodes to. -/
theorem decodeStageWord_stageArg (make : BitVec 3 → BitVec 4 → Instr) (grp op : BitVec 4) {band : BitVec 3}
    {stage : BitVec 4} (hband : (bandOfCode band).isSome = true) (hstage : (stageOfCode stage).isSome = true) :
    decodeStageWord make (commandWord grp op (stageArg band stage)) = .ok (make band stage) := by
  unfold decodeStageWord
  rw [stageWord_bit7, extractLsb'_commandWord _ _ _ (by decide), extractLsb'_commandWord _ _ _ (by decide),
    stageArg_band, stageArg_stage]
  simp [Option.isNone_eq_false_iff.2 hband, Option.isNone_eq_false_iff.2 hstage]

/-- A stage word decodes only with bit 7 zero and legal fields (rules R109, R116). -/
theorem decodeStageWord_inv {make : BitVec 3 → BitVec 4 → Instr} {w : CmdWord} {i : Instr}
    (h : decodeStageWord make w = .ok i) : ∃ band stage, i = make band stage ∧ wordArg w = stageArg band stage ∧
      (bandOfCode band).isSome = true ∧ (stageOfCode stage).isSome = true := by
  unfold decodeStageWord at h
  split_ifs at h with hbit hband hstage
  cases h
  exact ⟨_, _, rfl, wordArg_eq_stageArg (eq_false_of_ne_true hbit),
    Option.isNone_eq_false_iff.1 (eq_false_of_ne_true hband),
    Option.isNone_eq_false_iff.1 (eq_false_of_ne_true hstage)⟩

/-! ### `ARG` of a build word (rules R109, R165) -/

theorem setWidth_band (band : BitVec 3) : band.setWidth 8 = (0 : BitVec 5) ++ band :=
  BitVec.setWidth_eq_append (by decide)

/-- A word whose bits 7:3 are zero has the `ARG` of its band field. -/
theorem wordArg_eq_band {w : CmdWord} (h : w.extractLsb' 3 5 = 0) : wordArg w = (w.extractLsb' 0 3).setWidth 8 := by
  rw [setWidth_band, ← h, BitVec.extractLsb'_append_extractLsb'_eq_extractLsb' (show 3 = 0 + 3 from rfl)]
  rfl

theorem buildWord_band (grp op : BitVec 4) (band : BitVec 3) :
    (commandWord grp op (band.setWidth 8)).extractLsb' 0 3 = band := by
  rw [extractLsb'_commandWord _ _ _ (by decide), setWidth_band]
  exact BitVec.extractLsb'_append_eq_right

theorem buildWord_high (grp op : BitVec 4) (band : BitVec 3) :
    (commandWord grp op (band.setWidth 8)).extractLsb' 3 5 = 0 := by
  rw [extractLsb'_commandWord _ _ _ (by decide), setWidth_band]
  exact BitVec.extractLsb'_append_eq_left

/-! ### The rows without an operand field (rule R108) -/

/-- The table of fixed words and the encoder agree, row by row. -/
theorem fixedRows_encode : ∀ row ∈ fixedRows, encode row.2 = row.1 ∧ wellFormed row.2 = true := by decide

/-- No word stands in two rows. -/
theorem fixedRows_lookup : ∀ row ∈ fixedRows, lookupRow row.1 fixedRows = some row.2 := by decide

theorem decode_of_row {w : CmdWord} {i : Instr} (h : (w, i) ∈ fixedRows) : decode w = .ok i := by
  unfold decode
  rw [fixedRows_lookup _ h]

theorem lookupRow_eq_none {w : CmdWord} {rows : List (CmdWord × Instr)} (h : ∀ row ∈ rows, row.1 ≠ w) :
    lookupRow w rows = none := by
  cases hrow : lookupRow w rows with
  | none => rfl
  | some i => exact absurd rfl (h _ (mem_of_lookupRow hrow))

/-- A word whose group and operation are those of no fixed row is decoded by its fields. -/
theorem decode_of_fields {w : CmdWord}
    (h : ∀ row ∈ fixedRows, ¬(wordGrp row.1 = wordGrp w ∧ wordOp row.1 = wordOp w)) :
    decode w = decodeFields w := by
  have hnone : lookupRow w fixedRows = none :=
    lookupRow_eq_none fun row hrow e => h row hrow (e ▸ ⟨rfl, rfl⟩)
  unfold decode
  rw [hnone]

/-! ### The rows with an operand field (rules R108, R109) -/

theorem decode_cfgWrite {rr : BitVec 8} (h : (cfgRegOfNumber rr).isSome = true) :
    decode (encode (.cfgWrite rr)) = .ok (.cfgWrite rr) := by
  show decode (commandWord 1 0 rr) = _
  rw [decode_of_fields (by rw [wordGrp_commandWord, wordOp_commandWord]; decide)]
  unfold decodeFields
  rw [wordGrp_commandWord, wordOp_commandWord, wordArg_commandWord]
  simp [Option.isNone_eq_false_iff.2 h]

theorem decode_bqConfigure {band : BitVec 3} {stage : BitVec 4} (hband : (bandOfCode band).isSome = true)
    (hstage : (stageOfCode stage).isSome = true) :
    decode (encode (.bqConfigure band stage)) = .ok (.bqConfigure band stage) := by
  show decode (commandWord 2 0 (stageArg band stage)) = _
  rw [decode_of_fields (by rw [wordGrp_commandWord, wordOp_commandWord]; decide)]
  unfold decodeFields
  rw [wordGrp_commandWord, wordOp_commandWord, decodeStageWord_stageArg .bqConfigure _ _ hband hstage]
  rfl

theorem decode_bqProcess {band : BitVec 3} {stage : BitVec 4} (hband : (bandOfCode band).isSome = true)
    (hstage : (stageOfCode stage).isSome = true) :
    decode (encode (.bqProcess band stage)) = .ok (.bqProcess band stage) := by
  show decode (commandWord 2 1 (stageArg band stage)) = _
  rw [decode_of_fields (by rw [wordGrp_commandWord, wordOp_commandWord]; decide)]
  unfold decodeFields
  rw [wordGrp_commandWord, wordOp_commandWord, decodeStageWord_stageArg .bqProcess _ _ hband hstage]
  rfl

theorem decode_buildCascade {band : BitVec 3} (h : (bandOfCode band).isSome = true) :
    decode (encode (.buildCascade band)) = .ok (.buildCascade band) := by
  show decode (commandWord 2 2 (band.setWidth 8)) = _
  rw [decode_of_fields (by rw [wordGrp_commandWord, wordOp_commandWord]; decide)]
  unfold decodeFields
  rw [wordGrp_commandWord, wordOp_commandWord, buildWord_band, buildWord_high]
  simp [Option.isNone_eq_false_iff.2 h]

/-- Settles O1: an operation without an operand has its row, the four with operands are read back field by field. -/
theorem decodeGivesBackEveryOperation : Obligations.DecodeGivesBackEveryOperation := by
  unfold Obligations.DecodeGivesBackEveryOperation
  intro i hwf
  cases i with
  | cfgWrite rr => exact decode_cfgWrite hwf
  | bqConfigure band stage =>
    obtain ⟨hband, hstage⟩ := Bool.and_eq_true_iff.1 hwf
    exact decode_bqConfigure hband hstage
  | bqProcess band stage =>
    obtain ⟨hband, hstage⟩ := Bool.and_eq_true_iff.1 hwf
    exact decode_bqProcess hband hstage
  | buildCascade band => exact decode_buildCascade hwf
  | _ => exact decode_of_row (by decide)

/-- A word decoded by its fields is the word of a well-formed operation (rules R108, R109, R116). -/
theorem encode_of_decodeFields {w : CmdWord} {i : Instr} (h : decodeFields w = .ok i) :
    encode i = w ∧ wellFormed i = true := by
  unfold decodeFields at h
  split_ifs at h with hrequest hconfig hop hreg hconfigure hprocess hbuild hhigh hband
  · cases h
    exact ⟨commandWord_eq hconfig (not_not.1 hop) rfl, Option.isNone_eq_false_iff.1 (eq_false_of_ne_true hreg)⟩
  · obtain ⟨band, stage, rfl, harg, hband, hstage⟩ := decodeStageWord_inv h
    exact ⟨commandWord_eq hconfigure.1 hconfigure.2 harg, Bool.and_eq_true_iff.2 ⟨hband, hstage⟩⟩
  · obtain ⟨band, stage, rfl, harg, hband, hstage⟩ := decodeStageWord_inv h
    exact ⟨commandWord_eq hprocess.1 hprocess.2 harg, Bool.and_eq_true_iff.2 ⟨hband, hstage⟩⟩
  · cases h
    exact ⟨commandWord_eq hbuild.1 hbuild.2 (wordArg_eq_band (not_not.1 hhigh)),
      Option.isNone_eq_false_iff.1 (eq_false_of_ne_true hband)⟩

/-- Settles O2: a word decodes by a fixed row, which the encoder prints, or by its fields. -/
theorem decodedWordIsItsEncoding : Obligations.DecodedWordIsItsEncoding := by
  unfold Obligations.DecodedWordIsItsEncoding
  intro w i h
  unfold decode at h
  split at h
  · next j hrow =>
    cases h
    exact fixedRows_encode _ (mem_of_lookupRow hrow)
  · exact encode_of_decodeFields h

/-- Settles O3: each word of the vector is a closed case of the decoder. -/
theorem specWordsDecodeRight : Obligations.SpecWordsDecodeRight := by
  unfold Obligations.SpecWordsDecodeRight
  decide

/-! ### O6: the refusal of a word (rule R116) -/

/-- Only the Requester's operations are requests (rules R101, R108). -/
theorem issuer_of_request {i : Instr} (h : i.request?.isSome = true) : i.issuer = .requester := by
  cases i with
  | reqNone | reqUpdateConfig | reqRecord | reqPlay | reqPassthru | reqDownloadWav | reqStop => rfl
  | _ => cases h

theorem requestOfWord_eq_none {w : CmdWord} (h : ∀ i, decode w = .ok i → i.issuer ≠ .requester) :
    requestOfWord w = none := by
  cases hw : requestOfWord w with
  | none => rfl
  | some i =>
    obtain ⟨hi, hrequest⟩ := requestOfWord_some hw
    exact absurd (issuer_of_request hrequest) (h i hi)

theorem configOfWord_eq_none {w : CmdWord} (h : ∀ i, decode w = .ok i → i.issuer ≠ .configurator) :
    configOfWord w = none := by
  cases hw : configOfWord w with
  | none => rfl
  | some i =>
    obtain ⟨hi, hissuer⟩ := configOfWord_some hw
    exact absurd hissuer (h i hi)

theorem operationOfWord_of_error {w : CmdWord} {e : DecodeError} (h : decode w = .error e) :
    operationOfWord w = none := by
  simp [operationOfWord, h]

/-- Settles O6: such a word names no operation on its port, and what is left is its refusal. -/
theorem reservedWordsAreRefused : Obligations.ReservedWordsAreRefused := by
  unfold Obligations.ReservedWordsAreRefused
  refine ⟨fun s w ts ht hw => ?_, fun s w v ts ht hw => ?_, fun s w b ts e ht hw => ?_⟩
  · simp [step, ht, requestOfWord_eq_none hw, rejectOnReq, refuseReserved, raise, respond, dropTurn]
  · simp [step, ht, configOfWord_eq_none hw, rejectOnCfgp, refuseReserved, raise, recordCfgp, dropTurn, floatFmt]
  · simp [step, ht, operationOfWord_of_error hw, refuseReserved, raise, dropTurn]

end Sys2Proof.Machine

/-! # The header's bytes, the parts of a rebuild, and the bands of a filtered block

Settles O20, O36 and O40. -/

namespace Sys2Proof.Machine

open Sys2Proof

/-! ### O36: the header -/

/-- A part of consecutive bytes that were just written reads back as that part. -/
theorem memReadBytes_memWriteBytes {m : Memory} (h : Memory.wf m = true) (vs : List Byte) {a n : Nat}
    (hn : a + n ≤ vs.length) : memReadBytes (memWriteBytes m 0 vs) a n = (vs.drop a).take n := by
  apply List.ext_getElem
  · simp; omega
  · intro i hi hi'
    have hin : i < n := by simpa using hi
    have hread : memRead (memWriteBytes m 0 vs) (a + i) = vs[a + i] := by
      rw [memRead_memWriteBytes h, if_pos (by omega), List.getD_eq_getElem _ _ (by omega)]
      rfl
    simp [memReadBytes, hread]

theorem riffSize_eq (d : BitVec 32) : BitVec.ofNat 32 (44 + d.toNat - 8) = d + 36 := by
  bv_omega

theorem byteRate_eq (sr : BitVec 32) : BitVec.ofNat 32 (sr.toNat * 2) = sr * 2 := by
  apply BitVec.eq_of_toNat_eq
  rw [BitVec.toNat_ofNat, BitVec.toNat_mul]
  rfl

theorem exec_buildWavHeader_absent {s : State} (h : s.hw.bufRoom = none) :
    exec .buildWavHeader s = .fault .noRecordingBuffer := by
  have habsent : ¬bufPresent s = true := by simp [bufPresent, h]
  exact if_neg habsent

theorem exec_buildWavHeader {s : State} (h : s.hw.bufRoom ≠ none) :
    exec .buildWavHeader s = .next { s with rb := memWriteBytes s.rb 0 (wavHeader s.wrCur s.act.sampleRate) } :=
  if_pos (Option.isSome_iff_ne_none.2 h)

/-- The header field by field, as rule R113 prints it. -/
def headerFields (d sr : BitVec 32) : List Byte :=
  [0x52, 0x49, 0x46, 0x46] ++ (le32 (d + 36) ++
    ([0x57, 0x41, 0x56, 0x45, 0x66, 0x6D, 0x74, 0x20, 0x10, 0, 0, 0, 1, 0, 1, 0] ++ (le32 sr ++
      (le32 (sr * 2) ++ ([2, 0, 0x10, 0, 0x64, 0x61, 0x74, 0x61] ++ le32 d)))))

theorem wavHeader_eq_headerFields (d sr : BitVec 32) : wavHeader d sr = headerFields d sr := by
  unfold headerFields
  rw [← riffSize_eq, ← byteRate_eq]
  rfl

/-- A field of the header that was just written. -/
theorem headerField {m : Memory} (h : Memory.wf m = true) {d sr : BitVec 32} {a n : Nat} {field : List Byte}
    (hn : a + n ≤ 44) (hfield : ((headerFields d sr).drop a).take n = field) :
    memReadBytes (memWriteBytes m 0 (wavHeader d sr)) a n = field := by
  rw [memReadBytes_memWriteBytes h _ hn, wavHeader_eq_headerFields, hfield]

/-- The bytes after the header are kept. -/
theorem memRead_wavHeader {m : Memory} (h : Memory.wf m = true) (d sr : BitVec 32) {a : Nat} (ha : 44 ≤ a) :
    memRead (memWriteBytes m 0 (wavHeader d sr)) a = memRead m a := by
  rw [memRead_memWriteBytes h, wavHeader_length, if_neg (by omega)]

/-- Settles O36: the header is written from byte 0 on, and each field is a part of it. -/
theorem headerBytesAreAsPrinted : Obligations.HeaderBytesAreAsPrinted := by
  unfold Obligations.HeaderBytesAreAsPrinted
  intro s
  refine ⟨exec_buildWavHeader_absent, fun h hwf => ?_⟩
  have hexec := exec_buildWavHeader h
  generalize hm : memWriteBytes s.rb 0 (wavHeader s.wrCur s.act.sampleRate) = m at hexec
  refine ⟨_, hexec, rfl, ?_⟩
  dsimp only
  rw [← hm]
  exact ⟨fun a ha => memRead_wavHeader hwf _ _ ha,
    headerField hwf (by decide) rfl, headerField hwf (by decide) rfl, headerField hwf (by decide) rfl,
    headerField hwf (by decide) rfl, headerField hwf (by decide) rfl, headerField hwf (by decide) rfl,
    headerField hwf (by decide) rfl⟩

/-! ### O40: `TASK_REBUILD` -/

theorem execIf_rmTableGen (c : Bool) (s : State) : execIf c .rmTableGen s = .next (doIf c rmTableGen s) := by
  cases c <;> rfl

/-- The clip factor of a rebuild, by its cases (rule R241). -/
def clippedFactor (top v : RealVal) : RealVal :=
  match v with
  | .num q => if q < 1 then .num 1 else if realExceeds q top then top else .num q
  | .posInf | .negInf | .nan => .num 1

/-- A bound that a number exceeds is not that number. -/
theorem ne_of_realExceeds {q : Rat} {top : RealVal} (h : realExceeds q top = true) : RealVal.num q ≠ top := by
  rintro rfl
  simp [realExceeds] at h

/-- The clamp logs exactly where it changes the factor (rules R241, R372). -/
theorem clampClip_eq (f : FloatFmt) (v : RealVal) : clampClip f v =
    (if v = clippedFactor (f.round clipMax) v then [] else [.configOutOfRange .clipClamp],
      clippedFactor (f.round clipMax) v) := by
  cases v with
  | posInf | negInf | nan => rfl
  | num q =>
    unfold clampClip clippedFactor
    dsimp only
    split_ifs with hlow hsame hhigh hsame hsame
    · cases hsame
      exact absurd hlow (lt_irrefl 1)
    · rfl
    · exact absurd hsame (ne_of_realExceeds hhigh)
    · rfl
    · rfl
    · exact absurd rfl hsame

theorem rmStale_eq (s : State) : rmStale s = (s.act.ctrlEn.getLsbD 6 && decide (s.act.sampleRate ≠ s.rmSr ∨
    s.act.toneFreq ≠ s.rmFreq ∨ s.act.toneAmp ≠ s.rmAmp)) := by
  simp only [rmStale, rmEn, bne, Bool.decide_or, ne_eq, decide_not, Bool.or_assoc, beq_eq_decide]

/-- `PV.init` where the ratio is not 1, as an entry of the history (rule R237). -/
theorem doIf_pvInit (s : State) : doIf (s.act.pitchRatio != .num 1) pvInit s = { s with
    ports := { s.ports with pv := if s.act.pitchRatio = .num 1 then s.ports.pv
      else s.ports.pv ++ [.init s.act.sampleRate s.act.pitchRatio] } } := by
  by_cases h : s.act.pitchRatio = .num 1
  · simp [doIf, h]
  · simp [doIf, h, pvInit, recordPv]

/-- Settles O40: the six builds by the codes of their bands, and the parts that are due under their conditions. -/
theorem rebuildRunsItsPartsInOrder : Obligations.RebuildRunsItsPartsInOrder := by
  unfold Obligations.RebuildRunsItsPartsInOrder
  intro s top cf s0
  have hsnap : snapshotConfig s = s0 := by
    unfold snapshotConfig
    rw [clampClip_eq]
    rfl
  refine ⟨⟨_, rfl⟩, ?_⟩
  show Host.Outcome.next (taskRebuild s) = _
  unfold taskRebuild
  rw [hsnap]
  dsimp only
  rw [doIf_pvInit]
  simp only [← rmStale_eq, execIf_rmTableGen]
  rfl

/-! ### O20: `FILTER_BLOCK` -/

theorem filterBands_frame (bs : List Band) (s : State) : FilterFrame s (bs.foldl filterBand s) := by
  induction bs generalizing s with
  | nil => exact FilterFrame.refl s
  | cons b bs ih => exact (filterBand_frame s b).trans (ih _)

theorem FilterFrame.act_eq {s t : State} (h : FilterFrame s t) : t.act = s.act := by rw [h.eq]

theorem FilterFrame.floatFmt_eq {s t : State} (h : FilterFrame s t) : floatFmt t = floatFmt s :=
  floatFmt_congr (by rw [h.eq])

/-- A band leaves the cascades of the others alone (rule R170). -/
theorem filterBands_other {bs : List Band} {a : Band} (h : a ∉ bs) (s : State) :
    bandGet (activeBank (bs.foldl filterBand s)) a = bandGet (activeBank s) a := by
  induction bs generalizing s with
  | nil => rfl
  | cons b bs ih =>
    obtain ⟨hab, hbs⟩ := List.ne_and_not_mem_of_not_mem_cons h
    exact (ih hbs _).trans ((filterBand_series s b).2.2 a hab)

/-- What a band makes of a block depends on the band's own cascade only. -/
theorem bandOutput_congr {s t : State} {b : Band} (h : FilterFrame s t)
    (hb : bandGet (activeBank t) b = bandGet (activeBank s) b) (wb : List S16) :
    bandOutput t wb b = bandOutput s wb b := by
  unfold bandOutput
  rw [hb, h.act_eq, h.floatFmt_eq]

/-- The working block after a list of bands, each at most once (rule R170). -/
theorem filterBands_wb {bs : List Band} (hn : bs.Nodup) (s : State) : (bs.foldl filterBand s).wb = blockAfter s bs := by
  induction bs using List.reverseRecOn with
  | nil => rfl
  | append_singleton bs b ih =>
    obtain ⟨hbs, -, hdisj⟩ := List.nodup_append.1 hn
    have hb : b ∉ bs := fun hmem => hdisj b hmem b (List.mem_singleton_self b) rfl
    rw [List.foldl_append, blockAfter, List.foldl_append]
    show (filterBand (bs.foldl filterBand s) b).wb = bandOutput s (blockAfter s bs) b
    rw [(filterBand_series _ b).1, ih hbs, bandOutput_congr (filterBands_frame bs s) (filterBands_other hb s)]

/-- The bands before a band, the band, and the bands after it, in index order (rule R24). -/
theorem bandAll_split (b : Band) : Band.all = Band.all.take b.index ++ b :: Band.all.drop (b.index + 1) := by
  cases b <;> rfl

theorem not_mem_bandsBefore (b : Band) : b ∉ Band.all.take b.index := by cases b <;> decide

theorem not_mem_bandsAfter (b : Band) : b ∉ Band.all.drop (b.index + 1) := by cases b <;> decide

theorem bandAll_nodup : Band.all.Nodup := by decide

/-- A stage in use of an enabled band ends as the outputs of the stages before it leave it, the band being given the
block that the bands before it left (rules R141 (c), R163, R170). -/
theorem filterBlock_stage {s : State} {b : Band} {k : Fin 10} (hen : bandEn s.act b = true)
    (hk : k.val < (bandGet (activeBank s) b).nst) :
    (bandGet (activeBank (filterBlock s)) b).stages[k] =
      stageAfter (floatFmt s) (bandGet (activeBank s) b).stages[k]
        (seriesRun (floatFmt s) ((bandGet (activeBank s) b).stages.toList.take k.val)
          ((blockAfter s (Band.all.take b.index)).map s2f)) := by
  have hframe := filterBands_frame (Band.all.take b.index) s
  have hown := filterBands_other (not_mem_bandsBefore b) s
  have hsplit : filterBlock s = (Band.all.drop (b.index + 1)).foldl filterBand
      (filterBand ((Band.all.take b.index).foldl filterBand s) b) := by
    rw [filterBlock]
    conv_lhs => rw [bandAll_split b, List.foldl_append, List.foldl_cons]
  rw [hsplit, filterBands_other (not_mem_bandsAfter b),
    (filterBand_series _ b).2.1 (by rw [hframe.act_eq]; exact hen) k (by rw [hown]; exact hk),
    filterBands_wb (bandAll_nodup.sublist (List.take_sublist _ _)), hown, hframe.floatFmt_eq]

/-- Without an enabled band nothing is filtered (rule R171 (b)). -/
theorem filterBands_off {s : State} (h : ∀ b, bandEn s.act b = false) (bs : List Band) :
    bs.foldl filterBand s = s := by
  induction bs with
  | nil => rfl
  | cons b bs ih => rw [List.foldl_cons, filterBand_off (h b), ih]

/-- Settles O20: the block goes from band to band, and no band touches another's stages. -/
theorem filterBlockRunsSamplesInOrder : Obligations.FilterBlockRunsSamplesInOrder := by
  unfold Obligations.FilterBlockRunsSamplesInOrder
  constructor
  · exact fun s h => congrArg Host.Outcome.next (filterBands_off h Band.all)
  · exact fun s => ⟨filterBlock s, rfl, filterBands_wb bandAll_nodup s, fun b k hen hk => filterBlock_stage hen hk⟩

end Sys2Proof.Machine

/-! # O18: a build of an enabled band with usable parameters, over the reals -/

namespace Sys2Proof.Machine

open Sys2Proof

/-! ### The cutoff and the order (rules R120, R166) -/

/-- The cutoff is the smaller of the requested one and 0.5, and the clamp is logged where it acts. -/
theorem clampCutoff_num (x : Rat) (b : Band) : clampCutoff (.num x) b =
    (if 1 / 2 < x then [.configOutOfRange (.nyquistClamp b)] else [], .num (min x (1 / 2))) := by
  unfold clampCutoff realAbove
  by_cases h : 1 / 2 < x
  · simp only [h, decide_true, if_true, min_eq_right h.le]
  · simp only [h, decide_false, if_false, Bool.false_eq_true, min_eq_left (not_lt.1 h)]

/-- The order a band is built with: clamped into 1 .. 8 for the pass types, 1 for the others (rules R24, R166). -/
def builtOrder (b : Band) (order : Nat) : Nat := if b = .bp ∨ b = .hp ∨ b = .lp then max 1 (min 8 order) else 1

/-- The order of a pass type, clamped on the side it lies beyond (rule R166). -/
theorem clampOrder_pass {typ : BqType} (h : typ = .bandpass ∨ typ = .highpass ∨ typ = .lowpass) (order : Nat)
    (b : Band) :
    clampOrder typ order b =
      (if order < 1 ∨ 8 < order then [.configOutOfRange (.orderClamp b)] else [], max 1 (min 8 order)) := by
  have hunfold : clampOrder typ order b =
      if order < 1 then ([.configOutOfRange (.orderClamp b)], 1)
      else if 8 < order then ([.configOutOfRange (.orderClamp b)], 8)
      else ([], order) := by
    rcases h with rfl | rfl | rfl <;> rfl
  rw [hunfold]
  by_cases hlow : order < 1
  · have hmax : max 1 (min 8 order) = 1 := by omega
    simp only [hlow, hmax, if_true, true_or]
  · by_cases hhigh : 8 < order
    · have hmax : max 1 (min 8 order) = 8 := by omega
      simp only [hlow, hhigh, hmax, if_true, if_false, or_true]
    · have hmax : max 1 (min 8 order) = order := by omega
      simp only [hlow, hhigh, hmax, if_false, or_self]

theorem clampOrder_bandType (b : Band) (order : Nat) : clampOrder (bandType b) order b =
    (if (b = .bp ∨ b = .hp ∨ b = .lp) ∧ (order < 1 ∨ 8 < order) then [.configOutOfRange (.orderClamp b)] else [],
      builtOrder b order) := by
  cases b with
  | bp | hp | lp => simp [clampOrder_pass, bandType, builtOrder]
  | hs | ls | pk => simp [clampOrder, bandType, builtOrder]

theorem one_le_builtOrder (b : Band) (order : Nat) : 1 ≤ builtOrder b order := by
  unfold builtOrder
  split <;> omega

theorem builtOrder_le (b : Band) (order : Nat) : builtOrder b order ≤ 8 := by
  unfold builtOrder
  split <;> omega

/-! ### The Q of each stage (rule R167) -/

/-- The Q of stage `k` of an order `c` cascade: the requested one for order 1, the table's otherwise. -/
def stageQ (qtab : List RealVal) (c : Nat) (q : RealVal) (k : Nat) : RealVal :=
  if c = 1 then q else qtab.getD (c * (c - 1) / 2 + k) (.num 0)

/-- The Q of every stage. -/
def stageQs (qtab : List RealVal) (c : Nat) (q : RealVal) : List RealVal := (List.range c).map (stageQ qtab c q)

@[simp] theorem stageQs_length (qtab : List RealVal) (c : Nat) (q : RealVal) : (stageQs qtab c q).length = c := by
  simp [stageQs]

theorem stageQs_getElem? (qtab : List RealVal) {c k : Nat} (q : RealVal) (h : k < c) :
    (stageQs qtab c q)[k]? = some (stageQ qtab c q k) := by
  simp [stageQs, h]

/-- Where order 1 has a positive finite Q the choice logs nothing and gives the Q of every stage. -/
theorem chooseQ_eq (qtab : List RealVal) {c : Nat} {q : RealVal} (b : Band) (h0 : 1 ≤ c)
    (h : c = 1 → ∃ v : Rat, q = .num v ∧ 0 < v) : chooseQ qtab c q b = ([], some (stageQs qtab c q)) := by
  by_cases hc : c = 1
  · obtain ⟨v, rfl, hv⟩ := h hc
    subst hc
    simp [chooseQ, realFinite?, hv, stageQs, stageQ]
  · have hstart : triangular (c - 1) = c * (c - 1) / 2 := by
      rw [triangular, Nat.sub_add_cancel h0, Nat.mul_comm]
    simp [chooseQ, tableQs, stageQs, stageQ, hc, hstart]

/-- Order 1 does not read the table. -/
theorem stageQ_congr {qtab qtab' : List RealVal} {c : Nat} (hc : 1 ≤ c) (h : 1 < c → qtab = qtab') (q : RealVal)
    (k : Nat) : stageQ qtab c q k = stageQ qtab' c q k := by
  unfold stageQ
  split
  · rfl
  · rw [h (by omega)]

/-- Every stage Q is positive: the requested one by hypothesis, the table's over the reals (rules R161, R167). -/
theorem stageQ_positive {qtab : List RealVal} {c k : Nat} {q : RealVal} (hc : c ≤ 8) (hk : k < c)
    (hone : c = 1 → ∃ v : Rat, q = .num v ∧ 0 < v) (htab : 1 < c → qtab = qvalTable realsFmt) :
    ∃ v : Rat, stageQ qtab c q k = .num v ∧ 0 < v := by
  unfold stageQ
  split
  · next h => exact hone h
  · have hindex : c * (c - 1) / 2 + k < qtabLen := by
      unfold qtabLen
      interval_cases c <;> omega
    rw [htab (by omega)]
    exact qvalTable_reals_getD hindex

/-! ### The plan and the cascade (rules R165, R168) -/

/-- What a build over the reals plans, given the Q of its stages. -/
theorem buildPlan_reals {qtab : List RealVal} {b : Band} {fr g : Rat} {q : RealVal} {order sr : Nat} {qs : List RealVal}
    (hfr : 0 < fr) (hsr : sr ≠ 0) (hq : chooseQ qtab (builtOrder b order) q b = ([], some qs)) :
    buildPlan realsFmt qtab (bandType b) (.num fr) q (.num g) order sr b =
      ((if 1 / 2 < fr / sr then [.configOutOfRange (.nyquistClamp b)] else []) ++
        (if (b = .bp ∨ b = .hp ∨ b = .lp) ∧ (order < 1 ∨ 8 < order) then [.configOutOfRange (.orderClamp b)]
          else []),
        some (.num (min (fr / sr) (1 / 2)), qs)) := by
  have hgood : badParams (.num fr) (.num g) sr = false := by simp [badParams, realFinite?, hsr, hfr]
  have hdiv : fDiv realsFmt (.num fr) (.num (realsFmt.ofNat sr)) = .num (fr / sr) :=
    fDiv_reals fr sr (Nat.cast_ne_zero.2 hsr)
  rcases buildPlan_cases realsFmt qtab (bandType b) (.num fr) q (.num g) order sr b with ⟨hbad, _⟩ | ⟨_, hplan⟩
  · rw [hgood] at hbad
    cases hbad
  · rw [hplan, hdiv, clampCutoff_num, clampOrder_bandType]
    dsimp only
    rw [hq]
    simp

/-- A planned build of an enabled band configures its stages (rule R165). -/
theorem builtCascade_of_plan {f : FloatFmt} {d : DesignFn} {act : CfgRegs} {qtab : List RealVal} {b : Band}
    {old : Cascade} {log : List LogRecord} {fc : RealVal} {qs : List RealVal} (hen : bandEn act b = true)
    (hplan : buildPlan f qtab (bandType b) (bandGet act.bands b).freq (bandGet act.bands b).q (bandGet act.bands b).gain
      (bandGet act.bands b).order.toNat act.sampleRate.toNat b = (log, some (fc, qs))) :
    builtCascade f d act qtab b old =
      (log, ⟨qs.length, newStages d (bandType b) fc (bandGet act.bands b).gain old.stages (stageIndices.zip qs)⟩) := by
  unfold builtCascade
  simp [hen, hplan]

/-- A new stage with arguments in the domain is configured and at rest (rules R131, R132, R165). -/
theorem newStage_inDomain (d : DesignFn) (typ : BqType) {fc q : Rat} (g : Rat) (st : Stage) (hfc : 0 < fc)
    (hhalf : fc ≤ 1 / 2) (hq : 0 < q) : newStage d typ (.num fc) (.num q) (.num g) st =
      ⟨d typ fc q g, .num 0, .num 0, typ, .num fc, .num q, .num g⟩ := by
  have hdom : domainArgs typ.code (.num fc) (.num q) (.num g) = some (typ, fc, q, g) := by
    unfold domainArgs
    rw [bqTypeOfCode_code]
    exact if_pos ⟨hfc, hhalf, hq⟩
  unfold newStage configureStage
  rw [hdom]

/-- Each stage that has a Q is configured with it (rule R165). -/
theorem newStages_configured (d : DesignFn) (typ : BqType) {fc q : Rat} (g : Rat) {qs : List RealVal}
    (stages : Vector Stage 10) {k : Fin 10} (hk : qs[k.val]? = some (.num q)) (hfc : 0 < fc) (hhalf : fc ≤ 1 / 2)
    (hq : 0 < q) : (newStages d typ (.num fc) (.num g) stages (stageIndices.zip qs))[k] =
      ⟨d typ fc q g, .num 0, .num 0, typ, .num fc, .num q, .num g⟩ := by
  rw [(newStages_getElem d typ (.num fc) (.num g) _ stages (zip_stageIndices_nodup qs) k).1 _
    ((mem_zip_stageIndices qs k _).2 hk), newStage_inDomain d typ g _ hfc hhalf hq]

/-- The stages beyond the order keep what they held (rule R165). -/
theorem newStages_beyond (d : DesignFn) (typ : BqType) (fc g : RealVal) {qs : List RealVal} (stages : Vector Stage 10)
    {k : Fin 10} (hk : qs.length ≤ k.val) :
    (newStages d typ fc g stages (stageIndices.zip qs))[k] = stages[k] := by
  refine (newStages_getElem d typ fc g _ stages (zip_stageIndices_nodup qs) k).2 fun q hmem => ?_
  have hsome := (mem_zip_stageIndices qs k q).1 hmem
  rw [List.getElem?_eq_none hk] at hsome
  cases hsome

/-! ### The state after the build -/

theorem exec_buildCascade {band : BitVec 3} {b : Band} (h : bandOfCode band = some b) (s : State) :
    exec (.buildCascade band) s = .next (buildCascadeOf s b) := by
  show Host.Outcome.next (buildCascade band s) = _
  unfold buildCascade
  rw [h]

/-- A build puts its cascade into the shadow bank, and its log records behind the log (rules R165, R371). -/
theorem buildCascadeOf_built {s : State} {b : Band} {log : List LogRecord} {c : Cascade}
    (h : builtCascade (floatFmt s) (designFn s) s.act (readableQtab s) b (bandGet (shadowBank s) b) = (log, c)) :
    bandGet (shadowBank (buildCascadeOf s b)) b = c ∧ (buildCascadeOf s b).ports.log = s.ports.log ++ log := by
  unfold buildCascadeOf
  dsimp only
  rw [h]
  constructor
  · show bandGet (shadowBank (setShadowCascade s b c)) b = c
    rw [shadowBank_setShadowCascade, bandGet_bandSet]
  · show (setShadowCascade s b c).ports.log ++ log = _
    rw [setShadowCascade_ports]

/-- Settles O18: the plan over the reals gives every stage a Q in the domain, and the build configures it. -/
theorem buildConfiguresTheShadowCascade : Obligations.BuildConfiguresTheShadowCascade := by
  unfold Obligations.BuildConfiguresTheShadowCascade
  intro s band b fr g hb hfmt hen hfreq hgain hrate hfr sr order pass c fc old hone htab
  have hc : 1 ≤ c := one_le_builtOrder b order
  have hc8 : c ≤ 8 := builtOrder_le b order
  have hsr : s.act.sampleRate.toNat ≠ 0 := fun h => hrate (BitVec.eq_of_toNat_eq h)
  have hfc : 0 < fc := lt_min (div_pos hfr (by positivity)) (by norm_num)
  have hplan := buildPlan_reals (g := g) hfr hsr (chooseQ_eq (readableQtab s) b hc hone)
  rw [← hfreq, ← hgain] at hplan
  have hbuilt := builtCascade_of_plan (d := designFn s) (old := old) hen hplan
  rw [hgain, ← floatFmt_reals s hfmt] at hbuilt
  obtain ⟨hcascade, hlog⟩ := buildCascadeOf_built hbuilt
  refine ⟨_, exec_buildCascade hb s, buildCascadeOf_frame s b, ?_, fun k hk => ?_, fun k hk => ?_, ?_⟩
  · rw [hcascade]
    exact stageQs_length _ _ _
  · have htable : 1 < c → readableQtab s = s.qtab := fun h => if_pos (htab h).1
    obtain ⟨qk, hqk, hpos⟩ := stageQ_positive hc8 hk hone fun h => (htable h).trans (htab h).2
    refine ⟨qk, hqk.symm.trans (stageQ_congr hc htable _ _), ?_⟩
    rw [hcascade]
    exact newStages_configured _ _ g _ ((stageQs_getElem? _ _ hk).trans (congrArg some hqk)) hfc (min_le_right _ _) hpos
  · rw [hcascade]
    exact newStages_beyond _ _ _ _ _ (by rw [stageQs_length]; exact hk)
  · rw [hlog, List.append_assoc]

end Sys2Proof.Machine

/-! # O11: `BQ_CONFIGURE` on one shadow stage -/

namespace Sys2Proof.Machine

open Sys2Proof

theorem realFinite?_eq_some {v : RealVal} {q : Rat} : realFinite? v = some q ↔ v = .num q := by
  cases v <;> simp [realFinite?]

/-- The domain of rule R132: what the model's `in_domain` yields, and when. -/
theorem domainArgs_eq_some {code : BitVec 3} {fc q g : RealVal} {typ : BqType} {fcv qv gv : Rat} :
    domainArgs code fc q g = some (typ, fcv, qv, gv) ↔
      code = typ.code ∧ fc = .num fcv ∧ q = .num qv ∧ g = .num gv ∧ 0 < fcv ∧ fcv ≤ 1 / 2 ∧ 0 < qv := by
  constructor
  · intro h
    unfold domainArgs at h
    split at h
    · next htyp hfc hq hg =>
      split at h
      · next hdom =>
        cases h
        exact ⟨code_of_bqTypeOfCode htyp, realFinite?_eq_some.1 hfc, realFinite?_eq_some.1 hq,
          realFinite?_eq_some.1 hg, hdom⟩
      · cases h
    · cases h
  · rintro ⟨rfl, rfl, rfl, rfl, hdom⟩
    unfold domainArgs
    rw [bqTypeOfCode_code]
    exact if_pos hdom

/-- Inside the domain the coefficients and the four parameters are written, never `z1, z2` (rule R131). -/
theorem configureStage_inDomain {code : BitVec 3} {fc q g : RealVal} {typ : BqType} {fcv qv gv : Rat}
    (h : domainArgs code fc q g = some (typ, fcv, qv, gv)) (d : DesignFn) (st : Stage) :
    configureStage d code fc q g st = { coefs := d typ fcv qv gv, z1 := st.z1, z2 := st.z2, typ := typ,
                                        fc := .num fcv, q := .num qv, gain := .num gv } := by
  unfold configureStage
  rw [h]
  obtain ⟨-, rfl, rfl, rfl, -⟩ := domainArgs_eq_some.1 h
  rfl

/-- Outside the domain nothing is written (rule R133). -/
theorem configureStage_outside {code : BitVec 3} {fc q g : RealVal} (h : domainArgs code fc q g = none) (d : DesignFn)
    (st : Stage) : configureStage d code fc q g st = st := by
  unfold configureStage
  rw [h]

/-- `BQ_CONFIGURE` of a band and stage that exist rewrites that stage of the shadow bank (rule R131). -/
theorem exec_bqConfigure {band : BitVec 3} {stage : BitVec 4} {b : Band} {k : Fin 10} (hb : bandOfCode band = some b)
    (hk : stageOfCode stage = some k) (s : State) : exec (.bqConfigure band stage) s =
      .next (setShadowCascade s b (setStage (bandGet (shadowBank s) b) k
        (configureStage (designFn s) s.beside.bqType (fmtReal (floatFmt s) s.beside.fc)
          (fmtReal (floatFmt s) s.beside.q) (fmtReal (floatFmt s) s.beside.gain)
          (bandGet (shadowBank s) b).stages[k]))) := by
  show Host.Outcome.next (bqConfigure band stage s) = _
  unfold bqConfigure
  rw [hb, hk]
  rfl

/-- Settles O11: a stage written back unchanged changes nothing, so both clauses are the two cases of `in_domain`. -/
theorem configureWritesOneShadowStage : Obligations.ConfigureWritesOneShadowStage := by
  unfold Obligations.ConfigureWritesOneShadowStage
  intro s band stage b k hb hk c arg
  constructor
  · intro typ fc q g htyp hfc hq hg hpos hhalf hqpos st
    rw [exec_bqConfigure hb hk,
      configureStage_inDomain (domainArgs_eq_some.2 ⟨htyp, hfc, hq, hg, hpos, hhalf, hqpos⟩)]
    rfl
  · intro hout
    have hnone : domainArgs s.beside.bqType (fmtReal (floatFmt s) s.beside.fc) (fmtReal (floatFmt s) s.beside.q)
        (fmtReal (floatFmt s) s.beside.gain) = none :=
      Option.eq_none_iff_forall_ne_some.2 fun ⟨typ, fc, q, g⟩ h => hout ⟨typ, fc, q, g, domainArgs_eq_some.1 h⟩
    rw [exec_bqConfigure hb hk, configureStage_outside hnone, setStage_self, setShadowCascade_self]

end Sys2Proof.Machine

/-! # O13: the difference equation of a stage -/

namespace Sys2Proof.Machine

open Sys2Proof

theorem past_beyond (l : List Rat) {n k : Nat} (h : n < k) : past l n k = 0 := if_neg h.not_ge

/-- One element more at the start: it is what stands the whole length back. -/
theorem past_cons (x : Rat) (xs : List Rat) (n k : Nat) :
    past (x :: xs) (n + 1) k = if k = n + 1 then x else past xs n k := by
  unfold past
  rcases Nat.lt_trichotomy k (n + 1) with h | rfl | h
  · rw [if_pos h.le, if_neg h.ne, if_pos (Nat.lt_succ_iff.1 h), Nat.succ_sub (Nat.lt_succ_iff.1 h),
      List.getD_cons_succ]
  · simp
  · rw [if_neg h.not_ge, if_neg h.ne', if_neg (Nat.lt_of_succ_lt h).not_ge]

/-- What the two state values of a stage add to its output `n` (rule R140: `z1` to the next, `z2` to the one after). -/
def carried (z1 z2 : Rat) : Nat → Rat
  | 0 => z1
  | 1 => z2
  | _ + 2 => 0

/-- The right side of the difference equation of rule R142. -/
def equationRhs (c : FiniteCoefs) (xs ys : List Rat) (n : Nat) : Rat :=
  c.a0 * past xs n 0 + c.a1 * past xs n 1 + c.a2 * past xs n 2 - c.b1 * past ys n 1 - c.b2 * past ys n 2

/-- The first sample of a run turns up in the later outputs through the state values that rule R140 gives it. -/
theorem equationRhs_cons (c : FiniteCoefs) (z1 z2 x y : Rat) (xs ys : List Rat) (n : Nat) :
    equationRhs c (x :: xs) (y :: ys) (n + 1) + carried z1 z2 (n + 1) =
      equationRhs c xs ys n + carried (c.a1 * x + z2 - c.b1 * y) (c.a2 * x - c.b2 * y) n := by
  unfold equationRhs
  simp only [past_cons]
  match n with
  | 0 =>
    simp [carried, past_beyond]
    ring
  | 1 =>
    simp [carried, past_beyond]
    ring
  | n + 2 => simp [carried]

/-- `BQ_PROCESS` over the reals on a stage that holds numbers (rule R140). -/
theorem processStage_reals {st : Stage} {c : FiniteCoefs} {z1 z2 : Rat} (hc : st.coefs = fmtCoefs realsFmt c)
    (h1 : st.z1 = .num z1) (h2 : st.z2 = .num z2) (x : Rat) :
    processStage realsFmt st (.num x) =
      ({ st with z1 := .num (c.a1 * x + z2 - c.b1 * (c.a0 * x + z1))
                 z2 := .num (c.a2 * x - c.b2 * (c.a0 * x + z1)) }, .num (c.a0 * x + z1)) := by
  unfold processStage
  rw [hc, h1, h2]
  rfl

/-- From any state a stage computes the difference equation, with its two state values added to the first outputs. -/
theorem stageRun_reals {st : Stage} {c : FiniteCoefs} {z1 z2 : Rat} (hc : st.coefs = fmtCoefs realsFmt c)
    (h1 : st.z1 = .num z1) (h2 : st.z2 = .num z2) (xs : List Rat) :
    ∃ ys : List Rat, stageRun realsFmt st (xs.map .num) = ys.map .num ∧ ys.length = xs.length ∧
      ∀ n, n < xs.length → past ys n 0 = equationRhs c xs ys n + carried z1 z2 n := by
  induction xs generalizing st z1 z2 with
  | nil => exact ⟨[], rfl, rfl, fun n hn => absurd hn n.not_lt_zero⟩
  | cons x xs ih =>
    obtain ⟨ys, hrun, hlen, heq⟩ := ih (st := (processStage realsFmt st (.num x)).1)
      (by rw [processStage_reals hc h1 h2]; exact hc) (by rw [processStage_reals hc h1 h2])
      (by rw [processStage_reals hc h1 h2])
    refine ⟨(c.a0 * x + z1) :: ys, ?_, by simp [hlen], fun n hn => ?_⟩
    · rw [List.map_cons, stageRun, hrun, processStage_reals hc h1 h2, List.map_cons]
    · cases n with
      | zero => simp [equationRhs, past, carried]
      | succ n =>
        rw [equationRhs_cons, ← heq n (Nat.lt_of_succ_lt_succ hn), past_cons, if_neg (Nat.succ_ne_zero n).symm]

/-- Settles O13: at rest the state values add nothing. -/
theorem stageComputesTheDifferenceEquation : Obligations.StageComputesTheDifferenceEquation := by
  unfold Obligations.StageComputesTheDifferenceEquation
  rintro st a0 a1 a2 b1 b2 xs ⟨h1, h2⟩ hc
  obtain ⟨ys, hrun, hlen, heq⟩ := stageRun_reals (c := ⟨a0, a1, a2, b1, b2⟩) hc h1 h2 xs
  refine ⟨ys, hrun, hlen, fun n hn => (heq n hn).trans ?_⟩
  have hrest : carried 0 0 n = 0 := by match n with | 0 | 1 | _ + 2 => rfl
  rw [hrest, add_zero]
  rfl

end Sys2Proof.Machine

/-! # O14: a reference stage at the Nyquist frequency -/

namespace Sys2Proof.Machine

open Sys2Proof

/-! ### Formats that do not round -/

/-- A format that rounds no number: the reals, and the reals as the design equations use them (rule R152). -/
def Exact (f : FloatFmt) : Prop := ∀ q : Rat, f.round q = .num q

theorem exact_reals : Exact realsFmt := fun _ => rfl

theorem exact_finiteReals : Exact (finiteFmt realsFmt) := fun _ => rfl

theorem fAdd_exact {f : FloatFmt} (hf : Exact f) (x y : Rat) : fAdd f (.num x) (.num y) = .num (x + y) := hf _

theorem fSub_exact {f : FloatFmt} (hf : Exact f) (x y : Rat) : fSub f (.num x) (.num y) = .num (x - y) := hf _

theorem fMul_exact {f : FloatFmt} (hf : Exact f) (x y : Rat) : fMul f (.num x) (.num y) = .num (x * y) := hf _

theorem fDiv_exact {f : FloatFmt} (hf : Exact f) (x : Rat) {y : Rat} (hy : y ≠ 0) :
    fDiv f (.num x) (.num y) = .num (x / y) := (if_neg hy).trans (hf _)

/-- Five numbers as the coefficients of a format that does not round. -/
theorem coefs_eq_num {a0 a1 a2 b1 b2 : Rat} {c : FiniteCoefs} (h0 : a0 = c.a0) (h1 : a1 = c.a1) (h2 : a2 = c.a2)
    (h3 : b1 = c.b1) (h4 : b2 = c.b2) :
    (⟨.num a0, .num a1, .num a2, .num b1, .num b2⟩ : Coefs) = fmtCoefs realsFmt c := by
  subst h0 h1 h2 h3 h4
  rfl

/-! ### The limit coefficients (rule R150) -/

/-- The coefficients of a pure gain `g` over the double pole that the limit leaves at -1 (the table of rule R150). -/
def pureGain (g : Rat) : FiniteCoefs := ⟨g, 2 * g, g, 2, 1⟩

/-- Every row of the table of rule R150 is the pure gain of its last column. -/
theorem designAtNyquist_pureGain {f : FloatFmt} (hf : Exact f) (typ : BqType) (boost : Bool) {v : Rat} (hv : v ≠ 0) :
    designAtNyquist f typ boost (.num v) = fmtCoefs realsFmt (pureGain (nyquistGain typ boost v)) := by
  cases typ with
  | lowpass | notch | peak | highshelf => exact coefs_eq_num rfl (mul_one 2).symm rfl rfl rfl
  | highpass | bandpass => exact coefs_eq_num rfl (mul_zero 2).symm rfl rfl rfl
  | lowshelf =>
    cases boost with
    | true =>
      simp only [designAtNyquist, if_true, fMul_exact hf]
      exact coefs_eq_num rfl rfl rfl rfl rfl
    | false =>
      have htwice : 2 / v = 2 * (1 / v) := by ring
      simp only [designAtNyquist, Bool.false_eq_true, if_false, fDiv_exact hf _ hv]
      exact coefs_eq_num rfl htwice rfl rfl rfl

/-- A pure gain at rest stays at rest: the two poles at -1 are never excited (rule R150). -/
theorem processStage_pureGain {st : Stage} {g : Rat} (hrest : AtRest st)
    (hc : st.coefs = fmtCoefs realsFmt (pureGain g)) (x : Rat) :
    processStage realsFmt st (.num x) = (st, .num (g * x)) := by
  obtain ⟨h1, h2⟩ := hrest
  have hy : g * x + 0 = g * x := add_zero _
  have hz1 : 2 * g * x + 0 - 2 * (g * x) = 0 := by ring
  have hz2 : g * x - 1 * (g * x) = 0 := by ring
  rw [processStage_reals hc h1 h2]
  unfold pureGain
  dsimp only
  rw [hy, hz1, hz2]
  obtain ⟨coefs, z1, z2, typ, fc, q, gain⟩ := st
  cases h1
  cases h2
  rfl

/-- Settles O14: the limit coefficients are those of a pure gain. -/
theorem stageAtNyquistIsAPureGain : Obligations.StageAtNyquistIsAPureGain := by
  unfold Obligations.StageAtNyquistIsAPureGain
  intro typ boost v x st hv hrest hc
  exact processStage_pureGain hrest (hc.trans (designAtNyquist_pureGain exact_reals typ boost hv)) x

end Sys2Proof.Machine

/-! # O15: the reference design -/

namespace Sys2Proof.Machine

open Sys2Proof

/-! ### The bilinear transform of an analog response

With `s = (1 / k) (1 - z^-1) / (1 + z^-1)` the polynomial `c2 s^2 + c1 s + c0`, times `k^2 (1 + z^-1)^2`, is a polynomial
in `z^-1`. -/

/-- Its coefficient of 1. -/
def Analog.lead (p : Analog) (k : Rat) : Rat := p.c2 + p.c1 * k + p.c0 * k ^ 2

/-- Its coefficient of `z^-1`. -/
def Analog.mid (p : Analog) (k : Rat) : Rat := 2 * (p.c0 * k ^ 2 - p.c2)

/-- Its coefficient of `z^-2`. -/
def Analog.last (p : Analog) (k : Rat) : Rat := p.c2 - p.c1 * k + p.c0 * k ^ 2

/-- The coefficients of the transformed response, the denominator's leading one normalised to 1 (rule R135). -/
def bilinear (p : Analog × Analog) (k : Rat) : FiniteCoefs :=
  let n := p.2.lead k
  ⟨p.1.lead k / n, p.1.mid k / n, p.1.last k / n, p.2.mid k / n, p.2.last k / n⟩

/-- A polynomial with positive coefficients, as every analog denominator is. -/
def Analog.Positive (p : Analog) : Prop := 0 < p.c2 ∧ 0 < p.c1 ∧ 0 < p.c0

theorem Analog.Positive.lead_pos {p : Analog} (hp : p.Positive) {k : Rat} (hk : 0 < k) : 0 < p.lead k := by
  obtain ⟨h2, h1, h0⟩ := hp
  unfold Analog.lead
  positivity

/-- The transform of a response with a positive denominator meets the criterion of rule R142 (rule R151). -/
theorem stableCoefs_bilinear {p : Analog × Analog} (hp : p.2.Positive) {k : Rat} (hk : 0 < k) :
    StableCoefs (fmtCoefs realsFmt (bilinear p k)) := by
  have hn := hp.lead_pos hk
  obtain ⟨h2, h1, h0⟩ := hp
  have hm : 0 < p.2.c1 * k := by positivity
  have hd : 0 < p.2.c0 * k ^ 2 := by positivity
  have hsum : 1 + p.2.last k / p.2.lead k = 2 * (p.2.c2 + p.2.c0 * k ^ 2) / p.2.lead k := by
    rw [one_add_div hn.ne']
    unfold Analog.lead Analog.last
    ring
  refine ⟨_, _, rfl, rfl, ?_, ?_⟩
  · show |p.2.last k / p.2.lead k| < 1
    rw [abs_div, abs_of_pos hn, div_lt_one hn, abs_lt]
    unfold Analog.lead Analog.last
    constructor <;> linarith
  · show |p.2.mid k / p.2.lead k| < 1 + p.2.last k / p.2.lead k
    rw [hsum, abs_div, abs_of_pos hn, div_lt_div_iff_of_pos_right hn, abs_lt]
    unfold Analog.mid
    constructor <;> linarith

/-! ### The response of the transform

At `z = e^(j 2 pi f)`, with `w = tan(pi f)`, the transformed polynomials run through the analog ones on the imaginary
axis, at the frequency `w / k` and up to one common factor. -/

theorem respRe_transform (p : Analog) {k : Rat} (hk : k ≠ 0) (n w : Rat) :
    respRe (p.lead k / n) (p.mid k / n) (p.last k / n) w = 4 * k ^ 2 / n * p.re (w / k) := by
  unfold respRe Analog.lead Analog.mid Analog.last Analog.re
  field_simp
  ring

theorem respIm_transform (p : Analog) (k n w : Rat) :
    respIm (p.lead k / n) (p.last k / n) w = 4 * k ^ 2 / n * p.im (w / k) := by
  unfold respIm Analog.lead Analog.last Analog.im
  field_simp
  ring

/-- At the digital frequency `w`, numerator and denominator of the coefficients have the values of those of an analog
response at the frequency `u`, up to a common factor. -/
structure RespondsAs (c : FiniteCoefs) (w : Rat) (p : Analog × Analog) (u scale : Rat) : Prop where
  numRe : respRe c.a0 c.a1 c.a2 w = scale * p.1.re u
  numIm : respIm c.a0 c.a2 w = scale * p.1.im u
  denRe : respRe 1 c.b1 c.b2 w = scale * p.2.re u
  denIm : respIm 1 c.b2 w = scale * p.2.im u

/-- The common factor of the bilinear transform. -/
def responseScale (p : Analog × Analog) (k : Rat) : Rat := 4 * k ^ 2 / p.2.lead k

theorem bilinear_respondsAs {p : Analog × Analog} (hp : p.2.Positive) {k : Rat} (hk : 0 < k) (w : Rat) :
    RespondsAs (bilinear p k) w p (w / k) (responseScale p k) := by
  have hone : p.2.lead k / p.2.lead k = 1 := div_self (hp.lead_pos hk).ne'
  have hre := respRe_transform p.2 hk.ne' (p.2.lead k) w
  have him := respIm_transform p.2 k (p.2.lead k) w
  rw [hone] at hre him
  exact ⟨respRe_transform p.1 hk.ne' _ w, respIm_transform p.1 k _ w, hre, him⟩

/-- The values at `z = 1`, where `w` is 0. -/
theorem bilinear_dc {p : Analog × Analog} (hp : p.2.Positive) {k : Rat} (hk : 0 < k) :
    let c := bilinear p k
    c.a0 + c.a1 + c.a2 = responseScale p k * p.1.c0 ∧ 1 + c.b1 + c.b2 = responseScale p k * p.2.c0 := by
  have hre : ∀ a : Analog, a.re (0 / k) = a.c0 := fun a => by simp [Analog.re]
  have hsum : ∀ c0 c1 c2 : Rat, respRe c0 c1 c2 0 = c0 + c1 + c2 := fun c0 c1 c2 => by unfold respRe; ring
  obtain ⟨hnum, -, hden, -⟩ := bilinear_respondsAs hp hk 0
  rw [hre, hsum] at hnum hden
  exact ⟨hnum, hden⟩

/-- The values at `z = -1`. -/
theorem bilinear_nyquist {p : Analog × Analog} (hp : p.2.Positive) {k : Rat} (hk : 0 < k) :
    let c := bilinear p k
    c.a0 - c.a1 + c.a2 = 4 / p.2.lead k * p.1.c2 ∧ 1 - c.b1 + c.b2 = 4 / p.2.lead k * p.2.c2 := by
  have hone : p.2.lead k / p.2.lead k = 1 := div_self (hp.lead_pos hk).ne'
  have halt : ∀ (a : Analog) (n : Rat), a.lead k / n - a.mid k / n + a.last k / n = 4 / n * a.c2 := fun a n => by
    unfold Analog.lead Analog.mid Analog.last
    ring
  have hden := halt p.2 (p.2.lead k)
  rw [hone] at hden
  exact ⟨halt p.1 _, hden⟩

/-! ### The analog responses -/

/-- Every analog denominator is positive. -/
theorem analogResponse_positive (typ : BqType) (boost : Bool) {v r2 s2v q : Rat} (hv : 0 < v) (hr : 0 < r2)
    (hs : 0 < s2v) (hq : 0 < q) : (analogResponse typ boost v r2 s2v q).2.Positive := by
  have hresonant : (⟨1, 1 / q, 1⟩ : Analog).Positive := ⟨one_pos, one_div_pos.2 hq, one_pos⟩
  have hflat : (⟨1, r2, 1⟩ : Analog).Positive := ⟨one_pos, hr, one_pos⟩
  cases typ with
  | lowpass | highpass | bandpass | notch => exact hresonant
  | peak =>
    cases boost with
    | true => exact hresonant
    | false => exact ⟨one_pos, div_pos hv hq, one_pos⟩
  | lowshelf =>
    cases boost with
    | true => exact hflat
    | false => exact ⟨one_pos, hs, hv⟩
  | highshelf =>
    cases boost with
    | true => exact hflat
    | false => exact ⟨hv, hs, one_pos⟩

/-- The gain at zero frequency is that of the analog response at `s = 0` (rules R143 to R149). -/
theorem analogResponse_dc (typ : BqType) (boost : Bool) {v : Rat} (hv : v ≠ 0) (r2 s2v q : Rat) :
    (analogResponse typ boost v r2 s2v q).1.c0 =
      dcGain typ boost v * (analogResponse typ boost v r2 s2v q).2.c0 := by
  cases typ with
  | lowpass | highpass | bandpass | notch => simp [analogResponse, dcGain]
  | peak | lowshelf | highshelf =>
    cases boost with
    | true => simp [analogResponse, dcGain]
    | false => simp [analogResponse, dcGain, hv]

/-- The gain at the Nyquist frequency is that of the analog response far above its cutoff (rules R143 to R149). -/
theorem analogResponse_nyquist (typ : BqType) (boost : Bool) {v : Rat} (hv : v ≠ 0) (r2 s2v q : Rat) :
    (analogResponse typ boost v r2 s2v q).1.c2 =
      nyquistSideGain typ boost v * (analogResponse typ boost v r2 s2v q).2.c2 := by
  cases typ with
  | lowpass | highpass | bandpass | notch => simp [analogResponse, nyquistSideGain]
  | peak | lowshelf | highshelf =>
    cases boost with
    | true => simp [analogResponse, nyquistSideGain]
    | false => simp [analogResponse, nyquistSideGain, hv]

/-- The gain at the centre is that of the analog response at `s = j` (rules R145 to R147). -/
theorem analogResponse_centre {typ : BqType} {boost : Bool} {v m : Rat} (hv : v ≠ 0)
    (hm : centreGain typ boost v = some m) (r2 s2v q : Rat) :
    (analogResponse typ boost v r2 s2v q).1.re 1 = m * (analogResponse typ boost v r2 s2v q).2.re 1 ∧
      (analogResponse typ boost v r2 s2v q).1.im 1 = m * (analogResponse typ boost v r2 s2v q).2.im 1 := by
  cases typ with
  | lowpass | highpass | lowshelf | highshelf => cases hm
  | bandpass | notch =>
    cases hm
    simp [analogResponse, Analog.re, Analog.im]
  | peak =>
    cases hm
    cases boost with
    | true => simp [analogResponse, Analog.re, Analog.im, div_eq_mul_inv]
    | false => simp [analogResponse, Analog.re, Analog.im, div_eq_mul_inv, hv]

/-! ### The design equations are bilinear transforms (rules R143 to R149, R151) -/

/-- The form in which rules R147 to R149 print the gain types: numerator `c + m + d` and denominator `c' + m' + d'`, each
with the signs of its three coefficients. -/
def printedForm (f : FloatFmt) (c m d c' m' d' : RealVal) : Coefs :=
  let n := fDiv f (.num 1) (shelfSum f c' m' d')
  ⟨fMul f (shelfSum f c m d) n, twiceDiff f d c n, fMul f (shelfDiff f c m d) n, twiceDiff f d' c' n,
    fMul f (shelfDiff f c' m' d') n⟩

theorem printedForm_bilinear {f : FloatFmt} (hf : Exact f) (p : Analog × Analog) {k m d m' d' : Rat}
    (hn : p.2.lead k ≠ 0) (hm : m = p.1.c1 * k) (hd : d = p.1.c0 * k ^ 2) (hm' : m' = p.2.c1 * k)
    (hd' : d' = p.2.c0 * k ^ 2) :
    printedForm f (.num p.1.c2) (.num m) (.num d) (.num p.2.c2) (.num m') (.num d') =
      fmtCoefs realsFmt (bilinear p k) := by
  subst hm hd hm' hd'
  have hn' : p.2.c2 + p.2.c1 * k + p.2.c0 * k ^ 2 ≠ 0 := hn
  simp only [printedForm, shelfSum, shelfDiff, twiceDiff, fAdd_exact hf, fSub_exact hf, fMul_exact hf,
    fDiv_exact hf _ hn']
  apply coefs_eq_num <;> simp only [bilinear, Analog.lead, Analog.mid, Analog.last] <;> ring

/-- The types that ignore the gain (rules R143 to R146). -/
theorem passDesign_bilinear {f : FloatFmt} (hf : Exact f) {typ : BqType} {k q : Rat} (hk : 0 < k) (hq : 0 < q)
    (htyp : typ = .lowpass ∨ typ = .highpass ∨ typ = .bandpass ∨ typ = .notch) (boost : Bool) (v r2 s2v : Rat) :
    passDesign f typ ⟨.num k, .num v, .num r2, .num s2v, .num q⟩ =
      fmtCoefs realsFmt (bilinear (analogResponse typ boost v r2 s2v q) k) := by
  have hn : 1 + k / q + k * k ≠ 0 := by positivity
  rcases htyp with rfl | rfl | rfl | rfl
  all_goals
    simp only [passDesign, onePlus, oneMinus, twiceDiff, fAdd_exact hf, fSub_exact hf, fMul_exact hf,
      fDiv_exact hf _ hq.ne', fDiv_exact hf _ hn]
    apply coefs_eq_num <;> simp only [bilinear, analogResponse, Analog.lead, Analog.mid, Analog.last] <;> ring

/-- Below Nyquist the reference design is the bilinear transform of the analog response of its type. -/
theorem designBelowNyquist_bilinear {f : FloatFmt} (hf : Exact f) (typ : BqType) (boost : Bool) {k v r2 s2v q : Rat}
    (hk : 0 < k) (hv : 0 < v) (hr : 0 < r2) (hs : 0 < s2v) (hq : 0 < q) :
    designBelowNyquist f typ boost ⟨.num k, .num v, .num r2, .num s2v, .num q⟩ =
      fmtCoefs realsFmt (bilinear (analogResponse typ boost v r2 s2v q) k) := by
  have hn := ((analogResponse_positive typ boost hv hr hs hq).lead_pos hk).ne'
  have h1 : k * k = 1 * k ^ 2 := by ring
  have hkk : fMul f (.num k) (.num k) = .num (k * k) := fMul_exact hf k k
  have hsk : fMul f (.num s2v) (.num k) = .num (s2v * k) := fMul_exact hf s2v k
  have hrk : fMul f (.num r2) (.num k) = .num (r2 * k) := fMul_exact hf r2 k
  cases typ with
  | lowpass => exact passDesign_bilinear hf hk hq (.inl rfl) boost v r2 s2v
  | highpass => exact passDesign_bilinear hf hk hq (.inr (.inl rfl)) boost v r2 s2v
  | bandpass => exact passDesign_bilinear hf hk hq (.inr (.inr (.inl rfl))) boost v r2 s2v
  | notch => exact passDesign_bilinear hf hk hq (.inr (.inr (.inr rfl))) boost v r2 s2v
  | peak =>
    have hkq : fDiv f (.num k) (.num q) = .num (k / q) := fDiv_exact hf k hq.ne'
    have hvqk : fMul f (fDiv f (.num v) (.num q)) (.num k) = .num (v / q * k) := by
      rw [fDiv_exact hf v hq.ne', fMul_exact hf]
    have hq1 : k / q = 1 / q * k := by ring
    simp only [designBelowNyquist, peakDesign, hkk, hkq, hvqk]
    cases boost with
    | true => exact printedForm_bilinear hf (⟨1, v / q, 1⟩, ⟨1, 1 / q, 1⟩) hn rfl h1 hq1 h1
    | false => exact printedForm_bilinear hf (⟨1, 1 / q, 1⟩, ⟨1, v / q, 1⟩) hn hq1 h1 rfl h1
  | lowshelf =>
    have hvkk : fMul f (fMul f (.num v) (.num k)) (.num k) = .num (v * k * k) := by simp only [fMul_exact hf]
    have hv2 : v * k * k = v * k ^ 2 := by ring
    simp only [designBelowNyquist, lowshelfDesign, hkk, hsk, hrk, hvkk]
    cases boost with
    | true => exact printedForm_bilinear hf (⟨1, s2v, v⟩, ⟨1, r2, 1⟩) hn rfl hv2 rfl h1
    | false => exact printedForm_bilinear hf (⟨1, r2, 1⟩, ⟨1, s2v, v⟩) hn rfl h1 rfl hv2
  | highshelf =>
    simp only [designBelowNyquist, highshelfDesign, hkk, hsk, hrk]
    cases boost with
    | true => exact printedForm_bilinear hf (⟨v, s2v, 1⟩, ⟨1, r2, 1⟩) hn rfl h1 rfl h1
    | false => exact printedForm_bilinear hf (⟨1, r2, 1⟩, ⟨v, s2v, 1⟩) hn rfl h1 rfl h1

/-! ### The reference design over the reals (rules R134, R151) -/

/-- The reference design below Nyquist, with the model's values of the common terms (rule R135, assumption log 3). -/
theorem refDesign_bilinear (typ : BqType) {fc q : Rat} (g : Rat) (h0 : 0 < fc) (h1 : fc < 1 / 2) (hq : 0 < q) :
    ∃ k v r2 s2v : Rat, tanPi realsFmt fc = .num k ∧ decibel realsFmt g = .num v ∧
      fSqrt realsFmt (.num 2) = .num r2 ∧ fSqrt realsFmt (.num (2 * v)) = .num s2v ∧
      0 < k ∧ 0 < v ∧ (analogResponse typ (decide (0 ≤ g)) v r2 s2v q).2.Positive ∧
      refDesign realsFmt typ fc q g =
        fmtCoefs realsFmt (bilinear (analogResponse typ (decide (0 ≤ g)) v r2 s2v q) k) := by
  obtain ⟨k, v, r2, s2v, hterms, htan, hdb, hr2, hs2v, hk, hv1, hr, hs⟩ := designTerms_reals fc q g h0 h1
  have hv : 0 < v := by linarith
  refine ⟨k, v, r2, s2v, htan, hdb, hr2, hs2v, hk, hv, analogResponse_positive typ _ hv hr hs hq, ?_⟩
  unfold refDesign
  rw [if_neg h1.ne, hterms, designBelowNyquist_bilinear exact_finiteReals typ _ hk hv hr hs hq]

/-- Property (i): the response and its gains are those of the analog response. -/
theorem refDesign_namedResponse : DesignNamedResponse realsFmt (refDesign realsFmt) := by
  intro typ fc q g h0 h1 hq
  obtain ⟨k, v, r2, s2v, htan, hdb, hr2, hs2v, hk, hv, hpos, hdesign⟩ := refDesign_bilinear typ g h0 h1 hq
  obtain ⟨hdcNum, hdcDen⟩ := bilinear_dc hpos hk
  obtain ⟨hnyNum, hnyDen⟩ := bilinear_nyquist hpos hk
  have hscale : 0 < responseScale (analogResponse typ (decide (0 ≤ g)) v r2 s2v q) k :=
    div_pos (by positivity) (hpos.lead_pos hk)
  have hnyScale : 0 < 4 / (analogResponse typ (decide (0 ≤ g)) v r2 s2v q).2.lead k :=
    div_pos four_pos (hpos.lead_pos hk)
  have hresponse := bilinear_respondsAs hpos hk
  obtain ⟨hc2, -, hc0⟩ := hpos
  refine ⟨k, v, r2, s2v, _, _, _, _, _, htan, hk, hdb, hr2, hs2v, hdesign, fun w => ?_, ?_, ?_, ?_, ?_,
    fun m hm => ?_⟩
  · obtain ⟨numRe, numIm, denRe, denIm⟩ := hresponse w
    rw [numRe, numIm, denRe, denIm]
    constructor <;> ring
  · rw [hdcDen]
    exact (mul_pos hscale hc0).ne'
  · rw [hdcNum, hdcDen, analogResponse_dc typ _ hv.ne']
    ring
  · rw [hnyDen]
    exact (mul_pos hnyScale hc2).ne'
  · rw [hnyNum, hnyDen, analogResponse_nyquist typ _ hv.ne']
    ring
  · obtain ⟨numRe, numIm, denRe, denIm⟩ := hresponse k
    obtain ⟨hre, him⟩ := analogResponse_centre hv.ne' hm r2 s2v q
    rw [div_self hk.ne'] at numRe numIm denRe denIm
    rw [numRe, numIm, denRe, denIm, hre, him]
    constructor <;> ring

/-- Property (ii): the numerator of a low-pass is 1. -/
theorem refDesign_lowpassMagnitude : DesignLowpassMagnitude realsFmt (refDesign realsFmt) := by
  intro fc q g h0 h1 hq
  obtain ⟨k, v, r2, s2v, htan, -, -, -, hk, -, hpos, hdesign⟩ := refDesign_bilinear .lowpass g h0 h1 hq
  refine ⟨k, _, _, _, _, _, htan, hk, hdesign, fun w => ?_⟩
  obtain ⟨numRe, numIm, denRe, denIm⟩ := bilinear_respondsAs hpos hk w
  rw [numRe, numIm, denRe, denIm]
  simp only [analogResponse, Analog.re, Analog.im]
  ring

/-- A pure gain at rest multiplies every sample. -/
theorem stageRun_pureGain {st : Stage} {g : Rat} (hrest : AtRest st) (hc : st.coefs = fmtCoefs realsFmt (pureGain g))
    (xs : List Rat) : stageRun realsFmt st (xs.map .num) = (xs.map (g * ·)).map .num := by
  induction xs with
  | nil => rfl
  | cons x xs ih => simp only [List.map_cons, stageRun, processStage_pureGain hrest hc, ih]

/-- At Nyquist the reference design is a pure gain (rule R150). -/
theorem refDesign_nyquist (typ : BqType) (q g : Rat) :
    ∃ m : Rat, refDesign realsFmt typ (1 / 2) q g = fmtCoefs realsFmt (pureGain m) := by
  obtain ⟨-, v, -, -, -, -, hdb, -, -, -, hv, -, -⟩ := designTerms_reals (1 / 4) q g (by norm_num) (by norm_num)
  unfold refDesign
  rw [if_pos rfl, hdb]
  exact ⟨_, designAtNyquist_pureGain exact_finiteReals typ _ (by linarith)⟩

/-- Property (iii): a bounded input times a gain is bounded. -/
theorem refDesign_stableAtNyquist : DesignStableAtNyquist realsFmt (refDesign realsFmt) := by
  intro typ q g _
  obtain ⟨m, hm⟩ := refDesign_nyquist typ q g
  refine ⟨|m|, fun st xs bound hrest hc hbound =>
    ⟨xs.map (m * ·), stageRun_pureGain hrest (hc.trans hm) xs, fun y hy => ?_⟩⟩
  obtain ⟨x, hx, rfl⟩ := List.mem_map.1 hy
  rw [abs_mul]
  exact mul_le_mul_of_nonneg_left (hbound x hx) (abs_nonneg m)

/-- The coefficients of the reference design are numbers in every format (rule R152). -/
theorem refDesign_finite (f : FloatFmt) (typ : BqType) (fc q g : Rat) : ∃ a0 a1 a2 b1 b2 : Rat,
    refDesign f typ fc q g = ⟨.num a0, .num a1, .num a2, .num b1, .num b2⟩ := by
  obtain ⟨⟨a0, h0⟩, ⟨a1, h1⟩, ⟨a2, h2⟩, ⟨b1, h3⟩, ⟨b2, h4⟩⟩ := refDesign_isNum f typ fc q g
  exact ⟨a0, a1, a2, b1, b2, by rw [← h0, ← h1, ← h2, ← h3, ← h4]⟩

/-- Settles O15: below Nyquist the design is the bilinear transform of an analog response with a positive denominator,
at Nyquist a pure gain. -/
theorem referenceDesignIsStable : Obligations.ReferenceDesignIsStable := by
  unfold Obligations.ReferenceDesignIsStable
  refine ⟨?_, ?_, ⟨refDesign_namedResponse, refDesign_lowpassMagnitude, refDesign_stableAtNyquist⟩, refDesign_finite⟩
  · intro typ boost k v r2 s2v q hk hv hr hs hq
    rw [designBelowNyquist_bilinear exact_reals typ boost hk hv hr hs hq]
    exact stableCoefs_bilinear (analogResponse_positive typ boost hv hr hs hq) hk
  · intro typ fc q g h0 h1 hq
    obtain ⟨k, v, r2, s2v, -, -, -, -, hk, -, hpos, hdesign⟩ := refDesign_bilinear typ g h0 h1 hq
    rw [hdesign]
    exact stableCoefs_bilinear hpos hk

end Sys2Proof.Machine

/-! # The Q table, the refused builds, and the filters after a rebuild

Settles O16, O17 and O41. -/

namespace Sys2Proof.Machine

open Sys2Proof

/-! ### O16: the triangular table (rules R160, R161) -/

/-- The sub-sequences of the orders 1 .. `n`, in order. -/
def qvalRows (f : FloatFmt) : Nat → List RealVal
  | 0 => []
  | n + 1 => qvalRows f n ++ qvalRow f (n + 1)

theorem qvalTable_eq_qvalRows (f : FloatFmt) : qvalTable f = qvalRows f 8 := rfl

theorem triangular_succ (n : Nat) : triangular (n + 1) = triangular n + (n + 1) := by
  have hsucc := Nat.triangle_succ (n + 1)
  simp only [Nat.add_sub_cancel] at hsucc
  rw [triangular, triangular, Nat.mul_comm, hsucc, Nat.mul_comm n]

theorem qvalRows_length (f : FloatFmt) (n : Nat) : (qvalRows f n).length = triangular n := by
  induction n with
  | zero => rfl
  | succ n ih => simp [qvalRows, qvalRow, ih, triangular_succ]

/-- The sub-sequence of order `c + 1` starts at offset `T(c)` (rule R160). -/
theorem qvalRows_getElem? (f : FloatFmt) {n c i : Nat} (hc : c < n) (hi : i ≤ c) :
    (qvalRows f n)[triangular c + i]? = some (qval f (c + 1) i) := by
  induction n with
  | zero => omega
  | succ n ih =>
    unfold qvalRows
    rcases Nat.lt_succ_iff_lt_or_eq.1 hc with hlt | rfl
    · have hsome := ih hlt
      rw [List.getElem?_append_left (List.getElem?_eq_some_iff.1 hsome).1, hsome]
    · rw [← qvalRows_length f c, List.getElem?_append_right (Nat.le_add_right _ _), Nat.add_sub_cancel_left]
      simp [qvalRow, Nat.lt_succ_of_le hi]

theorem qvalTable_getElem? (f : FloatFmt) {c i : Nat} (h1 : 1 ≤ c) (h8 : c ≤ 8) (hi : i < c) :
    (qvalTable f)[c * (c - 1) / 2 + i]? = some (qval f c i) := by
  obtain ⟨c, rfl⟩ := Nat.exists_eq_add_of_le' h1
  rw [Nat.add_sub_cancel, Nat.mul_comm, qvalTable_eq_qvalRows]
  exact qvalRows_getElem? f (by omega) (by omega)

/-- Settles O16: the rows stand at the triangular offsets, and each of their entries is positive. -/
theorem qTableInitFillsTheTable : Obligations.QTableInitFillsTheTable := by
  unfold Obligations.QTableInitFillsTheTable
  intro s
  refine ⟨qtabInit s, rfl, rfl, qvalTable_length _, fun c i h1 h8 hi => ?_⟩
  obtain ⟨q, hq, hpos⟩ := qval_pos s.hw.floatFmt h1 h8 hi
  refine ⟨q, hpos, ?_, hq.symm⟩
  rw [← hq]
  exact qvalTable_getElem? (floatFmt s) h1 h8 hi

/-! ### O17: the refusals of a build (rules R165 to R167) -/

/-- When `build` refuses at once: the sample rate, the frequency or the gain is not usable (rule R166). -/
theorem badParams_iff (freq gain : RealVal) (sr : Nat) : badParams freq gain sr = true ↔
    sr = 0 ∨ (∀ q, freq ≠ .num q) ∨ (∃ q, freq = .num q ∧ q ≤ 0) ∨ ∀ g, gain ≠ .num g := by
  cases freq with
  | num q =>
    cases gain with
    | num g => simp [badParams, realFinite?]
    | posInf | negInf | nan => simp [badParams, realFinite?]
  | posInf | negInf | nan => simp [badParams, realFinite?]

/-- Order 1 refuses a Q that is not a positive finite number (rule R167). -/
theorem chooseQ_one_refused (qtab : List RealVal) {q : RealVal} (b : Band) (h : ∀ v, q = .num v → v ≤ 0) :
    chooseQ qtab 1 q b = ([.configOutOfRange (.badParam b)], none) := by
  cases q with
  | num v => simp [chooseQ, realFinite?, h v rfl]
  | posInf | negInf | nan => rfl

/-- A build of order 1 refused for its Q logs the clamps before it (rules R166, R167, R376). -/
theorem buildPlan_refusedQ (f : FloatFmt) (qtab : List RealVal) {b : Band} {freq q gain : RealVal} {order : BitVec 8}
    {sr : Nat} (hgood : badParams freq gain sr = false) (horder : b = .bp ∨ b = .hp ∨ b = .lp → order.toNat ≤ 1)
    (hq : ∀ v, q = .num v → v ≤ 0) :
    buildPlan f qtab (bandType b) freq q gain order.toNat sr b =
      ((if realAbove (fDiv f freq (.num (f.ofNat sr))) (1 / 2) then [.configOutOfRange (.nyquistClamp b)] else []) ++
        (if (b = .bp ∨ b = .hp ∨ b = .lp) ∧ order = 0 then [.configOutOfRange (.orderClamp b)] else []) ++
        [.configOutOfRange (.badParam b)], none) := by
  have hone : builtOrder b order.toNat = 1 := by
    unfold builtOrder
    split
    · next hpass => have := horder hpass; omega
    · rfl
  have hclamp : (b = .bp ∨ b = .hp ∨ b = .lp) ∧ (order.toNat < 1 ∨ 8 < order.toNat) ↔
      (b = .bp ∨ b = .hp ∨ b = .lp) ∧ order = 0 :=
    and_congr_right fun hpass => by have := horder hpass; bv_omega
  have hcutoff : (clampCutoff (fDiv f freq (.num (f.ofNat sr))) b).1 =
      if realAbove (fDiv f freq (.num (f.ofNat sr))) (1 / 2) then [.configOutOfRange (.nyquistClamp b)] else [] := by
    unfold clampCutoff
    split <;> rfl
  rcases buildPlan_cases f qtab (bandType b) freq q gain order.toNat sr b with ⟨hbad, _⟩ | ⟨_, hplan⟩
  · rw [hgood] at hbad
    cases hbad
  · rw [hplan, clampOrder_bandType]
    dsimp only
    rw [hone, chooseQ_one_refused qtab b hq, hcutoff, if_congr hclamp rfl rfl]
    rfl

/-- The build of a disabled band leaves its cascade empty (rule R165). -/
theorem builtCascade_disabled (f : FloatFmt) (d : DesignFn) {act : CfgRegs} (qtab : List RealVal) {b : Band}
    (old : Cascade) (hen : bandEn act b = false) : builtCascade f d act qtab b old = ([], { old with nst := 0 }) := by
  simp [builtCascade, hen]

/-- A refused build leaves the cascade empty (rules R165, R372). -/
theorem builtCascade_refused {f : FloatFmt} (d : DesignFn) {act : CfgRegs} {qtab : List RealVal} {b : Band}
    (old : Cascade) {log : List LogRecord} (hen : bandEn act b = true)
    (hplan : buildPlan f qtab (bandType b) (bandGet act.bands b).freq (bandGet act.bands b).q (bandGet act.bands b).gain
      (bandGet act.bands b).order.toNat act.sampleRate.toNat b = (log, none)) :
    builtCascade f d act qtab b old = (log, { old with nst := 0 }) := by
  simp [builtCascade, hen, hplan]

/-- `BUILD_CASCADE` from the cascade it builds and the conditions it raises: the whole next state (rule R165). -/
theorem buildCascadeOf_eq {s : State} {b : Band} {log : List LogRecord} {c : Cascade}
    (h : builtCascade (floatFmt s) (designFn s) s.act (readableQtab s) b (bandGet (shadowBank s) b) = (log, c)) :
    buildCascadeOf s b =
      { setShadowCascade s b c with ports := { s.ports with log := s.ports.log ++ log } } := by
  obtain ⟨hcascade, hlog⟩ := buildCascadeOf_built h
  rw [buildCascadeOf_frame, hcascade, hlog]

/-- Settles O17: a disabled band raises nothing, and each refusal raises what its plan logs. -/
theorem buildLeavesAnEmptyCascade : Obligations.BuildLeavesAnEmptyCascade := by
  unfold Obligations.BuildLeavesAnEmptyCascade
  intro s band b hb f r emptied pass
  rw [exec_buildCascade hb]
  have hrate : s.act.sampleRate.toNat = 0 ↔ s.act.sampleRate = 0 := by bv_omega
  refine ⟨fun hoff => ?_, fun hen hbad => ?_, fun hen hsr hfreq hgain horder hq => ?_⟩
  · rw [buildCascadeOf_eq (builtCascade_disabled _ _ _ _ hoff), List.append_nil, ← setShadowCascade_ports s b]
  · have hrefused : badParams r.freq r.gain s.act.sampleRate.toNat = true :=
      (badParams_iff _ _ _).2 (hbad.imp_left hrate.2)
    rw [buildCascadeOf_eq (builtCascade_refused _ _ hen (if_pos hrefused))]
  · have hgood : badParams r.freq r.gain s.act.sampleRate.toNat = false := by
      obtain ⟨q, hq, hpos⟩ := hfreq
      obtain ⟨g, hg⟩ := hgain
      rw [Bool.eq_false_iff, Ne, badParams_iff, hrate]
      simpa [hq, hg, hpos] using hsr
    rw [buildCascadeOf_eq (builtCascade_refused _ _ hen (buildPlan_refusedQ f _ hgood horder hq)), List.append_assoc,
      List.append_assoc, List.append_assoc]

/-! ### O41: the banks after a rebuild (rules R176, R177) -/

/-- Every stage in use is at rest. -/
def CascadeAtRest (c : Cascade) : Prop := ∀ k : Fin 10, k.val < c.nst → AtRest c.stages[k]

theorem buildCascadeOf_atRest (s : State) (b : Band) : CascadeAtRest (bandGet (shadowBank (buildCascadeOf s b)) b) := by
  rw [(buildCascadeOf_built rfl).1]
  exact builtCascade_at_rest _ _ _ _ _ _

/-- A build leaves the shadow cascades of the other bands alone (rule R165). -/
theorem buildCascadeOf_other (s : State) {a b : Band} (h : b ≠ a) :
    bandGet (shadowBank (buildCascadeOf s b)) a = bandGet (shadowBank s) a := by
  show bandGet (shadowBank (setShadowCascade s b _)) a = _
  rw [shadowBank_setShadowCascade, bandGet_bandSet_ne _ _ h]

/-- After a series of builds the cascade of a band that was built, or was at rest before, is at rest. -/
theorem buildAll_atRest (bs : List Band) (s : State) {a : Band}
    (h : a ∈ bs ∨ CascadeAtRest (bandGet (shadowBank s) a)) :
    CascadeAtRest (bandGet (shadowBank (bs.foldl buildCascadeOf s)) a) := by
  induction bs generalizing s with
  | nil => exact h.resolve_left List.not_mem_nil
  | cons b bs ih =>
    apply ih
    by_cases hba : b = a
    · subst hba
      exact .inr (buildCascadeOf_atRest s b)
    · rw [buildCascadeOf_other s hba]
      exact h.imp_left fun hmem => (List.mem_cons.1 hmem).resolve_left (Ne.symm hba)

theorem activeBank_buildAll (bs : List Band) (s : State) : activeBank (bs.foldl buildCascadeOf s) = activeBank s := by
  induction bs generalizing s with
  | nil => rfl
  | cons b bs ih => exact (ih _).trans (activeBank_buildCascadeOf s b)

theorem buildAll_ctl (bs : List Band) (s : State) : (bs.foldl buildCascadeOf s).ctl = s.ctl := by
  induction bs generalizing s with
  | nil => rfl
  | cons b bs ih =>
    refine (ih _).trans ?_
    rw [buildCascadeOf_fields]

/-- Both banks are the same, and so is the bit that says which of them is active (rule R23). -/
structure SameBanks (s t : State) : Prop where
  bank0 : t.bank0 = s.bank0
  bank1 : t.bank1 = s.bank1
  bank : t.ctl.bank = s.ctl.bank

theorem SameBanks.refl (s : State) : SameBanks s s := ⟨rfl, rfl, rfl⟩

theorem SameBanks.trans {s t u : State} (h : SameBanks s t) (h' : SameBanks t u) : SameBanks s u :=
  ⟨h'.bank0.trans h.bank0, h'.bank1.trans h.bank1, h'.bank.trans h.bank⟩

theorem SameBanks.activeBank_eq {s t : State} (h : SameBanks s t) : activeBank t = activeBank s := by
  simp only [activeBank, h.bank0, h.bank1, h.bank]

theorem SameBanks.shadowBank_eq {s t : State} (h : SameBanks s t) : shadowBank t = shadowBank s := by
  simp only [shadowBank, h.bank0, h.bank1, h.bank]

theorem rmTableGen_sameBanks (s : State) : SameBanks s (rmTableGen s) := by
  rw [rmTableGen_frame]
  exact ⟨rfl, rfl, rfl⟩

theorem doIf_sameBanks {f : State → State} (h : ∀ s, SameBanks s (f s)) (c : Bool) (s : State) :
    SameBanks s (doIf c f s) :=
  doIf_rel (h s) (.refl s)

/-- A rebuild leaves the banks as the builds and the swap leave them (rule R320). -/
theorem taskRebuild_sameBanks (s : State) :
    SameBanks (cascadeSwap (Band.all.foldl buildCascadeOf (snapshotConfig s))) (taskRebuild s) :=
  ((doIf_sameBanks rmTableGen_sameBanks _ _).trans
    (doIf_sameBanks (f := pvInit) (fun _ => ⟨rfl, rfl, rfl⟩) _ _)).trans ⟨rfl, rfl, rfl⟩

/-- The bank a rebuild makes active is the one it built. -/
theorem activeBank_taskRebuild (s : State) :
    activeBank (taskRebuild s) = shadowBank (Band.all.foldl buildCascadeOf (snapshotConfig s)) :=
  (taskRebuild_sameBanks s).activeBank_eq.trans (activeBank_cascadeSwap _)

/-- The bank that was active is the shadow bank after a rebuild, unchanged (rule R177). -/
theorem shadowBank_taskRebuild (s : State) : shadowBank (taskRebuild s) = activeBank s :=
  calc shadowBank (taskRebuild s)
    _ = shadowBank (cascadeSwap (Band.all.foldl buildCascadeOf (snapshotConfig s))) :=
      (taskRebuild_sameBanks s).shadowBank_eq
    _ = activeBank (Band.all.foldl buildCascadeOf (snapshotConfig s)) := shadowBank_cascadeSwap _
    _ = activeBank s := activeBank_buildAll _ _

theorem taskRebuild_bank (s : State) : (taskRebuild s).ctl.bank = !s.ctl.bank := by
  rw [(taskRebuild_sameBanks s).bank]
  show (!(Band.all.foldl buildCascadeOf (snapshotConfig s)).ctl.bank) = _
  rw [buildAll_ctl]
  rfl

theorem mem_bandAll (b : Band) : b ∈ Band.all := by cases b <;> decide

/-- Settles O41: each band's new cascade is built at rest in the shadow bank, which the swap makes active. -/
theorem rebuildRestartsEveryFilter : Obligations.RebuildRestartsEveryFilter := by
  unfold Obligations.RebuildRestartsEveryFilter
  intro s
  refine ⟨taskRebuild s, rfl, fun b => ?_, shadowBank_taskRebuild s, ?_⟩
  · rw [activeBank_taskRebuild]
    exact buildAll_atRest Band.all _ (.inl (mem_bandAll b))
  · rw [← taskRebuild_bank s]
    exact taskRebuild_rel s

end Sys2Proof.Machine

/-! # The oscillator: the tone table and the ring modulation

Settles O22 and O23. -/

namespace Sys2Proof.Machine

open Sys2Proof

/-! ### O22: the table (rules R190, R191) -/

theorem sineTable_length (f : FloatFmt) (amp len : Nat) : (sineTable f amp len).length = len := by
  simp only [sineTable, List.length_map, List.length_range]

theorem sineTable_getElem? (f : FloatFmt) (amp : Nat) {len k : Nat} (h : k < len) :
    (sineTable f amp len)[k]? = some (sineEntry f amp len k) := by
  rw [sineTable, List.getElem?_map, List.getElem?_range h, Option.map_some]

/-- The tone memory with a new table of length `len` written over its front. -/
def writeTable (f : FloatFmt) (amp len : Nat) (old : List S16) : List S16 := sineTable f amp len ++ old.drop len

theorem writeTable_entry (f : FloatFmt) (amp : Nat) {len k : Nat} (old : List S16) (h : k < len) :
    (writeTable f amp len old)[k]? = some (sineEntry f amp len k) := by
  rw [writeTable, List.getElem?_append_left (by rwa [sineTable_length]), sineTable_getElem? f amp h]

theorem writeTable_kept (f : FloatFmt) (amp : Nat) {len k : Nat} (old : List S16) (h : len ≤ k) :
    (writeTable f amp len old)[k]? = old[k]? := by
  rw [writeTable, List.getElem?_append_right (by rwa [sineTable_length]), sineTable_length, List.getElem?_drop,
    Nat.add_sub_cancel' h]

/-- No entry of the new table is above the amplitude in magnitude (rule R190). -/
theorem writeTable_le (c : FloatChoice) {amp len k : Nat} (old : List S16) (hamp : amp ≤ 32767) (hk : k < len) :
    |((writeTable (fmtOf c) amp len old).getD k 0).toInt| ≤ amp := by
  rw [List.getD_eq_getElem?_getD, writeTable_entry _ _ _ hk, Option.getD_some]
  exact sineEntry_le c hamp len k

/-- A legal setting: the table is written, and the setting, the length, phase 0 and the usable bit are recorded. -/
theorem rmTableGen_legal {s : State}
    (h : rmLegal s.hw.rmTableMax s.act.sampleRate s.act.toneFreq s.act.toneAmp = true) :
    rmTableGen s = { s with
      rmSr := s.act.sampleRate, rmFreq := s.act.toneFreq, rmAmp := s.act.toneAmp, rmValid := true
      rmLen := toneLen s.act.sampleRate s.act.toneFreq, rmPhase := 0
      sine := writeTable (floatFmt s) s.act.toneAmp.toNat (toneLen s.act.sampleRate s.act.toneFreq) s.sine } :=
  if_pos h

/-- Any other setting: it is recorded, the table is unusable, and the refusal is logged (rules R191, R372). -/
theorem rmTableGen_refused {s : State}
    (h : ¬rmLegal s.hw.rmTableMax s.act.sampleRate s.act.toneFreq s.act.toneAmp = true) :
    rmTableGen s = raise { s with
      rmSr := s.act.sampleRate, rmFreq := s.act.toneFreq, rmAmp := s.act.toneAmp, rmValid := false
      rmLen := 0, rmPhase := 0 } (.configOutOfRange .toneTable) :=
  if_neg h

/-- Settles O22: the check of R191 decides, and the table of a legal setting is made of entries that the amplitude
bounds. -/
theorem toneTableGeneratedOrRefused : Obligations.ToneTableGeneratedOrRefused := by
  unfold Obligations.ToneTableGeneratedOrRefused
  intro s sr fr amp len legal
  have hcheck : rmLegal s.hw.rmTableMax sr fr amp = true ↔ legal := decide_eq_true_iff
  constructor
  · intro hillegal
    exact congrArg Host.Outcome.next (rmTableGen_refused (mt hcheck.1 hillegal))
  · intro hlegal
    have ⟨_, _, hamp, _, _⟩ := hlegal
    exact ⟨_, congrArg Host.Outcome.next (rmTableGen_legal (hcheck.2 hlegal)), rfl,
      fun k hk => writeTable_entry _ _ _ hk, fun k hk => writeTable_le _ _ hamp hk,
      fun k hk => writeTable_kept _ _ _ hk⟩

/-! ### O23: the product with the table (rules R195, R196) -/

/-- One sample is the saturated truncated quotient, whatever the amplitude (rule R195). -/
theorem rmSample_toInt (x entry : S16) (amp : BitVec 16) :
    (rmSample x entry amp).toInt = clampS16 (Int.tdiv (x.toInt * entry.toInt) amp.toNat) :=
  sat16_toInt _

theorem rmBlock_unusable {s : State} (h : s.rmValid = false) : rmBlock s = s := if_neg (by simp [h])

theorem rmBlock_usable {s : State} (h : s.rmValid = true) :
    rmBlock s = { s with
      wb := (rmLoop s.sine s.rmLen s.rmAmp s.rmPhase s.wb).1
      rmPhase := (rmLoop s.sine s.rmLen s.rmAmp s.rmPhase s.wb).2 } :=
  if_pos h

/-- Settles O23: the loop's own specification, read on the block and the table. -/
theorem ringModulationMultipliesByTheTable : Obligations.RingModulationMultipliesByTheTable := by
  unfold Obligations.RingModulationMultipliesByTheTable
  intro s
  refine ⟨fun hoff => congrArg Host.Outcome.next (rmBlock_unusable hoff), fun hvalid hphase => ?_⟩
  obtain ⟨hlength, hlast, hsample⟩ :=
    rmLoop_spec s.sine s.rmLen s.rmAmp (Nat.zero_lt_of_lt hphase) s.wb s.rmPhase hphase
  refine ⟨_, congrArg Host.Outcome.next (rmBlock_usable hvalid), ?_, hlength, fun i hi => ?_⟩
  · rw [hlast]
  · dsimp only
    rw [hsample i hi, rmSample_toInt]

end Sys2Proof.Machine

/-! # The reverb: the delayed feedback and the empty line

Settles O24 and O25. -/

namespace Sys2Proof.Machine

open Sys2Proof

/-! ### One sample (rule R210) -/

/-- One sample is the saturated sum of the input and the truncated quotient, whatever the divisor. -/
theorem rvSample_toInt (g : Int) (x d : S16) : (rvSample g x d).toInt = clampS16 (x.toInt + Int.tdiv d.toInt g) :=
  sat16_toInt _

/-- A sample by itself is in the range already, so the saturation keeps it. -/
theorem clampS16_toInt (x : S16) : clampS16 x.toInt = x.toInt := by
  rw [clampS16, min_eq_right (s16_le x), max_eq_right (s16_ge x)]

/-- Silence in the line adds nothing, whatever the decay (rule R216). -/
theorem rvSample_zero (g : Int) (x : S16) : rvSample g x 0 = x := by
  apply BitVec.eq_of_toInt_eq
  rw [rvSample_toInt, show (0 : S16).toInt = 0 from rfl, Int.zero_tdiv, add_zero, clampS16_toInt]

/-! ### O24: the delayed feedback (rules R210, R211, R214) -/

/-- Settles O24: the loop's own specification, read on the block and the line. -/
theorem reverbAddsTheDelayedOutput : Obligations.ReverbAddsTheDelayedOutput := by
  unfold Obligations.ReverbAddsTheDelayedOutput
  intro s hline htap
  obtain ⟨hlast, hsample, hwritten, hkept⟩ :=
    rvLoop_spec (decayDivisor s.act) s.hw.reverbLen s.hw.reverbLen.pos s.wb s.dl s.rvTap hline htap
  refine ⟨rvBlock s, rfl, ?_, rvLoop_length _ _ _ _ _, (rvLoop_line_length _ _ _ _ _).trans hline, fun i hi => ?_,
    hwritten, hkept⟩
  · rw [← hlast]
    rfl
  · rw [rvBlock_wb, hsample i hi, rvSample_toInt]
    rfl

/-! ### O25: the empty line (rule R216) -/

/-- Until the tap comes round, the loop finds only silence in an empty line and returns its input. -/
theorem rvLoop_empty_take (g : Int) {len : Nat} (hl : 0 < len) (xs : List S16) :
    (rvLoop g len (List.replicate len 0) 0 xs).1.take len = xs.take len := by
  obtain ⟨-, hsample, -, -⟩ := rvLoop_spec g len hl xs _ 0 List.length_replicate hl
  apply List.ext_getElem
  · rw [List.length_take, List.length_take, rvLoop_length]
  · intro i hout hin
    obtain ⟨hi, hix⟩ := lt_min_iff.1 (List.length_take ▸ hin)
    have hsilent := hsample i hix
    rw [if_pos hi, List.getD_replicate (h := Nat.mod_lt _ hl), rvSample_zero] at hsilent
    rwa [List.getElem_take, List.getElem_take, ← List.getD_eq_getElem _ 0, ← List.getD_eq_getElem _ 0]

/-- Settles O25: the cleared line is the empty one, and the loop passes its first round. -/
theorem clearedReverbPassesTheInput : Obligations.ClearedReverbPassesTheInput := by
  unfold Obligations.ClearedReverbPassesTheInput
  refine fun s => ⟨rfl, fun t hline htap => ⟨rvBlock t, rfl, ?_⟩⟩
  rw [rvBlock_wb, hline, htap]
  exact rvLoop_empty_take _ t.hw.reverbLen.pos t.wb

end Sys2Proof.Machine

/-! # The chain: volume, pitch, clipping and their order

Settles O26, O27, O28 and O29. -/

namespace Sys2Proof.Machine

open Sys2Proof

/-- An operation on each sample of a block, read at one place of it. -/
theorem getD_map_sample (f : S16 → S16) {l : List S16} {i : Nat} (h : i < l.length) :
    (l.map f).getD i 0 = f (l.getD i 0) := by
  rw [List.getD_eq_getElem _ _ (by rwa [List.length_map]), List.getD_eq_getElem _ _ h, List.getElem_map]

/-! ### O26: `VOL_BLOCK` (rules R231, R232) -/

/-- A divisor of at least 1 keeps the truncated quotient in the range of an s16. -/
theorem tdiv_s16_range (x : S16) {d : Int} (hd : 0 < d) :
    -32768 ≤ Int.tdiv x.toInt d ∧ Int.tdiv x.toInt d ≤ 32767 := by
  have hlow := s16_ge x
  have hhigh := s16_le x
  have hle := natAbs_tdiv_le x.toInt d
  rcases le_total 0 x.toInt with hx | hx
  · have := Int.tdiv_nonneg hx hd.le
    omega
  · have := Int.tdiv_nonneg (neg_nonneg.2 hx) hd.le
    rw [Int.neg_tdiv] at this
    omega

/-- One sample by the sign of the factor, as a number (rule R231). -/
theorem volSample_toInt (v : Int) (x : S16) : (volSample v x).toInt =
    if v = 0 then 0 else if 0 < v then clampS16 (x.toInt * v) else Int.tdiv x.toInt (-v) := by
  unfold volSample
  split_ifs with hmute hboost
  · rfl
  · exact sat16_toInt _
  · obtain ⟨hlow, hhigh⟩ := tdiv_s16_range x (d := -v) (by omega)
    exact toInt_ofInt16 hlow hhigh

/-- Settles O26: the step maps one sample's law over the block. -/
theorem volumeScalesEverySample : Obligations.VolumeScalesEverySample := by
  unfold Obligations.VolumeScalesEverySample
  intro s
  refine ⟨volBlock s, rfl, rfl, List.length_map _, fun i hi => ?_⟩
  dsimp only
  rw [volBlock_wb, getD_map_sample _ hi, volSample_toInt]

/-! ### O27: `PITCH_BLOCK` (rule R236) -/

theorem takePitch_of_cons {s : State} {b : List S16} {rest : List (List S16)} (h : s.env.pvQ = b :: rest) :
    takePitch s = ({ s with env := { s.env with pvQ := rest } }, b) := by
  simp [takePitch, h]

/-- Settles O27: a queued block of the right length is taken as it is, any other answer is cut or filled to length. -/
theorem pitchStepTakesAnyAnswer : Obligations.PitchStepTakesAnyAnswer := by
  unfold Obligations.PitchStepTakesAnyAnswer
  intro s
  refine ⟨fun b rest hqueue hlen => ?queued, pitchBlock s, rfl, pitchBlock_length s, ?free⟩
  case queued =>
    show Host.Outcome.next (pitchBlock s) = _
    rw [pitchBlock_eq, takePitch_of_cons hqueue, portBlock_self hlen]
  case free => rw [pitchBlock_eq]

/-! ### O28: `CLIP_BLOCK` over the reals (rules R240, R242, R243) -/

theorem abs_trunc (q : Rat) : |trunc q| = ⌊|q|⌋ := by
  rcases le_total 0 q with h | h
  · rw [trunc_of_nonneg h, abs_of_nonneg h, abs_of_nonneg (Int.floor_nonneg.2 h)]
  · have hneg : 0 ≤ -q := neg_nonneg.2 h
    rw [← abs_neg, ← trunc_neg, trunc_of_nonneg hneg, abs_of_nonpos h, abs_of_nonneg (Int.floor_nonneg.2 hneg)]

theorem abs_trunc_lt {q : Rat} {n : Int} (h : |q| < n) : |trunc q| < n := by
  rw [abs_trunc]
  exact Int.floor_lt.2 h

/-- The divisor of the curve, for a sample that is scaled to `z` (rule R240). -/
def clipDivisor (z : Rat) : Rat := 1 + 28 / 100 * z * z

theorem one_le_clipDivisor (z : Rat) : 1 ≤ clipDivisor z := by
  unfold clipDivisor
  nlinarith [mul_self_nonneg z]

theorem one_lt_clipDivisor {z : Rat} (h : z ≠ 0) : 1 < clipDivisor z := by
  unfold clipDivisor
  nlinarith [mul_self_pos.2 h]

/-- The factor cancels from the numerator of the curve: a sample is divided by the divisor (rule R240). -/
theorem clipCurve_eq {cf : Rat} (hcf : cf ≠ 0) (w z : Rat) (hz : z = w / 32768 * cf) :
    1 / cf * z / clipDivisor z * 32768 = w / clipDivisor z := by
  have hx : 1 / cf * z = w / 32768 := by
    rw [hz]
    field_simp
  rw [hx]
  ring

/-- Truncation of a divided integer does not change its sign (rule R242). -/
theorem trunc_div_sign (w : Int) {d : Rat} (hd : 1 ≤ d) : 0 ≤ trunc ((w : Rat) / d) * w := by
  have hpos : 0 ≤ d := zero_le_one.trans hd
  rcases le_total 0 w with hw | hw
  · have hq : 0 ≤ (w : Rat) / d := div_nonneg (by exact_mod_cast hw) hpos
    rw [trunc_of_nonneg hq]
    exact mul_nonneg (Int.floor_nonneg.2 hq) hw
  · have hq : (w : Rat) / d ≤ 0 := div_nonpos_of_nonpos_of_nonneg (by exact_mod_cast hw) hpos
    rw [trunc_of_nonpos hq]
    exact mul_nonneg_of_nonpos_of_nonpos (Int.ceil_le.2 (by exact_mod_cast hq)) hw

/-- A divisor above 1 makes an integer other than 0 smaller in magnitude (rule R242). -/
theorem abs_trunc_div_lt {w : Int} (hw : w ≠ 0) {d : Rat} (hd : 1 < d) : |trunc ((w : Rat) / d)| < |w| := by
  have habs : (0 : Rat) < |(w : Rat)| := abs_pos.2 (by exact_mod_cast hw)
  apply abs_trunc_lt
  rw [abs_div, abs_of_pos (zero_lt_one.trans hd), Int.cast_abs]
  exact div_lt_self habs hd

/-- The curve makes every sample but 0 smaller in magnitude, by 1 at least (rule R242). -/
theorem abs_trunc_clip_lt {w : Int} (hw : w ≠ 0) {cf : Rat} (hcf : cf ≠ 0) :
    |trunc ((w : Rat) / clipDivisor ((w : Rat) / 32768 * cf))| < |w| := by
  have hx : (w : Rat) / 32768 ≠ 0 := div_ne_zero (by exact_mod_cast hw) (by norm_num)
  exact abs_trunc_div_lt hw (one_lt_clipDivisor (mul_ne_zero hx hcf))

/-- At the largest factor the curve stays below 11597, by the discriminant of its bound (rule R243). -/
theorem abs_clipMax_lt (w : Rat) : |w / clipDivisor (w / 32768 * (267 / 100))| < 11597 := by
  have hd : 0 < clipDivisor (w / 32768 * (267 / 100)) := zero_lt_one.trans_le (one_le_clipDivisor _)
  rw [abs_div, abs_of_pos hd, div_lt_iff₀ hd, clipDivisor]
  nlinarith [sq_nonneg (|w| - 23193), sq_abs w]

/-- Over the reals `CLIP_BLOCK` divides a sample by the divisor of the curve, truncates and saturates (rule R240). -/
theorem clipSample_eq {cf : Rat} (hcf : cf ≠ 0) (x : S16) : clipSample realsFmt (.num cf) x =
    sat16 (trunc ((x.toInt : Rat) / clipDivisor ((x.toInt : Rat) / 32768 * cf))) := by
  have hscaled : fDiv realsFmt (s2f x) (.num 32768) = .num ((x.toInt : Rat) / 32768) := fDiv_reals _ _ (by norm_num)
  rw [← clipCurve_eq hcf _ _ rfl]
  generalize hz : (x.toInt : Rat) / 32768 * cf = z
  have hd : clipDivisor z ≠ 0 := (zero_lt_one.trans_le (one_le_clipDivisor z)).ne'
  have hdiv : fDiv realsFmt (.num (1 / cf * z)) (.num (clipDivisor z)) = _ := fDiv_reals _ _ hd
  unfold clipSample
  dsimp only
  rw [hscaled, fDiv_reals _ _ hcf, fMul_reals, hz]
  exact congrArg (fun q => f2s realsFmt (fMul realsFmt q (.num 32768))) hdiv

/-- The curve stays in the range of an s16, so that the saturation changes nothing (rule R242). -/
theorem trunc_clip_s16_range (x : S16) {cf : Rat} (hcf : cf ≠ 0) :
    -32768 ≤ trunc ((x.toInt : Rat) / clipDivisor ((x.toInt : Rat) / 32768 * cf)) ∧
      trunc ((x.toInt : Rat) / clipDivisor ((x.toInt : Rat) / 32768 * cf)) ≤ 32767 := by
  by_cases hx : x.toInt = 0
  · rw [hx]
    norm_num [trunc]
  · obtain ⟨hneg, hpos⟩ := abs_lt.1 (abs_trunc_clip_lt hx hcf)
    have habs : |x.toInt| ≤ 32768 := abs_le.2 ⟨s16_ge x, (s16_le x).trans (by norm_num)⟩
    omega

theorem clipSample_toInt {cf : Rat} (hcf : cf ≠ 0) (x : S16) : (clipSample realsFmt (.num cf) x).toInt =
    trunc ((x.toInt : Rat) / clipDivisor ((x.toInt : Rat) / 32768 * cf)) := by
  obtain ⟨hlow, hhigh⟩ := trunc_clip_s16_range x hcf
  rw [clipSample_eq hcf, sat16, clamp16_of_mem hlow hhigh, toInt_ofInt16 hlow hhigh]

/-- Settles O28: the curve divides every sample by a divisor of at least 1, above 1 for a sample other than 0. -/
theorem clipFollowsTheCurve : Obligations.ClipFollowsTheCurve := by
  unfold Obligations.ClipFollowsTheCurve
  intro s cf hreals hfactor hcf
  refine ⟨clipBlock s, rfl, rfl, List.length_map _, fun i hi => ?_⟩
  have hcf0 : cf ≠ 0 := (zero_lt_one.trans_le hcf).ne'
  dsimp only
  rw [clipBlock_wb, getD_map_sample _ hi, floatFmt_reals s hreals, hfactor, clipSample_toInt hcf0]
  generalize (s.wb.getD i 0).toInt = w
  refine ⟨congrArg trunc (clipCurve_eq hcf0 _ _ rfl).symm, trunc_div_sign w (one_le_clipDivisor _),
    fun hw => abs_trunc_clip_lt hw hcf0, fun hmax => ?_⟩
  rw [hmax]
  exact Int.lt_add_one_iff.1 (abs_trunc_lt (n := 11597) (by exact_mod_cast abs_clipMax_lt w))

/-! ### O29: the order of the chain (rules R230, R250 to R252) -/

/-- A conditional step of an operation that always completes (rule R250). -/
theorem execIf_of_next {i : Instr} {f : State → State} (h : ∀ s, exec i s = .next (f s)) (c : Bool) (s : State) :
    execIf c i s = .next (doIf c f s) := by
  cases c
  · rfl
  · exact h s

theorem doIf_false (f : State → State) (s : State) : doIf false f s = s := rfl

theorem exists_band_of_bit : ∀ i : Fin 6, ∃ b ∈ Band.all, b.index = i.val := by decide

theorem bandIndex_lt (b : Band) : b.index < 6 := by cases b <;> decide

/-- Bit `k` of the band field is the enable bit of the band with that index (rule R33). -/
theorem bandEn_eq_field (c : CfgRegs) (b : Band) : bandEn c b = (c.ctrlEn.extractLsb' 0 6).getLsbD b.index := by
  rw [BitVec.getLsbD_extractLsb', Nat.zero_add, decide_eq_true (bandIndex_lt b), Bool.true_and, bandEn]

/-- No band is enabled exactly when the six bits of the band field are 0 (rules R33, R250). -/
theorem anyBandEn_eq_false_iff (c : CfgRegs) : anyBandEn c = false ↔ c.ctrlEn.extractLsb' 0 6 = 0 := by
  rw [anyBandEn, List.any_eq_false]
  constructor
  · intro hoff
    refine BitVec.eq_of_getLsbD_eq fun i hi => ?_
    obtain ⟨b, hb, rfl : b.index = i⟩ := exists_band_of_bit ⟨i, hi⟩
    rw [← bandEn_eq_field, Bool.eq_false_iff.2 (hoff b hb)]
    simp
  · intro hzero b _
    rw [bandEn_eq_field, hzero]
    simp

theorem anyBandEn_eq (c : CfgRegs) : anyBandEn c = decide (c.ctrlEn.extractLsb' 0 6 ≠ 0) := by
  rw [Bool.eq_iff_iff, decide_eq_true_iff, ← Bool.not_eq_false, Ne, anyBandEn_eq_false_iff]

theorem bne_one_eq (v : RealVal) : (v != .num 1) = decide (v ≠ .num 1) := by
  rw [decide_not, bne, beq_eq_decide]

theorem doIf_act {f : State → State} (h : ∀ s, (f s).act = s.act) (c : Bool) (s : State) : (doIf c f s).act = s.act :=
  doIf_rel (R := fun s t => t.act = s.act) (h s) rfl

theorem filterBlock_act (s : State) : (filterBlock s).act = s.act := (filterBlock_frame s).act_eq

theorem rmBlock_act (s : State) : (rmBlock s).act = s.act := by rw [rmBlock_frame]

theorem pitchBlock_act (s : State) : (pitchBlock s).act = s.act := by rw [pitchBlock_eq]

/-- The steps that the bypass flag skips, each with the flag in its own condition: none of them changes the flag. -/
theorem frontEffects_gated (s : State) : doIf (!bypass s.act) frontEffects s =
    let s1 := doIf (!bypass s.act && anyBandEn s.act) filterBlock s
    let s2 := doIf (!bypass s1.act && (rmEn s1.act && s1.rmValid)) rmBlock s1
    doIf (!bypass s2.act && rvEn s2.act) rvBlock s2 := by
  dsimp only
  rw [doIf_act rmBlock_act, doIf_act filterBlock_act]
  cases bypass s.act
  · show frontEffects s = _
    simp only [frontEffects, doIf_act rmBlock_act, doIf_act filterBlock_act, Bool.not_false, Bool.true_and]
  · rfl

/-- Under the bypass flag the chain is the volume step and the pitch step (rules R33, R250). -/
theorem applyEffects_bypassed {s : State} (h : bypass s.act = true) :
    applyEffects s = doIf (s.act.pitchRatio != .num 1) pitchBlock (volBlock s) := by
  unfold applyEffects
  simp [h, doIf_act pitchBlock_act, doIf_false]

/-- Under the bypass flag the chain changes only the block and what the transform is asked and answers (rule R250). -/
theorem volumeThenPitch_frame (c : Bool) (s : State) : doIf c pitchBlock (volBlock s) = { s with
    wb := (doIf c pitchBlock (volBlock s)).wb
    env := (doIf c pitchBlock (volBlock s)).env
    ports := { s.ports with pv := (doIf c pitchBlock (volBlock s)).ports.pv } } :=
  doIf_rel (R := fun _ t => t = { s with wb := t.wb, env := t.env, ports := { s.ports with pv := t.ports.pv } })
    (by rw [pitchBlock_eq]; rfl) rfl

/-- Settles O29: the chain is its six conditional steps, of which the bypass flag leaves two. -/
theorem chainRunsTheStepsInOrder : Obligations.ChainRunsTheStepsInOrder := by
  unfold Obligations.ChainRunsTheStepsInOrder
  refine fun s => ⟨⟨_, rfl⟩, ?order, fun hbypass => ⟨fun hratio => ?volume, applyEffects s, rfl, ?frame⟩⟩
  case order =>
    show Host.Outcome.next (applyEffects s) = _
    simp only [execIf_of_next (i := .filterBlock) fun _ => rfl, execIf_of_next (i := .rmBlock) fun _ => rfl,
      execIf_of_next (i := .rvBlock) fun _ => rfl, execIf_of_next (i := .pitchBlock) fun _ => rfl,
      execIf_of_next (i := .clipBlock) fun _ => rfl, ← anyBandEn_eq, ← bne_one_eq]
    unfold applyEffects
    rw [frontEffects_gated]
    rfl
  case volume =>
    show Host.Outcome.next (applyEffects s) = .next (volBlock s)
    rw [applyEffects_bypassed hbypass, hratio]
    rfl
  case frame =>
    rw [applyEffects_bypassed hbypass]
    exact volumeThenPitch_frame _ s

end Sys2Proof.Machine

/-! # A loop step with its waits undisturbed: Record, Passthru and Play

Settles O43, O44 and O45. Each is O50 (`waitsAdmitWholeSteps`), which gives a loop step as its parts with any visits at
its waits, read where no visit falls into them. -/

namespace Sys2Proof.Machine

open Sys2Proof

/-! ### Undisturbed waits (rules R86, R326, R327) -/

/-- The queues of the three waits are as before. -/
structure SameWaits (s t : State) : Prop where
  inp : t.env.inQ = s.env.inQ
  out : t.env.outQ = s.env.outQ
  copy : t.env.copyQ = s.env.copyQ

theorem SameWaits.of_env {s t : State} (h : t.env = s.env) : SameWaits s t := ⟨by rw [h], by rw [h], by rw [h]⟩

theorem SameWaits.trans {s t u : State} (h : SameWaits s t) (h' : SameWaits t u) : SameWaits s u :=
  ⟨h'.inp.trans h.inp, h'.out.trans h.out, h'.copy.trans h.copy⟩

theorem SameWaits.noVisits {s t : State} (h : SameWaits s t) (hq : NoVisits s.env) : NoVisits t.env := by
  unfold NoVisits
  rwa [h.inp, h.out, h.copy]

theorem doIf_sameWaits {f : State → State} (h : ∀ s, SameWaits s (f s)) (c : Bool) (s : State) :
    SameWaits s (doIf c f s) := doIf_rel (h s) (.of_env rfl)

theorem pitchBlock_sameWaits (s : State) : SameWaits s (pitchBlock s) := by
  obtain ⟨hin, hout, hcopy⟩ := takePitch_queues s
  rw [pitchBlock_eq]
  exact ⟨hin, hout, hcopy⟩

theorem filterBlock_sameWaits (s : State) : SameWaits s (filterBlock s) := .of_env (by rw [(filterBlock_frame s).eq])

theorem rmBlock_sameWaits (s : State) : SameWaits s (rmBlock s) := .of_env (by rw [rmBlock_frame])

theorem rvBlock_sameWaits (s : State) : SameWaits s (rvBlock s) := .of_env rfl

theorem volBlock_sameWaits (s : State) : SameWaits s (volBlock s) := .of_env rfl

theorem clipBlock_sameWaits (s : State) : SameWaits s (clipBlock s) := .of_env rfl

theorem frontEffects_sameWaits (s : State) : SameWaits s (frontEffects s) :=
  ((doIf_sameWaits filterBlock_sameWaits _ s).trans (doIf_sameWaits rmBlock_sameWaits _ _)).trans
    (doIf_sameWaits rvBlock_sameWaits _ _)

/-- The chain asks the transform only: it takes no answer of a wait (rule R250). -/
theorem applyEffects_sameWaits (s : State) : SameWaits s (applyEffects s) :=
  (((doIf_sameWaits frontEffects_sameWaits _ s).trans (volBlock_sameWaits _)).trans
    (doIf_sameWaits pitchBlock_sameWaits _ _)).trans (doIf_sameWaits clipBlock_sameWaits _ _)

theorem execIf_applyEffects_inv {c : Bool} {s t : State} (h : execIf c .applyEffects s = .next t) :
    t = doIf c applyEffects s := by
  rw [execIf_applyEffects] at h
  cases h
  rfl

theorem execIf_applyEffects_sameWaits {c : Bool} {s t : State} (h : execIf c .applyEffects s = .next t) :
    SameWaits s t := by
  rw [execIf_applyEffects_inv h]
  exact doIf_sameWaits applyEffects_sameWaits c s

theorem execIf_applyEffects_ctl {c : Bool} {s t : State} (h : execIf c .applyEffects s = .next t) : t.ctl = s.ctl := by
  rw [execIf_applyEffects_inv h]
  exact doIf_rel (R := fun s t => t.ctl = s.ctl) (by rw [applyEffects_frame]) rfl

theorem takeIn_noVisits {s u : State} {e : List Visit × InAnswer} (hq : NoVisits s.env) (htake : takeIn s = (u, e)) :
    NoVisits u.env := by
  obtain ⟨hin, hout, hcopy⟩ := hq
  unfold takeIn at htake
  split at htake <;> cases htake
  · next rest hqueue => exact ⟨fun p hp => hin p (hqueue ▸ List.mem_cons_of_mem _ hp), hout, hcopy⟩
  · exact ⟨hin, hout, hcopy⟩

theorem takeOut_visits {s : State} (hq : NoVisits s.env) : (takeOut s).2.1 = [] := by
  obtain ⟨-, hout, -⟩ := hq
  unfold takeOut
  split
  · next e rest hqueue => exact hout e (hqueue ▸ List.mem_cons_self)
  · rfl

theorem takeCopy_undisturbed {s : State} (hq : NoVisits s.env) : (takeCopy s).2 = [] ∧ NoVisits (takeCopy s).1.env := by
  obtain ⟨hin, hout, hcopy⟩ := hq
  unfold takeCopy
  split
  · next vs rest hqueue =>
    rw [hqueue] at hcopy
    exact ⟨hcopy vs List.mem_cons_self, hin, hout, fun v hv => hcopy v (List.mem_cons_of_mem _ hv)⟩
  · exact ⟨rfl, hin, hout, hcopy⟩

/-- What OUT answers depends on the environment only. -/
theorem takeOut_congr {s t : State} (h : t.env = s.env) :
    (takeOut t).1.env = (takeOut s).1.env ∧ (takeOut t).2 = (takeOut s).2 := by
  unfold takeOut
  rw [h]
  cases s.env.outQ <;> exact ⟨rfl, rfl⟩

/-- A block read with no visit: the transaction is recorded, of the state only the environment moves on (rule R326). -/
theorem readIn_undisturbed {s u : State} {h : List HwSample} (htake : takeIn s = (u, [], .block h)) :
    readIn s = ({ s with
      env := u.env
      ports := { s.ports with inp := s.ports.inp ++ [.block (portBlock (blockLen s) h)] } },
      .block (portBlock (blockLen s) h)) := by
  have hu : u = { s with env := u.env } := by simpa [htake] using takeIn_frame s
  rw [readIn_eq, htake, hu]
  rfl

/-- A copy with no visit (rule R327). -/
theorem stageBlock_undisturbed {s : State} (hq : NoVisits s.env) :
    stageBlock s = { (takeCopy s).1 with stage := s.wb, stageNew := true } := by
  rw [stageBlock_eq, (takeCopy_undisturbed hq).1]
  rfl

/-- A block staged and written out with no visit: the copy, then the answer of OUT with its transaction recorded
(rules R326, R327). -/
theorem writeOut_stageBlock_undisturbed {s : State} (hq : NoVisits s.env) (o : List HwSample) :
    writeOut o (stageBlock s) =
      let p := takeOut (takeCopy s).1
      { s with
        stage := s.wb
        stageNew := true
        env := p.1.env
        ports := { s.ports with out := s.ports.out ++ [(o, p.2.2)] } } := by
  have henv : (stageBlock s).env = (takeCopy s).1.env := by rw [stageBlock_undisturbed hq]
  obtain ⟨htaken, hanswer⟩ := takeOut_congr henv
  have hvisits := takeOut_visits (takeCopy_undisturbed hq).2
  rw [writeOut_eq, takeOut_frame, htaken, hanswer, hvisits, stageBlock_undisturbed hq, takeCopy_frame s]
  rfl

/-! ### The loop steps (rules R330 to R332) -/

theorem withStored_end {s : State} (h : s.recEnd.toNat < s.rdCur.toNat + blockBytes s) (body : State → State) :
    withStored body s = .next (setPhase s .exit) := by
  simp [withStored, readBlock_end h, andThen]

/-- `RECORD_BLOCK` leaves the controller alone (rule R270). -/
theorem exec_recordBlock_ctl {s t : State} (h : exec .recordBlock s = .next t) : t.ctl = s.ctl := by
  obtain ⟨m, c, hrecorded⟩ := recordBlock_fields s
  cases h
  rw [hrecorded]

/-- `READ_BLOCK` asks nothing of the environment (rule R275). -/
theorem exec_readBlock_env {s t : State} (h : exec .readBlock s = .next t) : t.env = s.env := by
  rcases readBlock_cases s with ⟨_, e⟩ | ⟨_, _, e⟩ | ⟨_, _, e⟩
  · cases (exec_readBlock e).symm.trans h
    rfl
  · have hread : andThen (readBlock s) _ = _ := h
    rw [e] at hread
    cases hread
  · cases (exec_readBlock e).symm.trans h
    rfl

/-- Settles O43: O50 without visits and without a monitor; the controller is the step's own until the end. -/
theorem recordLoopHandlesOneBlock : Obligations.RecordLoopHandlesOneBlock := by
  unfold Obligations.RecordLoopHandlesOneBlock
  intro s u h hmonitor henabled hpend hstop hq htake
  obtain ⟨-, -, -, -, -, -, -, hrecord, -⟩ := waitsAdmitWholeSteps
  obtain ⟨v, w, hv, hw, hfits, hfull⟩ := hrecord s _ _ henabled hpend hstop (readIn_undisturbed htake)
  have hread : NoVisits u.env := takeIn_noVisits hq htake
  have hquiet : NoVisits v.env := (execIf_applyEffects_sameWaits hv).noVisits hread
  have hstaged := stageBlock_undisturbed hquiet
  replace hw : exec .recordBlock { (takeCopy v).1 with stage := v.wb, stageNew := true } = .next w := by
    rw [hmonitor] at hw
    exact hstaged ▸ hw
  have hrecorded := exec_recordBlock_ctl hw
  have hcopied : (takeCopy v).1.ctl = v.ctl := by rw [takeCopy_frame]
  have hchain := execIf_applyEffects_ctl hv
  have hctl : w.ctl = s.ctl := hrecorded.trans (hcopied.trans hchain)
  rw [hctl] at hfull
  exact ⟨v, w, hv, hw, hfits, hfull⟩

/-- Settles O44: O50 without visits; the chain leaves RB and the cursors alone. -/
theorem passthruLoopHandlesOneBlock : Obligations.PassthruLoopHandlesOneBlock := by
  unfold Obligations.PassthruLoopHandlesOneBlock
  intro s u h henabled hpend hstop hq htake
  obtain ⟨-, -, -, -, -, -, hpassthru, -, -⟩ := waitsAdmitWholeSteps
  obtain ⟨v, hv, hloop⟩ := hpassthru s _ _ henabled hpend hstop (readIn_undisturbed htake)
  have hread : NoVisits u.env := takeIn_noVisits hq htake
  have hquiet : NoVisits v.env := (execIf_applyEffects_sameWaits (c := true) hv).noVisits hread
  refine ⟨v, hv, hloop.trans (congrArg _ (writeOut_stageBlock_undisturbed hquiet _)), ?_⟩
  rw [execIf_applyEffects_inv (c := true) hv]
  show (applyEffects _).rb = _ ∧ (applyEffects _).wrCur = _ ∧ (applyEffects _).recEnd = _ ∧ (applyEffects _).rdCur = _
  rw [applyEffects_frame]
  exact ⟨rfl, rfl, rfl, rfl⟩

/-- Settles O45: past the data the read ends the action; a stored block is handled as O50 says, without visits. -/
theorem playLoopHandlesOneBlock : Obligations.PlayLoopHandlesOneBlock := by
  unfold Obligations.PlayLoopHandlesOneBlock
  intro s henabled hpend hstop
  refine ⟨fun hend => ?ended, fun hbefore hroom hq => ?block⟩
  case ended => exact (loop_runs_body henabled hpend hstop (withStored playBody)).trans (withStored_end hend _)
  case block =>
    obtain ⟨-, -, -, -, -, -, -, -, hplay⟩ := waitsAdmitWholeSteps
    obtain ⟨r, v, hr, hv, hloop⟩ := hplay s henabled hpend hstop hbefore hroom
    have hread : NoVisits r.env := by rwa [exec_readBlock_env hr]
    have hquiet : NoVisits v.env := (execIf_applyEffects_sameWaits hv).noVisits hread
    exact ⟨r, v, hr, hv, hloop.trans (congrArg _ (writeOut_stageBlock_undisturbed hquiet _))⟩

end Sys2Proof.Machine

/-! # Width conversion, recorded blocks, the header again, and `LOOP_EXPORT`

Settles O30, O31, O32, O33, O35, O37 and O46. -/

namespace Sys2Proof.Machine

open Sys2Proof

/-- A function applied to each element of a list, read at one place of it. -/
theorem getD_map_of_lt {α β : Type} (f : α → β) {l : List α} {i : Nat} (h : i < l.length) (a : α) (b : β) :
    (l.map f).getD i b = f (l.getD i a) := by
  rw [List.getD_eq_getElem _ _ (by rwa [List.length_map]), List.getD_eq_getElem _ _ h, List.getElem_map]

/-! ### O30: `NORM_IN` (rules R115, R260) -/

theorem hwWidth_bits_eq (w : HwWidth) : w.bits = 16 + hwShift w := by cases w <;> rfl

theorem hwWidth_bits_le (w : HwWidth) : w.bits ≤ 32 := by cases w <;> decide

theorem floorShift_eq_ediv (n : Int) (k : Nat) : floorShift n k = n / 2 ^ k :=
  Int.fdiv_eq_ediv_of_nonneg n (by positivity)

theorem floorShift_eq_floor (n : Int) (k : Nat) : floorShift n k = ⌊(n : Rat) / 2 ^ k⌋ := by
  have hfloor := Rat.floor_intCast_div_natCast n (2 ^ k)
  push_cast at hfloor
  rw [floorShift_eq_ediv, hfloor]

/-- The top 16 bits of a number of `16 + k` bits are an s16. -/
theorem floorShift_s16_range {n : Int} {k : Nat} (hlow : -2 ^ (15 + k) ≤ n) (hhigh : n < 2 ^ (15 + k)) :
    -32768 ≤ floorShift n k ∧ floorShift n k ≤ 32767 := by
  have hpos : (0 : Int) < 2 ^ k := by positivity
  rw [pow_add] at hlow hhigh
  rw [floorShift_eq_ediv]
  exact ⟨(Int.le_ediv_iff_mul_le hpos).2 hlow, Int.le_of_lt_add_one ((Int.ediv_lt_iff_lt_mul hpos).2 hhigh)⟩

/-- `NORM_IN` of one sample loses nothing but the low bits: the top 16 fit (rules R115, R260). -/
theorem normSample_toInt (w : HwWidth) (h : HwSample) :
    (normSample w h).toInt = floorShift (hwSampleInt w h) (hwShift w) := by
  have htop : w.bits - 1 = 15 + hwShift w := by rw [hwWidth_bits_eq]; omega
  have hlow : -2 ^ (w.bits - 1) ≤ hwSampleInt w h := BitVec.le_toInt _
  have hhigh : hwSampleInt w h < 2 ^ (w.bits - 1) := BitVec.toInt_lt
  rw [htop] at hlow hhigh
  obtain ⟨hge, hle⟩ := floorShift_s16_range hlow hhigh
  exact toInt_ofInt16 hge hle

theorem exec_normIn {s : State} (h : s.beside.hwBlock.length = blockLen s) :
    exec .normIn s = .next (normIn s.beside.hwBlock s) := by
  show Host.Outcome.next (normIn (portBlock _ _) s) = _
  rw [portBlock_self h]

/-- Settles O30: each sample is the floor of the printed quotient, which is an s16. -/
theorem normaliseKeepsTheTopBits : Obligations.NormaliseKeepsTheTopBits := by
  unfold Obligations.NormaliseKeepsTheTopBits
  intro s hlen
  refine ⟨_, exec_normIn hlen, rfl, (List.length_map _).trans hlen, fun i hi => ?_⟩
  rw [normIn_wb, getD_map_of_lt _ (by rwa [hlen]) 0, normSample_toInt, floorShift_eq_floor]
  rfl

/-! ### O31: `DENORM_OUT` (rule R262) -/

/-- Settles O31: the product of each sample fits the container. -/
theorem denormaliseShiftsLeft : Obligations.DenormaliseShiftsLeft := by
  unfold Obligations.DenormaliseShiftsLeft
  intro s
  refine ⟨denormOut s, rfl, List.length_map _, fun i hi => ?_⟩
  rw [denormOut, getD_map_of_lt _ hi 0, denormSample_toInt]

/-! ### O32: the two conversions one after the other (rule R263) -/

/-- A container that holds a value of `HW_WIDTH` bits is read as that value (rule R115). -/
theorem hwSampleInt_of_range {w : HwWidth} {h : HwSample} (hlow : -2 ^ (w.bits - 1) ≤ h.toInt)
    (hhigh : h.toInt < 2 ^ (w.bits - 1)) : hwSampleInt w h = h.toInt := by
  have hdvd : 2 ^ w.bits ∣ 2 ^ 32 := pow_dvd_pow 2 (hwWidth_bits_le w)
  have hdouble : ((2 ^ w.bits : Nat) : Int) = 2 ^ (w.bits - 1) * 2 := by
    rw [← pow_succ, Nat.sub_add_cancel (by rw [hwWidth_bits_eq]; omega)]
    push_cast
    rfl
  calc hwSampleInt w h
      = (h.toNat : Int).bmod (2 ^ w.bits) := BitVec.toInt_setWidth h
    _ = h.toInt.bmod (2 ^ w.bits) := by rw [BitVec.toInt_eq_toNat_bmod, Int.bmod_bmod_of_dvd hdvd]
    _ = h.toInt := Int.bmod_eq_of_le_mul_two (by rw [hdouble]; omega) (by rw [hdouble]; omega)

/-- There and back, a hardware sample has lost its low bits (rule R263). -/
theorem denormSample_normSample_toInt {w : HwWidth} {h : HwSample} (hlow : -2 ^ (w.bits - 1) ≤ h.toInt)
    (hhigh : h.toInt < 2 ^ (w.bits - 1)) :
    (denormSample w (normSample w h)).toInt = h.toInt - h.toInt % 2 ^ (w.bits - 16) := by
  rw [denormSample_toInt, normSample_toInt, hwSampleInt_of_range hlow hhigh, floorShift_eq_ediv]
  exact eq_sub_of_add_eq (Int.ediv_mul_add_emod _ _)

/-- In a width above 16 the sample 1 has a low bit to lose (rule R263). -/
theorem denormSample_normSample_one {w : HwWidth} (hw : w ≠ .w16) : denormSample w (normSample w 1) ≠ 1 := by
  cases w with
  | w16 => exact absurd rfl hw
  | w24 => decide
  | w32 => decide

/-- The sample 1 is a sample of every width. -/
theorem one_in_range (w : HwWidth) :
    -2 ^ (w.bits - 1) ≤ (1 : HwSample).toInt ∧ (1 : HwSample).toInt < 2 ^ (w.bits - 1) := by
  cases w <;> decide

theorem map_normSample_denormOut (s : State) : (denormOut s).map (normSample s.hw.hwWidth) = s.wb := by
  simp [denormOut, Function.comp_def, normSample_denormSample]

theorem exec_normIn_denormOut {s : State} (h : s.wb.length = blockLen s) :
    exec .normIn { s with beside := { s.beside with hwBlock := denormOut s } } =
      .next { s with beside := { s.beside with hwBlock := denormOut s } } := by
  have hlen : (denormOut s).length = blockLen s := (List.length_map _).trans h
  rw [exec_normIn hlen, normIn]
  dsimp only
  rw [map_normSample_denormOut]

/-- Settles O32: sample by sample, out and in again is the identity, in and out again clears the low bits. -/
theorem widthRoundTrip : Obligations.WidthRoundTrip := by
  unfold Obligations.WidthRoundTrip
  refine ⟨fun s hlen => ?outAndIn, fun s hlen hrange => ?inAndOut, fun w hw => ?strict⟩
  case outAndIn => exact ⟨denormOut s, rfl, exec_normIn_denormOut hlen⟩
  case inAndOut =>
    refine ⟨_, _, exec_normIn hlen, rfl, by simp [denormOut, hlen], fun i hi => ?_⟩
    have hi' : i < s.beside.hwBlock.length := by rwa [hlen]
    have hmem : s.beside.hwBlock.getD i 0 ∈ s.beside.hwBlock := by
      rw [List.getD_eq_getElem _ _ hi']
      exact List.getElem_mem hi'
    obtain ⟨hlow, hhigh⟩ := hrange _ hmem
    dsimp only
    rw [denormOut, getD_map_of_lt _ (by simpa using hi') 0, normIn_wb, getD_map_of_lt _ hi' 0]
    exact denormSample_normSample_toInt hlow hhigh
  case strict =>
    obtain ⟨hlow, hhigh⟩ := one_in_range w
    exact ⟨1, hlow, hhigh, denormSample_normSample_one hw⟩

/-! ### O33: `RECORD_BLOCK` (rules R270, R271) -/

/-- The low byte of a sample of a block that was just stored (rules R72, R270). -/
theorem memRead_stored_low {m : Memory} (h : Memory.wf m = true) (a : Nat) {wb : List S16} {i : Nat}
    (hi : i < wb.length) :
    memRead (memWriteBytes m a (blockToBytes wb)) (a + 2 * i) = (wb.getD i 0).extractLsb' 0 8 := by
  rw [memRead_memWriteBytes h, blockToBytes_length, if_pos (by omega), Nat.add_sub_cancel_left, blockToBytes_low _ _ hi]

/-- The high byte of a sample of a block that was just stored (rules R72, R270). -/
theorem memRead_stored_high {m : Memory} (h : Memory.wf m = true) (a : Nat) {wb : List S16} {i : Nat}
    (hi : i < wb.length) :
    memRead (memWriteBytes m a (blockToBytes wb)) (a + 2 * i + 1) = (wb.getD i 0).extractLsb' 8 8 := by
  rw [memRead_memWriteBytes h, blockToBytes_length, if_pos (by omega), Nat.add_assoc, Nat.add_sub_cancel_left,
    blockToBytes_high _ _ hi]

/-- The bytes around a block that was just stored are kept (rule R270). -/
theorem memRead_stored_outside {m : Memory} (h : Memory.wf m = true) {a b : Nat} {wb : List S16}
    (hb : b < a ∨ a + 2 * wb.length ≤ b) : memRead (memWriteBytes m a (blockToBytes wb)) b = memRead m b := by
  rw [memRead_memWriteBytes h, blockToBytes_length, if_neg (by omega)]

theorem exec_recordBlock_full {s : State} (h : bufCap s < recordAddr s + blockBytes s) :
    exec .recordBlock s = .next { s with result := .transfer .capFull } := by
  show Host.Outcome.next { (recordBlock s).1 with result := .transfer (recordBlock s).2 } = _
  rw [show recordBlock s = (s, .capFull) from if_pos h]

theorem exec_recordBlock_fits {s : State} (h : recordAddr s + blockBytes s ≤ bufCap s) :
    exec .recordBlock s = .next { s with
      rb := memWriteBytes s.rb (recordAddr s) (blockToBytes s.wb)
      wrCur := BitVec.ofNat 32 (s.wrCur.toNat + blockBytes s)
      result := .transfer .ok } := by
  show Host.Outcome.next { (recordBlock s).1 with result := .transfer (recordBlock s).2 } = _
  rw [show recordBlock s = (_, .ok) from if_neg (Nat.not_lt.2 h)]

/-- The write cursor after a block that fits does not wrap around (log 8: the room is a 32-bit number). -/
theorem toNat_wrCur_advanced {s : State} {room : BitVec 32} (h : s.wrCur.toNat + blockBytes s ≤ room.toNat) :
    (BitVec.ofNat 32 (s.wrCur.toNat + blockBytes s)).toNat = s.wrCur.toNat + blockBytes s := by
  have hlt := room.isLt
  exact Nat.mod_eq_of_lt (by omega)

/-- Settles O33: the two outcomes of `RECORD_BLOCK`, and the bytes of a block that was stored. -/
theorem recordBlockAppendsOrRefuses : Obligations.RecordBlockAppendsOrRefuses := by
  unfold Obligations.RecordBlockAppendsOrRefuses
  intro s room hroom hlen hwf
  have hcap := bufCap_of_room hroom
  refine ⟨fun hfull => ?refused, fun hfits => ?appended⟩
  case refused => exact exec_recordBlock_full (hcap ▸ hfull)
  case appended =>
    have hmove : s.wrCur.toNat + blockBytes s ≤ room.toNat := by
      unfold blockBytes
      omega
    refine ⟨_, exec_recordBlock_fits (hcap ▸ hfits), rfl, toNat_wrCur_advanced hmove, fun i hi => ?_,
      fun a ha => ?_⟩
    · rw [← hlen] at hi
      exact ⟨memRead_stored_low hwf _ hi, memRead_stored_high hwf _ hi⟩
    · rw [← hlen] at ha
      exact memRead_stored_outside hwf ha

/-! ### O35: a recorded block read again (rule R276) -/

theorem bytes_of_sample (x : S16) : x.extractLsb' 8 8 ++ x.extractLsb' 0 8 = x :=
  (BitVec.extractLsb'_append_extractLsb'_eq_extractLsb' rfl).trans BitVec.extractLsb'_eq_self

/-- A stored sample is read whole (rules R72, R270, R275). -/
theorem sampleAt_stored {m : Memory} (h : Memory.wf m = true) (a : Nat) {wb : List S16} {i : Nat} (hi : i < wb.length) :
    sampleAt (memWriteBytes m a (blockToBytes wb)) (a + 2 * i) = wb.getD i 0 := by
  rw [sampleAt, memRead_stored_low h a hi, memRead_stored_high h a hi, bytes_of_sample]

/-- The block at the read cursor is the one that was stored there (rule R276). -/
theorem storedBlock_stored {s : State} {m : Memory} {wb : List S16} (hwf : Memory.wf m = true)
    (hlen : wb.length = blockLen s) (hrb : s.rb = memWriteBytes m (44 + s.rdCur.toNat) (blockToBytes wb)) :
    storedBlock s = wb := by
  apply List.ext_getElem ((storedBlock_length s).trans hlen.symm)
  intro i hi hi'
  rw [← List.getD_eq_getElem _ 0 hi, ← List.getD_eq_getElem _ 0 hi', storedBlock_getD (hlen ▸ hi'), hrb,
    sampleAt_stored hwf _ hi']

/-- Settles O35: the read finds its block before the mark, and the bytes are those that were written. -/
theorem recordedBlockReadsBack : Obligations.RecordedBlockReadsBack := by
  unfold Obligations.RecordedBlockReadsBack
  intro s room hroom hlen hwf hfits
  have hcap := bufCap_of_room hroom
  have hmove := toNat_wrCur_advanced hfits
  have hstore : recordAddr s + blockBytes s ≤ bufCap s := by
    unfold recordAddr blockBytes
    omega
  refine ⟨_, exec_recordBlock_fits hstore, fun blk => ?_⟩
  refine ⟨_, exec_readBlock (readBlock_ok hmove.ge ?_), storedBlock_stored hwf hlen rfl⟩
  show 44 + (BitVec.ofNat 32 _).toNat ≤ bufCap s
  rw [hmove, ← Nat.add_assoc]
  exact hstore

/-! ### O37: the header built twice (rule R281) -/

/-- Bytes written a second time at the same place change nothing. -/
theorem memWriteBytes_twice {m : Memory} (h : Memory.wf m = true) (a : Nat) (vs : List Byte) :
    memWriteBytes (memWriteBytes m a vs) a vs = memWriteBytes m a vs := by
  have hwritten := memWriteBytes_wf h a vs
  refine Memory.ext_read (memWriteBytes_wf hwritten a vs) hwritten fun b => ?_
  rw [memRead_memWriteBytes hwritten]
  split
  · next hin => rw [memRead_memWriteBytes h, if_pos hin]
  · rfl

/-- Where the header's bytes already stand the build changes nothing. -/
theorem exec_buildWavHeader_standing {s : State} (hbuf : s.hw.bufRoom ≠ none)
    (h : memWriteBytes s.rb 0 (wavHeader s.wrCur s.act.sampleRate) = s.rb) : exec .buildWavHeader s = .next s := by
  rw [exec_buildWavHeader hbuf, h]

/-- Settles O37: the header depends on registers that the build leaves alone. -/
theorem headerIsIdempotent : Obligations.HeaderIsIdempotent := by
  unfold Obligations.HeaderIsIdempotent
  intro s hbuf hwf
  have hbuild := exec_buildWavHeader hbuf
  have htwice := memWriteBytes_twice hwf 0 (wavHeader s.wrCur s.act.sampleRate)
  generalize memWriteBytes s.rb 0 (wavHeader s.wrCur s.act.sampleRate) = m at hbuild htwice
  exact ⟨{ s with rb := m }, hbuild, exec_buildWavHeader_standing hbuf htwice⟩

/-! ### O46: `LOOP_EXPORT` (rules R285, R333) -/

/-- What an Export loop step does after its boundary (rule R333). -/
def exportStep (s : State) : Host.Outcome State Fault Refusal :=
  if s.ctl.hdrSent then withStored exportBody s else exportHeader s

theorem exec_loopExport {s : State} (henabled : enabledStep s = some .loopExport) (hpend : s.ctl.updPend = false)
    (hstop : s.ctl.stop = false) : exec .loopExport s = exportStep s :=
  loop_runs_body henabled hpend hstop exportStep

theorem exportStep_header {s : State} (h : s.ctl.hdrSent = false) : exportStep s = exportHeader s := by
  simp [exportStep, h]

theorem exportStep_stored {s : State} (h : s.ctl.hdrSent = true) : exportStep s = withStored exportBody s := if_pos h

/-- With a buffer the header build completes and changes RB only (rule R280). -/
theorem exec_buildWavHeader_rb {s : State} (h : s.hw.bufRoom ≠ none) :
    ∃ m, exec .buildWavHeader s = .next { s with rb := m } := ⟨_, exec_buildWavHeader h⟩

theorem exportHeader_of_build {s t : State} (h : exec .buildWavHeader s = .next t) :
    exportHeader s =
      .next { emitChunk t (memReadBytes t.rb 0 44) with ctl := { t.ctl with hdrSent := true } } := by
  show andThen (exec .buildWavHeader s) _ = _
  rw [h]
  rfl

/-- The chain of a download step changes no byte of RB (rules R250, R333). -/
theorem doIf_applyEffects_rb (c : Bool) (s : State) : (doIf c applyEffects s).rb = s.rb :=
  doIf_rel (R := fun s t => t.rb = s.rb) (by rw [applyEffects_frame]) rfl

/-- Settles O46: the header until it is sent, then a block at a time, then the exit. -/
theorem exportLoopEmitsTheFile : Obligations.ExportLoopEmitsTheFile := by
  unfold Obligations.ExportLoopEmitsTheFile
  intro s henabled hpend hstop
  rw [exec_loopExport henabled hpend hstop]
  refine ⟨fun hfirst hbuf => ?header, fun hsent hend => ?ended, fun hsent hbefore hroom => ?block⟩
  case header =>
    obtain ⟨m, hbuild⟩ := exec_buildWavHeader_rb hbuf
    exact ⟨_, hbuild, (exportStep_header hfirst).trans (exportHeader_of_build hbuild)⟩
  case ended => exact (exportStep_stored hsent).trans (withStored_end hend _)
  case block =>
    have hread := readBlock_ok hbefore hroom
    exact ⟨_, _, exec_readBlock hread, execIf_applyEffects _ _,
      (exportStep_stored hsent).trans (withStored_ok hread exportBody), doIf_applyEffects_rb _ _⟩

end Sys2Proof.Machine

/-! # The controller: requests, the Task's own steps and the return to Idle

Settles O5, O7, O8, O38, O39, O47 and O55. The rows of the table of rule R348 come first, each as one lemma on
`enabledStep`; the last part chains the Task's steps of O38, O39, O42 and O47 to the bound of O55. -/

namespace Sys2Proof.Machine

open Sys2Proof

/-! ### The rows of the Task's table (rule R348) -/

theorem enabledStep_table {s : State} (hq : s.qtabValid = false) : enabledStep s = some .qtabInit := by
  simp [enabledStep, hq]

theorem enabledStep_wake {s : State} (hq : s.qtabValid = true) (hp : s.ctl.phase = .wait) (hw : s.ctl.wake = true) :
    enabledStep s = some .taskWake := by
  simp [enabledStep, hq, hp, hw]

theorem enabledStep_asleep {s : State} (hq : s.qtabValid = true) (hp : s.ctl.phase = .wait)
    (hw : s.ctl.wake = false) : enabledStep s = none := by
  simp [enabledStep, hq, hp, hw]

theorem enabledStep_init {s : State} (hq : s.qtabValid = true) (hp : s.ctl.phase = .init) :
    enabledStep s = some .taskInit := by
  simp [enabledStep, hq, hp]

theorem enabledStep_exit {s : State} (hq : s.qtabValid = true) (hp : s.ctl.phase = .exit) :
    enabledStep s = some .taskExit := by
  simp [enabledStep, hq, hp]

/-- A rebuild is a part of other Task steps, never one of its own (rule R348). -/
theorem enabledStep_ne_taskRebuild (s : State) : enabledStep s ≠ some .taskRebuild := by
  intro h
  rcases enabledStep_cases h with ⟨_, h⟩ | ⟨_, h⟩
  · cases h
  · simp at h

/-! ### O5: the Task's turn -/

theorem taskStep_enabled {s : State} {i : Instr} (h : enabledStep s = some i) : taskStep s = exec i s := by
  simp [taskStep, h]

theorem taskStep_blocked {s : State} (h : enabledStep s = none) : taskStep s = .next s := by
  simp [taskStep, h]

theorem step_unscheduled {s : State} (h : s.turns = []) : step s = taskStep s := by
  simp [step, h]

theorem step_task_turn {s : State} {ts : List Turn} (h : s.turns = .task :: ts) :
    step s = taskStep { s with turns := ts } := by
  simp [step, h, dropTurn]

/-- Settles O5: both ways in which the Task gets its turn are `taskStep`, and each clause is a row of its table. -/
theorem taskTakesItsEnabledStep : Obligations.TaskTakesItsEnabledStep := by
  unfold Obligations.TaskTakesItsEnabledStep
  refine ⟨enabledStep_ne_taskRebuild, fun s u hturn => ?_⟩
  have hstep : step s = taskStep u := by
    rcases hturn with ⟨ht, rfl⟩ | ⟨ts, ht, rfl⟩
    · exact step_unscheduled ht
    · exact step_task_turn ht
  have hloop : ∀ {i a}, (i, a) ∈ loopActions → u.qtabValid = true → u.ctl.phase = .loop → u.ctl.action = a →
      taskStep u = exec i u := fun hi hq hp ha => taskStep_enabled (enabledStep_loop hi hq hp ha)
  rw [hstep]
  exact ⟨fun hq => taskStep_enabled (enabledStep_table hq),
    fun hq hp hw => taskStep_enabled (enabledStep_wake hq hp hw),
    fun hq hp hw => taskStep_blocked (enabledStep_asleep hq hp hw),
    fun hq hp => taskStep_enabled (enabledStep_init hq hp),
    hloop (by simp [loopActions]), hloop (by simp [loopActions]), hloop (by simp [loopActions]),
    hloop (by simp [loopActions]),
    fun hq hp => taskStep_enabled (enabledStep_exit hq hp)⟩

/-! ### O7 and O8: the requests (rules R303 to R307) -/

/-- Settles O7: an ungated request is served without a test and answered `ACCEPTED`. -/
theorem ungatedRequestsAlwaysAccepted : Obligations.UngatedRequestsAlwaysAccepted := by
  unfold Obligations.UngatedRequestsAlwaysAccepted
  exact fun s => ⟨exec_of_request (r := .none) rfl s, exec_of_request (r := .updateConfig) rfl s,
    exec_of_request (r := .stop) rfl s⟩

theorem needsBuffer_of_gated {r : ReqCode} (h : isGated r = true) : needsBuffer r = true ↔ r ≠ .passthru := by
  cases r with
  | record | play | passthru | downloadWav => simp [needsBuffer]
  | none | updateConfig | stop => cases h

theorem needsIo_of_gated {r : ReqCode} (h : isGated r = true) : needsIo r = true ↔ r ≠ .downloadWav := by
  cases r with
  | record | play | passthru | downloadWav => simp [needsIo]
  | none | updateConfig | stop => cases h

theorem bufPresent_eq_false_iff {s : State} : bufPresent s = false ↔ s.hw.bufRoom = none := by
  simp [bufPresent]

/-- A needed buffer is absent (rule R303). -/
def LacksBuffer (r : ReqCode) (s : State) : Prop := s.hw.bufRoom = none ∧ r ≠ .passthru

/-- The needed hardware is disabled (rule R303). -/
def LacksIo (r : ReqCode) (s : State) : Prop := s.ctl.ioDisabled = true ∧ r ≠ .downloadWav

theorem lacksBuffer_iff {r : ReqCode} (h : isGated r = true) (s : State) :
    LacksBuffer r s ↔ (needsBuffer r && !bufPresent s) = true := by
  simp only [LacksBuffer, Bool.and_eq_true, Bool.not_eq_true', bufPresent_eq_false_iff, needsBuffer_of_gated h]
  exact and_comm

theorem lacksIo_iff {r : ReqCode} (h : isGated r = true) (s : State) :
    LacksIo r s ↔ (needsIo r && s.ctl.ioDisabled) = true := by
  simp only [LacksIo, Bool.and_eq_true, needsIo_of_gated h]
  exact and_comm

section
variable {r : ReqCode} {s : State} (hr : isGated r = true)
include hr

theorem gated_lacksBuffer (h : LacksBuffer r s) :
    gated r s = (raise s (.resourceUnavailable r .noBuffer), .rejUnsupported) :=
  if_pos ((lacksBuffer_iff hr s).mp h)

theorem gated_lacksIo (hbuf : ¬LacksBuffer r s) (h : LacksIo r s) :
    gated r s = (raise s (.resourceUnavailable r .ioDisabled), .rejUnsupported) := by
  rw [gated, if_neg (mt (lacksBuffer_iff hr s).mpr hbuf), if_pos ((lacksIo_iff hr s).mp h)]

theorem gated_of_resources (hbuf : ¬LacksBuffer r s) (hio : ¬LacksIo r s) :
    gated r s = if s.ctl.permit = false then (raise s (.busy r), .rejBusy) else (acceptAction r s, .accepted) := by
  rw [gated, if_neg (mt (lacksBuffer_iff hr s).mpr hbuf), if_neg (mt (lacksIo_iff hr s).mpr hio)]

theorem gated_busy (hbuf : ¬LacksBuffer r s) (hio : ¬LacksIo r s) (htaken : s.ctl.permit = false) :
    gated r s = (raise s (.busy r), .rejBusy) :=
  (gated_of_resources hr hbuf hio).trans (if_pos htaken)

theorem gated_accepted (hbuf : ¬LacksBuffer r s) (hio : ¬LacksIo r s) (hfree : s.ctl.permit = true) :
    gated r s = (acceptAction r s, .accepted) :=
  (gated_of_resources hr hbuf hio).trans (if_neg (by simp [hfree]))

end

/-- An operation that posts a gated request is the accept procedure and its answer at REQ (rules R60, R303). -/
theorem exec_of_gated {i : Instr} {r : ReqCode} {s t : State} {a : Response} (hi : i.request? = some r)
    (hr : isGated r = true) (h : gated r s = (t, a)) : exec i s = .next (respond t (requestWord r) a) := by
  have hserve : serveRequest r s = (t, a) := by
    rw [← h]
    cases r with
    | record | play | passthru | downloadWav => rfl
    | none | updateConfig | stop => cases hr
  rw [exec_of_request hi, postRequest, hserve]

/-- Settles O8: the four gated requests share one accept procedure, whose outcomes are tested in order. -/
theorem gatedRequestsCompeteForThePermit : Obligations.GatedRequestsCompeteForThePermit := by
  unfold Obligations.GatedRequestsCompeteForThePermit
  intro s i r w hmem
  obtain ⟨hi, hr, rfl⟩ : i.request? = some r ∧ isGated r = true ∧ requestWord r = w := by
    simp only [List.mem_cons, Prod.mk.injEq, List.not_mem_nil, or_false] at hmem
    rcases hmem with ⟨rfl, rfl, rfl⟩ | ⟨rfl, rfl, rfl⟩ | ⟨rfl, rfl, rfl⟩ | ⟨rfl, rfl, rfl⟩ <;> exact ⟨rfl, rfl, rfl⟩
  exact ⟨fun hbuf => exec_of_gated hi hr (gated_lacksBuffer hr hbuf),
    fun hbuf hio => exec_of_gated hi hr (gated_lacksIo hr hbuf hio),
    fun hbuf hio htaken => exec_of_gated hi hr (gated_busy hr hbuf hio htaken),
    fun hbuf hio hfree => exec_of_gated hi hr (gated_accepted hr hbuf hio hfree)⟩

/-! ### O38: `TASK_WAKE` (rule R308) -/

theorem whenEnabled_on {i : Instr} {s : State} (h : enabledStep s = some i) (f : State → State) :
    whenEnabled i f s = f s := if_pos h

theorem whenEnabled_off {i : Instr} {s : State} (h : enabledStep s ≠ some i) (f : State → State) :
    whenEnabled i f s = s := if_neg h

theorem stepWhenEnabled_off {i : Instr} {s : State} (h : enabledStep s ≠ some i)
    (f : State → Host.Outcome State Fault Refusal) : stepWhenEnabled i f s = .next s := if_neg h

theorem exec_taskWake {s : State} (h : enabledStep s = some .taskWake) : exec .taskWake s = .next (taskWake s) :=
  congrArg Host.Outcome.next (whenEnabled_on h taskWake)

theorem exec_taskInit {s : State} (h : enabledStep s = some .taskInit) : exec .taskInit s = .next (taskInit s) :=
  congrArg Host.Outcome.next (whenEnabled_on h taskInit)

theorem exec_taskExit {s : State} (h : enabledStep s = some .taskExit) : exec .taskExit s = .next (taskExit s) :=
  congrArg Host.Outcome.next (whenEnabled_on h taskExit)

/-- A loop step that is not enabled does nothing (rule R348). -/
theorem exec_loop_off {i : Instr} {a : ReqCode} {s : State} (hi : (i, a) ∈ loopActions)
    (h : enabledStep s ≠ some i) : exec i s = .next s := by
  obtain ⟨body, hbody⟩ := exec_loop hi
  rw [hbody, stepWhenEnabled_off h]

/-- The Task with its notification taken (rule R308). -/
def fallAsleep (s : State) : State := { s with ctl := { s.ctl with wake := false } }

theorem taskWake_eq (s : State) : taskWake s =
    if (servePending (fallAsleep s)).ctl.permit = true then servePending (fallAsleep s)
    else setPhase (servePending (fallAsleep s)) .init := rfl

theorem servePending_phase (s : State) : (servePending s).ctl.phase = s.ctl.phase := (servePending_dataStep s).phase

/-- Settles O38: the update is served before the permit decides the phase. -/
theorem wakeServesUpdateThenStartsAction : Obligations.WakeServesUpdateThenStartsAction := by
  unfold Obligations.WakeServesUpdateThenStartsAction
  refine ⟨fun s i hi hoff => ?_, fun s hq hp hw => ?_⟩
  · simp only [List.mem_cons, List.not_mem_nil, or_false] at hi
    rcases hi with rfl | rfl | rfl | rfl | rfl | rfl | rfl
    · exact congrArg Host.Outcome.next (whenEnabled_off hoff taskWake)
    · exact congrArg Host.Outcome.next (whenEnabled_off hoff taskInit)
    · exact exec_loop_off (a := .record) (by simp [loopActions]) hoff
    · exact exec_loop_off (a := .play) (by simp [loopActions]) hoff
    · exact exec_loop_off (a := .passthru) (by simp [loopActions]) hoff
    · exact exec_loop_off (a := .downloadWav) (by simp [loopActions]) hoff
    · exact congrArg Host.Outcome.next (whenEnabled_off hoff taskExit)
  · refine ⟨servePending (fallAsleep s), execIf_of_next (fun _ => rfl) _ _, ?_⟩
    have hwait : (servePending (fallAsleep s)).ctl.phase = .wait := (servePending_phase _).trans hp
    rw [exec_taskWake (enabledStep_wake hq hp hw), taskWake_eq]
    generalize servePending (fallAsleep s) = t at hwait
    cases hpermit : t.ctl.permit with
    | true => simp [← hwait]
    | false => rfl

/-! ### O39: `TASK_INIT` (rules R310, R311) -/

/-- A download asks no hardware (rule R310). -/
theorem taskInit_download {s : State} (h : s.ctl.action = .downloadWav) : taskInit s = afterInit s .ok := by
  simp [taskInit, initAnswer, h]

/-- The transaction at HWI (rules R60, R310). -/
def recordHwi (s : State) (e : HwiEvent) : State := { s with ports.hwi := s.ports.hwi ++ [e] }

theorem hwiInit_eq {s u : State} {a : HwiAnswer} (htake : takeHwi s = (u, a)) :
    hwiInit s = (recordHwi u ⟨u.act.micRoute, u.act.ampRoute, u.ctl.action, a⟩, a) := by
  simp only [hwiInit, htake, recordHwi]

theorem taskInit_asks {s u : State} {a : HwiAnswer} (h : s.ctl.action ≠ .downloadWav) (htake : takeHwi s = (u, a)) :
    taskInit s = afterInit (recordHwi u ⟨u.act.micRoute, u.act.ampRoute, u.ctl.action, a⟩) a := by
  rw [taskInit, initAnswer, if_neg h, hwiInit_eq htake]

theorem afterInit_ok {s : State} {a : ReqCode} (h : s.ctl.action = a) : afterInit s .ok =
    { entryAction a s with ctl := { (entryAction a s).ctl with feedback := true, phase := .loop } } := by
  rw [← h]
  rfl

/-- Settles O39: `TASK_INIT` is its answer's case of `afterInit`. -/
theorem initDispatchesOnTheAnswer : Obligations.InitDispatchesOnTheAnswer := by
  unfold Obligations.InitDispatchesOnTheAnswer
  intro s hq hp
  have hexec := exec_taskInit (enabledStep_init hq hp)
  refine ⟨fun hdownload => ?_, fun u a hne htake => ?_⟩
  · rw [hexec, taskInit_download hdownload, afterInit_ok hdownload]
    rfl
  · have hframe : u = { s with env := u.env } := by
      have h := takeHwi_frame s
      rwa [htake] at h
    have hact : s.act = u.act := by rw [hframe]
    have hctl : s.ctl = u.ctl := by rw [hframe]
    have hports : s.ports = u.ports := by rw [hframe]
    refine ⟨hframe, ?_⟩
    rw [hexec, taskInit_asks hne htake, hact, hctl, hports]
    refine ⟨fun ha hrec => ?_, fun ha hplay => ?_, fun ha hpass => ?_, fun ha => ?_, fun ha => ?_⟩ <;> subst ha
    · rw [afterInit_ok (s := recordHwi u _) hrec]; rfl
    · rw [afterInit_ok (s := recordHwi u _) hplay]; rfl
    · rw [afterInit_ok (s := recordHwi u _) hpass]; rfl
    · rfl
    · rfl

/-! ### O47: `TASK_EXIT` (rule R340) -/

theorem taskExit_eq (s : State) : taskExit s = { s with
    recEnd := if s.ctl.action = .record then s.wrCur else s.recEnd
    ctl := { s.ctl with stop := false, feedback := false, action := .none, permit := true, phase := .wait } } := by
  unfold taskExit
  split <;> rfl

/-- Settles O47: the mark moves only after a recording; the release does not depend on the action. -/
theorem exitReturnsToIdle : Obligations.ExitReturnsToIdle := by
  unfold Obligations.ExitReturnsToIdle
  intro s hq hp
  rw [exec_taskExit (enabledStep_exit hq hp), taskExit_eq]

/-! ### O55: a posted Stop (rules R305, R325, R340)

From the phase WAIT a stopped action has at most the table's computation, the wake, the initialisation, one block
boundary and the exit before it. Each lemma below takes one of these steps, the last one first. -/

/-- An action is under way, a Stop is posted, and no other agent is scheduled. -/
structure Stopping (s : State) : Prop where
  inv : MachineInv s
  turns : s.turns = []
  taken : s.ctl.permit = false
  stop : s.ctl.stop = true

/-- A change that leaves the schedule, the permit and the stop flag as they are. -/
structure StopStands (s t : State) : Prop where
  turns : t.turns = s.turns
  permit : t.ctl.permit = s.ctl.permit
  stop : t.ctl.stop = s.ctl.stop

theorem StopStands.trans {s t u : State} (h : StopStands s t) (h' : StopStands t u) : StopStands s u :=
  ⟨h'.turns.trans h.turns, h'.permit.trans h.permit, h'.stop.trans h.stop⟩

theorem RebuildRel.stopStands {s t : State} (h : RebuildRel s t) : StopStands s t := by
  rw [show t = _ from h]
  exact ⟨rfl, rfl, rfl⟩

theorem servePending_stopStands (s : State) : StopStands s (servePending s) := (servePending_rel s).stopStands

theorem Stopping.after {s t : State} (h : Stopping s) (hstep : step s = .next t) (hst : StopStands s t) :
    Stopping t where
  inv := stepKeepsTheInvariant s t h.inv hstep
  turns := hst.turns.trans h.turns
  taken := hst.permit.trans h.taken
  stop := hst.stop.trans h.stop

theorem Stopping.step_eq {s : State} {i : Instr} (h : Stopping s) (hi : enabledStep s = some i) :
    step s = exec i s :=
  (step_unscheduled h.turns).trans (taskStep_enabled hi)

/-- Within `n` steps the machine is Idle with the permit free. -/
def IdleWithin (n : Nat) (s : State) : Prop :=
  ∃ k t, k ≤ n ∧ runSteps k s = .next t ∧ t.ctl.permit = true ∧ controllerState t = .idle

theorem IdleWithin.mono {m n : Nat} {s : State} (h : IdleWithin m s) (hmn : m ≤ n) : IdleWithin n s := by
  obtain ⟨k, t, hk, ht⟩ := h
  exact ⟨k, t, hk.trans hmn, ht⟩

theorem IdleWithin.of_free {s : State} (h : s.ctl.permit = true) : IdleWithin 0 s :=
  ⟨0, s, le_rfl, rfl, h, by simp [controllerState, h]⟩

theorem IdleWithin.after_step {n : Nat} {s t : State} (hstep : step s = .next t) (h : IdleWithin n t) :
    IdleWithin (n + 1) s := by
  obtain ⟨k, u, hk, hrun, hu⟩ := h
  refine ⟨k + 1, u, Nat.succ_le_succ hk, ?_, hu⟩
  rw [runSteps, hstep]
  exact hrun

theorem Stopping.idle_of_exit {s : State} (h : Stopping s) (hp : s.ctl.phase = .exit) : IdleWithin 1 s := by
  have hi := enabledStep_exit (h.inv.control.table_first (by simp [hp])) hp
  exact .after_step ((h.step_eq hi).trans (exec_taskExit hi)) (.of_free rfl)

/-- Every gated action has its loop (rule R348). -/
theorem loop_of_gated {a : ReqCode} (h : isGated a = true) : ∃ i, (i, a) ∈ loopActions := by
  cases a with
  | record => exact ⟨.loopRecord, by simp [loopActions]⟩
  | play => exact ⟨.loopPlay, by simp [loopActions]⟩
  | passthru => exact ⟨.loopPassthru, by simp [loopActions]⟩
  | downloadWav => exact ⟨.loopExport, by simp [loopActions]⟩
  | none | updateConfig | stop => cases h

/-- With the stop flag set a loop step handles no block, whether or not it serves an update (rule R325). -/
theorem loopStep_leaves {s : State} (hstop : s.ctl.stop = true) (body : State → Host.Outcome State Fault Refusal) :
    loopStep body s = .next (setPhase (servePending s) .exit) := by
  have hserved : (servePending s).ctl.stop = true := (servePending_stopStands s).stop.trans hstop
  simp [loopStep, boundary, hserved]

theorem Stopping.idle_of_loop {s : State} (h : Stopping s) (hp : s.ctl.phase = .loop) : IdleWithin 2 s := by
  obtain ⟨i, hi⟩ := loop_of_gated (h.inv.control.taken_action h.taken)
  have henabled := enabledStep_loop hi (h.inv.control.table_first (by simp [hp])) hp rfl
  obtain ⟨body, hbody⟩ := exec_loop hi
  have hstep : step s = .next (setPhase (servePending s) .exit) := by
    rw [h.step_eq henabled, hbody, stepWhenEnabled_on henabled, loopStep_leaves h.stop]
  have hst := servePending_stopStands s
  exact .after_step hstep ((h.after hstep ⟨hst.turns, hst.permit, hst.stop⟩).idle_of_exit rfl)

theorem initAnswer_stopStands (s : State) : StopStands s (initAnswer s).1 := by
  have htaken : StopStands s (takeHwi s).1 := by
    rw [takeHwi_frame]
    exact ⟨rfl, rfl, rfl⟩
  unfold initAnswer
  split
  · exact ⟨rfl, rfl, rfl⟩
  · rw [hwiInit_eq rfl]
    exact ⟨htaken.turns, htaken.permit, htaken.stop⟩

theorem afterInit_stopStands (s : State) (r : HwiAnswer) : StopStands s (afterInit s r) := by
  cases r with
  | ok =>
    rw [afterInit_ok rfl]
    cases s.ctl.action <;> exact ⟨rfl, rfl, rfl⟩
  | fail | unsupported => exact ⟨rfl, rfl, rfl⟩

theorem taskInit_stopStands (s : State) : StopStands s (taskInit s) :=
  (initAnswer_stopStands s).trans (afterInit_stopStands _ _)

/-- The hardware's answer decides between the loop and the exit (rule R310). -/
theorem taskInit_phase (s : State) : (taskInit s).ctl.phase = .loop ∨ (taskInit s).ctl.phase = .exit := by
  unfold taskInit
  cases (initAnswer s).2 with
  | ok => exact .inl rfl
  | fail | unsupported => exact .inr rfl

theorem Stopping.idle_of_init {s : State} (h : Stopping s) (hp : s.ctl.phase = .init) : IdleWithin 3 s := by
  have hi := enabledStep_init (h.inv.control.table_first (by simp [hp])) hp
  have hstep := (h.step_eq hi).trans (exec_taskInit hi)
  have hnext := h.after hstep (taskInit_stopStands s)
  refine .after_step hstep ?_
  rcases taskInit_phase s with hloop | hexit
  · exact hnext.idle_of_loop hloop
  · exact (hnext.idle_of_exit hexit).mono (by decide)

/-- With the permit taken `TASK_WAKE` goes on to the initialisation (rule R308). -/
theorem taskWake_taken {s : State} (h : s.ctl.permit = false) :
    taskWake s = setPhase (servePending (fallAsleep s)) .init := by
  have hserved : (servePending (fallAsleep s)).ctl.permit = false := (servePending_stopStands _).permit.trans h
  rw [taskWake_eq, hserved]
  rfl

theorem Stopping.idle_of_wake {s : State} (h : Stopping s) (hq : s.qtabValid = true) (hp : s.ctl.phase = .wait) :
    IdleWithin 4 s := by
  have hi := enabledStep_wake hq hp (h.inv.control.accepted_wakes h.taken hp)
  have hstep : step s = .next (setPhase (servePending (fallAsleep s)) .init) := by
    rw [h.step_eq hi, exec_taskWake hi, taskWake_taken h.taken]
  have hst := servePending_stopStands (fallAsleep s)
  exact .after_step hstep ((h.after hstep ⟨hst.turns, hst.permit, hst.stop⟩).idle_of_init rfl)

/-- The Q table may still be due before an accepted action is woken for (rule R348). -/
theorem Stopping.idle_of_wait {s : State} (h : Stopping s) (hp : s.ctl.phase = .wait) : IdleWithin 5 s := by
  cases hq : s.qtabValid with
  | true => exact (h.idle_of_wake hq hp).mono (by decide)
  | false =>
    have hstep : step s = .next (qtabInit s) := h.step_eq (enabledStep_table hq)
    exact .after_step hstep ((h.after hstep ⟨rfl, rfl, rfl⟩).idle_of_wake rfl hp)

/-- Settles O55: the number of steps left is bounded by the phase. -/
theorem stoppedActionReturnsToIdle : Obligations.StoppedActionReturnsToIdle := by
  unfold Obligations.StoppedActionReturnsToIdle
  intro s inv hturns htaken hstop
  have h : Stopping s := ⟨inv, hturns, htaken, hstop⟩
  show IdleWithin 5 s
  cases hp : s.ctl.phase with
  | wait => exact h.idle_of_wait hp
  | init => exact (h.idle_of_init hp).mono (by decide)
  | loop => exact (h.idle_of_loop hp).mono (by decide)
  | exit => exact (h.idle_of_exit hp).mono (by decide)

end Sys2Proof.Machine

/-! # The Streaming Bridge: one poll

Settles O48. Each lemma takes one branch of a poll (rule R361), on whatever block the poll read; what a poll leaves
unchanged is `bridgePoll_rel`, and the branch that sends is `bridgePoll_sends`. -/

namespace Sys2Proof.Machine

open Sys2Proof

/-- A query at TX changes the environment only (rule R362 (e)). -/
theorem takeAttached_changesEnv {s u : State} {a : Bool} (h : takeAttached s = (u, a)) :
    ∃ e, u = { s with env := e } :=
  ⟨u.env, by simpa [h] using takeAttached_frame s⟩

theorem takeReady_changesEnv {s u : State} {a : Bool} (h : takeReady s = (u, a)) : ∃ e, u = { s with env := e } :=
  ⟨u.env, by simpa [h] using takeReady_frame s⟩

theorem exec_bridgePoll (s : State) : exec .bridgePoll s = .next (bridgePoll s.stage s) := rfl

/-- With no transport or no new block, a poll is its query (rule R361). -/
theorem bridgePoll_idle {s u : State} {a : Bool} (t : List S16) (hattached : takeAttached s = (u, a))
    (hidle : (a && s.stageNew) = false) : bridgePoll t s = recordTx u (.attached a) := by
  rw [bridgePoll_eq, hattached]
  simp only [hidle, Bool.false_eq_true, if_false]

theorem bridgePoll_forwards {s u : State} (t : List S16) (hattached : takeAttached s = (u, true))
    (hnew : s.stageNew = true) : bridgePoll t s = bridgeForward t (recordTx u (.attached true)) := by
  rw [bridgePoll_eq, hattached, hnew]
  rfl

/-- A block that is too large is taken and refused, and the transport is not asked for it (rule R361). -/
theorem bridgeForward_tooLarge {s : State} (t : List S16) (hsize : s.hw.transportMax < blockBytes s) :
    bridgeForward t s = raise { s with stageNew := false } (.configOutOfRange .transportSize) := by
  rw [bridgeForward_eq, if_pos hsize]

/-- A poll that finds the transport attached takes a new block that is too large, and logs its refusal (rule R361). -/
theorem bridgePoll_tooLarge {s u : State} (t : List S16) (hattached : takeAttached s = (u, true))
    (hnew : s.stageNew = true) (hsize : s.hw.transportMax < 2 * blockLen s) :
    bridgePoll t s = { u with
      stageNew := false
      ports := { s.ports with
        tx := s.ports.tx ++ [.attached true]
        log := s.ports.log ++ [.configOutOfRange .transportSize] } } := by
  obtain ⟨e, rfl⟩ := takeAttached_changesEnv hattached
  have hrefuse := bridgeForward_tooLarge t hsize (s := recordTx { s with env := e } (.attached true))
  rw [bridgePoll_forwards t hattached hnew, hrefuse]
  rfl

/-- A block that is not too large is dropped silently where the transport is not ready (rule R361). -/
theorem bridgeForward_drops {s v : State} (t : List S16) (hsize : blockBytes s ≤ s.hw.transportMax)
    (hready : takeReady { s with stageNew := false } = (v, false)) :
    bridgeForward t s = recordTx v (.ready false) := by
  rw [bridgeForward_eq, if_neg (Nat.not_lt.2 hsize), hready]
  rfl

/-- A poll that finds the transport attached but not ready takes a new block that is not too large, and sends nothing
(rule R361). -/
theorem bridgePoll_drops {s u v : State} (t : List S16) (hattached : takeAttached s = (u, true))
    (hnew : s.stageNew = true) (hsize : 2 * blockLen s ≤ s.hw.transportMax) (hready : takeReady u = (v, false)) :
    bridgePoll t s = { v with
      stageNew := false
      ports := { s.ports with tx := s.ports.tx ++ [.attached true, .ready false] } } := by
  obtain ⟨eu, rfl⟩ := takeAttached_changesEnv hattached
  have hdrop := bridgeForward_drops t hsize (s := recordTx { s with env := eu } (.attached true))
    (takeReady_of_env hready rfl)
  obtain ⟨ev, rfl⟩ := takeReady_changesEnv hready
  rw [bridgePoll_forwards t hattached hnew, hdrop]
  simp [recordTx]

/-- Settles O48: the frame once for all answers, then the branches of a poll of STAGE, one for each case. -/
theorem bridgeForwardsAtMostOneNewBlock : Obligations.BridgeForwardsAtMostOneNewBlock := by
  unfold Obligations.BridgeForwardsAtMostOneNewBlock
  intro s u attached hattached
  rw [exec_bridgePoll]
  obtain ⟨eu, rfl⟩ := takeAttached_changesEnv hattached
  refine ⟨⟨_, rfl, bridgePoll_rel s.stage s⟩, rfl, ?unattached, ?nothingNew, ?tooLarge, ?fits⟩
  case unattached =>
    rintro rfl
    rw [bridgePoll_idle _ hattached rfl]
    rfl
  case nothingNew =>
    rintro rfl hnew
    rw [bridgePoll_idle _ hattached hnew]
    rfl
  case tooLarge =>
    rintro rfl hnew hsize
    rw [bridgePoll_tooLarge _ hattached hnew hsize]
  case fits =>
    rintro v ready rfl hnew hsize hready
    obtain ⟨ev, hv⟩ := takeReady_changesEnv hready
    refine ⟨by rw [hv], ?_⟩
    cases ready with
    | true => simp [bridgePoll_sends _ hattached hnew hsize hready]
    | false => simp [bridgePoll_drops _ hattached hnew hsize hready]

end Sys2Proof.Machine
